-- ==== Sys2Proof/Word.lean ====
section
/-! DEFINITION. The word types of the Onaene (spec/01_machine.md R39, spec/02_numbers.md R49). -/

namespace Sys2Proof

/-- A scalar register, an address, a special register: 64 bits (R39). -/
abbrev Word := BitVec 64
/-- One byte. -/
abbrev Byte := BitVec 8
/-- A vector register (R39). -/
abbrev V128 := BitVec 128
/-- An instruction: three 32-bit words, word 0 lowest (R77). -/
abbrev IWord := BitVec 96

end Sys2Proof
end

