-- ==== Sys2Proof/Syntax.lean ====
section
/-! DEFINITION. The instructions and the agents' steps: one constructor per row of spec/opcode_table.json.
Operand structures follow the layouts of spec/03_encoding.md (R78 to R84) and the reference entries. -/

namespace Sys2Proof

/-- The hints of an instruction word (R82). -/
structure Hints where
  delay : BitVec 3 := 0
  yield : Bool := false
  reuseA : Bool := false
  reuseB : Bool := false
  deriving DecidableEq, Repr

/-- The guard (R81): always, a predicate p0-p6, or an engine guard slot e0-e3, with its negate bit. -/
inductive Guard where
  | always
  | pred (n : BitVec 3) (neg : Bool)
  | eng (n : BitVec 2) (neg : Bool)
  deriving DecidableEq, Repr

/-- Guard and hints: carried by every instruction word. -/
structure Ctl where
  guard : Guard := .always
  hints : Hints := {}
  deriving DecidableEq, Repr

/-- A scalar-class operand byte (R79): s0-s63, or q0-q15 popped and pushed. -/
inductive SOp where
  | s (n : BitVec 6)
  | q (n : BitVec 4)
  deriving DecidableEq, Repr

/-- A byte that must name s0-s63. -/
abbrev SReg := BitVec 6
/-- A queue-register byte that must name q0-q15. -/
abbrev QReg := BitVec 4
/-- A predicate operand (p7 reads true, writes discarded). -/
abbrev PReg := BitVec 3
/-- A vector operand. -/
abbrev VReg := BitVec 5
/-- An engine-guard operand. -/
abbrev EReg := BitVec 2
/-- A tile-register operand. -/
abbrev TReg := BitVec 3
/-- An accumulator operand. -/
abbrev AReg := BitVec 2

/-- Instruction type codes (R84). -/
inductive Ty where
  | i8 | n8 | i16 | n16 | i32 | n32 | i64 | n64 | f16 | bf16 | f32 | f64 | e4m3 | e5m2
  deriving DecidableEq, Repr

/-- Element format codes (R69). -/
inductive Efmt where
  | i8 | n8 | i16 | n16 | i32 | f32 | f16 | bf16 | e4m3 | e5m2 | e3m2 | e2m3 | e2m1 | log6 | q4 | f64
  deriving DecidableEq, Repr

/-- Rounding codes (R57): 0-5 and 7, dynamic. -/
inductive Rnd where
  | rne | rz | ru | rd | rna | sr | dyn
  deriving DecidableEq, Repr

/-- Conditions of CMP (R101). -/
inductive ICond where
  | eq | ne | lt | le | gt | ge | ltn | len | gtn | gen
  deriving DecidableEq, Repr

/-- Conditions of FCMP (R110); VCMP uses the first six (R198). -/
inductive FCond where
  | eq | ne | lt | le | gt | ge | un | or
  deriving DecidableEq, Repr

/-- Widths of LD and ST (R128). -/
inductive Width where
  | i8 | n8 | i16 | n16 | i32 | n32 | d64
  deriving DecidableEq, Repr

/-- Memory orders (R83). -/
inductive Ord where
  | rlx | acq | rel | ar | sc
  deriving DecidableEq, Repr

/-- Scopes (R83). -/
inductive Scope where
  | th | core | cl | die | pkg | sys
  deriving DecidableEq, Repr

/-- Engines named by TLWAIT and TLGET (R149). -/
inductive Eng where
  | copy | matrix | vector | chisel
  deriving DecidableEq, Repr

/-- HBAR levels (R145). -/
inductive Level where
  | team | die | pkg
  deriving DecidableEq, Repr

/-- HBAR reductions (R145). -/
inductive Red where
  | none | sum | min | max
  deriving DecidableEq, Repr

/-- Landing transforms of BIND (R157). -/
inductive Land where
  | regs | src | ring
  deriving DecidableEq, Repr

/-- VRED operations (R201). -/
inductive RedOp where
  | sum | min | max
  deriving DecidableEq, Repr

/-- The target of VCMP (R198): a mask in a vector register, or an engine guard slot. -/
inductive CmpDst where
  | mask (v : VReg)
  | any (e : EReg)
  | all (e : EReg)
  deriving DecidableEq, Repr

structure Alu3 where
  c : Ctl
  w32 : Bool
  d : SOp
  a : SOp
  b : SOp
  deriving DecidableEq, Repr
structure AluI where
  c : Ctl
  w32 : Bool
  d : SOp
  a : SOp
  imm : BitVec 32
  deriving DecidableEq, Repr
structure Un where
  c : Ctl
  w32 : Bool
  d : SOp
  a : SOp
  deriving DecidableEq, Repr
structure DA where
  c : Ctl
  d : SOp
  a : SOp
  deriving DecidableEq, Repr
structure MovI where
  c : Ctl
  d : SOp
  imm : BitVec 32
  deriving DecidableEq, Repr
structure MovHi where
  c : Ctl
  d : SReg
  imm : BitVec 32
  deriving DecidableEq, Repr
structure Lea where
  c : Ctl
  d : SOp
  a : SOp
  b : SOp
  sh : BitVec 2
  imm : BitVec 32
  deriving DecidableEq, Repr
structure CmpR where
  c : Ctl
  w32 : Bool
  cond : ICond
  p : PReg
  a : SOp
  b : SOp
  deriving DecidableEq, Repr
structure CmpI where
  c : Ctl
  w32 : Bool
  cond : ICond
  p : PReg
  a : SOp
  imm : BitVec 32
  deriving DecidableEq, Repr
structure P3 where
  c : Ctl
  d : PReg
  a : PReg
  b : PReg
  deriving DecidableEq, Repr
structure P2 where
  c : Ctl
  d : PReg
  a : PReg
  deriving DecidableEq, Repr
structure D1 where
  c : Ctl
  d : SOp
  deriving DecidableEq, Repr
structure A1 where
  c : Ctl
  a : SOp
  deriving DecidableEq, Repr
structure AB where
  c : Ctl
  a : SOp
  b : SOp
  deriving DecidableEq, Repr
structure PSet where
  c : Ctl
  a : SOp
  mask : BitVec 7
  deriving DecidableEq, Repr
structure Sel where
  c : Ctl
  d : SOp
  a : SOp
  b : SOp
  p : PReg
  deriving DecidableEq, Repr
structure QCnt where
  c : Ctl
  d : SOp
  q : QReg
  deriving DecidableEq, Repr
structure GetE where
  c : Ctl
  p : PReg
  e : EReg
  deriving DecidableEq, Repr
/-- Two FP sources with a rounding code (layout F); the unary forms name s0 in b (R108). -/
structure F2 where
  c : Ctl
  f64 : Bool
  rnd : Rnd
  d : SOp
  a : SOp
  b : SOp
  deriving DecidableEq, Repr
structure F1 where
  c : Ctl
  f64 : Bool
  rnd : Rnd
  d : SOp
  a : SOp
  deriving DecidableEq, Repr
structure F2n where
  c : Ctl
  f64 : Bool
  d : SOp
  a : SOp
  b : SOp
  deriving DecidableEq, Repr
structure F1n where
  c : Ctl
  f64 : Bool
  d : SOp
  a : SOp
  deriving DecidableEq, Repr
structure F3 where
  c : Ctl
  f64 : Bool
  rnd : Rnd
  d : SOp
  a : SOp
  b : SOp
  cc : SOp
  deriving DecidableEq, Repr
structure FCmp where
  c : Ctl
  f64 : Bool
  cond : FCond
  p : PReg
  a : SOp
  b : SOp
  deriving DecidableEq, Repr
structure FCvt where
  c : Ctl
  src : Ty
  dst : Ty
  rnd : Rnd
  d : SOp
  a : SOp
  b : SOp
  cc : SOp
  deriving DecidableEq, Repr
structure Off where
  c : Ctl
  off : BitVec 32
  deriving DecidableEq, Repr
structure AOff where
  c : Ctl
  a : SOp
  off : BitVec 32
  deriving DecidableEq, Repr
structure C0 where
  c : Ctl
  deriving DecidableEq, Repr
structure FrameI where
  c : Ctl
  f : BitVec 32
  deriving DecidableEq, Repr
structure MovsR where
  c : Ctl
  d : SOp
  num : BitVec 10
  deriving DecidableEq, Repr
structure MovsW where
  c : Ctl
  a : SOp
  num : BitVec 10
  deriving DecidableEq, Repr
structure LdI where
  c : Ctl
  width : Width
  ord : Ord
  scope : Scope
  d : SOp
  a : SOp
  off : BitVec 32
  deriving DecidableEq, Repr
structure StI where
  c : Ctl
  width : Width
  ord : Ord
  scope : Scope
  a : SOp
  b : SOp
  off : BitVec 32
  deriving DecidableEq, Repr
structure PairI where
  c : Ctl
  ord : Ord
  scope : Scope
  d : SOp
  a : SOp
  b : SOp
  off : BitVec 32
  deriving DecidableEq, Repr
structure PfI where
  c : Ctl
  intent : BitVec 2
  a : SOp
  off : BitVec 32
  deriving DecidableEq, Repr
structure AmoF where
  c : Ctl
  w32 : Bool
  ord : Ord
  scope : Scope
  d : SOp
  a : SOp
  b : SOp
  off : BitVec 32
  deriving DecidableEq, Repr
/-- CAS: the expected value's register, 0x01-0x3F, receives the old value (R135). -/
structure CasI where
  c : Ctl
  w32 : Bool
  ord : Ord
  scope : Scope
  d : SReg
  a : SOp
  b : SOp
  off : BitVec 32
  deriving DecidableEq, Repr
structure AmoN where
  c : Ctl
  w32 : Bool
  ord : Ord
  scope : Scope
  a : SOp
  b : SOp
  off : BitVec 32
  deriving DecidableEq, Repr
structure FamoF where
  c : Ctl
  ord : Ord
  scope : Scope
  d : SOp
  a : SOp
  b : SOp
  off : BitVec 32
  deriving DecidableEq, Repr
structure FamoN where
  c : Ctl
  ord : Ord
  scope : Scope
  a : SOp
  b : SOp
  off : BitVec 32
  deriving DecidableEq, Repr
structure FenceI where
  c : Ctl
  ord : Ord
  scope : Scope
  deriving DecidableEq, Repr
structure ABOff where
  c : Ctl
  a : SOp
  b : SOp
  off : BitVec 32
  deriving DecidableEq, Repr
structure DAOff where
  c : Ctl
  d : SOp
  a : SOp
  off : BitVec 32
  deriving DecidableEq, Repr
structure DABOff where
  c : Ctl
  d : SOp
  a : SOp
  b : SOp
  off : BitVec 32
  deriving DecidableEq, Repr
structure PABOff where
  c : Ctl
  p : PReg
  a : SOp
  b : SOp
  off : BitVec 32
  deriving DecidableEq, Repr
structure HbArr where
  c : Ctl
  level : Level
  red : Red
  uns : Bool
  b : SOp
  deriving DecidableEq, Repr
structure HbWait where
  c : Ctl
  level : Level
  red : Red
  uns : Bool
  d : SOp
  deriving DecidableEq, Repr
structure TlWait where
  c : Ctl
  eng : Eng
  a : SOp
  b : SOp
  deriving DecidableEq, Repr
structure TlGet where
  c : Ctl
  eng : Eng
  d : SOp
  b : SOp
  sel : BitVec 2
  deriving DecidableEq, Repr
/-- A header and a register group B..B+3 (R152). -/
structure MsgI where
  c : Ctl
  a : SOp
  base : SReg
  deriving DecidableEq, Repr
structure BindI where
  c : Ctl
  a : SOp
  b : SOp
  queue : BitVec 4
  land : Land
  ring : BitVec 3
  timed : Bool
  grp : BitVec 3
  deriving DecidableEq, Repr
structure UnbindI where
  c : Ctl
  queue : BitVec 4
  deriving DecidableEq, Repr
structure YieldI where
  c : Ctl
  n : BitVec 16
  deriving DecidableEq, Repr
structure SpawnI where
  c : Ctl
  p : PReg
  a : SOp
  base : SReg
  cc : SOp
  deriving DecidableEq, Repr
structure CallAtI where
  c : Ctl
  a : SOp
  base : SReg
  cc : SOp
  queue : BitVec 4
  deriving DecidableEq, Repr
structure ReplyI where
  c : Ctl
  base : SReg
  deriving DecidableEq, Repr
structure ForkI where
  c : Ctl
  p : PReg
  a : SOp
  base : SReg
  off : BitVec 32
  deriving DecidableEq, Repr
structure GrpI where
  c : Ctl
  g : BitVec 3
  deriving DecidableEq, Repr
structure IldI where
  c : Ctl
  a : SOp
  b : SOp
  cc : SOp
  deriving DecidableEq, Repr
structure IqryI where
  c : Ctl
  d : SOp
  a : SOp
  sel : BitVec 3
  deriving DecidableEq, Repr
structure VMem where
  c : Ctl
  v : VReg
  a : SReg
  off : BitVec 32
  deriving DecidableEq, Repr
structure VMemT where
  c : Ctl
  v : VReg
  a : SReg
  row : BitVec 5
  tile : BitVec 5
  deriving DecidableEq, Repr
structure V2 where
  c : Ctl
  d : VReg
  a : VReg
  deriving DecidableEq, Repr
structure VDupI where
  c : Ctl
  ty : Ty
  d : VReg
  a : SOp
  deriving DecidableEq, Repr
structure VInsI where
  c : Ctl
  ty : Ty
  d : VReg
  a : SOp
  lane : BitVec 4
  deriving DecidableEq, Repr
structure VExtI where
  c : Ctl
  ty : Ty
  q : QReg
  a : VReg
  lane : BitVec 4
  deriving DecidableEq, Repr
structure VF3 where
  c : Ctl
  ty : Ty
  rnd : Rnd
  d : VReg
  a : VReg
  b : VReg
  deriving DecidableEq, Repr
structure VF2 where
  c : Ctl
  ty : Ty
  rnd : Rnd
  d : VReg
  a : VReg
  deriving DecidableEq, Repr
structure VT3 where
  c : Ctl
  ty : Ty
  d : VReg
  a : VReg
  b : VReg
  deriving DecidableEq, Repr
structure VT2 where
  c : Ctl
  ty : Ty
  d : VReg
  a : VReg
  deriving DecidableEq, Repr
structure VF4 where
  c : Ctl
  ty : Ty
  rnd : Rnd
  d : VReg
  a : VReg
  b : VReg
  cc : VReg
  deriving DecidableEq, Repr
structure VCmpI where
  c : Ctl
  ty : Ty
  cond : FCond
  dst : CmpDst
  a : VReg
  b : VReg
  deriving DecidableEq, Repr
structure V4 where
  c : Ctl
  d : VReg
  a : VReg
  b : VReg
  cc : VReg
  deriving DecidableEq, Repr
structure VDot where
  c : Ctl
  uns : Bool
  d : VReg
  a : VReg
  b : VReg
  cc : VReg
  deriving DecidableEq, Repr
structure VRedI where
  c : Ctl
  ty : Ty
  op : RedOp
  rnd : Rnd
  d : VReg
  a : VReg
  deriving DecidableEq, Repr
structure VCvtI where
  c : Ctl
  src : Ty
  dst : Ty
  rnd : Rnd
  d : VReg
  a : VReg
  b : SOp
  cc : SOp
  part : BitVec 3
  deriving DecidableEq, Repr
structure V1 where
  c : Ctl
  a : VReg
  deriving DecidableEq, Repr
structure SolveI where
  c : Ctl
  d : SReg
  a : SReg
  b : SReg
  cc : SReg
  deriving DecidableEq, Repr
/-- The shared form of CPY, CPY2, CPYG and CPYS (R229). -/
structure CpyI where
  c : Ctl
  rnd : Rnd
  d : SReg
  a : SReg
  b : SReg
  cc : SReg
  cred : Bool
  rel : Bool
  ovw : Bool
  zw : Bool
  zd : Bool
  zs : Bool
  conv : Bool
  dfmt : Efmt
  sfmt : Efmt
  deriving DecidableEq, Repr
structure CpyPfI where
  c : Ctl
  a : SReg
  b : SReg
  deriving DecidableEq, Repr
structure TtGetI where
  c : Ctl
  q : QReg
  sel : BitVec 2
  deriving DecidableEq, Repr
structure TtSetI where
  c : Ctl
  a : SReg
  ready : Bool
  clrf : Bool
  deriving DecidableEq, Repr
structure TcfgI where
  c : Ctl
  t : TReg
  a : SOp
  deriving DecidableEq, Repr
structure TcfgrI where
  c : Ctl
  d : SOp
  t : TReg
  deriving DecidableEq, Repr
structure TMem where
  c : Ctl
  t : TReg
  tile : BitVec 5
  deriving DecidableEq, Repr
structure T1 where
  c : Ctl
  t : TReg
  deriving DecidableEq, Repr
structure MmaI where
  c : Ctl
  acc : AReg
  ta : TReg
  tb : TReg
  ra : SReg
  rb : SReg
  deriving DecidableEq, Repr
structure M1 where
  c : Ctl
  acc : AReg
  deriving DecidableEq, Repr
structure MMem where
  c : Ctl
  acc : AReg
  tile : BitVec 5
  deriving DecidableEq, Repr
structure ArmEnterI where
  c : Ctl
  d : SReg
  a : SReg
  team : Bool
  deriving DecidableEq, Repr
structure DSel3 where
  c : Ctl
  d : SOp
  sel : BitVec 3
  deriving DecidableEq, Repr
structure ChMaskI where
  c : Ctl
  d : SOp
  a : SOp
  b : SOp
  n : BitVec 11
  deriving DecidableEq, Repr
structure ChLoadI where
  c : Ctl
  a : SOp
  k : BitVec 3
  deriving DecidableEq, Repr
structure ChStatI where
  c : Ctl
  d : SOp
  a : SOp
  sel : BitVec 2
  deriving DecidableEq, Repr
/-- The chunk forms of the sampling instructions (R278). -/
structure SampI where
  c : Ctl
  q : QReg
  a : SReg
  b : SReg
  cc : SReg
  n : BitVec 13
  moff : BitVec 7
  deriving DecidableEq, Repr
structure SDrawI where
  c : Ctl
  q : QReg
  a : SReg
  b : SReg
  deriving DecidableEq, Repr
structure MovcR where
  c : Ctl
  d : SOp
  n : BitVec 2
  num : BitVec 10
  deriving DecidableEq, Repr
structure MovcW where
  c : Ctl
  a : SOp
  n : BitVec 2
  num : BitVec 10
  deriving DecidableEq, Repr
structure SlotI where
  c : Ctl
  n : BitVec 2
  deriving DecidableEq, Repr
structure ResEndI where
  c : Ctl
  n : BitVec 2
  replay : Bool
  deriving DecidableEq, Repr
structure RearmI where
  c : Ctl
  p : PReg
  n : BitVec 2
  deriving DecidableEq, Repr

/-- The engines whose queues hold commands (R29). -/
inductive Engine where
  | copy | matrix | vector
  deriving DecidableEq, Repr

/-- A slot of a core of a partition: the operands of an agent's step. Cores are numbered chip * 2^20 + COREID. -/
structure At where
  p : Nat
  c : Nat
  n : Nat
  deriving DecidableEq, Repr

/-- A core of a partition. -/
structure CoreAt where
  p : Nat
  c : Nat
  deriving DecidableEq, Repr

/-- A part of what a core's copy moves or of an armature block, by its number (11_order R295, 09_armature R259). -/
structure CorePart where
  at_ : CoreAt
  i : Nat
  deriving DecidableEq, Repr

/-- What posts an access: a slot, or an engine of a core with the number of the part it moves (11_order R287, R294). -/
structure PortPart where
  at_ : At
  i : Nat
  deriving DecidableEq, Repr

/-- A coherence message (19_coherence R366): line, die of the non-home side, requester core, line data. -/
structure CohMsg where
  p : Nat
  line : Nat
  die : Nat
  core : Nat := 0
  victim : Option Nat := none
  deriving DecidableEq, Repr

/-- The variants of the part (00_scope R1). -/
inductive Variant where
  | w16 | s16 | w8
  deriving DecidableEq, Repr

/-- What a signed configuration record says (21_platform R392, R393). The spec names what records carry and gives no byte
format for it, so a record comes with its meaning beside its bytes: DESIGN CHOICE, log entry 59. -/
inductive RecField where
  | variant (v : Variant)
  | chip (n : Nat)
  | route (chip port : Nat)
  | spares (die n : Nat)
  | spareFor (cluster n : Nat)
  | ckptInt (us : Nat)
  | quantum (n : Nat)
  | floor (version : Nat)
  | identity (key : List Byte) (chain : List (List Byte))
  | debugEnable
  deriving DecidableEq, Repr

/-- An image offered at bring-up (21_platform R392): bytes, version, the outcomes of its checks, and for a configuration
record what it says. -/
structure Image where
  bytes : List Byte
  version : Nat
  ecdsaOk : Bool
  lmsOk : Bool
  formOk : Bool := true
  fieldOk : Bool := true
  fields : List RecField := []
  deriving DecidableEq, Repr

/-- A host access through BAR2 (21_platform R388, 18_memory_system R343). -/
inductive HostAcc where
  | read (va len : Nat)
  | write (va : Nat) (bytes : List Byte)
  deriving DecidableEq, Repr

/-- The instructions and agents' steps of the opcode table. -/
inductive Instr where
  -- integer (R95 to R98)
  | add (x : Alu3) | addImm (x : AluI) | sub (x : Alu3) | subImm (x : AluI)
  | mul (x : Alu3) | mulImm (x : AluI) | mulhi (x : Alu3) | mulhiImm (x : AluI)
  | mulhn (x : Alu3) | mulhnImm (x : AluI) | div (x : Alu3) | divImm (x : AluI)
  | divn (x : Alu3) | divnImm (x : AluI) | rem (x : Alu3) | remImm (x : AluI)
  | remn (x : Alu3) | remnImm (x : AluI) | and (x : Alu3) | andImm (x : AluI)
  | or (x : Alu3) | orImm (x : AluI) | xor (x : Alu3) | xorImm (x : AluI)
  | andn (x : Alu3) | andnImm (x : AluI) | orn (x : Alu3) | ornImm (x : AluI)
  | shl (x : Alu3) | shlImm (x : AluI) | shr (x : Alu3) | shrImm (x : AluI)
  | sar (x : Alu3) | sarImm (x : AluI) | rol (x : Alu3) | rolImm (x : AluI)
  | ror (x : Alu3) | rorImm (x : AluI) | min (x : Alu3) | minImm (x : AluI)
  | minn (x : Alu3) | minnImm (x : AluI) | max (x : Alu3) | maxImm (x : AluI)
  | maxn (x : Alu3) | maxnImm (x : AluI)
  | clz (x : Un) | ctz (x : Un) | popc (x : Un) | brev (x : Un) | bswap (x : Un)
  | abs (x : Un) | neg (x : Un)
  | sextI8 (x : DA) | sextI16 (x : DA) | sextI32 (x : DA)
  | zextN8 (x : DA) | zextN16 (x : DA) | zextN32 (x : DA)
  -- moves and predicates (R99 to R106)
  | mov (x : DA) | movi (x : MovI) | movhi (x : MovHi) | lea (x : Lea)
  | cmp (x : CmpR) | cmpImm (x : CmpI)
  | pand (x : P3) | por (x : P3) | pxor (x : P3) | pandn (x : P3) | pnot (x : P2) | pmov (x : P2)
  | pget (x : D1) | pset (x : PSet) | sel (x : Sel) | qcnt (x : QCnt) | gete (x : GetE)
  -- scalar floating point (R107 to R112)
  | fadd (x : F2) | fsub (x : F2) | fmul (x : F2) | fdiv (x : F2) | fsqrt (x : F1)
  | fmin (x : F2n) | fmax (x : F2n) | fabs (x : F1n) | fneg (x : F1n) | fcopysign (x : F2n)
  | ffma (x : F3) | ffms (x : F3) | fnma (x : F3) | fcmp (x : FCmp) | fcvt (x : FCvt) | fclass (x : F1n)
  -- control (R113 to R122)
  | br (x : Off) | jmp (x : AOff) | call (x : Off) | callr (x : AOff) | ret (x : C0) | frame (x : FrameI)
  | movs (x : MovsR) | movsw (x : MovsW) | trap (x : Off) | brk (x : Off) | synci (x : AB)
  -- memory (R128 to R140)
  | ld (x : LdI) | st (x : StI) | ldp (x : PairI) | stp (x : PairI) | pf (x : PfI)
  | cflush (x : AB) | cclean (x : AB) | cinv (x : AB) | czero (x : AB)
  | amoAdd (x : AmoF) | amoAnd (x : AmoF) | amoOr (x : AmoF) | amoXor (x : AmoF) | amoMin (x : AmoF)
  | amoMinn (x : AmoF) | amoMax (x : AmoF) | amoMaxn (x : AmoF) | amoSwap (x : AmoF) | amoCas (x : CasI)
  | amoAddNf (x : AmoN) | amoAndNf (x : AmoN) | amoOrNf (x : AmoN) | amoXorNf (x : AmoN) | amoMinNf (x : AmoN)
  | amoMinnNf (x : AmoN) | amoMaxNf (x : AmoN) | amoMaxnNf (x : AmoN)
  | famoFaddF32 (x : FamoF) | famoFaddF64 (x : FamoF) | famoFaddBf16x2 (x : FamoF)
  | famoFminF32 (x : FamoF) | famoFmaxF32 (x : FamoF)
  | famoFaddF32Nf (x : FamoN) | famoFaddF64Nf (x : FamoN) | famoFaddBf16x2Nf (x : FamoN)
  | famoFminF32Nf (x : FamoN) | famoFmaxF32Nf (x : FamoN)
  | fence (x : FenceI)
  -- barriers and timelines (R141 to R150)
  | barInit (x : ABOff) | barArrive (x : DAOff) | barArrivex (x : DABOff) | barExpect (x : ABOff)
  | barWait (x : ABOff) | barTest (x : PABOff)
  | hbarArrive (x : HbArr) | hbarWait (x : HbWait) | hbarPhaseComplete (p : Nat) (level : Level) (grp : Nat)
  | tlwait (x : TlWait) | tlget (x : TlGet)
  -- work (R151 to R167)
  | send (x : MsgI) | bind (x : BindI) | unbind (x : UnbindI) | done (x : C0) | doneTask (x : C0)
  | yield (x : YieldI) | yieldExpiry (x : At) | spawn (x : SpawnI) | callat (x : CallAtI)
  | reply (x : ReplyI) | fork (x : ForkI) | join (x : AOff)
  | messageActivationStart (x : At) | timedQueueActivation (x : At) (q : Nat) | taskSteal (x : At)
  -- virtual time and instars (R168 to R182)
  | vtset (x : DA) | vtadv (x : DA) | igrp (x : A1) | ijoin (x : GrpI) | ileave (x : GrpI)
  | ireg (x : AB) | idrop (x : A1) | ist (x : AB) | ildS (x : IldI) | ildU (x : IldI)
  | instarReadComplete (x : At) | iqry (x : IqryI) | floorUpdate (p g place : Nat)
  -- vector (R191 to R211)
  | vld (x : VMem) | vst (x : VMem) | vldT (x : VMemT) | vstT (x : VMemT)
  | vmov (x : V2) | vdup (x : VDupI) | vins (x : VInsI) | vext (x : VExtI)
  | vadd (x : VF3) | vsub (x : VF3) | vmul (x : VF3) | vdiv (x : VF3) | vsqrt (x : VF2)
  | vmin (x : VT3) | vmax (x : VT3) | vabs (x : VT2) | vneg (x : VT2)
  | vfma (x : VF4) | vfms (x : VF4) | vnma (x : VF4)
  | viadd (x : VT3) | visub (x : VT3) | vimul (x : VT3) | vishl (x : VT3) | vishr (x : VT3)
  | visar (x : VT3) | viand (x : VT3) | vior (x : VT3) | vixor (x : VT3) | vimin (x : VT3) | vimax (x : VT3)
  | vcmp (x : VCmpI) | vsel (x : V4) | vperm (x : V4) | vred (x : VRedI) | vcvt (x : VCvtI)
  | vexp2 (x : V2) | vlog2 (x : V2) | vrcp (x : V2) | vrsq (x : V2) | vqtbl (x : V1) | vdot4 (x : VDot)
  | luf (x : SolveI) | lus (x : SolveI)
  | vectorCommandStart (x : CoreAt) | vectorCommandComplete (x : CoreAt)
  | guardedCommandDiscard (x : CoreAt) (e : Engine)
  -- copy engine and tile table (R217, R228 to R237)
  | cpy (x : CpyI) | cpy2 (x : CpyI) | cpyg (x : CpyI) | cpys (x : CpyI) | cpypf (x : CpyPfI)
  | ttget (x : TtGetI) | ttset (x : TtSetI)
  | copyCommandStart (x : CoreAt) | copyCommandComplete (x : CoreAt) | copyFault (x : CorePart)
  -- matrix unit (R213 to R227)
  | tcfg (x : TcfgI) | tcfgr (x : TcfgrI) | tld (x : TMem) | tst (x : TMem) | tzero (x : T1)
  | mma (x : MmaI) | mzero (x : M1) | msta (x : MMem) | mlda (x : MMem)
  | matrixGrant (p octet : Nat) | matrixCommandComplete (x : CoreAt)
  -- armature (R238 to R257)
  | armenter (x : ArmEnterI) | armatureSessionStart (x : CoreAt) | armstat (x : DSel3)
  | armatureBlockFetch (x : CorePart) | armatureFetchFault (x : CoreAt)
  | mmaT (x : CoreAt) | scale (x : CoreAt) | act (x : CoreAt) | route (x : CoreAt) | recv (x : CoreAt)
  | reduce (x : CoreAt) | sync (x : CoreAt) | callb (x : CoreAt) | retb (x : CoreAt) | branch (x : CoreAt)
  | nopb (x : CoreAt) | exit (x : CoreAt)
  -- chisel and sampling (R261 to R282)
  | chopen (x : DA) | chclose (x : A1) | chstep (x : AB) | chmask (x : ChMaskI) | chsave (x : A1)
  | chload (x : ChLoadI) | chstat (x : ChStatI) | chiselCommandExecute (p cluster : Nat)
  | smaxl (x : SampI) | swsum (x : SampI) | sdraw (x : SDrawI) | spick (x : SampI) | sgreedy (x : SampI)
  -- privileged (R316, R327)
  | movcRead (x : MovcR) | movcWrite (x : MovcW) | eret (x : C0) | resume (x : SlotI) | resumeEnd (x : ResEndI)
  | resumeReplay (x : SlotI) | rearm (x : RearmI) | dropl (x : SlotI) | xinv (x : AB) | ckpt (x : D1)
  | halt (x : A1) | wake (x : A1)
  | memoryErrorReport (x : At) (addr : Word) | teamWatchdogExpiry (p launch core : Nat)
  | watchpointReport (p : Nat) (i : Nat) | windowSpillFillDone (x : At)
  -- the ordering machine (R123, R287)
  | accessAccept (x : At) (cached : Bool) | forward (x : At) (id : Nat) | postALoad (x : PortPart)
  | postAStoreBufferEntry (x : PortPart) | deliver (p i : Nat) | perform (p i : Nat) | respReturn (p i : Nat)
  | remoteScratchpadRequest (p i : Nat)
  -- coherence (R366)
  | rds (m : CohMsg) | rdx (m : CohMsg) | upg (m : CohMsg) | wbd (m : CohMsg) | evc (m : CohMsg)
  | ncrd (m : CohMsg) | ncwr (m : CohMsg) | atm (m : CohMsg) | fwds (m : CohMsg) | fwdx (m : CohMsg)
  | rcl (m : CohMsg) | inv (m : CohMsg) | datas (m : CohMsg) | datae (m : CohMsg) | datam (m : CohMsg)
  | invack (m : CohMsg) | fwdack (m : CohMsg) | rcldata (m : CohMsg) | nak (m : CohMsg) | cmpMessage (m : CohMsg)
  -- cocoons and partitions (R331 to R386)
  | cocoonCut (p : Nat) | cocoonCommit (p : Nat) | rollback (p : Nat) | urgentPreemption (p : Nat)
  | quantumEnd (node : Nat) | switchWindowEnd (node : Nat) | clusterFailure (p cluster : Nat)
  | launchPlacement (p : Nat) | launchEnd (p launch : Nat) | migrationRun (p : Nat)
  -- host and platform (R350, R373, R388 to R396)
  | lqprod (vf : Nat) (v : Word) (relaxed : Bool) | fbcons (vf : Nat) (v : Word) (relaxed : Bool)
  | dlcons (vf : Nat) (v : Word) (relaxed : Bool) | cqcons (vf : Nat) (v : Word) (relaxed : Bool)
  | wakedb (vf : Nat) (v : Word) (relaxed : Bool) | migrationGo (vf : Nat) (v : Word)
  | thermHaltedClear (temp : BitVec 8) | load | restart
  | registerWrite (vf num : Nat) (v : Word) | hostMemoryAccess (p : Nat) (x : HostAcc)
  | vfTeardown (vf : Nat) | amisinFlit (port : Nat) (bytes : List Byte)
  | bringUp (fw rt : Image) (recs : List Image) | spdmRequest (index : Nat)
  | thermalAlarm (temp : BitVec 8) | protectiveHalt (temp : BitVec 8) | waymaskChangeEffect (vf : Nat)
  | recoveryLoadDone (img : Image) | jtagAccess (rec : Image)
  deriving DecidableEq, Repr

end Sys2Proof
end

