-- ==== Sys2Proof/WellFormed.lean ====
section
/-! DEFINITION. Which instructions an instruction word can carry: the limits of spec/03_encoding.md and of the
reference entries that the types of Syntax.lean do not already hold. An instruction that fails one is the word that
the decoder refuses with cause 0x01 or 0x02 (R86). -/

namespace Sys2Proof

/-- A guard of an instruction that is no engine command (R81). -/
def Ctl.wf (c : Ctl) : Bool :=
  match c.guard with
  | .always => true
  | .pred n _ => n != 7
  | .eng _ _ => false

/-- A guard of an engine command: e0-e3 are allowed (R81, R34). -/
def Ctl.wfE (c : Ctl) : Bool :=
  match c.guard with
  | .always => true
  | .pred n _ => n != 7
  | .eng _ _ => true

/-- Rounding codes of an arithmetic operation: all but 5 (R57). -/
def Rnd.arith (r : Rnd) : Bool := r != .sr

/-- Width of a type code in bits (R84, R189). -/
def Ty.bits : Ty → Nat
  | .i8 | .n8 | .e4m3 | .e5m2 => 8
  | .i16 | .n16 | .f16 | .bf16 => 16
  | .i32 | .n32 | .f32 => 32
  | .i64 | .n64 | .f64 => 64

/-- Integer types (R84 codes 0-7). -/
def Ty.isInt : Ty → Bool
  | .i8 | .n8 | .i16 | .n16 | .i32 | .n32 | .i64 | .n64 => true
  | .f16 | .bf16 | .f32 | .f64 | .e4m3 | .e5m2 => false

/-- Signed integer types. -/
def Ty.signed : Ty → Bool
  | .i8 | .i16 | .i32 | .i64 => true
  | _ => false

/-- Types of the lane-wise floating-point operations (R195: 0x8-0xB). -/
def Ty.isFp : Ty → Bool
  | .f16 | .bf16 | .f32 | .f64 => true
  | _ => false

/-- Lanes of a vector register (R189). -/
def Ty.lanes (t : Ty) : Nat := 128 / t.bits

/-- Bits of an element in memory (R69). -/
def Efmt.bits : Efmt → Nat
  | .e2m1 | .q4 => 4
  | .i8 | .n8 | .e4m3 | .e5m2 | .e3m2 | .e2m3 | .log6 => 8
  | .i16 | .n16 | .f16 | .bf16 => 16
  | .i32 | .f32 => 32
  | .f64 => 64

/-- Orders of LD and LDP (R126). -/
def Ord.onLoad (o : Ord) : Bool := o == .rlx || o == .acq || o == .sc
/-- Orders of ST, STP and the non-fetching atomics (R126). -/
def Ord.onStore (o : Ord) : Bool := o == .rlx || o == .rel || o == .sc

/-- A register group B..B+3 lies in s1-s63 (R152). -/
def groupBase (b : SReg) : Bool := 1 ≤ b.toNat && b.toNat ≤ 0x3C

/-- A conversion's rounding: code 5 needs a side that is no integer; without it the seed and the index bytes are
zero (R111, R202). -/
def cvtWf (src dst : Ty) (rnd : Rnd) (b c : SOp) : Bool :=
  src != dst && (if rnd == .sr then !(src.isInt && dst.isInt) else b == .s 0 && c == .s 0)

/-- Parts of a VCVT (R202): the ratio of the widths. -/
def cvtParts (src dst : Ty) : Nat := max src.bits dst.bits / min src.bits dst.bits

/-- The shared limits of CPY, CPY2, CPYG and CPYS that the word alone decides (R229, R230, R399). -/
def CpyI.wfCommon (x : CpyI) : Bool :=
  x.c.wfE &&
  (if x.conv then x.dfmt != .q4 && x.sfmt != x.dfmt else x.sfmt == .i8 && x.dfmt == .i8 && x.rnd == .rne) &&
  (if x.cred || x.rnd == .sr then 1 ≤ x.cc.toNat && x.cc.toNat ≤ 0x3D else x.cc == 0)

/-- CPY2, CPYG and CPYS: no codec, and the count group B, B+1 lies in 0x01-0x3F (R231, R232). -/
def CpyI.wfGroup (x : CpyI) : Bool :=
  x.wfCommon && !x.zs && !x.zd && 1 ≤ x.b.toNat && x.b.toNat ≤ 0x3E

/-- Reductions of the hierarchical barriers: unsigned only with min and max (R145). -/
def Red.unsOk (r : Red) (u : Bool) : Bool := !u || r == .min || r == .max

/-- The instruction is one that a word can carry; an agent's step carries no encoding and is well formed. -/
def Instr.wf : Instr → Bool
  | .add x | .sub x | .mul x | .mulhi x | .mulhn x | .div x | .divn x | .rem x | .remn x | .and x | .or x | .xor x
  | .andn x | .orn x | .shl x | .shr x | .sar x | .rol x | .ror x | .min x | .minn x | .max x | .maxn x => x.c.wf
  | .addImm x | .subImm x | .mulImm x | .mulhiImm x | .mulhnImm x | .divImm x | .divnImm x | .remImm x | .remnImm x
  | .andImm x | .orImm x | .xorImm x | .andnImm x | .ornImm x | .shlImm x | .shrImm x | .sarImm x | .rolImm x
  | .rorImm x | .minImm x | .minnImm x | .maxImm x | .maxnImm x => x.c.wf
  | .clz x | .ctz x | .popc x | .brev x | .bswap x | .abs x | .neg x => x.c.wf
  | .sextI8 x | .sextI16 x | .sextI32 x | .zextN8 x | .zextN16 x | .zextN32 x | .mov x => x.c.wf
  | .movi x => x.c.wf
  | .movhi x => x.c.wf
  | .lea x => x.c.wf
  | .cmp x => x.c.wf
  | .cmpImm x => x.c.wf
  | .pand x | .por x | .pxor x | .pandn x => x.c.wf
  | .pnot x | .pmov x => x.c.wf
  | .pget x => x.c.wf
  | .pset x => x.c.wf
  | .sel x => x.c.wf
  | .qcnt x => x.c.wf
  | .gete x => x.c.wf
  | .fadd x | .fsub x | .fmul x | .fdiv x => x.c.wf && x.rnd.arith
  | .fsqrt x => x.c.wf && x.rnd.arith
  | .fmin x | .fmax x | .fcopysign x => x.c.wf
  | .fabs x | .fneg x | .fclass x => x.c.wf
  | .ffma x | .ffms x | .fnma x => x.c.wf && x.rnd.arith
  | .fcmp x => x.c.wf
  | .fcvt x => x.c.wf && cvtWf x.src x.dst x.rnd x.b x.cc
  | .br x | .call x | .trap x | .brk x => x.c.wf
  | .jmp x | .callr x | .join x => x.c.wf
  | .ret x | .done x | .doneTask x | .eret x => x.c.wf
  | .frame x => x.c.wf && (x.f == 16 || x.f == 24 || x.f == 32 || x.f == 40 || x.f == 48)
  | .movs x => x.c.wf
  | .movsw x => x.c.wf
  | .synci x | .cflush x | .cclean x | .cinv x | .czero x | .ireg x | .ist x | .xinv x | .chstep x => x.c.wf
  | .ld x => x.c.wf && x.ord.onLoad
  | .st x => x.c.wf && x.ord.onStore
  | .ldp x => x.c.wf && x.ord.onLoad
  | .stp x => x.c.wf && x.ord.onStore
  | .pf x => x.c.wf && x.intent != 3
  | .amoAdd x | .amoAnd x | .amoOr x | .amoXor x | .amoMin x | .amoMinn x | .amoMax x | .amoMaxn x
  | .amoSwap x => x.c.wf
  | .amoCas x => x.c.wf && x.d != 0
  | .amoAddNf x | .amoAndNf x | .amoOrNf x | .amoXorNf x | .amoMinNf x | .amoMinnNf x | .amoMaxNf x
  | .amoMaxnNf x => x.c.wf && x.ord.onStore
  | .famoFaddF32 x | .famoFaddF64 x | .famoFaddBf16x2 x | .famoFminF32 x | .famoFmaxF32 x => x.c.wf
  | .famoFaddF32Nf x | .famoFaddF64Nf x | .famoFaddBf16x2Nf x | .famoFminF32Nf x
  | .famoFmaxF32Nf x => x.c.wf && x.ord.onStore
  | .fence x => x.c.wf && x.ord != .rlx
  | .barInit x | .barExpect x | .barWait x => x.c.wf
  | .barArrive x => x.c.wf
  | .barArrivex x => x.c.wf
  | .barTest x => x.c.wf
  | .hbarArrive x => x.c.wf && x.red.unsOk x.uns && (x.red != .none || x.b == .s 0)
  | .hbarWait x => x.c.wf && x.red.unsOk x.uns && (x.red != .none || x.d == .s 0)
  | .tlwait x => x.c.wf && (x.eng == .chisel || x.b == .s 0)
  | .tlget x => x.c.wf && (x.eng == .chisel || x.b == .s 0) && x.sel != 3
  | .send x => x.c.wf && groupBase x.base
  | .bind x => x.c.wf && x.queue != 15 && (x.land == .ring || (x.ring == 0 && x.b == .s 0)) && (x.timed || x.grp == 0)
  | .unbind x => x.c.wf && x.queue != 15
  | .yield x => x.c.wf
  | .spawn x => x.c.wf && x.p != 7 && groupBase x.base
  | .callat x => x.c.wf && groupBase x.base && x.queue != 15
  | .reply x => x.c.wf && groupBase x.base
  | .fork x => x.c.wf && x.p != 7 && groupBase x.base
  | .vtset x | .vtadv x => x.c.wf
  | .igrp x | .idrop x | .chclose x | .chsave x | .halt x | .wake x => x.c.wf
  | .ijoin x | .ileave x => x.c.wf
  | .ildS x | .ildU x => x.c.wf
  | .iqry x => x.c.wf && x.sel.toNat ≤ 5
  | .vld x | .vst x => x.c.wfE
  | .vldT x | .vstT x => x.c.wfE
  | .vmov x | .vexp2 x | .vlog2 x | .vrcp x | .vrsq x => x.c.wfE
  | .vdup x => x.c.wfE
  | .vins x => x.c.wfE && x.lane.toNat < x.ty.lanes
  | .vext x => x.c.wfE && x.lane.toNat < x.ty.lanes
  | .vadd x | .vsub x | .vmul x | .vdiv x => x.c.wfE && x.ty.isFp && x.rnd.arith
  | .vsqrt x => x.c.wfE && x.ty.isFp && x.rnd.arith
  | .vmin x | .vmax x => x.c.wfE && x.ty.isFp
  | .vabs x | .vneg x => x.c.wfE && x.ty.isFp
  | .vfma x | .vfms x | .vnma x => x.c.wfE && x.ty.isFp && x.rnd.arith
  | .viadd x | .visub x | .vimul x | .vishl x | .vishr x | .visar x | .viand x | .vior x | .vixor x | .vimin x
  | .vimax x => x.c.wfE && x.ty.isInt
  | .vcmp x => x.c.wfE && (x.ty.isInt || x.ty.isFp) && x.cond != .un && x.cond != .or
  | .vsel x | .vperm x => x.c.wfE
  | .vred x => x.c.wfE && (x.ty.isInt || x.ty.isFp) &&
      (if x.ty.isFp && x.op == .sum then x.rnd.arith else x.rnd == .rne)
  | .vcvt x => x.c.wfE && cvtWf x.src x.dst x.rnd x.b x.cc && x.part.toNat < cvtParts x.src x.dst
  | .vqtbl x => x.c.wfE
  | .vdot4 x => x.c.wfE
  | .luf x | .lus x => x.c.wfE
  | .cpy x => x.wfCommon
  | .cpy2 x => x.wfGroup
  | .cpyg x | .cpys x => x.wfGroup && x.sfmt.bits != 4 && x.dfmt.bits != 4
  | .cpypf x => x.c.wfE
  | .ttget x => x.c.wfE && x.sel != 3
  | .ttset x => x.c.wfE
  | .tcfg x => x.c.wf
  | .tcfgr x => x.c.wf
  | .tld x | .tst x => x.c.wfE
  | .tzero x => x.c.wfE
  | .mma x => x.c.wfE
  | .mzero x => x.c.wfE
  | .msta x | .mlda x => x.c.wfE && x.tile.toNat % 2 == 0
  | .armenter x => x.c.wf
  | .armstat x => x.c.wf && x.sel.toNat ≤ 4
  | .chopen x => x.c.wf
  | .chmask x => x.c.wf && 1 ≤ x.n.toNat && x.n.toNat ≤ 1024
  | .chload x => x.c.wf
  | .chstat x => x.c.wf && x.sel != 3
  | .smaxl x => x.c.wfE && 1 ≤ x.n.toNat && x.n.toNat ≤ 4096 && x.cc == 0
  | .swsum x => x.c.wfE && 1 ≤ x.n.toNat && x.n.toNat ≤ 4096 && x.cc.toNat ≤ 62
  | .spick x => x.c.wfE && 1 ≤ x.n.toNat && x.n.toNat ≤ 4096 && x.cc.toNat ≤ 59
  | .sgreedy x => x.c.wfE && 1 ≤ x.n.toNat && x.n.toNat ≤ 4096
  | .sdraw x => x.c.wfE
  | .movcRead x => x.c.wf
  | .movcWrite x => x.c.wf
  | .resume x | .resumeReplay x | .dropl x => x.c.wf
  | .resumeEnd x => x.c.wf
  | .rearm x => x.c.wf
  | .ckpt x => x.c.wf
  | .hbarPhaseComplete _ _ _ | .yieldExpiry _ | .messageActivationStart _ | .timedQueueActivation _ _ | .taskSteal _
  | .instarReadComplete _ | .floorUpdate _ _ _ | .vectorCommandStart _ | .vectorCommandComplete _
  | .guardedCommandDiscard _ _ | .copyCommandStart _ | .copyCommandComplete _ | .copyFault _ | .matrixGrant _ _
  | .matrixCommandComplete _ | .armatureSessionStart _ | .armatureBlockFetch _ | .armatureFetchFault _ | .mmaT _
  | .scale _ | .act _ | .route _ | .recv _ | .reduce _ | .sync _ | .callb _ | .retb _ | .branch _ | .nopb _ | .exit _
  | .chiselCommandExecute _ _ | .memoryErrorReport _ _ | .teamWatchdogExpiry _ _ _ | .watchpointReport _ _
  | .windowSpillFillDone _ | .accessAccept _ _ | .forward _ _ | .postALoad _ | .postAStoreBufferEntry _ | .deliver _ _
  | .perform _ _ | .respReturn _ _ | .remoteScratchpadRequest _ _ | .rds _ | .rdx _ | .upg _ | .wbd _ | .evc _
  | .ncrd _ | .ncwr _ | .atm _ | .fwds _ | .fwdx _ | .rcl _ | .inv _ | .datas _ | .datae _ | .datam _ | .invack _
  | .fwdack _ | .rcldata _ | .nak _ | .cmpMessage _ | .cocoonCut _ | .cocoonCommit _ | .rollback _
  | .urgentPreemption _ | .quantumEnd _ | .switchWindowEnd _ | .clusterFailure _ _ | .launchPlacement _
  | .launchEnd _ _ | .migrationRun _ | .lqprod _ _ _ | .fbcons _ _ _ | .dlcons _ _ _ | .cqcons _ _ _ | .wakedb _ _ _
  | .migrationGo _ _ | .thermHaltedClear _ | .load | .restart | .registerWrite _ _ _ | .hostMemoryAccess _ _
  | .vfTeardown _ | .amisinFlit _ _ | .bringUp _ _ _ | .spdmRequest _ | .thermalAlarm _ | .protectiveHalt _
  | .waymaskChangeEffect _ | .recoveryLoadDone _ | .jtagAccess _ => true

/-- The rows of the opcode table that are agents' steps and no instruction words
(spec/95_what_each_step_holds.md). -/
def Instr.isAgent : Instr → Bool
  | .hbarPhaseComplete _ _ _ | .yieldExpiry _ | .messageActivationStart _ | .timedQueueActivation _ _ | .taskSteal _
  | .instarReadComplete _ | .floorUpdate _ _ _ | .vectorCommandStart _ | .vectorCommandComplete _
  | .guardedCommandDiscard _ _ | .copyCommandStart _ | .copyCommandComplete _ | .copyFault _ | .matrixGrant _ _
  | .matrixCommandComplete _ | .armatureSessionStart _ | .armatureBlockFetch _ | .armatureFetchFault _ | .mmaT _
  | .scale _ | .act _ | .route _ | .recv _ | .reduce _ | .sync _ | .callb _ | .retb _ | .branch _ | .nopb _ | .exit _
  | .chiselCommandExecute _ _ | .memoryErrorReport _ _ | .teamWatchdogExpiry _ _ _ | .watchpointReport _ _
  | .windowSpillFillDone _ | .accessAccept _ _ | .forward _ _ | .postALoad _ | .postAStoreBufferEntry _ | .deliver _ _
  | .perform _ _ | .respReturn _ _ | .remoteScratchpadRequest _ _ | .rds _ | .rdx _ | .upg _ | .wbd _ | .evc _
  | .ncrd _ | .ncwr _ | .atm _ | .fwds _ | .fwdx _ | .rcl _ | .inv _ | .datas _ | .datae _ | .datam _ | .invack _
  | .fwdack _ | .rcldata _ | .nak _ | .cmpMessage _ | .cocoonCut _ | .cocoonCommit _ | .rollback _
  | .urgentPreemption _ | .quantumEnd _ | .switchWindowEnd _ | .clusterFailure _ _ | .launchPlacement _
  | .launchEnd _ _ | .migrationRun _ | .lqprod _ _ _ | .fbcons _ _ _ | .dlcons _ _ _ | .cqcons _ _ _ | .wakedb _ _ _
  | .migrationGo _ _ | .thermHaltedClear _ | .load | .restart | .registerWrite _ _ _ | .hostMemoryAccess _ _
  | .vfTeardown _ | .amisinFlit _ _ | .bringUp _ _ _ | .spdmRequest _ | .thermalAlarm _ | .protectiveHalt _
  | .waymaskChangeEffect _ | .recoveryLoadDone _ | .jtagAccess _ => true
  | _ => false

end Sys2Proof
end

