-- ==== Sys2Proof/Decode.lean ====
section
/-! DEFINITION. Decoding of instruction words (spec/03_encoding.md R77 to R86 and each entry's encoding), total on
every word, and the encoder. A refused word carries the cause its slot takes: 0x01 (check 3 of R86, made first) or
0x02 (check 6). Checks 4 and 5 (unit absent, privilege) depend on the machine and stand in Machine/Issue.lean. -/

namespace Sys2Proof

/-- Why a word is no instruction (R86). -/
inductive Bad where
  | c01
  | c02
  deriving DecidableEq, Repr

/-- The fields of an instruction word (R78). -/
structure Fields where
  op : BitVec 8
  fn : BitVec 8
  d : BitVec 8 := 0
  a : BitVec 8 := 0
  b : BitVec 8 := 0
  gidx : BitVec 4 := 7
  gneg : BitVec 1 := 0
  delay : BitVec 3 := 0
  yield : BitVec 1 := 0
  ra : BitVec 1 := 0
  rb : BitVec 1 := 0
  rsv : BitVec 2 := 0
  x : BitVec 11 := 0
  imm : BitVec 32 := 0
  deriving DecidableEq, Repr

/-- The fields of a word, by R78's bit positions. -/
def fields (w : IWord) : Fields :=
  { op := w.extractLsb' 0 8, fn := w.extractLsb' 8 8, d := w.extractLsb' 16 8, a := w.extractLsb' 24 8,
    b := w.extractLsb' 32 8, gidx := w.extractLsb' 40 4, gneg := w.extractLsb' 44 1, delay := w.extractLsb' 45 3,
    yield := w.extractLsb' 48 1, ra := w.extractLsb' 49 1, rb := w.extractLsb' 50 1, rsv := w.extractLsb' 51 2,
    x := w.extractLsb' 53 11, imm := w.extractLsb' 64 32 }

/-- The word that holds the fields. -/
def assemble (f : Fields) : IWord :=
  f.imm ++ f.x ++ f.rsv ++ f.rb ++ f.ra ++ f.yield ++ f.delay ++ f.gneg ++ f.gidx ++ f.b ++ f.a ++ f.d ++ f.fn ++ f.op

/-! ### Operands -/

/-- A scalar-class byte (R79). -/
def sop (b : BitVec 8) : Option SOp :=
  if b.toNat < 0x40 then some (.s (b.setWidth 6))
  else if b.toNat < 0x50 then some (.q (b.setWidth 4)) else none
/-- A byte that must name s0-s63. -/
def sreg (b : BitVec 8) : Option SReg := if b.toNat < 0x40 then some (b.setWidth 6) else none
/-- A byte that must name q0-q15. -/
def qreg (b : BitVec 8) : Option QReg := if 0x40 ≤ b.toNat ∧ b.toNat < 0x50 then some (b.setWidth 4) else none
/-- A predicate byte. -/
def preg (b : BitVec 8) : Option PReg := if b.toNat < 8 then some (b.setWidth 3) else none
/-- A vector byte. -/
def vreg (b : BitVec 8) : Option VReg := if b.toNat < 32 then some (b.setWidth 5) else none
/-- An engine-guard byte. -/
def ereg (b : BitVec 8) : Option EReg := if b.toNat < 4 then some (b.setWidth 2) else none
/-- A tile byte. -/
def treg (b : BitVec 8) : Option TReg := if b.toNat < 8 then some (b.setWidth 3) else none
/-- An accumulator byte. -/
def areg (b : BitVec 8) : Option AReg := if b.toNat < 4 then some (b.setWidth 2) else none
/-- A register group base, s1-s60 (R152). -/
def gbase (b : BitVec 8) : Option SReg :=
  if 1 ≤ b.toNat ∧ b.toNat ≤ 0x3C then some (b.setWidth 6) else none
/-- A predicate other than p7 (SPAWN, FORK). -/
def preg7 (b : BitVec 8) : Option PReg := if b.toNat < 7 then some (b.setWidth 3) else none

/-- The hints (R82). -/
def hintsOf (f : Fields) : Hints :=
  { delay := f.delay, yield := f.yield == 1, reuseA := f.ra == 1, reuseB := f.rb == 1 }
/-- The guard and hints; `eng` admits e-guards (R81). -/
def ctl (eng : Bool) (f : Fields) : Option Ctl :=
  if f.gidx.toNat < 7 then some ⟨.pred (f.gidx.setWidth 3) (f.gneg == 1), hintsOf f⟩
  else if f.gidx == 7 then (if f.gneg == 0 then some ⟨.always, hintsOf f⟩ else none)
  else if f.gidx.toNat < 12 then (if eng then some ⟨.eng (f.gidx.setWidth 2) (f.gneg == 1), hintsOf f⟩ else none)
  else none

/-- Instruction type codes (R84). -/
def tyOf (n : BitVec 4) : Option Ty :=
  [Ty.i8, .n8, .i16, .n16, .i32, .n32, .i64, .n64, .f16, .bf16, .f32, .f64, .e4m3, .e5m2][n.toNat]?
/-- Element format codes (R69). -/
def efmtOf (n : BitVec 4) : Efmt :=
  ([Efmt.i8, .n8, .i16, .n16, .i32, .f32, .f16, .bf16, .e4m3, .e5m2, .e3m2, .e2m3, .e2m1, .log6, .q4, .f64][n.toNat]?).getD .i8
/-- Rounding codes (R57): 6 is reserved. -/
def rndOf (n : BitVec 3) : Option Rnd :=
  ([some Rnd.rne, some .rz, some .ru, some .rd, some .rna, some .sr, none, some .dyn][n.toNat]?).getD none
/-- Order codes (R83). -/
def ordOf (n : BitVec 3) : Option Ord := [Ord.rlx, .acq, .rel, .ar, .sc][n.toNat]?
/-- Scope codes (R83). -/
def scopeOf (n : BitVec 3) : Option Scope := [Scope.th, .core, .cl, .die, .pkg, .sys][n.toNat]?
/-- Widths of LD and ST (R128). -/
def widthOf (n : BitVec 8) : Option Width := [Width.i8, .n8, .i16, .n16, .i32, .n32, .d64][n.toNat]?
/-- Conditions of CMP (R101). -/
def icondOf (n : BitVec 4) : Option ICond := [ICond.eq, .ne, .lt, .le, .gt, .ge, .ltn, .len, .gtn, .gen][n.toNat]?
/-- Conditions of FCMP (R110). -/
def fcondOf (n : BitVec 4) : Option FCond := [FCond.eq, .ne, .lt, .le, .gt, .ge, .un, .or][n.toNat]?
/-- Engines of TLWAIT and TLGET (R149). -/
def engOf (n : BitVec 8) : Option Eng := [Eng.copy, .matrix, .vector, .chisel][n.toNat]?
/-- HBAR levels (R145). -/
def levelOf (n : BitVec 2) : Option Level := [Level.team, .die, .pkg][n.toNat]?
/-- HBAR reductions (R145). -/
def redOf (n : BitVec 2) : Red := ([Red.none, .sum, .min, .max][n.toNat]?).getD .none
/-- Landing transforms (R156). -/
def landOf (n : BitVec 4) : Option Land := [Land.regs, .src, .ring][n.toNat]?
/-- VRED operations (R201). -/
def redOpOf (n : BitVec 4) : Option RedOp := [RedOp.sum, .min, .max][n.toNat]?

/-- Layout C's fourth operand byte, and the rounding code of layouts C and F. -/
def Fields.cb (f : Fields) : BitVec 8 := f.x.extractLsb' 0 8
def Fields.rc (f : Fields) : BitVec 3 := f.x.extractLsb' 8 3
def Fields.rf (f : Fields) : BitVec 3 := f.x.extractLsb' 0 3
/-- Layout F's upper bits, and layout M's order, scope and upper bits. -/
def Fields.xhi8 (f : Fields) : BitVec 8 := f.x.extractLsb' 3 8
def Fields.xord (f : Fields) : BitVec 3 := f.x.extractLsb' 0 3
def Fields.xscope (f : Fields) : BitVec 3 := f.x.extractLsb' 3 3
def Fields.xhi5 (f : Fields) : BitVec 5 := f.x.extractLsb' 6 5
def Fields.fnLo (f : Fields) : BitVec 7 := f.fn.extractLsb' 0 7
def Fields.fnHi (f : Fields) : BitVec 4 := f.fn.extractLsb' 4 4
def Fields.fn4 (f : Fields) : BitVec 4 := f.fn.extractLsb' 0 4
/-- FN[7]: the 32-bit form (R95), or f64 (R107). -/
def Fields.fn7 (f : Fields) : Bool := f.fn.extractLsb' 7 1 == 1

/-- The verdict: `ok01` is check 3 of R86, the operands check 6. -/
def verdict (ok01 : Bool) (r : Option Instr) : Except Bad Instr :=
  if ok01 then (match r with | some i => .ok i | none => .error .c02) else .error .c01

/-! ### Shapes -/

def dAlu3 (f : Fields) (k : Alu3 → Instr) : Except Bad Instr :=
  verdict (f.x == 0 && f.imm == 0) do
    return k ⟨← ctl false f, f.fn7, ← sop f.d, ← sop f.a, ← sop f.b⟩
def dAluI (f : Fields) (k : AluI → Instr) : Except Bad Instr :=
  verdict (f.x == 0 && f.b == 0) do
    return k ⟨← ctl false f, f.fn7, ← sop f.d, ← sop f.a, f.imm⟩
def dUn (f : Fields) (k : Un → Instr) : Except Bad Instr :=
  verdict (f.x == 0 && f.b == 0 && f.imm == 0) do
    return k ⟨← ctl false f, f.fn7, ← sop f.d, ← sop f.a⟩
def dDA (f : Fields) (k : DA → Instr) : Except Bad Instr :=
  verdict (f.x == 0 && f.b == 0 && f.imm == 0) do
    return k ⟨← ctl false f, ← sop f.d, ← sop f.a⟩
def dD1 (f : Fields) (k : D1 → Instr) : Except Bad Instr :=
  verdict (f.x == 0 && f.a == 0 && f.b == 0 && f.imm == 0) do
    return k ⟨← ctl false f, ← sop f.d⟩
def dA1 (f : Fields) (k : A1 → Instr) : Except Bad Instr :=
  verdict (f.x == 0 && f.d == 0 && f.b == 0 && f.imm == 0) do
    return k ⟨← ctl false f, ← sop f.a⟩
def dAB (f : Fields) (k : AB → Instr) : Except Bad Instr :=
  verdict (f.x == 0 && f.d == 0 && f.imm == 0) do
    return k ⟨← ctl false f, ← sop f.a, ← sop f.b⟩
def dC0 (f : Fields) (k : C0 → Instr) : Except Bad Instr :=
  verdict (f.x == 0 && f.d == 0 && f.a == 0 && f.b == 0 && f.imm == 0) do
    return k ⟨← ctl false f⟩
def dOff (f : Fields) (k : Off → Instr) : Except Bad Instr :=
  verdict (f.x == 0 && f.d == 0 && f.a == 0 && f.b == 0) do
    return k ⟨← ctl false f, f.imm⟩
def dAOff (f : Fields) (k : AOff → Instr) : Except Bad Instr :=
  verdict (f.x == 0 && f.d == 0 && f.b == 0) do
    return k ⟨← ctl false f, ← sop f.a, f.imm⟩
def dP3 (f : Fields) (k : P3 → Instr) : Except Bad Instr :=
  verdict (f.x == 0 && f.imm == 0) do
    return k ⟨← ctl false f, ← preg f.d, ← preg f.a, ← preg f.b⟩
def dP2 (f : Fields) (k : P2 → Instr) : Except Bad Instr :=
  verdict (f.x == 0 && f.imm == 0 && f.b == 0) do
    return k ⟨← ctl false f, ← preg f.d, ← preg f.a⟩
/-- Layout F with a rounding code that is no 5 and no 6. -/
def rndF (f : Fields) : Option Rnd := do
  let r ← rndOf f.rf
  if f.xhi8 == 0 && r.arith then some r else none
/-- Layout C with a rounding code that is no 5 and no 6. -/
def rndC (f : Fields) : Option Rnd := do
  let r ← rndOf f.rc
  if r.arith then some r else none
/-- Layout M: order and scope (R83). -/
def layM (f : Fields) : Option (Ord × Scope) := do
  let o ← ordOf f.xord
  let s ← scopeOf f.xscope
  if f.xhi5 == 0 then some (o, s) else none

def dF2 (f : Fields) (k : F2 → Instr) : Except Bad Instr :=
  match rndF f with
  | none => .error .c01
  | some r => verdict (f.imm == 0) do
    return k ⟨← ctl false f, f.fn7, r, ← sop f.d, ← sop f.a, ← sop f.b⟩
def dF1 (f : Fields) (k : F1 → Instr) : Except Bad Instr :=
  match rndF f with
  | none => .error .c01
  | some r => verdict (f.imm == 0 && f.b == 0) do
    return k ⟨← ctl false f, f.fn7, r, ← sop f.d, ← sop f.a⟩
def dF2n (f : Fields) (k : F2n → Instr) : Except Bad Instr :=
  verdict (f.x == 0 && f.imm == 0) do
    return k ⟨← ctl false f, f.fn7, ← sop f.d, ← sop f.a, ← sop f.b⟩
def dF1n (f : Fields) (k : F1n → Instr) : Except Bad Instr :=
  verdict (f.x == 0 && f.imm == 0 && f.b == 0) do
    return k ⟨← ctl false f, f.fn7, ← sop f.d, ← sop f.a⟩
def dF3 (f : Fields) (k : F3 → Instr) : Except Bad Instr :=
  match rndC f with
  | none => .error .c01
  | some r => verdict (f.imm == 0) do
    return k ⟨← ctl false f, f.fn7, r, ← sop f.d, ← sop f.a, ← sop f.b, ← sop f.cb⟩
def dLd (f : Fields) : Except Bad Instr :=
  match widthOf f.fn, layM f with
  | some w, some (o, s) => verdict (f.b == 0 && o.onLoad) do
    return .ld ⟨← ctl false f, w, o, s, ← sop f.d, ← sop f.a, f.imm⟩
  | _, _ => .error .c01
def dSt (f : Fields) : Except Bad Instr :=
  match widthOf f.fn, layM f with
  | some w, some (o, s) => verdict (f.d == 0 && o.onStore) do
    return .st ⟨← ctl false f, w, o, s, ← sop f.a, ← sop f.b, f.imm⟩
  | _, _ => .error .c01
def dPair (f : Fields) (ok : Ord → Bool) (k : PairI → Instr) : Except Bad Instr :=
  match layM f with
  | some (o, s) => verdict (f.fn == 6 && ok o) do
    return k ⟨← ctl false f, o, s, ← sop f.d, ← sop f.a, ← sop f.b, f.imm⟩
  | none => .error .c01
def dAmo (f : Fields) (k : AmoF → Instr) : Except Bad Instr :=
  match layM f with
  | some (o, s) => verdict true do
    return k ⟨← ctl false f, f.fn7, o, s, ← sop f.d, ← sop f.a, ← sop f.b, f.imm⟩
  | none => .error .c01
def dCas (f : Fields) : Except Bad Instr :=
  match layM f with
  | some (o, s) => verdict true do
    let d ← sreg f.d
    if d == 0 then none
    else return .amoCas ⟨← ctl false f, f.fn7, o, s, d, ← sop f.a, ← sop f.b, f.imm⟩
  | none => .error .c01
def dAmoNf (f : Fields) (k : AmoN → Instr) : Except Bad Instr :=
  match layM f with
  | some (o, s) => verdict (f.d == 0 && o.onStore) do
    return k ⟨← ctl false f, f.fn7, o, s, ← sop f.a, ← sop f.b, f.imm⟩
  | none => .error .c01
def dFamo (f : Fields) (k : FamoF → Instr) : Except Bad Instr :=
  match layM f with
  | some (o, s) => verdict true do
    return k ⟨← ctl false f, o, s, ← sop f.d, ← sop f.a, ← sop f.b, f.imm⟩
  | none => .error .c01
def dFamoNf (f : Fields) (k : FamoN → Instr) : Except Bad Instr :=
  match layM f with
  | some (o, s) => verdict (f.d == 0 && o.onStore) do
    return k ⟨← ctl false f, o, s, ← sop f.a, ← sop f.b, f.imm⟩
  | none => .error .c01
def dABOff (f : Fields) (k : ABOff → Instr) : Except Bad Instr :=
  verdict (f.x == 0 && f.d == 0) do
    return k ⟨← ctl false f, ← sop f.a, ← sop f.b, f.imm⟩
def dHbar (f : Fields) : Except Bad Instr :=
  let red := redOf (f.fn.extractLsb' 3 2)
  let uns := f.fn.extractLsb' 5 1 == 1
  match levelOf (f.fn.extractLsb' 1 2) with
  | none => .error .c01
  | some l =>
    if f.fn.extractLsb' 6 2 == 0 && red.unsOk uns && f.x == 0 && f.imm == 0 && f.a == 0 then
      if f.fn.extractLsb' 0 1 == 0 then
        verdict (f.d == 0 && (red != .none || f.b == 0)) do
          return .hbarArrive ⟨← ctl false f, l, red, uns, ← sop f.b⟩
      else
        verdict (f.b == 0 && (red != .none || f.d == 0)) do
          return .hbarWait ⟨← ctl false f, l, red, uns, ← sop f.d⟩
    else .error .c01
def dV2 (f : Fields) (k : V2 → Instr) : Except Bad Instr :=
  verdict (f.x == 0 && f.imm == 0 && f.b == 0) do
    return k ⟨← ctl true f, ← vreg f.d, ← vreg f.a⟩
def dVMem (f : Fields) (k : VMem → Instr) : Except Bad Instr :=
  verdict (f.x == 0 && f.b == 0) do
    return k ⟨← ctl true f, ← vreg f.d, ← sreg f.a, f.imm⟩
def dVMemT (f : Fields) (k : VMemT → Instr) : Except Bad Instr :=
  verdict (f.x == 0 && f.b == 0 && f.imm.extractLsb' 10 22 == 0) do
    return k ⟨← ctl true f, ← vreg f.d, ← sreg f.a, f.imm.extractLsb' 5 5, f.imm.extractLsb' 0 5⟩
/-- Type code in X[56:53] of the lane moves (R194). -/
def xTy (f : Fields) : Option Ty := if f.x.extractLsb' 4 7 == 0 then tyOf (f.x.extractLsb' 0 4) else none
def dVF3 (f : Fields) (k : VF3 → Instr) : Except Bad Instr :=
  match tyOf f.fnHi, rndF f with
  | some t, some r => verdict (t.isFp && f.imm == 0) do
    return k ⟨← ctl true f, t, r, ← vreg f.d, ← vreg f.a, ← vreg f.b⟩
  | _, _ => .error .c01
def dVF2 (f : Fields) (k : VF2 → Instr) : Except Bad Instr :=
  match tyOf f.fnHi, rndF f with
  | some t, some r => verdict (t.isFp && f.imm == 0 && f.b == 0) do
    return k ⟨← ctl true f, t, r, ← vreg f.d, ← vreg f.a⟩
  | _, _ => .error .c01
def dVT3 (f : Fields) (ok : Ty → Bool) (k : VT3 → Instr) : Except Bad Instr :=
  match tyOf f.fnHi with
  | some t => verdict (ok t && f.x == 0 && f.imm == 0) do
    return k ⟨← ctl true f, t, ← vreg f.d, ← vreg f.a, ← vreg f.b⟩
  | none => .error .c01
def dVT2 (f : Fields) (k : VT2 → Instr) : Except Bad Instr :=
  match tyOf f.fnHi with
  | some t => verdict (t.isFp && f.x == 0 && f.imm == 0 && f.b == 0) do
    return k ⟨← ctl true f, t, ← vreg f.d, ← vreg f.a⟩
  | none => .error .c01
def dVF4 (f : Fields) (k : VF4 → Instr) : Except Bad Instr :=
  match tyOf f.fnHi, rndC f with
  | some t, some r => verdict (t.isFp && f.imm == 0) do
    return k ⟨← ctl true f, t, r, ← vreg f.d, ← vreg f.a, ← vreg f.b, ← vreg f.cb⟩
  | _, _ => .error .c01
def dVCmp (f : Fields) : Except Bad Instr :=
  match tyOf f.fnHi, fcondOf f.fn4 with
  | some t, some c =>
    if (t.isInt || t.isFp) && c != .un && c != .or && f.x.extractLsb' 2 9 == 0 && f.imm == 0 then
      match (f.x.extractLsb' 0 2).toNat with
      | 0 => verdict true do return .vcmp ⟨← ctl true f, t, c, .mask (← vreg f.d), ← vreg f.a, ← vreg f.b⟩
      | 1 => verdict true do return .vcmp ⟨← ctl true f, t, c, .any (← ereg f.d), ← vreg f.a, ← vreg f.b⟩
      | 2 => verdict true do return .vcmp ⟨← ctl true f, t, c, .all (← ereg f.d), ← vreg f.a, ← vreg f.b⟩
      | _ => .error .c01
    else .error .c01
  | _, _ => .error .c01
def dV4 (f : Fields) (k : V4 → Instr) : Except Bad Instr :=
  verdict (f.imm == 0 && f.rc == 0) do
    return k ⟨← ctl true f, ← vreg f.d, ← vreg f.a, ← vreg f.b, ← vreg f.cb⟩
def dVRed (f : Fields) : Except Bad Instr :=
  match tyOf f.fnHi, redOpOf f.fn4 with
  | some t, some o =>
    if t.isFp && o == .sum then
      match rndF f with
      | some r => verdict (f.imm == 0 && f.b == 0) do
        return .vred ⟨← ctl true f, t, o, r, ← vreg f.d, ← vreg f.a⟩
      | none => .error .c01
    else verdict ((t.isInt || t.isFp) && f.x == 0 && f.imm == 0 && f.b == 0) do
        return .vred ⟨← ctl true f, t, o, .rne, ← vreg f.d, ← vreg f.a⟩
  | _, _ => .error .c01
/-- The conversions' bytes B and C are zero without stochastic rounding (R111, R202). -/
def cvt01 (f : Fields) (s d : Ty) (r : Rnd) : Bool :=
  s != d && (if r == .sr then !(s.isInt && d.isInt) else f.b == 0 && f.cb == 0)
def dFCvt (f : Fields) : Except Bad Instr :=
  match tyOf f.fnHi, tyOf f.fn4, rndOf f.rc with
  | some s, some d, some r => verdict (cvt01 f s d r && f.imm == 0) do
    return .fcvt ⟨← ctl false f, s, d, r, ← sop f.d, ← sop f.a, ← sop f.b, ← sop f.cb⟩
  | _, _, _ => .error .c01
def dVCvt (f : Fields) : Except Bad Instr :=
  match tyOf f.fnHi, tyOf f.fn4, rndOf f.rc with
  | some s, some d, some r =>
    let p := f.imm.extractLsb' 0 3
    verdict (cvt01 f s d r && f.imm.extractLsb' 3 29 == 0 && p.toNat < cvtParts s d) do
    return .vcvt ⟨← ctl true f, s, d, r, ← vreg f.d, ← vreg f.a, ← sop f.b, ← sop f.cb, p⟩
  | _, _, _ => .error .c01
def dSolve (f : Fields) (k : SolveI → Instr) : Except Bad Instr :=
  verdict (f.rc == 0 && f.imm == 0) do
    return k ⟨← ctl true f, ← sreg f.d, ← sreg f.a, ← sreg f.b, ← sreg f.cb⟩
/-- Copies (R229 to R232, R399): `grp` for the group forms, `no4` where 4-bit formats are refused. -/
def dCpy (f : Fields) (grp no4 : Bool) (k : CpyI → Instr) : Except Bad Instr :=
  match rndOf f.rc with
  | none => .error .c01
  | some r =>
    let bit (n : Nat) : Bool := f.imm.extractLsb' n 1 == 1
    let sf := efmtOf (f.imm.extractLsb' 0 4)
    let df := efmtOf (f.imm.extractLsb' 4 4)
    verdict (f.imm.extractLsb' 15 17 == 0 &&
        (if bit 8 then df != .q4 && sf != df else sf == .i8 && df == .i8 && r == .rne) &&
        (!grp || (!bit 9 && !bit 10)) && (!no4 || (sf.bits != 4 && df.bits != 4))) do
      let c ← ctl true f
      let d ← sreg f.d
      let a ← sreg f.a
      let b ← sreg f.b
      let cc ← sreg f.cb
      if (if bit 14 || r == .sr then 1 ≤ cc.toNat && cc.toNat ≤ 0x3D else cc == 0) &&
         (!grp || (1 ≤ b.toNat && b.toNat ≤ 0x3E)) then
        some (k ⟨c, r, d, a, b, cc, bit 14, bit 13, bit 12, bit 11, bit 10, bit 9, bit 8, df, sf⟩)
      else none
def dTMem (f : Fields) (t o : BitVec 8) (k : TMem → Instr) : Except Bad Instr :=
  verdict (f.x == 0 && o == 0 && f.b == 0 && f.imm.extractLsb' 5 27 == 0) do
    return k ⟨← ctl true f, ← treg t, f.imm.extractLsb' 0 5⟩
def dMMem (f : Fields) (t o : BitVec 8) (k : MMem → Instr) : Except Bad Instr :=
  verdict (f.x == 0 && o == 0 && f.b == 0 && f.imm.extractLsb' 5 27 == 0) do
    let n := f.imm.extractLsb' 0 5
    if n.toNat % 2 == 0 then return k ⟨← ctl true f, ← areg t, n⟩ else none
def dMma (f : Fields) : Except Bad Instr :=
  verdict (f.x == 0 && f.imm.extractLsb' 16 16 == 0) do
    return .mma ⟨← ctl true f, ← areg f.d, ← treg f.a, ← treg f.b, ← sreg (f.imm.extractLsb' 0 8),
      ← sreg (f.imm.extractLsb' 8 8)⟩
/-- Sampling chunk forms (R278): `last` is the offset of the group's last register. -/
def dSamp (f : Fields) (zero : Bool) (last : Nat) (k : SampI → Instr) : Except Bad Instr :=
  let n := f.imm.extractLsb' 0 13
  verdict (f.rc == 0 && f.imm.extractLsb' 20 12 == 0 && 1 ≤ n.toNat && n.toNat ≤ 4096 && (!zero || f.cb == 0)) do
    let cc ← sreg f.cb
    if cc.toNat + last ≤ 63 then
      return k ⟨← ctl true f, ← qreg f.d, ← sreg f.a, ← sreg f.b, cc, n, f.imm.extractLsb' 13 7⟩
    else none
def dSlot (f : Fields) (k : BitVec 2 → Ctl → Instr) : Except Bad Instr :=
  verdict (f.x == 0 && f.d == 0 && f.a == 0 && f.b == 0 && f.imm.extractLsb' 2 30 == 0) do
    return k (f.imm.extractLsb' 0 2) (← ctl false f)

/-! ### The opcode map (R85) -/

/-- FN[6:0] of majors 0x01 and 0x02 (R96), in order. -/
def intR : List (Alu3 → Instr) :=
  [.add, .sub, .mul, .mulhi, .mulhn, .div, .divn, .rem, .remn, .and, .or, .xor, .andn, .orn, .shl, .shr, .sar, .rol,
   .ror, .min, .minn, .max, .maxn]
def intI : List (AluI → Instr) :=
  [.addImm, .subImm, .mulImm, .mulhiImm, .mulhnImm, .divImm, .divnImm, .remImm, .remnImm, .andImm, .orImm, .xorImm,
   .andnImm, .ornImm, .shlImm, .shrImm, .sarImm, .rolImm, .rorImm, .minImm, .minnImm, .maxImm, .maxnImm]
/-- FN[6:0] of major 0x03 (R98): 0x00-0x06, then the extensions, whose FN[7] is 0. -/
def unOps : List (Un → Instr) := [.clz, .ctz, .popc, .brev, .bswap, .abs, .neg]
def extOps : List (DA → Instr) := [.sextI8, .sextI16, .sextI32, .zextN8, .zextN16, .zextN32]

def decode0 (f : Fields) : Except Bad Instr :=
  match f.op with
  | 0x01#8 => match intR[f.fnLo.toNat]? with | some k => dAlu3 f k | none => .error .c01
  | 0x02#8 => match intI[f.fnLo.toNat]? with | some k => dAluI f k | none => .error .c01
  | 0x03#8 =>
    match unOps[f.fnLo.toNat]? with
    | some k => dUn f k
    | none => if f.fn7 then .error .c01 else
      match extOps[f.fnLo.toNat - 7]? with | some k => dDA f k | none => .error .c01
  | 0x04#8 =>
    match f.fn with
    | 0x00#8 => dDA f .mov
    | 0x01#8 => verdict (f.x == 0 && f.a == 0 && f.b == 0) do return .movi ⟨← ctl false f, ← sop f.d, f.imm⟩
    | 0x02#8 => verdict (f.x == 0 && f.a == 0 && f.b == 0) do return .movhi ⟨← ctl false f, ← sreg f.d, f.imm⟩
    | 0x03#8 => verdict (f.x.extractLsb' 2 9 == 0) do
        return .lea ⟨← ctl false f, ← sop f.d, ← sop f.a, ← sop f.b, f.x.extractLsb' 0 2, f.imm⟩
    | _ => .error .c01
  | 0x05#8 => match icondOf f.fn4 with
    | some c => verdict (f.fn.extractLsb' 4 3 == 0 && f.x == 0 && f.imm == 0) do
        return .cmp ⟨← ctl false f, f.fn7, c, ← preg f.d, ← sop f.a, ← sop f.b⟩
    | none => .error .c01
  | 0x06#8 => match icondOf f.fn4 with
    | some c => verdict (f.fn.extractLsb' 4 3 == 0 && f.x == 0 && f.b == 0) do
        return .cmpImm ⟨← ctl false f, f.fn7, c, ← preg f.d, ← sop f.a, f.imm⟩
    | none => .error .c01
  | 0x07#8 =>
    match f.fn with
    | 0x00#8 => dP3 f .pand
    | 0x01#8 => dP3 f .por
    | 0x02#8 => dP3 f .pxor
    | 0x03#8 => dP3 f .pandn
    | 0x04#8 => dP2 f .pnot
    | 0x05#8 => dP2 f .pmov
    | 0x06#8 => dD1 f .pget
    | 0x07#8 => verdict (f.x == 0 && f.d == 0 && f.b == 0 && f.imm.extractLsb' 7 25 == 0) do
        return .pset ⟨← ctl false f, ← sop f.a, f.imm.extractLsb' 0 7⟩
    | _ => .error .c01
  | 0x08#8 => verdict (f.fn == 0 && f.rc == 0 && f.imm == 0) do
      return .sel ⟨← ctl false f, ← sop f.d, ← sop f.a, ← sop f.b, ← preg f.cb⟩
  | 0x09#8 =>
    match f.fn with
    | 0x00#8 => verdict (f.x == 0 && f.imm == 0 && f.b == 0) do return .qcnt ⟨← ctl false f, ← sop f.d, ← qreg f.a⟩
    | 0x01#8 => verdict (f.x == 0 && f.imm == 0 && f.b == 0) do return .gete ⟨← ctl false f, ← preg f.d, ← ereg f.a⟩
    | _ => .error .c01
  | _ => .error .c01

def decode1 (f : Fields) : Except Bad Instr :=
  match f.op with
  | 0x10#8 =>
    match f.fnLo with
    | 0x00#7 => dF2 f .fadd
    | 0x01#7 => dF2 f .fsub
    | 0x02#7 => dF2 f .fmul
    | 0x03#7 => dF2 f .fdiv
    | 0x04#7 => dF1 f .fsqrt
    | 0x05#7 => dF2n f .fmin
    | 0x06#7 => dF2n f .fmax
    | 0x07#7 => dF1n f .fabs
    | 0x08#7 => dF1n f .fneg
    | 0x09#7 => dF2n f .fcopysign
    | _ => .error .c01
  | 0x11#8 =>
    match f.fnLo with
    | 0x00#7 => dF3 f .ffma
    | 0x01#7 => dF3 f .ffms
    | 0x02#7 => dF3 f .fnma
    | _ => .error .c01
  | 0x12#8 => match fcondOf f.fn4 with
    | some c => verdict (f.fn.extractLsb' 3 4 == 0 && f.x == 0 && f.imm == 0) do
        return .fcmp ⟨← ctl false f, f.fn7, c, ← preg f.d, ← sop f.a, ← sop f.b⟩
    | none => .error .c01
  | 0x13#8 => dFCvt f
  | 0x14#8 => if f.fnLo == 0 then dF1n f .fclass else .error .c01
  | 0x18#8 => if f.fn == 0 then dOff f .br else .error .c01
  | 0x19#8 => if f.fn == 0 then dAOff f .jmp else .error .c01
  | 0x1A#8 => if f.fn == 0 then dOff f .call else .error .c01
  | 0x1B#8 => if f.fn == 0 then dAOff f .callr else .error .c01
  | 0x1C#8 => if f.fn == 0 then dC0 f .ret else .error .c01
  | 0x1D#8 =>
    verdict (f.fn == 0 && f.x == 0 && f.d == 0 && f.a == 0 && f.b == 0 &&
        (f.imm == 16 || f.imm == 24 || f.imm == 32 || f.imm == 40 || f.imm == 48)) do
      return .frame ⟨← ctl false f, f.imm⟩
  | 0x1E#8 =>
    match f.fn with
    | 0x00#8 => verdict (f.x == 0 && f.a == 0 && f.b == 0 && f.imm.extractLsb' 10 22 == 0) do
        return .movs ⟨← ctl false f, ← sop f.d, f.imm.extractLsb' 0 10⟩
    | 0x01#8 => verdict (f.x == 0 && f.d == 0 && f.b == 0 && f.imm.extractLsb' 10 22 == 0) do
        return .movsw ⟨← ctl false f, ← sop f.a, f.imm.extractLsb' 0 10⟩
    | _ => .error .c01
  | 0x1F#8 =>
    match f.fn with
    | 0x00#8 => dOff f .trap
    | 0x01#8 => dOff f .brk
    | 0x02#8 => dAB f .synci
    | _ => .error .c01
  | _ => .error .c01

def decode2 (f : Fields) : Except Bad Instr :=
  match f.op with
  | 0x20#8 => dLd f
  | 0x21#8 => dSt f
  | 0x22#8 => dPair f Ord.onLoad .ldp
  | 0x23#8 => dPair f Ord.onStore .stp
  | 0x24#8 => verdict (f.fn == 0 && f.x == 0 && f.b == 0 && f.d.toNat < 3) do
      return .pf ⟨← ctl false f, f.d.setWidth 2, ← sop f.a, f.imm⟩
  | 0x25#8 =>
    match f.fn with
    | 0x00#8 => dAB f .cflush
    | 0x01#8 => dAB f .cclean
    | 0x02#8 => dAB f .cinv
    | 0x03#8 => dAB f .czero
    | _ => .error .c01
  | 0x28#8 =>
    match f.fnLo with
    | 0x00#7 => dAmo f .amoAdd
    | 0x01#7 => dAmo f .amoAnd
    | 0x02#7 => dAmo f .amoOr
    | 0x03#7 => dAmo f .amoXor
    | 0x04#7 => dAmo f .amoMin
    | 0x05#7 => dAmo f .amoMinn
    | 0x06#7 => dAmo f .amoMax
    | 0x07#7 => dAmo f .amoMaxn
    | 0x08#7 => dAmo f .amoSwap
    | 0x09#7 => dCas f
    | _ => .error .c01
  | 0x29#8 =>
    match f.fnLo with
    | 0x00#7 => dAmoNf f .amoAddNf
    | 0x01#7 => dAmoNf f .amoAndNf
    | 0x02#7 => dAmoNf f .amoOrNf
    | 0x03#7 => dAmoNf f .amoXorNf
    | 0x04#7 => dAmoNf f .amoMinNf
    | 0x05#7 => dAmoNf f .amoMinnNf
    | 0x06#7 => dAmoNf f .amoMaxNf
    | 0x07#7 => dAmoNf f .amoMaxnNf
    | _ => .error .c01
  | 0x2A#8 =>
    match f.fn with
    | 0x00#8 => dFamo f .famoFaddF32
    | 0x01#8 => dFamo f .famoFaddF64
    | 0x02#8 => dFamo f .famoFaddBf16x2
    | 0x03#8 => dFamo f .famoFminF32
    | 0x04#8 => dFamo f .famoFmaxF32
    | _ => .error .c01
  | 0x2B#8 =>
    match f.fn with
    | 0x00#8 => dFamoNf f .famoFaddF32Nf
    | 0x01#8 => dFamoNf f .famoFaddF64Nf
    | 0x02#8 => dFamoNf f .famoFaddBf16x2Nf
    | 0x03#8 => dFamoNf f .famoFminF32Nf
    | 0x04#8 => dFamoNf f .famoFmaxF32Nf
    | _ => .error .c01
  | _ => .error .c01

def decode3 (f : Fields) : Except Bad Instr :=
  match f.op with
  | 0x30#8 => match layM f with
    | some (o, s) => verdict (f.fn == 0 && o != .rlx && f.d == 0 && f.a == 0 && f.b == 0 && f.imm == 0) do
        return .fence ⟨← ctl false f, o, s⟩
    | none => .error .c01
  | 0x31#8 =>
    match f.fn with
    | 0x00#8 => dABOff f .barInit
    | 0x01#8 => verdict (f.x == 0 && f.b == 0) do return .barArrive ⟨← ctl false f, ← sop f.d, ← sop f.a, f.imm⟩
    | 0x02#8 => verdict (f.x == 0) do
        return .barArrivex ⟨← ctl false f, ← sop f.d, ← sop f.a, ← sop f.b, f.imm⟩
    | 0x03#8 => dABOff f .barExpect
    | 0x04#8 => dABOff f .barWait
    | 0x05#8 => verdict (f.x == 0) do
        return .barTest ⟨← ctl false f, ← preg f.d, ← sop f.a, ← sop f.b, f.imm⟩
    | _ => .error .c01
  | 0x32#8 => dHbar f
  | 0x33#8 => match engOf f.fn with
    | some e => verdict (f.x == 0 && f.d == 0 && f.imm == 0 && (e == .chisel || f.b == 0)) do
        return .tlwait ⟨← ctl false f, e, ← sop f.a, ← sop f.b⟩
    | none => .error .c01
  | 0x34#8 => match engOf f.fn with
    | some e => verdict (f.x == 0 && f.a == 0 && f.imm.extractLsb' 2 30 == 0 && f.imm.extractLsb' 0 2 != 3 &&
          (e == .chisel || f.b == 0)) do
        return .tlget ⟨← ctl false f, e, ← sop f.d, ← sop f.b, f.imm.extractLsb' 0 2⟩
    | none => .error .c01
  | 0x38#8 => verdict (f.fn == 0 && f.x == 0 && f.d == 0 && f.imm == 0) do
      return .send ⟨← ctl false f, ← sop f.a, ← gbase f.b⟩
  | 0x39#8 =>
    match f.fn with
    | 0x00#8 =>
      let queue := f.imm.extractLsb' 0 4
      let ring := f.imm.extractLsb' 8 3
      let timed := f.imm.extractLsb' 11 1 == 1
      let grp := f.imm.extractLsb' 12 3
      match landOf (f.imm.extractLsb' 4 4) with
      | some l =>
        verdict (f.x == 0 && f.d == 0 && f.imm.extractLsb' 15 17 == 0 && (l == .ring || (ring == 0 && f.b == 0)) &&
            (timed || grp == 0)) do
          let c ← ctl false f
          let a ← sop f.a
          let b ← sop f.b
          if queue == 15 then none else some (.bind ⟨c, a, b, queue, l, ring, timed, grp⟩)
      | none => .error .c01
    | 0x01#8 => verdict (f.x == 0 && f.d == 0 && f.a == 0 && f.b == 0 && f.imm.extractLsb' 4 28 == 0) do
        let c ← ctl false f
        let q := f.imm.extractLsb' 0 4
        if q == 15 then none else some (.unbind ⟨c, q⟩)
    | _ => .error .c01
  | 0x3A#8 =>
    match f.fn with
    | 0x00#8 => dC0 f .done
    | 0x01#8 => dC0 f .doneTask
    | 0x02#8 => verdict (f.x == 0 && f.d == 0 && f.a == 0 && f.b == 0 && f.imm.extractLsb' 16 16 == 0) do
        return .yield ⟨← ctl false f, f.imm.extractLsb' 0 16⟩
    | _ => .error .c01
  | 0x3B#8 => verdict (f.fn == 0 && f.rc == 0 && f.imm == 0) do
      return .spawn ⟨← ctl false f, ← preg7 f.d, ← sop f.a, ← gbase f.b, ← sop f.cb⟩
  | 0x3C#8 => verdict (f.fn == 0 && f.rc == 0 && f.d == 0 && f.imm.extractLsb' 4 28 == 0) do
      let q := f.imm.extractLsb' 0 4
      if q == 15 then none else return .callat ⟨← ctl false f, ← sop f.a, ← gbase f.b, ← sop f.cb, q⟩
  | 0x3D#8 => verdict (f.fn == 0 && f.x == 0 && f.d == 0 && f.a == 0 && f.imm == 0) do
      return .reply ⟨← ctl false f, ← gbase f.b⟩
  | 0x3E#8 => verdict (f.fn == 0 && f.x == 0) do
      return .fork ⟨← ctl false f, ← preg7 f.d, ← sop f.a, ← gbase f.b, f.imm⟩
  | 0x3F#8 => if f.fn == 0 then dAOff f .join else .error .c01
  | _ => .error .c01

def decode4 (f : Fields) : Except Bad Instr :=
  match f.op with
  | 0x40#8 =>
    match f.fn with
    | 0x00#8 => dDA f .vtset
    | 0x01#8 => dDA f .vtadv
    | _ => .error .c01
  | 0x41#8 =>
    match f.fn with
    | 0x00#8 => dA1 f .igrp
    | 0x01#8 => verdict (f.x == 0 && f.d == 0 && f.a == 0 && f.b == 0 && f.imm.extractLsb' 3 29 == 0) do
        return .ijoin ⟨← ctl false f, f.imm.extractLsb' 0 3⟩
    | 0x02#8 => verdict (f.x == 0 && f.d == 0 && f.a == 0 && f.b == 0 && f.imm.extractLsb' 3 29 == 0) do
        return .ileave ⟨← ctl false f, f.imm.extractLsb' 0 3⟩
    | _ => .error .c01
  | 0x42#8 =>
    match f.fn with
    | 0x00#8 => dAB f .ireg
    | 0x01#8 => dA1 f .idrop
    | _ => .error .c01
  | 0x43#8 => if f.fn == 0 then dAB f .ist else .error .c01
  | 0x44#8 =>
    match f.fn with
    | 0x00#8 => verdict (f.rc == 0 && f.d == 0 && f.imm == 0) do
        return .ildS ⟨← ctl false f, ← sop f.a, ← sop f.b, ← sop f.cb⟩
    | 0x01#8 => verdict (f.rc == 0 && f.d == 0 && f.imm == 0) do
        return .ildU ⟨← ctl false f, ← sop f.a, ← sop f.b, ← sop f.cb⟩
    | _ => .error .c01
  | 0x45#8 => verdict (f.fn == 0 && f.x == 0 && f.b == 0 && f.imm.extractLsb' 3 29 == 0 &&
        (f.imm.extractLsb' 0 3).toNat ≤ 5) do
      return .iqry ⟨← ctl false f, ← sop f.d, ← sop f.a, f.imm.extractLsb' 0 3⟩
  | _ => .error .c01

def decode6 (f : Fields) : Except Bad Instr :=
  match f.op with
  | 0x60#8 =>
    match f.fn with
    | 0x00#8 => dVMem f .vld
    | 0x01#8 => dVMemT f .vldT
    | _ => .error .c01
  | 0x61#8 =>
    match f.fn with
    | 0x00#8 => dVMem f .vst
    | 0x01#8 => dVMemT f .vstT
    | _ => .error .c01
  | 0x62#8 =>
    let lane := f.imm.extractLsb' 0 4
    match f.fn with
    | 0x00#8 => dV2 f .vmov
    | 0x01#8 => match xTy f with
      | some t => verdict (f.b == 0 && f.imm == 0) do return .vdup ⟨← ctl true f, t, ← vreg f.d, ← sop f.a⟩
      | none => .error .c01
    | 0x02#8 => match xTy f with
      | some t => verdict (f.b == 0 && f.imm.extractLsb' 4 28 == 0 && lane.toNat < t.lanes) do
          return .vins ⟨← ctl true f, t, ← vreg f.d, ← sop f.a, lane⟩
      | none => .error .c01
    | 0x03#8 => match xTy f with
      | some t => verdict (f.b == 0 && f.imm.extractLsb' 4 28 == 0 && lane.toNat < t.lanes) do
          return .vext ⟨← ctl true f, t, ← qreg f.d, ← vreg f.a, lane⟩
      | none => .error .c01
    | _ => .error .c01
  | 0x63#8 =>
    match f.fn4 with
    | 0x0#4 => dVF3 f .vadd
    | 0x1#4 => dVF3 f .vsub
    | 0x2#4 => dVF3 f .vmul
    | 0x3#4 => dVF3 f .vdiv
    | 0x4#4 => dVF2 f .vsqrt
    | 0x5#4 => dVT3 f Ty.isFp .vmin
    | 0x6#4 => dVT3 f Ty.isFp .vmax
    | 0x7#4 => dVT2 f .vabs
    | 0x8#4 => dVT2 f .vneg
    | _ => .error .c01
  | 0x64#8 =>
    match f.fn4 with
    | 0x0#4 => dVF4 f .vfma
    | 0x1#4 => dVF4 f .vfms
    | 0x2#4 => dVF4 f .vnma
    | _ => .error .c01
  | 0x65#8 =>
    match f.fn4 with
    | 0x0#4 => dVT3 f Ty.isInt .viadd
    | 0x1#4 => dVT3 f Ty.isInt .visub
    | 0x2#4 => dVT3 f Ty.isInt .vimul
    | 0x3#4 => dVT3 f Ty.isInt .vishl
    | 0x4#4 => dVT3 f Ty.isInt .vishr
    | 0x5#4 => dVT3 f Ty.isInt .visar
    | 0x6#4 => dVT3 f Ty.isInt .viand
    | 0x7#4 => dVT3 f Ty.isInt .vior
    | 0x8#4 => dVT3 f Ty.isInt .vixor
    | 0x9#4 => dVT3 f Ty.isInt .vimin
    | 0xA#4 => dVT3 f Ty.isInt .vimax
    | _ => .error .c01
  | 0x66#8 => dVCmp f
  | 0x67#8 => if f.fn == 0 then dV4 f .vsel else .error .c01
  | 0x68#8 => if f.fn == 0 then dV4 f .vperm else .error .c01
  | 0x69#8 => dVRed f
  | 0x6A#8 => dVCvt f
  | 0x6B#8 =>
    match f.fn with
    | 0x00#8 => dV2 f .vexp2
    | 0x01#8 => dV2 f .vlog2
    | 0x02#8 => dV2 f .vrcp
    | 0x03#8 => dV2 f .vrsq
    | _ => .error .c01
  | 0x6C#8 => verdict (f.fn == 0 && f.x == 0 && f.d == 0 && f.b == 0 && f.imm == 0) do
      return .vqtbl ⟨← ctl true f, ← vreg f.a⟩
  | 0x6D#8 =>
    verdict (f.fn.extractLsb' 1 7 == 0 && f.rc == 0 && f.imm == 0) do
      return .vdot4 ⟨← ctl true f, f.fn == 1, ← vreg f.d, ← vreg f.a, ← vreg f.b, ← vreg f.cb⟩
  | _ => .error .c01

def decode8 (f : Fields) : Except Bad Instr :=
  match f.op with
  | 0x80#8 => if f.fn == 0 then dSolve f .luf else .error .c01
  | 0x81#8 => if f.fn == 0 then dSolve f .lus else .error .c01
  | 0x88#8 => if f.fn == 0 then dCpy f false false .cpy else .error .c01
  | 0x89#8 => if f.fn == 0 then dCpy f true false .cpy2 else .error .c01
  | 0x8A#8 => if f.fn == 0 then dCpy f true true .cpyg else .error .c01
  | 0x8B#8 => if f.fn == 0 then dCpy f true true .cpys else .error .c01
  | 0x8C#8 => verdict (f.fn == 0 && f.x == 0 && f.d == 0 && f.imm == 0) do
      return .cpypf ⟨← ctl true f, ← sreg f.a, ← sreg f.b⟩
  | 0x8D#8 =>
    match f.fn with
    | 0x00#8 => verdict (f.x == 0 && f.a == 0 && f.b == 0 && f.imm.extractLsb' 2 30 == 0 &&
          f.imm.extractLsb' 0 2 != 3) do
        return .ttget ⟨← ctl true f, ← qreg f.d, f.imm.extractLsb' 0 2⟩
    | 0x01#8 => verdict (f.x == 0 && f.d == 0 && f.b == 0 && f.imm.extractLsb' 3 29 == 0 &&
          f.imm.extractLsb' 0 1 == 0) do
        return .ttset ⟨← ctl true f, ← sreg f.a, f.imm.extractLsb' 1 1 == 1, f.imm.extractLsb' 2 1 == 1⟩
    | _ => .error .c01
  | _ => .error .c01

noncomputable def decode9 (f : Fields) : Except Bad Instr :=
  if f.fn != 0 then .error .c01 else
  match f.op with
  | 0x90#8 => verdict (f.x == 0 && f.b == 0 && f.imm == 0) do return .tcfg ⟨← ctl false f, ← treg f.d, ← sop f.a⟩
  | 0x91#8 => verdict (f.x == 0 && f.b == 0 && f.imm == 0) do return .tcfgr ⟨← ctl false f, ← sop f.d, ← treg f.a⟩
  | 0x92#8 => dTMem f f.d f.a .tld
  | 0x93#8 => dTMem f f.a f.d .tst
  | 0x94#8 => verdict (f.x == 0 && f.a == 0 && f.b == 0 && f.imm == 0) do return .tzero ⟨← ctl true f, ← treg f.d⟩
  | 0x95#8 => dMma f
  | 0x96#8 => verdict (f.x == 0 && f.a == 0 && f.b == 0 && f.imm == 0) do return .mzero ⟨← ctl true f, ← areg f.d⟩
  | 0x97#8 => dMMem f f.a f.d .msta
  | 0x98#8 => dMMem f f.d f.a .mlda
  | _ => .error .c01

noncomputable def decodeA (f : Fields) : Except Bad Instr :=
  match f.op with
  | 0xA0#8 => verdict (f.fn == 0 && f.x == 0 && f.b == 0 && f.imm.extractLsb' 1 31 == 0) do
      return .armenter ⟨← ctl false f, ← sreg f.d, ← sreg f.a, f.imm.extractLsb' 0 1 == 1⟩
  | 0xA1#8 => verdict (f.fn == 0 && f.x == 0 && f.a == 0 && f.b == 0 && f.imm.extractLsb' 3 29 == 0 &&
        (f.imm.extractLsb' 0 3).toNat ≤ 4) do
      return .armstat ⟨← ctl false f, ← sop f.d, f.imm.extractLsb' 0 3⟩
  | 0xA8#8 => if f.fn == 0 then dDA f .chopen else .error .c01
  | 0xA9#8 => if f.fn == 0 then dA1 f .chclose else .error .c01
  | 0xAA#8 => if f.fn == 0 then dAB f .chstep else .error .c01
  | 0xAB#8 =>
    let n := f.imm.extractLsb' 0 11
    verdict (f.fn == 0 && f.x == 0 && f.imm.extractLsb' 11 21 == 0 && 1 ≤ n.toNat && n.toNat ≤ 1024) do
      return .chmask ⟨← ctl false f, ← sop f.d, ← sop f.a, ← sop f.b, n⟩
  | 0xAC#8 =>
    match f.fn with
    | 0x00#8 => dA1 f .chsave
    | 0x01#8 => verdict (f.x == 0 && f.d == 0 && f.b == 0 && f.imm.extractLsb' 3 29 == 0) do
        return .chload ⟨← ctl false f, ← sop f.a, f.imm.extractLsb' 0 3⟩
    | _ => .error .c01
  | 0xAD#8 => verdict (f.fn == 0 && f.x == 0 && f.b == 0 && f.imm.extractLsb' 2 30 == 0 &&
        f.imm.extractLsb' 0 2 != 3) do
      return .chstat ⟨← ctl false f, ← sop f.d, ← sop f.a, f.imm.extractLsb' 0 2⟩
  | 0xAE#8 =>
    match f.fn with
    | 0x00#8 => dSamp f true 0 .smaxl
    | 0x01#8 => dSamp f false 1 .swsum
    | 0x02#8 => verdict (f.x == 0 && f.imm == 0) do
        return .sdraw ⟨← ctl true f, ← qreg f.d, ← sreg f.a, ← sreg f.b⟩
    | _ => .error .c01
  | 0xAF#8 =>
    match f.fn with
    | 0x00#8 => dSamp f false 4 .spick
    | 0x01#8 => dSamp f false 0 .sgreedy
    | _ => .error .c01
  | _ => .error .c01

noncomputable def decodeE (f : Fields) : Except Bad Instr :=
  if f.fn != 0 then .error .c01 else
  match f.op with
  | 0xE0#8 =>
    let n := f.imm.extractLsb' 10 2
    let num := f.imm.extractLsb' 0 10
    if f.imm.extractLsb' 12 1 == 0 then
      verdict (f.x == 0 && f.a == 0 && f.b == 0 && f.imm.extractLsb' 13 19 == 0) do
        return .movcRead ⟨← ctl false f, ← sop f.d, n, num⟩
    else
      verdict (f.x == 0 && f.d == 0 && f.b == 0 && f.imm.extractLsb' 13 19 == 0) do
        return .movcWrite ⟨← ctl false f, ← sop f.a, n, num⟩
  | 0xE1#8 => dC0 f .eret
  | 0xE2#8 =>
    verdict (f.x == 0 && f.d == 0 && f.a == 0 && f.b == 0 && f.imm.extractLsb' 4 28 == 0) do
      let c ← ctl false f
      let n := f.imm.extractLsb' 0 2
      let replay := f.imm.extractLsb' 3 1 == 1
      if f.imm.extractLsb' 2 1 == 1 then return .resumeEnd ⟨c, n, replay⟩
      else if replay then return .resumeReplay ⟨c, n⟩ else return .resume ⟨c, n⟩
  | 0xE3#8 => verdict (f.x == 0 && f.a == 0 && f.b == 0 && f.imm.extractLsb' 2 30 == 0) do
      return .rearm ⟨← ctl false f, ← preg f.d, f.imm.extractLsb' 0 2⟩
  | 0xE4#8 => dSlot f (fun n c => .dropl ⟨c, n⟩)
  | 0xE5#8 => dAB f .xinv
  | 0xE6#8 => dD1 f .ckpt
  | 0xE7#8 => dA1 f .halt
  | 0xE8#8 => dA1 f .wake
  | _ => .error .c01

/-- Decoding of the fields: H.RSV is zero (R80), then the opcode map by its pages of sixteen. -/
noncomputable def decodeF (f : Fields) : Except Bad Instr :=
  if f.rsv != 0 then .error .c01 else
  match (f.op.extractLsb' 4 4).toNat with
  | 0x0 => decode0 f
  | 0x1 => decode1 f
  | 0x2 => decode2 f
  | 0x3 => decode3 f
  | 0x4 => decode4 f
  | 0x6 => decode6 f
  | 0x8 => decode8 f
  | 0x9 => decode9 f
  | 0xA => decodeA f
  | 0xE => decodeE f
  | _ => .error .c01

/-- Decoding of a word (R86, checks 3 and 6). -/
noncomputable def decode (w : IWord) : Except Bad Instr := decodeF (fields w)

/-- The word that twelve bytes hold, lowest address first: three little-endian 32-bit words, word 0 first (R77). -/
def wordOfBytes : List Byte → IWord
  | [] => 0
  | b :: bs => (wordOfBytes bs <<< 8) ||| b.setWidth 96

/-- The twelve bytes of a word, lowest address first (R77). -/
def bytesOfWord (w : IWord) : List Byte := (List.range 12).map fun n => w.extractLsb' (8 * n) 8

/-- The host's entry: the instruction of the table's row whose bits are w. Bit 0 is the least significant bit of word
0, so the bits are the word's own; the bytes are laid out as memory holds them and decoded from there. -/
noncomputable def decodeTableWord (_nbits w : Nat) : Option Instr :=
  match decode (wordOfBytes (bytesOfWord (BitVec.ofNat 96 w))) with
  | .ok i => some i
  | .error _ => none

/-- Check 4 of R86: the word names the chisel unit, which the 16S lacks (R3): CHOPEN to CHSTAT, and the chisel forms
of TLWAIT and TLGET. -/
def namesChisel (w : IWord) : Bool :=
  let f := fields w
  (0xA8 ≤ f.op.toNat && f.op.toNat ≤ 0xAD) || ((f.op == 0x33 || f.op == 0x34) && f.fn == 3)

/-- Check 5 of R86: the word is one of the privileged majors 0xE0-0xE8. -/
def isPrivileged (w : IWord) : Bool :=
  let f := fields w
  0xE0 ≤ f.op.toNat && f.op.toNat ≤ 0xE8

/-! ### The encoder -/

def eSop : SOp → BitVec 8
  | .s n => n.setWidth 8
  | .q n => 0x40#8 ||| n.setWidth 8
def eQ (n : QReg) : BitVec 8 := 0x40#8 ||| n.setWidth 8
def eBit (b : Bool) : BitVec 1 := if b then 1 else 0
def eTy : Ty → BitVec 4
  | .i8 => 0 | .n8 => 1 | .i16 => 2 | .n16 => 3 | .i32 => 4 | .n32 => 5 | .i64 => 6 | .n64 => 7
  | .f16 => 8 | .bf16 => 9 | .f32 => 10 | .f64 => 11 | .e4m3 => 12 | .e5m2 => 13
def eEfmt : Efmt → BitVec 4
  | .i8 => 0 | .n8 => 1 | .i16 => 2 | .n16 => 3 | .i32 => 4 | .f32 => 5 | .f16 => 6 | .bf16 => 7
  | .e4m3 => 8 | .e5m2 => 9 | .e3m2 => 10 | .e2m3 => 11 | .e2m1 => 12 | .log6 => 13 | .q4 => 14 | .f64 => 15
def eRnd : Rnd → BitVec 3
  | .rne => 0 | .rz => 1 | .ru => 2 | .rd => 3 | .rna => 4 | .sr => 5 | .dyn => 7
def eOrd : Ord → BitVec 3
  | .rlx => 0 | .acq => 1 | .rel => 2 | .ar => 3 | .sc => 4
def eScope : Scope → BitVec 3
  | .th => 0 | .core => 1 | .cl => 2 | .die => 3 | .pkg => 4 | .sys => 5
def eWidth : Width → BitVec 8
  | .i8 => 0 | .n8 => 1 | .i16 => 2 | .n16 => 3 | .i32 => 4 | .n32 => 5 | .d64 => 6
def eICond : ICond → BitVec 4
  | .eq => 0 | .ne => 1 | .lt => 2 | .le => 3 | .gt => 4 | .ge => 5 | .ltn => 6 | .len => 7 | .gtn => 8 | .gen => 9
def eFCond : FCond → BitVec 4
  | .eq => 0 | .ne => 1 | .lt => 2 | .le => 3 | .gt => 4 | .ge => 5 | .un => 6 | .or => 7
def eEng : Eng → BitVec 8
  | .copy => 0 | .matrix => 1 | .vector => 2 | .chisel => 3
def eLevel : Level → BitVec 2
  | .team => 0 | .die => 1 | .pkg => 2
def eRed : Red → BitVec 2
  | .none => 0 | .sum => 1 | .min => 2 | .max => 3
def eLand : Land → BitVec 4
  | .regs => 0 | .src => 1 | .ring => 2
def eRedOp : RedOp → BitVec 4
  | .sum => 0 | .min => 1 | .max => 2

/-- The fields OP, FN, guard and hints of an instruction. -/
def base (op fn : BitVec 8) (c : Ctl) : Fields :=
  let f : Fields := { op := op, fn := fn, delay := c.hints.delay, yield := eBit c.hints.yield,
                      ra := eBit c.hints.reuseA, rb := eBit c.hints.reuseB }
  match c.guard with
  | .always => f
  | .pred n g => { f with gidx := n.setWidth 4, gneg := eBit g }
  | .eng n g => { f with gidx := 8#4 ||| n.setWidth 4, gneg := eBit g }

/-- FN of the forms whose FN[7] is a width bit. -/
def fnW (w : Bool) (k : BitVec 7) : BitVec 8 := eBit w ++ k
def xC (r : BitVec 3) (c : BitVec 8) : BitVec 11 := r ++ c
def xF (r : Rnd) : BitVec 11 := (eRnd r).setWidth 11
def xM (o : Ord) (s : Scope) : BitVec 11 := (0#5 ++ eScope s) ++ eOrd o

def eAlu3 (k : BitVec 7) (x : Alu3) : Fields :=
  { base 1 (fnW x.w32 k) x.c with d := eSop x.d, a := eSop x.a, b := eSop x.b }
def eAluI (k : BitVec 7) (x : AluI) : Fields :=
  { base 2 (fnW x.w32 k) x.c with d := eSop x.d, a := eSop x.a, imm := x.imm }
def eUn (k : BitVec 7) (x : Un) : Fields := { base 3 (fnW x.w32 k) x.c with d := eSop x.d, a := eSop x.a }
def eDA (op fn : BitVec 8) (x : DA) : Fields := { base op fn x.c with d := eSop x.d, a := eSop x.a }
def eD1 (op fn : BitVec 8) (x : D1) : Fields := { base op fn x.c with d := eSop x.d }
def eA1 (op fn : BitVec 8) (x : A1) : Fields := { base op fn x.c with a := eSop x.a }
def eAB (op fn : BitVec 8) (x : AB) : Fields := { base op fn x.c with a := eSop x.a, b := eSop x.b }
def eC0 (op fn : BitVec 8) (x : C0) : Fields := base op fn x.c
def eOff (op fn : BitVec 8) (x : Off) : Fields := { base op fn x.c with imm := x.off }
def eAOff (op fn : BitVec 8) (x : AOff) : Fields := { base op fn x.c with a := eSop x.a, imm := x.off }
def eP3 (fn : BitVec 8) (x : P3) : Fields :=
  { base 7 fn x.c with d := x.d.setWidth 8, a := x.a.setWidth 8, b := x.b.setWidth 8 }
def eP2 (fn : BitVec 8) (x : P2) : Fields := { base 7 fn x.c with d := x.d.setWidth 8, a := x.a.setWidth 8 }
def eF2 (k : BitVec 7) (x : F2) : Fields :=
  { base 0x10 (fnW x.f64 k) x.c with d := eSop x.d, a := eSop x.a, b := eSop x.b, x := xF x.rnd }
def eF1 (k : BitVec 7) (x : F1) : Fields :=
  { base 0x10 (fnW x.f64 k) x.c with d := eSop x.d, a := eSop x.a, x := xF x.rnd }
def eF2n (k : BitVec 7) (x : F2n) : Fields :=
  { base 0x10 (fnW x.f64 k) x.c with d := eSop x.d, a := eSop x.a, b := eSop x.b }
def eF1n (op : BitVec 8) (k : BitVec 7) (x : F1n) : Fields :=
  { base op (fnW x.f64 k) x.c with d := eSop x.d, a := eSop x.a }
def eF3 (k : BitVec 7) (x : F3) : Fields :=
  { base 0x11 (fnW x.f64 k) x.c with d := eSop x.d, a := eSop x.a, b := eSop x.b, x := xC (eRnd x.rnd) (eSop x.cc) }
def ePair (op : BitVec 8) (x : PairI) : Fields :=
  { base op 6 x.c with d := eSop x.d, a := eSop x.a, b := eSop x.b, x := xM x.ord x.scope, imm := x.off }
def eAmo (k : BitVec 7) (x : AmoF) : Fields :=
  { base 0x28 (fnW x.w32 k) x.c with
    d := eSop x.d, a := eSop x.a, b := eSop x.b, x := xM x.ord x.scope, imm := x.off }
def eAmoNf (k : BitVec 7) (x : AmoN) : Fields :=
  { base 0x29 (fnW x.w32 k) x.c with a := eSop x.a, b := eSop x.b, x := xM x.ord x.scope, imm := x.off }
def eFamo (fn : BitVec 8) (x : FamoF) : Fields :=
  { base 0x2A fn x.c with d := eSop x.d, a := eSop x.a, b := eSop x.b, x := xM x.ord x.scope, imm := x.off }
def eFamoNf (fn : BitVec 8) (x : FamoN) : Fields :=
  { base 0x2B fn x.c with a := eSop x.a, b := eSop x.b, x := xM x.ord x.scope, imm := x.off }
def eABOff (op fn : BitVec 8) (x : ABOff) : Fields :=
  { base op fn x.c with a := eSop x.a, b := eSop x.b, imm := x.off }
def fnHbar (k : BitVec 1) (l : Level) (r : Red) (u : Bool) : BitVec 8 :=
  (((0#2 ++ eBit u) ++ eRed r) ++ eLevel l) ++ k
def eV2 (op fn : BitVec 8) (x : V2) : Fields := { base op fn x.c with d := x.d.setWidth 8, a := x.a.setWidth 8 }
def eVMem (op : BitVec 8) (x : VMem) : Fields :=
  { base op 0 x.c with d := x.v.setWidth 8, a := x.a.setWidth 8, imm := x.off }
def eVMemT (op : BitVec 8) (x : VMemT) : Fields :=
  { base op 1 x.c with d := x.v.setWidth 8, a := x.a.setWidth 8, imm := (x.row ++ x.tile).setWidth 32 }
def eVF3 (k : BitVec 4) (x : VF3) : Fields :=
  { base 0x63 (eTy x.ty ++ k) x.c with d := x.d.setWidth 8, a := x.a.setWidth 8, b := x.b.setWidth 8, x := xF x.rnd }
def eVF2 (k : BitVec 4) (x : VF2) : Fields :=
  { base 0x63 (eTy x.ty ++ k) x.c with d := x.d.setWidth 8, a := x.a.setWidth 8, x := xF x.rnd }
def eVT3 (op : BitVec 8) (k : BitVec 4) (x : VT3) : Fields :=
  { base op (eTy x.ty ++ k) x.c with d := x.d.setWidth 8, a := x.a.setWidth 8, b := x.b.setWidth 8 }
def eVT2 (k : BitVec 4) (x : VT2) : Fields :=
  { base 0x63 (eTy x.ty ++ k) x.c with d := x.d.setWidth 8, a := x.a.setWidth 8 }
def eVF4 (k : BitVec 4) (x : VF4) : Fields :=
  { base 0x64 (eTy x.ty ++ k) x.c with
    d := x.d.setWidth 8, a := x.a.setWidth 8, b := x.b.setWidth 8, x := xC (eRnd x.rnd) (x.cc.setWidth 8) }
def eV4 (op : BitVec 8) (x : V4) : Fields :=
  { base op 0 x.c with
    d := x.d.setWidth 8, a := x.a.setWidth 8, b := x.b.setWidth 8, x := xC 0 (x.cc.setWidth 8) }
def eSolve (op : BitVec 8) (x : SolveI) : Fields :=
  { base op 0 x.c with
    d := x.d.setWidth 8, a := x.a.setWidth 8, b := x.b.setWidth 8, x := xC 0 (x.cc.setWidth 8) }
def eCpy (op : BitVec 8) (x : CpyI) : Fields :=
  { base op 0 x.c with
    d := x.d.setWidth 8, a := x.a.setWidth 8, b := x.b.setWidth 8, x := xC (eRnd x.rnd) (x.cc.setWidth 8),
    imm := (eBit x.cred ++ eBit x.rel ++ eBit x.ovw ++ eBit x.zw ++ eBit x.zd ++ eBit x.zs ++ eBit x.conv ++
      eEfmt x.dfmt ++ eEfmt x.sfmt).setWidth 32 }
def eSamp (op fn : BitVec 8) (x : SampI) : Fields :=
  { base op fn x.c with
    d := eQ x.q, a := x.a.setWidth 8, b := x.b.setWidth 8, x := xC 0 (x.cc.setWidth 8),
    imm := (x.moff ++ x.n).setWidth 32 }
def eSlot (op : BitVec 8) (imm : BitVec 4) (c : Ctl) : Fields := { base op 0 c with imm := imm.setWidth 32 }

/-- The fields of an instruction word; none for an agent's step, which no word carries. -/
def encodeF : Instr → Option Fields
  | .add x => some (eAlu3 0x00 x) | .sub x => some (eAlu3 0x01 x) | .mul x => some (eAlu3 0x02 x)
  | .mulhi x => some (eAlu3 0x03 x) | .mulhn x => some (eAlu3 0x04 x) | .div x => some (eAlu3 0x05 x)
  | .divn x => some (eAlu3 0x06 x) | .rem x => some (eAlu3 0x07 x) | .remn x => some (eAlu3 0x08 x)
  | .and x => some (eAlu3 0x09 x) | .or x => some (eAlu3 0x0A x) | .xor x => some (eAlu3 0x0B x)
  | .andn x => some (eAlu3 0x0C x) | .orn x => some (eAlu3 0x0D x) | .shl x => some (eAlu3 0x0E x)
  | .shr x => some (eAlu3 0x0F x) | .sar x => some (eAlu3 0x10 x) | .rol x => some (eAlu3 0x11 x)
  | .ror x => some (eAlu3 0x12 x) | .min x => some (eAlu3 0x13 x) | .minn x => some (eAlu3 0x14 x)
  | .max x => some (eAlu3 0x15 x) | .maxn x => some (eAlu3 0x16 x)
  | .addImm x => some (eAluI 0x00 x) | .subImm x => some (eAluI 0x01 x) | .mulImm x => some (eAluI 0x02 x)
  | .mulhiImm x => some (eAluI 0x03 x) | .mulhnImm x => some (eAluI 0x04 x) | .divImm x => some (eAluI 0x05 x)
  | .divnImm x => some (eAluI 0x06 x) | .remImm x => some (eAluI 0x07 x) | .remnImm x => some (eAluI 0x08 x)
  | .andImm x => some (eAluI 0x09 x) | .orImm x => some (eAluI 0x0A x) | .xorImm x => some (eAluI 0x0B x)
  | .andnImm x => some (eAluI 0x0C x) | .ornImm x => some (eAluI 0x0D x) | .shlImm x => some (eAluI 0x0E x)
  | .shrImm x => some (eAluI 0x0F x) | .sarImm x => some (eAluI 0x10 x) | .rolImm x => some (eAluI 0x11 x)
  | .rorImm x => some (eAluI 0x12 x) | .minImm x => some (eAluI 0x13 x) | .minnImm x => some (eAluI 0x14 x)
  | .maxImm x => some (eAluI 0x15 x) | .maxnImm x => some (eAluI 0x16 x)
  | .clz x => some (eUn 0x00 x) | .ctz x => some (eUn 0x01 x) | .popc x => some (eUn 0x02 x)
  | .brev x => some (eUn 0x03 x) | .bswap x => some (eUn 0x04 x) | .abs x => some (eUn 0x05 x)
  | .neg x => some (eUn 0x06 x)
  | .sextI8 x => some (eDA 3 0x07 x) | .sextI16 x => some (eDA 3 0x08 x) | .sextI32 x => some (eDA 3 0x09 x)
  | .zextN8 x => some (eDA 3 0x0A x) | .zextN16 x => some (eDA 3 0x0B x) | .zextN32 x => some (eDA 3 0x0C x)
  | .mov x => some (eDA 4 0 x)
  | .movi x => some { base 4 1 x.c with d := eSop x.d, imm := x.imm }
  | .movhi x => some { base 4 2 x.c with d := x.d.setWidth 8, imm := x.imm }
  | .lea x => some { base 4 3 x.c with d := eSop x.d, a := eSop x.a, b := eSop x.b, x := x.sh.setWidth 11, imm := x.imm }
  | .cmp x => some { base 5 ((eBit x.w32 ++ 0#3) ++ eICond x.cond) x.c with
      d := x.p.setWidth 8, a := eSop x.a, b := eSop x.b }
  | .cmpImm x => some { base 6 ((eBit x.w32 ++ 0#3) ++ eICond x.cond) x.c with
      d := x.p.setWidth 8, a := eSop x.a, imm := x.imm }
  | .pand x => some (eP3 0 x) | .por x => some (eP3 1 x) | .pxor x => some (eP3 2 x) | .pandn x => some (eP3 3 x)
  | .pnot x => some (eP2 4 x) | .pmov x => some (eP2 5 x)
  | .pget x => some (eD1 7 6 x)
  | .pset x => some { base 7 7 x.c with a := eSop x.a, imm := x.mask.setWidth 32 }
  | .sel x => some { base 8 0 x.c with d := eSop x.d, a := eSop x.a, b := eSop x.b, x := xC 0 (x.p.setWidth 8) }
  | .qcnt x => some { base 9 0 x.c with d := eSop x.d, a := eQ x.q }
  | .gete x => some { base 9 1 x.c with d := x.p.setWidth 8, a := x.e.setWidth 8 }
  | .fadd x => some (eF2 0 x) | .fsub x => some (eF2 1 x) | .fmul x => some (eF2 2 x) | .fdiv x => some (eF2 3 x)
  | .fsqrt x => some (eF1 4 x) | .fmin x => some (eF2n 5 x) | .fmax x => some (eF2n 6 x)
  | .fabs x => some (eF1n 0x10 7 x) | .fneg x => some (eF1n 0x10 8 x) | .fcopysign x => some (eF2n 9 x)
  | .ffma x => some (eF3 0 x) | .ffms x => some (eF3 1 x) | .fnma x => some (eF3 2 x)
  | .fcmp x => some { base 0x12 ((eBit x.f64 ++ 0#3) ++ eFCond x.cond) x.c with
      d := x.p.setWidth 8, a := eSop x.a, b := eSop x.b }
  | .fcvt x => some { base 0x13 (eTy x.src ++ eTy x.dst) x.c with
      d := eSop x.d, a := eSop x.a, b := eSop x.b, x := xC (eRnd x.rnd) (eSop x.cc) }
  | .fclass x => some (eF1n 0x14 0 x)
  | .br x => some (eOff 0x18 0 x) | .jmp x => some (eAOff 0x19 0 x) | .call x => some (eOff 0x1A 0 x)
  | .callr x => some (eAOff 0x1B 0 x) | .ret x => some (eC0 0x1C 0 x)
  | .frame x => some { base 0x1D 0 x.c with imm := x.f }
  | .movs x => some { base 0x1E 0 x.c with d := eSop x.d, imm := x.num.setWidth 32 }
  | .movsw x => some { base 0x1E 1 x.c with a := eSop x.a, imm := x.num.setWidth 32 }
  | .trap x => some (eOff 0x1F 0 x) | .brk x => some (eOff 0x1F 1 x) | .synci x => some (eAB 0x1F 2 x)
  | .ld x => some { base 0x20 (eWidth x.width) x.c with
      d := eSop x.d, a := eSop x.a, x := xM x.ord x.scope, imm := x.off }
  | .st x => some { base 0x21 (eWidth x.width) x.c with
      a := eSop x.a, b := eSop x.b, x := xM x.ord x.scope, imm := x.off }
  | .ldp x => some (ePair 0x22 x) | .stp x => some (ePair 0x23 x)
  | .pf x => some { base 0x24 0 x.c with d := x.intent.setWidth 8, a := eSop x.a, imm := x.off }
  | .cflush x => some (eAB 0x25 0 x) | .cclean x => some (eAB 0x25 1 x) | .cinv x => some (eAB 0x25 2 x)
  | .czero x => some (eAB 0x25 3 x)
  | .amoAdd x => some (eAmo 0 x) | .amoAnd x => some (eAmo 1 x) | .amoOr x => some (eAmo 2 x)
  | .amoXor x => some (eAmo 3 x) | .amoMin x => some (eAmo 4 x) | .amoMinn x => some (eAmo 5 x)
  | .amoMax x => some (eAmo 6 x) | .amoMaxn x => some (eAmo 7 x) | .amoSwap x => some (eAmo 8 x)
  | .amoCas x => some { base 0x28 (fnW x.w32 9) x.c with
      d := x.d.setWidth 8, a := eSop x.a, b := eSop x.b, x := xM x.ord x.scope, imm := x.off }
  | .amoAddNf x => some (eAmoNf 0 x) | .amoAndNf x => some (eAmoNf 1 x) | .amoOrNf x => some (eAmoNf 2 x)
  | .amoXorNf x => some (eAmoNf 3 x) | .amoMinNf x => some (eAmoNf 4 x) | .amoMinnNf x => some (eAmoNf 5 x)
  | .amoMaxNf x => some (eAmoNf 6 x) | .amoMaxnNf x => some (eAmoNf 7 x)
  | .famoFaddF32 x => some (eFamo 0 x) | .famoFaddF64 x => some (eFamo 1 x) | .famoFaddBf16x2 x => some (eFamo 2 x)
  | .famoFminF32 x => some (eFamo 3 x) | .famoFmaxF32 x => some (eFamo 4 x)
  | .famoFaddF32Nf x => some (eFamoNf 0 x) | .famoFaddF64Nf x => some (eFamoNf 1 x)
  | .famoFaddBf16x2Nf x => some (eFamoNf 2 x) | .famoFminF32Nf x => some (eFamoNf 3 x)
  | .famoFmaxF32Nf x => some (eFamoNf 4 x)
  | .fence x => some { base 0x30 0 x.c with x := xM x.ord x.scope }
  | .barInit x => some (eABOff 0x31 0 x)
  | .barArrive x => some { base 0x31 1 x.c with d := eSop x.d, a := eSop x.a, imm := x.off }
  | .barArrivex x => some { base 0x31 2 x.c with d := eSop x.d, a := eSop x.a, b := eSop x.b, imm := x.off }
  | .barExpect x => some (eABOff 0x31 3 x)
  | .barWait x => some (eABOff 0x31 4 x)
  | .barTest x => some { base 0x31 5 x.c with d := x.p.setWidth 8, a := eSop x.a, b := eSop x.b, imm := x.off }
  | .hbarArrive x => some { base 0x32 (fnHbar 0 x.level x.red x.uns) x.c with b := eSop x.b }
  | .hbarWait x => some { base 0x32 (fnHbar 1 x.level x.red x.uns) x.c with d := eSop x.d }
  | .tlwait x => some { base 0x33 (eEng x.eng) x.c with a := eSop x.a, b := eSop x.b }
  | .tlget x => some { base 0x34 (eEng x.eng) x.c with d := eSop x.d, b := eSop x.b, imm := x.sel.setWidth 32 }
  | .send x => some { base 0x38 0 x.c with a := eSop x.a, b := x.base.setWidth 8 }
  | .bind x => some { base 0x39 0 x.c with
      a := eSop x.a, b := eSop x.b,
      imm := (x.grp ++ eBit x.timed ++ x.ring ++ eLand x.land ++ x.queue).setWidth 32 }
  | .unbind x => some { base 0x39 1 x.c with imm := x.queue.setWidth 32 }
  | .done x => some (eC0 0x3A 0 x) | .doneTask x => some (eC0 0x3A 1 x)
  | .yield x => some { base 0x3A 2 x.c with imm := x.n.setWidth 32 }
  | .spawn x => some { base 0x3B 0 x.c with
      d := x.p.setWidth 8, a := eSop x.a, b := x.base.setWidth 8, x := xC 0 (eSop x.cc) }
  | .callat x => some { base 0x3C 0 x.c with
      a := eSop x.a, b := x.base.setWidth 8, x := xC 0 (eSop x.cc), imm := x.queue.setWidth 32 }
  | .reply x => some { base 0x3D 0 x.c with b := x.base.setWidth 8 }
  | .fork x => some { base 0x3E 0 x.c with d := x.p.setWidth 8, a := eSop x.a, b := x.base.setWidth 8, imm := x.off }
  | .join x => some (eAOff 0x3F 0 x)
  | .vtset x => some (eDA 0x40 0 x) | .vtadv x => some (eDA 0x40 1 x)
  | .igrp x => some (eA1 0x41 0 x)
  | .ijoin x => some { base 0x41 1 x.c with imm := x.g.setWidth 32 }
  | .ileave x => some { base 0x41 2 x.c with imm := x.g.setWidth 32 }
  | .ireg x => some (eAB 0x42 0 x) | .idrop x => some (eA1 0x42 1 x) | .ist x => some (eAB 0x43 0 x)
  | .ildS x => some { base 0x44 0 x.c with a := eSop x.a, b := eSop x.b, x := xC 0 (eSop x.cc) }
  | .ildU x => some { base 0x44 1 x.c with a := eSop x.a, b := eSop x.b, x := xC 0 (eSop x.cc) }
  | .iqry x => some { base 0x45 0 x.c with d := eSop x.d, a := eSop x.a, imm := x.sel.setWidth 32 }
  | .vld x => some (eVMem 0x60 x) | .vst x => some (eVMem 0x61 x)
  | .vldT x => some (eVMemT 0x60 x) | .vstT x => some (eVMemT 0x61 x)
  | .vmov x => some (eV2 0x62 0 x)
  | .vdup x => some { base 0x62 1 x.c with d := x.d.setWidth 8, a := eSop x.a, x := (eTy x.ty).setWidth 11 }
  | .vins x => some { base 0x62 2 x.c with
      d := x.d.setWidth 8, a := eSop x.a, x := (eTy x.ty).setWidth 11, imm := x.lane.setWidth 32 }
  | .vext x => some { base 0x62 3 x.c with
      d := eQ x.q, a := x.a.setWidth 8, x := (eTy x.ty).setWidth 11, imm := x.lane.setWidth 32 }
  | .vadd x => some (eVF3 0 x) | .vsub x => some (eVF3 1 x) | .vmul x => some (eVF3 2 x) | .vdiv x => some (eVF3 3 x)
  | .vsqrt x => some (eVF2 4 x) | .vmin x => some (eVT3 0x63 5 x) | .vmax x => some (eVT3 0x63 6 x)
  | .vabs x => some (eVT2 7 x) | .vneg x => some (eVT2 8 x)
  | .vfma x => some (eVF4 0 x) | .vfms x => some (eVF4 1 x) | .vnma x => some (eVF4 2 x)
  | .viadd x => some (eVT3 0x65 0 x) | .visub x => some (eVT3 0x65 1 x) | .vimul x => some (eVT3 0x65 2 x)
  | .vishl x => some (eVT3 0x65 3 x) | .vishr x => some (eVT3 0x65 4 x) | .visar x => some (eVT3 0x65 5 x)
  | .viand x => some (eVT3 0x65 6 x) | .vior x => some (eVT3 0x65 7 x) | .vixor x => some (eVT3 0x65 8 x)
  | .vimin x => some (eVT3 0x65 9 x) | .vimax x => some (eVT3 0x65 10 x)
  | .vcmp x =>
    let f := base 0x66 (eTy x.ty ++ eFCond x.cond) x.c
    some (match x.dst with
      | .mask v => { f with d := v.setWidth 8, a := x.a.setWidth 8, b := x.b.setWidth 8 }
      | .any e => { f with d := e.setWidth 8, a := x.a.setWidth 8, b := x.b.setWidth 8, x := 1 }
      | .all e => { f with d := e.setWidth 8, a := x.a.setWidth 8, b := x.b.setWidth 8, x := 2 })
  | .vsel x => some (eV4 0x67 x) | .vperm x => some (eV4 0x68 x)
  | .vred x => some { base 0x69 (eTy x.ty ++ eRedOp x.op) x.c with
      d := x.d.setWidth 8, a := x.a.setWidth 8, x := xF x.rnd }
  | .vcvt x => some { base 0x6A (eTy x.src ++ eTy x.dst) x.c with
      d := x.d.setWidth 8, a := x.a.setWidth 8, b := eSop x.b, x := xC (eRnd x.rnd) (eSop x.cc),
      imm := x.part.setWidth 32 }
  | .vexp2 x => some (eV2 0x6B 0 x) | .vlog2 x => some (eV2 0x6B 1 x) | .vrcp x => some (eV2 0x6B 2 x)
  | .vrsq x => some (eV2 0x6B 3 x)
  | .vqtbl x => some { base 0x6C 0 x.c with a := x.a.setWidth 8 }
  | .vdot4 x => some { base 0x6D ((eBit x.uns).setWidth 8) x.c with
      d := x.d.setWidth 8, a := x.a.setWidth 8, b := x.b.setWidth 8, x := xC 0 (x.cc.setWidth 8) }
  | .luf x => some (eSolve 0x80 x) | .lus x => some (eSolve 0x81 x)
  | .cpy x => some (eCpy 0x88 x) | .cpy2 x => some (eCpy 0x89 x) | .cpyg x => some (eCpy 0x8A x)
  | .cpys x => some (eCpy 0x8B x)
  | .cpypf x => some { base 0x8C 0 x.c with a := x.a.setWidth 8, b := x.b.setWidth 8 }
  | .ttget x => some { base 0x8D 0 x.c with d := eQ x.q, imm := x.sel.setWidth 32 }
  | .ttset x => some { base 0x8D 1 x.c with
      a := x.a.setWidth 8, imm := ((eBit x.clrf ++ eBit x.ready) ++ 0#1).setWidth 32 }
  | .tcfg x => some { base 0x90 0 x.c with d := x.t.setWidth 8, a := eSop x.a }
  | .tcfgr x => some { base 0x91 0 x.c with d := eSop x.d, a := x.t.setWidth 8 }
  | .tld x => some { base 0x92 0 x.c with d := x.t.setWidth 8, imm := x.tile.setWidth 32 }
  | .tst x => some { base 0x93 0 x.c with a := x.t.setWidth 8, imm := x.tile.setWidth 32 }
  | .tzero x => some { base 0x94 0 x.c with d := x.t.setWidth 8 }
  | .mma x => some { base 0x95 0 x.c with
      d := x.acc.setWidth 8, a := x.ta.setWidth 8, b := x.tb.setWidth 8,
      imm := ((x.rb.setWidth 8 : BitVec 8) ++ (x.ra.setWidth 8 : BitVec 8)).setWidth 32 }
  | .mzero x => some { base 0x96 0 x.c with d := x.acc.setWidth 8 }
  | .msta x => some { base 0x97 0 x.c with a := x.acc.setWidth 8, imm := x.tile.setWidth 32 }
  | .mlda x => some { base 0x98 0 x.c with d := x.acc.setWidth 8, imm := x.tile.setWidth 32 }
  | .armenter x => some { base 0xA0 0 x.c with
      d := x.d.setWidth 8, a := x.a.setWidth 8, imm := (eBit x.team).setWidth 32 }
  | .armstat x => some { base 0xA1 0 x.c with d := eSop x.d, imm := x.sel.setWidth 32 }
  | .chopen x => some (eDA 0xA8 0 x) | .chclose x => some (eA1 0xA9 0 x) | .chstep x => some (eAB 0xAA 0 x)
  | .chmask x => some { base 0xAB 0 x.c with
      d := eSop x.d, a := eSop x.a, b := eSop x.b, imm := x.n.setWidth 32 }
  | .chsave x => some (eA1 0xAC 0 x)
  | .chload x => some { base 0xAC 1 x.c with a := eSop x.a, imm := x.k.setWidth 32 }
  | .chstat x => some { base 0xAD 0 x.c with d := eSop x.d, a := eSop x.a, imm := x.sel.setWidth 32 }
  | .smaxl x => some (eSamp 0xAE 0 x) | .swsum x => some (eSamp 0xAE 1 x)
  | .sdraw x => some { base 0xAE 2 x.c with d := eQ x.q, a := x.a.setWidth 8, b := x.b.setWidth 8 }
  | .spick x => some (eSamp 0xAF 0 x) | .sgreedy x => some (eSamp 0xAF 1 x)
  | .movcRead x => some { base 0xE0 0 x.c with d := eSop x.d, imm := (x.n ++ x.num).setWidth 32 }
  | .movcWrite x => some { base 0xE0 0 x.c with a := eSop x.a, imm := ((1#1 ++ x.n) ++ x.num).setWidth 32 }
  | .eret x => some (eC0 0xE1 0 x)
  | .resume x => some (eSlot 0xE2 (0#2 ++ x.n) x.c)
  | .resumeEnd x => some (eSlot 0xE2 ((eBit x.replay ++ 1#1) ++ x.n) x.c)
  | .resumeReplay x => some (eSlot 0xE2 (2#2 ++ x.n) x.c)
  | .rearm x => some { base 0xE3 0 x.c with d := x.p.setWidth 8, imm := x.n.setWidth 32 }
  | .dropl x => some (eSlot 0xE4 (0#2 ++ x.n) x.c)
  | .xinv x => some (eAB 0xE5 0 x) | .ckpt x => some (eD1 0xE6 0 x) | .halt x => some (eA1 0xE7 0 x)
  | .wake x => some (eA1 0xE8 0 x)
  | .hbarPhaseComplete _ _ _ | .yieldExpiry _ | .messageActivationStart _ | .timedQueueActivation _ _ | .taskSteal _
  | .instarReadComplete _ | .floorUpdate _ _ _ | .vectorCommandStart _ | .vectorCommandComplete _
  | .guardedCommandDiscard _ _ | .copyCommandStart _ | .copyCommandComplete _ | .copyFault _ | .matrixGrant _ _
  | .matrixCommandComplete _ | .armatureSessionStart _ | .armatureBlockFetch _ | .armatureFetchFault _ | .mmaT _
  | .scale _ | .act _ | .route _ | .recv _ | .reduce _ | .sync _ | .callb _ | .retb _ | .branch _ | .nopb _ | .exit _
  | .chiselCommandExecute _ _ | .memoryErrorReport _ _ | .teamWatchdogExpiry _ _ _ | .watchpointReport _ _
  | .windowSpillFillDone _ | .accessAccept _ _ | .forward _ _ | .postALoad _ | .postAStoreBufferEntry _ | .deliver _ _
  | .perform _ _ | .respReturn _ _ | .remoteScratchpadRequest _ _ | .rds _ | .rdx _ | .upg _ | .wbd _ | .evc _
  | .ncrd _ | .ncwr _ | .atm _ | .fwds _ | .fwdx _ | .rcl _ | .inv _ | .datas _ | .datae _ | .datam _ | .invack _
  | .fwdack _ | .rcldata _ | .nak _ | .cmpMessage _ | .cocoonCut _ | .cocoonCommit _ | .rollback _
  | .urgentPreemption _ | .quantumEnd _ | .switchWindowEnd _ | .clusterFailure _ _ | .launchPlacement _
  | .launchEnd _ _ | .migrationRun _ | .lqprod _ _ _ | .fbcons _ _ _ | .dlcons _ _ _ | .cqcons _ _ _ | .wakedb _ _ _
  | .migrationGo _ _ | .thermHaltedClear _ | .load | .restart | .registerWrite _ _ _ | .hostMemoryAccess _ _
  | .vfTeardown _ | .amisinFlit _ _ | .bringUp _ _ _ | .spdmRequest _ | .thermalAlarm _ | .protectiveHalt _
  | .waymaskChangeEffect _ | .recoveryLoadDone _ | .jtagAccess _ => none

/-- The word of an instruction. -/
def encode (i : Instr) : Option IWord := (encodeF i).map assemble

/-! ### Every word below is written out from the spec's encodings: the tables that end the reference chapters, and
R77 to R85 -/

/-- Three 32-bit words as the manual prints them, word 0 first. -/
def threeWords (w0 w1 w2 : BitVec 32) : IWord := (w2 ++ w1) ++ w0

/-- A word built from the bytes OP, FN, D, A, B, G as the manual's tables print them, X and IMM (R78). -/
def wordFields (op fn d a b : BitVec 8) (g : BitVec 5) (x : BitVec 11) (imm : BitVec 32) : IWord :=
  assemble { op := op, fn := fn, d := d, a := a, b := b, gidx := g.setWidth 4, gneg := g.extractLsb' 4 1, x := x, imm := imm }

end Sys2Proof
end

