-- ==== Sys2Proof/Config.lean ====
section
/-! DEFINITION. What a part fixes, and the values the manual leaves free. -/

namespace Sys2Proof.Config

/-- The clk count of a patina record (21_platform R397): the model keeps no time, so the count is a free
value, one per record. DESIGN CHOICE, log entry 5. -/
opaque freeClks : Nat → BitVec 24

/-- The digest SPDM reports for a measured image (21_platform R393): the spec gives the order of the
measurements and no digest values. DESIGN CHOICE, log entry 5. -/
opaque freeDigest : Nat → BitVec 384

/-- SUB of the trap of a tile-naming instruction whose tile's record has been delivered already (08_isa_matrix
R237, 17_privileged R322): the spec gives the trap its BADADDR and no SUB. DESIGN CHOICE, log entry 5. -/
opaque freeSub : Nat → BitVec 8

/-- TASKID and WHO of the patina record of a watchpoint match by the host (21_platform R397, R398): the spec gives the
record's kind, and no task or core. DESIGN CHOICE, log entry 5. -/
opaque freeWho : Nat → BitVec 100

/-- Bytes of a scratchpad (01_machine R5): 16 KiB. -/
def spadBytes : Nat := 0x4000
/-- Bytes of a cache line (18_memory_system R342). -/
def lineBytes : Nat := 128
/-- Bytes of a page (18_memory_system R344). -/
def pageBytes : Nat := 0x10000
/-- Bytes of an instruction (03_encoding R77). -/
def instrBytes : Nat := 12

end Sys2Proof.Config
end

