-- ==== Sys2Proof/Machine/State.lean ====
section
/-! DEFINITION. The state of the machine: everything spec/ gives it, as plain data (INVENTORY.md, '## State'). Maps are
lists of (key, value) with the keys rising; an absent key reads as the default its reader names. -/

namespace Sys2Proof.Machine

/-- A map from numbers. -/
abbrev NMap (α : Type) := List (Nat × α)
/-- Bytes by address: Host.Cell. -/
abbrev Bytes := List Host.Cell

/-- Where a step stops. No instruction of the manual stops the machine; every trap of R322 is a next state. -/
inductive Fault where
  /-- Raised by `step` when the schedule `moves` names a program's instruction as an agent's step: the schedule, and not
  the machine, is ill formed. Safe: nothing is claimed of such a schedule. -/
  | notAnAgentStep
  deriving DecidableEq, Repr

/-- Why an instruction has no meaning. -/
inductive Refusal where
  /-- The instruction has no meaning yet: raised only by an arm of `exec`. Safe: nothing can be proved of it. -/
  | notModelled (mnemonic : String)
  deriving DecidableEq, Repr

/-- Slot states (R19). -/
inductive SlotState where
  | idle | ready | blocked | parked
  deriving DecidableEq, Repr

/-- An engine guard slot (R34): resolved, or awaiting the VCMP with a number of the vector timeline. -/
inductive EGuard where
  | known (b : Bool)
  | waiting (num : Nat)
  deriving DecidableEq, Repr

/-- What a Blocked slot waits for (R20 and the conditions the entries add). -/
inductive Wait where
  | none
  | queueEmpty | queueFull | guard | engineFull | timeline | barrier | phase | instar | memory | message | window
  | yield (n : Nat) | armature | chisel | ckpt (seq : Nat) | halt | rearm | xinv | accept | log | store
  | synci | spawnReply | replay | order
  deriving DecidableEq, Repr

/-- Where an access is performed (R285). Cores are numbered chip * 2^20 + COREID, clusters core number / 128. -/
inductive Place where
  | own (core : Nat)
  | spad (core : Nat)
  | cstore (cluster launch : Nat)
  | home (cluster : Nat)
  | ncCopy (cluster : Nat)
  | queue (core : Nat)
  deriving DecidableEq, Repr

/-- Channel classes (R284). -/
inductive ChClass where
  | request | message
  deriving DecidableEq, Repr

/-- The operation of an atomic (R135, R136). -/
inductive AmoOp where
  | add | and | or | xor | min | minn | max | maxn | swap | cas
  | faddF32 | faddF64 | faddBf16x2 | fminF32 | fmaxF32
  deriving DecidableEq, Repr

/-- Barrier operations (R142). -/
inductive BarOp where
  | init | arrive | arrivex | expect | wait | test
  deriving DecidableEq, Repr

/-- What a release carries (R292, R293, R308, R313): the definitions ordered before it, each with the core that released and the
scope of the release. -/
abbrev View := List (Nat × Nat × Scope)

/-- Range operations (R133). -/
inductive RangeOp where
  | flush | clean | inv | zero
  deriving DecidableEq, Repr

/-- Where a response lands: a global register 1-15, a windowed register by its position in the window stack, a queue
register, a predicate, or nowhere. -/
inductive Dst where
  | none
  | glob (n : Nat)
  | win (pos : Nat)
  | queue (n : Nat)
  | pred (n : Nat)
  deriving DecidableEq, Repr

/-- A reply route (R161): the caller's chip and core, and its reply queue. -/
structure Route where
  core : Nat
  queue : Nat
  deriving DecidableEq, Repr

/-- A message (R151), or a task of CALLAT with its PC and route (R161). `know`: the definitions that its sender's release orders
before the activation it causes (R154, R308). -/
structure Msg where
  pay : List Word := []
  sender : Nat := 0
  task : Word := 0
  pc : Word := 0
  route : Option Route := .none
  senderVt : Word := 0
  know : List Nat := []
  deriving DecidableEq, Repr

/-- A task of the work-stealing deque (R163). `know`: the definitions that its FORK's release orders before it (R164, R308). -/
structure Task where
  pc : Word := 0
  regs : List Word := []
  counter : Word := 0
  task : Word := 0
  know : List Nat := []
  deriving DecidableEq, Repr

/-- What an access does when it is performed (R287). An IST carries its key, the place in the key's storage that it took, its
stamp and its elements (R175); a FORK its counter's name and the task that its deque then takes (R164). `join` is JOIN's read of
its counter (R166). -/
inductive AccKind where
  | load (size : Nat) (signed : Bool)
  | loadPair
  | join
  | store (bytes : List Byte)
  | amo (op : AmoOp) (w32 fetch : Bool) (b c : Word)
  | range (op : RangeOp) (len : Nat)
  | bar (op : BarOp) (b : Word)
  | send (queue : Nat) (m : Msg) (reply : Bool)
  | spawn (m : Msg)
  | wake
  | ist (key slot : Nat) (stamp : Word) (bytes : List Byte)
  | fork (ctr : Word) (t : Task)
  deriving DecidableEq, Repr

/-- The leaf that translated an access, as its acceptance found it (R344, R348): physical address of the access, address
of the leaf entry, its D bit, and whether it is a 512 MiB block. -/
structure Leaf where
  pa : Nat := 0
  entry : Nat := 0
  d : Bool := true
  pt : Bool := false
  blk : Bool := false
  deriving DecidableEq, Repr

/-- An access in flight (R284 to R287). `prog`: the lines that a range operation has done (R297), or that a message has been
checked by its queue (R172). `eng` and `piece`: the engine whose running command makes it, and the position of its first
byte among those that the command reads or writes (R294). A range operation holds the leaf of each of its pages as its acceptance
found it, with its window flag (`pages`, R133), and the names of the accesses of its cluster that were posted before it (`after`,
R297). `know`: the definitions that it releases, and, in a response, those released to it (R292, R308). -/
structure Acc where
  id : Nat := 0
  core : Nat := 0
  slot : Nat := 0
  act : Nat := 0
  kind : AccKind := .loadPair
  ea : Word := 0
  place : Place := .own 0
  leaf : Leaf := {}
  ord : Ord := .rlx
  scope : Scope := .sys
  dst : Dst := .none
  dst2 : Dst := .none
  prog : Nat := 0
  eng : Option Engine := .none
  piece : Nat := 0
  pages : List (Leaf × Bool) := []
  after : List Nat := []
  know : View := []
  deriving DecidableEq, Repr

/-- What a performed access answers: values for its destinations, its flags, a trap at the issuing slot (cause, BADADDR),
or an uncorrectable error (R323). -/
structure Answer where
  v : Word := 0
  v2 : Word := 0
  flags : BitVec 6 := 0
  trap : Option (Nat × Word) := .none
  error : Bool := false
  deriving DecidableEq, Repr

/-- The operands of a memory instruction before they are read (R123 to R142). -/
structure MemOp where
  kind : AccKind := .loadPair
  size : Nat := 8
  a : SOp := .s 0
  off : BitVec 32 := 0
  b : SOp := .s 0
  d : SOp := .s 0
  d2 : SOp := .s 0
  dp : Option PReg := .none
  ord : Ord := .rlx
  scope : Scope := .sys
  op : BitVec 8 := 0
  fn : BitVec 8 := 0
  deriving DecidableEq, Repr

/-- An access that waits for its home's accept message (R124); an atomic's operands are already read (R138). `rearm`: sent
from the latch by a REARM, whose predicate it names (R327). -/
structure Pend where
  op : MemOp := {}
  acc : Option Acc := .none
  rearm : Option PReg := .none
  deriving DecidableEq, Repr

/-- The retry latch (R138, R320), with its hidden operands. -/
structure Latch where
  sent : Bool := false
  fetch : Bool := false
  refuse : BitVec 8 := 0
  op : BitVec 8 := 0
  fn : BitVec 8 := 0
  acc : Acc := {}
  deriving DecidableEq, Repr

/-- A caller frame of the window stack (R41): its size, and the task join address of a frame that JOIN entered (R166). -/
structure Frame where
  f : Nat := 16
  join : Option Word := .none
  deriving DecidableEq, Repr

/-- A load-queue entry (R284); `held`: its response has come and waits for an older result of its queue register (R125). -/
structure LqEntry where
  acc : Acc := {}
  posted : Bool := false
  held : Option Answer := .none
  deriving DecidableEq, Repr

/-- An IST that stalls (R175): its stamp and the elements read at its issue. -/
structure IstHold where
  stamp : Word := 0
  data : List Byte := []
  deriving DecidableEq, Repr

/-- An instar key (R173): writer rank, word, storage, and the retained stamps, oldest first (slot of the storage, stamp); `coming`,
those of ISTs on their way to the home (R175). `born` and `by_` as a group's (R308). -/
structure Key where
  writer : Nat := 0
  keep : Nat := 1
  kind : Bool := false
  ord : Nat := 0
  f64 : Bool := false
  cnt : Nat := 1
  xlim : Word := 0
  base : Word := 0
  stamps : List (Nat × Word) := []
  coming : List (Nat × Word) := []
  born : Nat := 0
  by_ : Nat := 0
  deriving DecidableEq, Repr

/-- An ILD that waits (R177): settled or upstream, scratchpad offset of its destination, key word, instant, and the
reader's VT at its issue; `gone`: the key that it found though its writer had dropped it (R308). -/
structure IldHold where
  upstream : Bool := false
  dst : Nat := 0
  word : Word := 0
  t : Word := 0
  vt : Word := 0
  gone : Option Key := .none
  deriving DecidableEq, Repr

/-- A thread slot (R19, R39, R317). `trapCode` is the code of the latest trap as the hardware took it: a MOVC write to CAUSE
does not reach it (R319, R380). `seen`: the definitions of groups, keys and contexts that are ordered before the slot's next
instruction (R308, R313); `told`: those that an acquiring FENCE adds, for the slot's loads have read them; `freed`: those that
the slot's releasing FENCEs have put before its later stores (R292). `waited`: instructions of the core's other slots that have
issued while this one was ready to (R21). `joinRead`: the value of its counter that a JOIN has read (R166). -/
structure Slot where
  st : SlotState := .idle
  pc : Word := 0
  taskId : Word := 0
  regs : NMap Word := []
  wregs : NMap Word := []
  wbase : Nat := 0
  frame : Nat := 16
  frames : List Frame := []
  spilled : Nat := 0
  fillTo : Option Nat := .none
  preds : BitVec 7 := 0
  eguards : NMap EGuard := []
  queues : NMap (List Word) := []
  vregs : NMap V128 := []
  fstat : Word := 0
  lodcnt : Word := 0
  nolegal : Word := 0
  svc : Bool := false
  held : Bool := false
  intrap : Bool := false
  arm : Bool := false
  cause : Word := 0
  trapCode : Nat := 0
  badaddr : Word := 0
  epc : Word := 0
  latchv : Word := 0
  wspill : Word := 0
  latch : Option Latch := .none
  lastCopy : Nat := 0
  lastMatrix : Nat := 0
  lastVector : Nat := 0
  lastChisel : NMap Nat := []
  lq : List LqEntry := []
  sb : List Acc := []
  unacked : List Acc := []
  pend : Option Pend := .none
  report : Option (Nat × Word) := .none
  copyRec : Option Nat := .none
  replayNum : Nat := 0
  wait : Wait := .none
  popped : List (Nat × Word) := []
  ist : Option IstHold := .none
  ild : Option IldHold := .none
  delayed : Bool := false
  hold : Nat := 0
  skip : Bool := false
  waited : Nat := 0
  act : Nat := 0
  seen : List Nat := []
  told : List Nat := []
  freed : View := []
  joinRead : Option Word := .none
  route : Option Route := .none
  joinAddr : Option Word := .none
  fromQueue : Option Nat := .none
  deriving DecidableEq, Repr

/-- Tile-table states (R214). -/
inductive TileState where
  | empty | filling | ready | draining
  deriving DecidableEq, Repr

/-- Lane-wise floating-point operations (R195, R196, R203). -/
inductive VFop where
  | add | sub | mul | div | sqrt | min | max | abs | neg | fma | fms | fnma | exp2 | log2 | rcp | rsq
  deriving DecidableEq, Repr

/-- Lane-wise integer operations (R197). -/
inductive VIop where
  | add | sub | mul | shl | shr | sar | and | or | xor | min | max
  deriving DecidableEq, Repr

/-- Sampling commands (R278). -/
inductive SampOp where
  | smaxl | swsum | spick | sgreedy
  deriving DecidableEq, Repr

/-- The shapes of a copy (R232). -/
inductive CopyShape where
  | one | two | gather | scatter
  deriving DecidableEq, Repr

/-- A copy with every operand value captured at its issue (R229, R234). -/
structure CopyCmd where
  shape : CopyShape := .one
  dst : Word := 0
  src : Word := 0
  count : Nat := 0
  rows : Nat := 1
  sstride : Int := 0
  dstride : Int := 0
  index : Nat := 0
  inbound : Bool := true
  cred : Option Word := .none
  seed : Word := 0
  ibase : Word := 0
  rel : Bool := false
  ovw : Bool := false
  zw : Bool := false
  zd : Bool := false
  zs : Bool := false
  conv : Bool := false
  dfmt : Efmt := .i8
  sfmt : Efmt := .i8
  deriving DecidableEq, Repr

/-- An engine command with its captured operands (R186, R218, R234). -/
inductive EngOp where
  | vload (v : VReg) (ea : Word) | vstore (v : VReg) (ea : Word)
  | vloadT (v : VReg) (off tile : Nat) | vstoreT (v : VReg) (off tile : Nat)
  | vmov (d a : VReg) | vdup (t : Ty) (d : VReg) (x : Option Word) (q : Nat)
  | vins (t : Ty) (d : VReg) (lane : Nat) (x : Option Word) (q : Nat) | vext (t : Ty) (q : Nat) (a : VReg) (lane : Nat)
  | vfp (o : VFop) (t : Ty) (d a b c : VReg) | vint (o : VIop) (t : Ty) (d a b : VReg)
  | vcmp (t : Ty) (cond : FCond) (dst : CmpDst) (a b : VReg)
  | vsel (d a b c : VReg) | vperm (d a b c : VReg) | vred (t : Ty) (o : RedOp) (d a : VReg)
  | vcvt (s t : Ty) (sr : Bool) (d a : VReg) (seed : Option Word) (sq : Nat) (idx : Option Word) (iq : Nat) (part : Nat)
  | vqtbl (a : VReg) | vdot4 (uns : Bool) (d a b c : VReg)
  | luf (par desc mat rec : Word) | lus (rhs desc mat rec : Word)
  | samp (o : SampOp) (q : Nat) (a b : Word) (n moff : Nat) (g : List Word)
  | sdraw (q : Nat) (seed i : Word)
  | copy (x : CopyCmd) | cpypf (a : Word) (len : Nat) | ttget (q sel : Nat) | ttset (mask : Word) (ready clrf : Bool)
  | tld (t tile : Nat) | tst (t tile : Nat) | tzero (t : Nat)
  | mma (acc ta tb : Nat) (ca cb ra rb : Word) | mzero (a : Nat) | msta (a tile : Nat) | mlda (a tile : Nat)
  deriving DecidableEq, Repr

/-- A queued command: its number, the slot and activation that entered it, its e-guard, its rounding mode, the accesses
it starts after, the last VQTBL that it follows, the q4 table that it reads where a later VQTBL has completed already (R204),
and its operation. `know`: the definitions ordered before it, which the credit of a copy releases (R235, R308). -/
structure Cmd where
  num : Nat := 0
  slot : Nat := 0
  act : Nat := 0
  task : Word := 0
  guard : Option EGuard := .none
  neg : Bool := false
  rm : Rnd := .rne
  after : List Nat := []
  qtbl : Nat := 0
  table : Option V128 := .none
  know : List Nat := []
  op : EngOp := .vqtbl 0
  deriving DecidableEq, Repr

/-- What a running command will do when it completes: register, queue, guard and flag results of its activation, and
effects on core state and memory. -/
structure Effect where
  vregs : NMap V128 := []
  push : Option (Nat × Word) := .none
  resolve : Option Bool := .none
  flags : BitVec 6 := 0
  spad : Bytes := []
  tregs : Bytes := []
  accs : NMap (BitVec 32) := []
  qtbl : Option V128 := .none
  tiles : List Nat := []
  tileTo : Option TileState := .none
  zd : Option Nat := .none
  terms : Nat := 0
  gsteps : Nat := 0
  skips : Nat := 0
  mma : Bool := false
  nolegal : Bool := false
  deriving DecidableEq, Repr

/-- A copy fault (R237): SUB, BADADDR, walk level, window; `wait`: rollback repairs the error that was met. -/
structure CFault where
  sub : Nat := 0
  bad : Word := 0
  level : Nat := 0xFF
  ncw : Bool := false
  wait : Bool := false
  deriving DecidableEq, Repr

/-- The running command of an engine and its effect (R186: sources read at start). A command that moves memory also holds the
table of q4 as it started (R204), the pieces whose reads have been posted (`asked`), the bytes read, by position (`got`), the
pieces whose writes have been posted (`put`), the encoded bytes read (`enc`, R231), the matrix of a batch with the numbers
read of it so far (`mat`, `vals`, R211), and the fault that a response brought. -/
structure Running where
  cmd : Cmd := {}
  pins : List Nat := []
  eff : Effect := {}
  qtbl : V128 := 0
  asked : List Nat := []
  got : Bytes := []
  put : List Nat := []
  enc : List Byte := []
  mat : Nat := 0
  vals : List Nat := []
  err : Option CFault := .none
  deriving DecidableEq, Repr

/-- An engine queue with its timeline (R29, R30, R148). -/
structure EngQ where
  queue : List Cmd := []
  run : Option Running := .none
  assigned : Nat := 0
  completed : Nat := 0
  deriving DecidableEq, Repr

/-- A copy-fault record (R237, R329). -/
structure CopyFault where
  id : Nat := 0
  num : Nat := 0
  sub : Nat := 0
  bad : Word := 0
  tiles : List Nat := []
  cmd : Cmd := {}
  delivered : Bool := false
  deriving DecidableEq, Repr

/-- A binding of an inbound queue (R156). -/
structure Binding where
  pc : Word := 0
  land : Land := .regs
  ring : Nat := 0
  base : Word := 0
  seq : Word := 0
  timed : Bool := false
  grp : Nat := 0
  deriving DecidableEq, Repr

/-- What an inbox entry of armature mode holds (R253): an accumulator, or a tile and its control register. -/
inductive Routed where
  | acc (words : List (BitVec 32))
  | tile (bytes : List Byte) (ctl : Word)
  deriving DecidableEq, Repr

/-- The armature session of a core (R238 to R260): `tp` holds TP0 to TP7; `votes` what each SYNC of the session
contributed (team predicates, VOTE), oldest first. The two halves of the block buffer (R255) are `reading`, the 8-byte units
of the current block read so far, and `ahead`, those of its successor; `fetched` is the current block once it is checked. What ARMSTAT
reads before the first session R241 leaves open: the model reads 0 (DESIGN CHOICE, log entry 77). -/
structure Arm where
  active : Bool := false
  team : Bool := false
  slot : Nat := 0
  dst : Nat := 0
  block : Word := 0
  fetched : Option (List Byte) := .none
  reading : NMap (List Byte) := []
  ahead : NMap (List Byte) := []
  links : List Word := []
  inbox : List (Nat × Routed) := []
  tp : BitVec 8 := 0
  csc : List Byte := []
  done : Word := 0
  tag : BitVec 32 := 0
  drop : BitVec 8 := 0
  detail : Nat := 0
  votes : List (BitVec 8 × Nat) := []
  deriving DecidableEq, Repr

/-- An ARMENTER that waits to start its session (R238): slot, status register, block address, TEAM. -/
structure ArmEntry where
  slot : Nat := 0
  dst : Nat := 0
  block : Word := 0
  team : Bool := false
  deriving DecidableEq, Repr

/-- HBAR state of a core at one level (R146). `know`: the definitions that the arrivals of the phases it has seen complete
release (R147, R308). -/
structure Hbar where
  joined : Option Nat := .none
  result : Word := 0
  know : List Nat := []
  deriving DecidableEq, Repr

/-- A fault record (R353) before its INDEX is known. -/
structure FaultRec where
  addr : Word := 0
  task : Word := 0
  core : Nat := 0
  code : Nat := 0
  sub : Nat := 0
  kind : Nat := 0
  slot : Nat := 0
  repost : Bool := false
  ncw : Bool := false
  rearm : Bool := false
  level : Nat := 0xFF
  copy : Option Nat := .none
  order : Nat := 0
  deriving DecidableEq, Repr

/-- L1 copies (R360, R363): line state and whether Cmp has come. -/
inductive LineState where
  | s | e | o | m
  deriving DecidableEq, Repr
structure L1Line where
  st : LineState := .s
  data : List Byte := []
  dirty : Bool := false
  usable : Bool := true
  cutDirty : Bool := false
  deriving DecidableEq, Repr

/-- A core (R14, R15, R39, and the state of core scope of INVENTORY.md). `tfaultBy` names the record that set a tile's FAULT
(R237). `units`: the 128-byte units of the scratchpad whose old contents the open interval has logged (R333). `wakeKnow`: the
definitions that the WAKEs it has taken release (R327). -/
structure Core where
  slots : NMap Slot := []
  teamId : Nat := 0
  teamSize : Nat := 1
  stage : Nat := 0
  launch : Option Nat := .none
  mqwgt : Nat := 1
  terms : Word := 0
  gsteps : Word := 0
  skips : Word := 0
  mcmds : Word := 0
  vt : Word := 0
  tregs : Bytes := []
  tctl : NMap Word := []
  accs : NMap (BitVec 32) := []
  qtbl : V128 := 0
  spad : Bytes := []
  units : List Nat := []
  tstate : NMap TileState := []
  tfault : NMap Bool := []
  tfaultBy : NMap Nat := []
  vq : EngQ := {}
  cq : EngQ := {}
  mq : EngQ := {}
  lastQtbl : Nat := 0
  frecs : List CopyFault := []
  zdBytes : NMap Nat := []
  inq : NMap (List Msg) := []
  binds : NMap Binding := []
  deque : List Task := []
  arm : Arm := {}
  armWait : List ArmEntry := []
  hbar : NMap Hbar := []
  tvec : Word := 0
  tpWake : Bool := false
  wakeKnow : List Nat := []
  wdlim : Word := 10000
  heldRecs : List FaultRec := []
  rr : Nat := 0
  l1 : NMap L1Line := []
  pstamp : Nat := 0
  deriving DecidableEq, Repr

/-- A chisel snapshot (R261). -/
structure Snap where
  state : Nat := 0
  stack : List (BitVec 16) := []
  steps : Word := 0
  deriving DecidableEq, Repr

/-- Queued chisel commands (R262); a mask's destination is its place and offset. -/
inductive ChOp where
  | step (x : Word)
  | mask (pl : Place) (off f c : Nat)
  | save
  | load (k : Nat)
  | stat (dst : Dst) (sel : Nat)
  | close
  deriving DecidableEq, Repr
/-- A chisel command with its number and the slot and activation that issued it; `prev`: that slot's number on the context before
(R332); `begun`: a CHMASK, some of whose units are written: `op` is what is left of it. -/
structure ChCmd where
  num : Nat := 0
  at_ : At := ⟨0, 0, 0⟩
  act : Nat := 0
  task : Word := 0
  prev : Nat := 0
  begun : Bool := false
  op : ChOp := .save
  deriving DecidableEq, Repr

/-- A chisel context (R261). Stack and snapshots hold the newest first. `born` numbers its CHOPEN among the definitions of the
partition, and `by_` is the slot that issued it (R313); `shut` is the number of the CHCLOSE that closed it, 0 while it is open. -/
structure Ctx where
  launch : Option Nat := .none
  born : Nat := 0
  by_ : At := ⟨0, 0, 0⟩
  image : Word := 0
  state : Nat := 0
  stack : List (BitVec 16) := []
  snaps : List Snap := []
  steps : Word := 0
  last : Nat := 0
  dead : Bool := false
  accept : Bool := false
  fault : Bool := false
  fcode : Nat := 0
  pending : Option (Nat × Nat × Word) := .none
  assigned : Nat := 0
  completed : Nat := 0
  shut : Nat := 0
  queue : List ChCmd := []
  deriving DecidableEq, Repr

/-- A cluster store (R352): the launch that holds it, its ways, its bytes; `units`: its lines whose old contents the open interval
has logged (R333). -/
structure CStore where
  launch : Nat := 0
  way : Nat := 0
  ways : Nat := 0
  bytes : Bytes := []
  units : List Nat := []
  deriving DecidableEq, Repr

/-- What a line of an L2 slice holds (R352): a line the slice is home to, a non-coherent copy, or a transit line (R233). -/
inductive L2Class where
  | home | nc | transit
  deriving DecidableEq, Repr
/-- A line in a way of an L2 slice (R5, R352): its virtual line number, its physical line for a write-back, its way. `old`: at
the eviction head. -/
structure L2Line where
  line : Nat := 0
  cls : L2Class := .home
  way : Nat := 0
  pa : Nat := 0
  old : Bool := false
  deriving DecidableEq, Repr

/-- A cluster: chisel unit with its contexts, those that an instruction may still find though they are closed (R313: the context n
that the definition e closed stands in `ctxs` at 64 * e + n, and `closed` names the latest e with the slot that closed it), cluster
stores, the cluster's non-coherent copies of bytes with their dirty marks, and the lines in the ways of its slice, the
oldest first. -/
structure Cluster where
  ctxs : NMap Ctx := []
  closed : NMap (Nat × At) := []
  chPtr : Nat := 0
  stores : List CStore := []
  nc : NMap Byte := []
  ncDirty : NMap Bool := []
  l2 : List L2Line := []
  deriving DecidableEq, Repr

/-- An octet: instruction-cache lines by virtual line number, and the matrix arbiter (R31). -/
structure Octet where
  icache : NMap (List Byte) := []
  ptr : Nat := 0
  left : Nat := 0
  busy : Option Nat := .none
  deriving DecidableEq, Repr

/-- A member of a coupling group (R169, R170). -/
structure Member where
  core : Nat := 0
  step : Word := 0
  origin : Word := 0
  joined : Bool := false
  left : Bool := false
  deriving DecidableEq, Repr

/-- A coupling group: lookahead, pool, members in rank order, and the launch it lasts for; the number of its IGRP among the
partition's definitions and the core that issued it (R308). -/
structure Group where
  launch : Nat := 0
  lambda : Word := 0
  pool : Word := 0
  poolSize : Word := 0
  members : List Member := []
  born : Nat := 0
  by_ : Nat := 0
  deriving DecidableEq, Repr

/-- An HBAR phase (R146): level, the instance (team, die or chip), its number, the arrivals (core, value, reduction,
unsigned), its result once complete, and the definitions that its arrivals release (R147, R308). -/
structure HPhase where
  level : Level := .team
  inst : Nat := 0
  num : Nat := 0
  arrived : List (Nat × Word × Red × Bool) := []
  result : Option Word := .none
  know : List Nat := []
  deriving DecidableEq, Repr

/-- A placed launch (R374, R375, R380): `ways` gives the lowest way of its cluster store in each cluster. -/
structure Launch where
  id : Nat := 0
  launchId : BitVec 32 := 0
  taskBase : Word := 0
  csw : Nat := 0
  prio : Nat := 0
  cores : List Nat := []
  ways : List (Nat × Nat) := []
  started : Bool := false
  error : Option (Nat × Word) := .none
  deriving DecidableEq, Repr

/-- Directory states (R362). -/
inductive DirState where
  | i | s | e | o | m
  deriving DecidableEq, Repr

/-- Coherence requests that a home may be serving or holding (R366). -/
inductive CohReq where
  | rds | rdx | upg | ncrd | ncwr | atm
  deriving DecidableEq, Repr

/-- A transaction in flight at a home (R367): the request, its die and core, the dies whose acknowledgement is missing,
whether the line was asked of an owner and the owner sent the fill, and what the acknowledgements reported (dirty,
cut-dirty). -/
structure Txn where
  req : CohReq := .rds
  die : Nat := 0
  core : Nat := 0
  waiting : List Nat := []
  asked : Bool := false
  sent : Bool := false
  dirty : Bool := false
  cut : Bool := false
  deriving DecidableEq, Repr

/-- The directory entry of a line (R362), with the line's physical address as the home walked it, its transaction (BUSY is
set while there is one), the requests that wait at BUSY, and the dies whose WbD or EvC it has not acknowledged (R369). -/
structure DirEntry where
  pa : Nat := 0
  lock : Bool := false
  log : Bool := false
  st : DirState := .i
  owner : Nat := 0
  dies : List Nat := []
  txn : Option Txn := .none
  queue : List (CohReq × Nat × Nat) := []
  acks : List Nat := []
  deriving DecidableEq, Repr

/-- A snoop-filter entry of a die (R364): exact holders, or a coarse mask of groups of eight clusters. `leaving`: its line has
been invalidated and the home has not acknowledged it yet (R365). -/
structure Filter where
  owner : Option Nat := .none
  exact : List Nat := []
  coarse : Option (BitVec 64) := .none
  leaving : Bool := false
  deriving DecidableEq, Repr

/-- Kinds of coherence messages on the snoop channels (R366). -/
inductive SnoopKind where
  | rds | rdx | upg | ncrd | ncwr | atm | wbd | evc | fwds | fwdx | rcl | inv | datas | datae | datam | invack | fwdack | rcldata | nak | cmp
  deriving DecidableEq, Repr

/-- A message on a snoop channel (R366): its die, its direction (`toHome`), the requester, the line it carries with its
dirty and cut-dirty marks, whether a recall keeps S, the owner die that sends a fill itself (`src`), and the access that a
non-caching request serves, with its bytes or its atomic (`acc`). -/
structure Snoop where
  kind : SnoopKind := .inv
  line : Nat := 0
  die : Nat := 0
  core : Nat := 0
  toHome : Bool := false
  src : Option Nat := .none
  dirty : Bool := false
  cut : Bool := false
  keep : Bool := false
  acc : Option Acc := .none
  data : List Byte := []
  deriving DecidableEq, Repr

/-- What a partition's rollback restores (R336). `events` numbers the definitions of groups, keys and contexts, and `dropped` keeps
the keys dropped last: number, core, key (R308). `views`: by place and byte, the definitions that the store which a load finds
there releases, with those of the stores before it that only atomics and arrivals separate from it (R292, R308). -/
structure PLive where
  cores : NMap Core := []
  clusters : NMap Cluster := []
  octets : NMap Octet := []
  chans : List (Nat × ChClass × Acc) := []
  delivered : List Acc := []
  resps : List (Acc × Answer) := []
  groups : NMap Group := []
  keys : NMap Key := []
  events : Nat := 0
  dropped : NMap (Nat × Nat × Key) := []
  floors : NMap Word := []
  hphases : List HPhase := []
  launches : List Launch := []
  aflags : BitVec 5 := 0
  dir : NMap DirEntry := []
  filters : NMap Filter := []
  snoop : List Snoop := []
  views : List ((Place × Nat) × View) := []
  deriving DecidableEq, Repr

/-- Effects held until the next commit (R333). A completion record and a migration's done state are the effects that a
partition has on the host and that are not exempt; `record`: the launch record that completes without having been placed, which
the plinth handles again when a rollback discards its completion (R336, R381). -/
inductive Egress where
  | completion (launchId : BitVec 32) (status code : Nat) (task : Word) (record : List Byte)
  | migrationDone
  deriving DecidableEq, Repr

/-- A bind record (R377). -/
structure BindRec where
  pc : Word := 0
  task : Word := 0
  core : Nat := 0
  part : Nat := 0
  vf : Nat := 0
  slot : Nat := 0
  prio : Nat := 0
  teamId : Nat := 0
  stage : Nat := 0
  log2Team : Nat := 0
  csw : Nat := 0
  argIx : Nat := 0
  htIx : Nat := 0
  launch : Option Nat := .none
  deriving DecidableEq, Repr

/-- Stages of a cocoon cut (R331). -/
inductive Cut where
  | none | stopping | saved
  deriving DecidableEq, Repr

/-- A cached translation of a slice (R348): the entry of a level for the virtual addresses of an index, and where it lies. -/
structure Tlb where
  cluster : Nat := 0
  level : Nat := 0
  index : Nat := 0
  entry : Word := 0
  at_ : Nat := 0
  deriving DecidableEq, Repr

/-- A page migration that runs (R356): the page and its two physical addresses, where its leaf lies, whether a line is locked, the
lines moved, and, once the leaf is written, the name below which accesses were accepted under the old one. -/
structure Mig where
  page : Nat := 0
  opa : Nat := 0
  npa : Nat := 0
  at_ : Nat := 0
  locked : Bool := false
  moved : Nat := 0
  mark : Option Nat := .none
  deriving DecidableEq, Repr

/-- A partition (R343, R382). It starts in P0 until the host commands a P-state: DESIGN CHOICE, log entry 3. `logCap` lines of
its log and `egressCap` held effects are what fits (R335); the plinth gives both, with the partition. `migReq` is the page and
the destination that GO took (R356), `mig` the migration that runs. `newLaunches` and `newRecords` are the launches, and the
records applied, whose start no committed cocoon holds yet: the plinth places and writes them again after a rollback. -/
structure Part where
  vf : Nat := 0
  partId : Nat := 0
  clusters : List Nat := []
  scheduled : Bool := true
  stopped : Bool := false
  live : PLive := {}
  saved : PLive := {}
  pending : PLive := {}
  undo : NMap (List Byte) := []
  undoNew : NMap (List Byte) := []
  inbound : Bytes := []
  inboundNew : Bytes := []
  egress : List Egress := []
  egressNew : List Egress := []
  seq : BitVec 32 := 0
  cut : Cut := .none
  ckptInt : BitVec 16 := 50
  quantum : BitVec 8 := 20
  pstate : Nat := 0
  pstateNext : Option Nat := .none
  runtime : Word := 0
  records : List BindRec := []
  newRecords : List BindRec := []
  newLaunches : List Launch := []
  refused : Nat := 0
  argTable : NMap Word := []
  logCap : Nat := 0x100000
  egressCap : Nat := 0x100000
  migReq : Option (Nat × Nat) := .none
  mig : Option Mig := .none
  migWait : Bool := false
  migReady : Bool := false
  doubleFaults : Nat := 0
  tlb : List Tlb := []
  deriving DecidableEq, Repr

/-- Interrupts the device raises to the host. -/
inductive Interrupt where
  | fault | faultOverflow | dirtyLog | dirtyExit | completion | migration | alarm | replace
  deriving DecidableEq, Repr

/-- The registers of a virtual function (R349, R373, R389), the launch records that the plinth has taken and not placed
(R376), and what waits for its rings. -/
structure VF where
  enabled : Bool := false
  ptroot : Word := 0
  fbbase : Word := 0
  fbprod : BitVec 32 := 0
  fbcons : BitVec 32 := 0
  fbovf : Bool := false
  dlbase : Word := 0
  dlprod : BitVec 32 := 0
  dlcons : BitVec 32 := 0
  dlEn : Bool := false
  dlFull : Bool := false
  waymask : BitVec 16 := 0xFFFF
  wayEffect : BitVec 16 := 0xFFFF
  migva : Word := 0
  migpa : Word := 0
  migState : Nat := 0
  migReason : Nat := 0
  ncw : NMap Word := []
  lqbase : Word := 0
  lqprod : BitVec 32 := 0
  lqcons : BitVec 32 := 0
  taken : List (List Byte) := []
  cqbase : Word := 0
  cqprod : BitVec 32 := 0
  cqcons : BitVec 32 := 0
  ronotify : BitVec 32 := 0
  ptrace : Word := 0
  ptprod : Nat := 0
  ptDropped : Nat := 0
  tbtask : NMap Word := []
  tbpc : NMap Word := []
  wp : NMap Word := []
  complQ : List (BitVec 32 × Nat × Nat × Word) := []
  interrupts : List Interrupt := []
  deriving DecidableEq, Repr

/-- A buddy node with its rotation of tenants (R382, R383): the tenant that runs, whether the switch window runs, the cocoon
whose commit is the closing cut of the quantum that ends, and the tenants that join when the rotation ends. -/
structure Node where
  first : Nat := 0
  log2 : Nat := 0
  tenants : List Nat := []
  joining : List Nat := []
  running : Nat := 0
  window : Bool := false
  closing : Option (BitVec 32) := .none
  retired : Bool := false
  deriving DecidableEq, Repr

/-- An Amisin port (R391). Receiving: the sequence number that comes next, flits delivered in order, those dropped by class or
CRC, and the credits of each class not yet returned. Sending: the next sequence number, the credits of each class, flits that wait
for a credit, and the replay buffer, oldest first. -/
structure Port where
  dropped : Nat := 0
  crcDropped : Nat := 0
  flits : List (List Byte) := []
  expect : Nat := 0
  owed : NMap Nat := []
  seq : Nat := 0
  credits : NMap Nat := []
  waiting : List (Nat × Nat × List Byte) := []
  replay : List (Nat × List Byte) := []
  deriving DecidableEq, Repr

/-- Bring-up (R392, R394): the stage that runs, or the refusal it stopped at, the recovery mailbox, and what the accepted
configuration records gave: default CKPTINT and QUANTUM, routing table (chip, port), identity key and certificate chain. -/
structure Boot where
  passed : Bool := false
  stage : Nat := 0
  reason : Nat := 0
  index : Nat := 0
  floor : Nat := 0
  firmware : Image := { bytes := [], version := 0, ecdsaOk := true, lmsOk := true }
  runtime : Image := { bytes := [], version := 0, ecdsaOk := true, lmsOk := true }
  recs : List Image := []
  rstat : Nat := 0
  rreason : Nat := 0
  raddr : Word := 0
  rlen : Word := 0
  loading : Bool := false
  ckptInt : BitVec 16 := 50
  quantum : BitVec 8 := 20
  routes : NMap Nat := []
  identity : List Byte := []
  chain : List (List Byte) := []
  substitute : List (Nat × Nat × Image) := []
  deriving DecidableEq, Repr

/-- A watchpoint match not yet reported (R398): the slot, its activation, the watched address; a match by a copy or by the
host has the TASKID and WHO of its patina record instead. -/
structure WatchHit where
  at_ : At := ⟨0, 0, 0⟩
  act : Nat := 0
  addr : Word := 0
  note : Option (Word × Nat) := .none
  deriving DecidableEq, Repr

/-- A posted write on its way from a function's driver (R390): to the memory window, as it comes or, once its accesses are
posted, by its request's number; to host memory; or a queue-notify write of a register. -/
inductive Posted where
  | mem (p va : Nat) (bytes : List Byte)
  | sent (id : Nat)
  | host (a : Nat) (bytes : List Byte)
  | notify (num : Nat) (w : Word)
  deriving DecidableEq, Repr

/-- A request of a host function through the memory window, its accesses under way (R285, R343): its function and partition,
its range, the bytes of a read that have come, how many responses are still to come, and whether a watchpoint has matched it
(R398). -/
structure HostReq where
  id : Nat
  vf : Nat
  part : Nat
  read : Bool
  va : Nat
  len : Nat
  left : Nat
  got : Bytes := []
  noted : Bool := false
  deriving DecidableEq, Repr

/-- A partition as the plinth creates it (R382, R383, R315): its function and number, its node, the runtime's entry and
arguments, and the capacities of its log and of its egress buffer (R335). -/
structure PartSpec where
  vf : Nat := 0
  partId : Nat := 0
  first : Nat := 0
  log2 : Nat := 0
  runtime : Word := 0
  args : List Word := []
  logCap : Nat := 0x100000
  egressCap : Nat := 0x100000
  deriving DecidableEq, Repr

/-- The schedule: what the machine does next. `issue` lets a slot issue its next instruction (`refetch`: its cached
instruction line is dropped first, R37, R122; `stale`: it may find a group, a key or a context as it stood before a definition
that nothing orders before it, R308, R313); `agent` takes an agent's step. The others are acts of the plinth and of the
host that the table of operations has no row for: a range of memory reserved, and the capacity that a second-tier device
reports (R340), a corrected memory error counted, an error met in a line of a cluster's L2 slice or cluster store (R339: `line`
names a cached line; none, a line of a cluster store), a partition created (R382), its interval and quantum set (R315, R7), a
P-state commanded, a cluster gated, a stack put into self-refresh (R396), VF Enable set (R386), a write posted and the oldest
one of a function performed (R390), an access to the register window by its byte offset (R388), and a flit sent, or
acknowledged by its receiver with credits (R391). -/
inductive Move where
  | issue (p c n : Nat) (refetch stale : Bool)
  | agent (i : Instr)
  | create (p : Nat) (x : PartSpec)
  | configure (p ckptInt quantum : Nat)
  | pstate (p n : Nat)
  | reserve (base len : Nat)
  | tier (port size : Nat)
  | corrected (pa : Nat)
  | sliceError (p cluster : Nat) (line : Option Nat)
  | gate (cluster : Nat) (off : Bool)
  | refresh (stack : Nat) (on : Bool)
  | enable (vf : Nat)
  | post (vf : Nat) (w : Posted)
  | drain (vf : Nat)
  | barRead (vf off len : Nat)
  | barWrite (vf off : Nat) (bytes : List Byte)
  | sendFlit (chip cls : Nat) (payload : List Byte)
  | ackFlits (port upTo : Nat) (credits : NMap Nat)
  deriving DecidableEq, Repr

/-- MAP0 onward of a part with n HBM stacks, no reserved range and no second tier: base and length of each stack (R340,
R389; log entry 21). -/
def stackMap (n : Nat) : NMap Word :=
  (((List.range n).map fun i => [(2 * i, BitVec.ofNat 64 (i * 0x2000000000)), (2 * i + 1, 95999950848#64)]).flatten)

/-- The machine. `hostResp` is the answer to the host's latest access through a window; none: completer abort. `hostReqs` are
its requests whose accesses are under way. `spares`
counts the spares left by die (16 * chip + die), `spareMap` names the clusters they replaced; `gated` clusters and `refresh`
stacks are powered down by the host (R396). `stale`: the instruction that issues may find an earlier definition (R308, R313). -/
structure State where
  variant : Variant := .w16
  chipId : Nat := 0
  mem : Bytes := []
  hostMem : Bytes := []
  hostResp : Option (List Byte) := .none
  hostReqs : List HostReq := []
  memErrors : List Nat := []
  reliability : Nat := 0
  parts : NMap Part := []
  vfs : NMap VF := []
  nodes : List Node := []
  spares : NMap Nat := []
  spareMap : List (Nat × Nat) := []
  gated : List Nat := []
  refresh : List Nat := []
  posted : List (Nat × Posted) := []
  replace : Bool := false
  junction : BitVec 8 := 0
  alarm : Bool := false
  halted : Bool := false
  map : NMap Word := stackMap 16
  tierSize : NMap Nat := []
  reserved : List (Nat × Nat) := []
  boot : Boot := {}
  ports : NMap Port := []
  pfInterrupts : List Interrupt := []
  spdm : List (BitVec 384) := []
  jtag : Nat := 0
  watch : List WatchHit := []
  moves : List Move := []
  cur : At := ⟨0, 0, 0⟩
  stale : Bool := false
  fresh : Nat := 0
  nextId : Nat := 0
  deriving DecidableEq, Repr

/-- The machine right after reset: no partition exists, memory lists nothing, every register at the value INVENTORY.md
names (log entries 3 and 4). -/
def State.reset : State := {}

end Sys2Proof.Machine
end

