-- ==== Sys2Proof/Machine/Maps.lean ====
section
/-! DEFINITION. Maps from numbers, in one canonical form: keys rising, and (for `mset`) no entry equal to the default. -/

namespace Sys2Proof.Machine

/-- The value at a key, or the default. -/
def mget {α : Type} (d : α) : NMap α → Nat → α
  | [], _ => d
  | (k, v) :: m, n => if k = n then v else mget d m n

/-- The value at a key, if listed. -/
def mfind? {α : Type} : NMap α → Nat → Option α
  | [], _ => none
  | (k, v) :: m, n => if k = n then some v else mfind? m n

/-- Drop a key. -/
def mdel {α : Type} : NMap α → Nat → NMap α
  | [], _ => []
  | (k, v) :: m, n => if k = n then mdel m n else (k, v) :: mdel m n

/-- List a value at a key. -/
def mput {α : Type} : NMap α → Nat → α → NMap α
  | [], n, x => [(n, x)]
  | (k, v) :: m, n, x => if k = n then (n, x) :: m else if n < k then (n, x) :: (k, v) :: m else (k, v) :: mput m n x

/-- Write a value: the default is not listed. -/
def mset {α : Type} [DecidableEq α] (d : α) (m : NMap α) (n : Nat) (x : α) : NMap α :=
  if x = d then mdel m n else mput m n x

/-- Change the value at a listed key. -/
def mupd {α : Type} : NMap α → Nat → (α → α) → NMap α
  | [], _, _ => []
  | (k, v) :: m, n, f => if k = n then (k, f v) :: m else (k, v) :: mupd m n f

/-- The sum of a measure over the values at the listed keys; `seen` are keys counted already. -/
def msum {α : Type} (f : α → Nat) : List Nat → NMap α → Nat
  | _, [] => 0
  | seen, (k, v) :: m => (if seen.contains k then 0 else f v) + msum f (k :: seen) m

/-- Bytes a..a+n-1 of a memory whose unlisted bytes read as zero. -/
def bytesAt (m : Bytes) (a : Nat) : Nat → List Byte
  | 0 => []
  | n + 1 => mget 0 m a :: bytesAt m (a + 1) n

/-- Store bytes from address a upward. -/
def putBytes (m : Bytes) (a : Nat) : List Byte → Bytes
  | [] => m
  | b :: bs => putBytes (mset 0 m a b) (a + 1) bs

/-- The little-endian value of bytes. -/
def leNat : List Byte → Nat
  | [] => 0
  | b :: bs => b.toNat + 256 * leNat bs

/-- The n low bytes of a value, little-endian. -/
def leBytes (n v : Nat) : List Byte :=
  match n with
  | 0 => []
  | n + 1 => BitVec.ofNat 8 v :: leBytes n (v / 256)

/-- Memory's canonical form: addresses rise strictly, and no byte equal to what an unlisted address reads as (zero: log
entry 4) is listed. -/
def Memory.wfFrom (lo : Nat) : Bytes → Bool
  | [] => true
  | (a, b) :: m => lo ≤ a && b != 0 && Memory.wfFrom (a + 1) m

/-- The canonical form of a memory. -/
def Memory.wf (m : Bytes) : Bool := Memory.wfFrom 0 m

/-- The first element that satisfies a test, with the rest of the list without it. -/
def takeFirst {α : Type} (p : α → Bool) : List α → Option (α × List α)
  | [] => none
  | x :: xs =>
    if p x then some (x, xs) else
    match takeFirst p xs with
    | some (y, ys) => some (y, x :: ys)
    | none => none

/-- Sign extension of the low w bits of a number to 64 bits. -/
def sext64 (w v : Nat) : Word := ((BitVec.ofNat w v).signExtend 64)

/-- A 32-bit immediate, sign-extended (R88). -/
def immS (i : BitVec 32) : Word := i.signExtend 64
/-- A 32-bit immediate, zero-extended. -/
def immZ (i : BitVec 32) : Word := i.setWidth 64

end Sys2Proof.Machine
end

