-- ==== Sys2Proof/Machine/Num.lean ====
section
/-! DEFINITION. Numbers to the last bit (spec/02_numbers.md): formats, one rounding of an exact rational, floating-point
operations, conversions, the correctly rounded functions. Exact values are naturals and integers; nothing is rounded
before the one rounding. -/

namespace Sys2Proof.Machine

/-- What a format has besides finite values (R51, R59). -/
inductive Special where
  | ieee | nanOnly | none
  deriving DecidableEq, Repr

/-- A binary format: exponent and fraction widths, bias, special values. -/
structure Fmt where
  e : Nat
  m : Nat
  bias : Nat
  special : Special
  deriving DecidableEq, Repr

def f64 : Fmt := ⟨11, 52, 1023, .ieee⟩
def f32 : Fmt := ⟨8, 23, 127, .ieee⟩
def f16 : Fmt := ⟨5, 10, 15, .ieee⟩
def bf16 : Fmt := ⟨8, 7, 127, .ieee⟩
def e4m3 : Fmt := ⟨4, 3, 7, .nanOnly⟩
def e5m2 : Fmt := ⟨5, 2, 15, .ieee⟩
def e3m2 : Fmt := ⟨3, 2, 3, .none⟩
def e2m3 : Fmt := ⟨2, 3, 1, .none⟩
def e2m1 : Fmt := ⟨2, 1, 1, .none⟩

/-- Bits of a format. -/
def Fmt.width (f : Fmt) : Nat := 1 + f.e + f.m
/-- The canonical NaN (R52); formats without one have none. -/
def Fmt.nan (f : Fmt) : Nat :=
  match f.special with
  | .ieee => (2 ^ f.e - 1) * 2 ^ f.m + 2 ^ (f.m - 1)
  | .nanOnly => 2 ^ (f.e + f.m) - 1
  | .none => 0
/-- Magnitude bits of infinity (formats with one). -/
def Fmt.inf (f : Fmt) : Nat := (2 ^ f.e - 1) * 2 ^ f.m
/-- Magnitude bits of the largest finite value. -/
def Fmt.maxBits (f : Fmt) : Nat :=
  match f.special with
  | .ieee => (2 ^ f.e - 1) * 2 ^ f.m - 1
  | .nanOnly => 2 ^ (f.e + f.m) - 2
  | .none => 2 ^ (f.e + f.m) - 1
/-- The sign bit put on magnitude bits. -/
def Fmt.sign (f : Fmt) (neg : Bool) (mag : Nat) : Nat := if neg then 2 ^ (f.e + f.m) + mag else mag

/-- The value that bits stand for: a NaN (signalling or not), an infinity, or ± m * 2^e. -/
inductive FV where
  | nan (sig : Bool)
  | inf (neg : Bool)
  | fin (neg : Bool) (m : Nat) (e : Int)
  deriving DecidableEq, Repr

/-- FSTAT flags (R54): SAT NV DZ OF UF NX. -/
abbrev Flags := BitVec 6
def fNX : Flags := 1
def fUF : Flags := 2
def fOF : Flags := 4
def fDZ : Flags := 8
def fNV : Flags := 16
def fSAT : Flags := 32

/-- Reading bits (R51, R59). -/
def Fmt.read (f : Fmt) (bits : Nat) : FV :=
  let neg := bits / 2 ^ (f.e + f.m) % 2 == 1
  let ex := bits / 2 ^ f.m % 2 ^ f.e
  let fr := bits % 2 ^ f.m
  if f.special == .ieee && ex == 2 ^ f.e - 1 then
    (if fr == 0 then .inf neg else .nan (fr / 2 ^ (f.m - 1) == 0))
  else if f.special == .nanOnly && ex == 2 ^ f.e - 1 && fr == 2 ^ f.m - 1 then .nan false
  else if ex == 0 then .fin neg fr (1 - (f.bias : Int) - f.m)
  else .fin neg (2 ^ f.m + fr) ((ex : Int) - f.bias - f.m)

/-- Rounding modes of R57; stochastic rounding carries its draw (R75). -/
inductive RMode where
  | rne | rz | ru | rd | rna | sr (r : Nat)
  deriving DecidableEq, Repr

/-- Rounding lo + rem/den to an integer (rem < den). -/
def roundInc (mode : RMode) (neg : Bool) (lo rem den : Nat) : Nat :=
  if rem == 0 then lo else
  match mode with
  | .rne => if 2 * rem > den || (2 * rem == den && lo % 2 == 1) then lo + 1 else lo
  | .rz => lo
  | .ru => if neg then lo else lo + 1
  | .rd => if neg then lo + 1 else lo
  | .rna => if 2 * rem ≥ den then lo + 1 else lo
  | .sr r => if r < rem * 2 ^ 32 / den then lo + 1 else lo

/-- floor(log2(n/d)) for positive n and d. -/
def log2Rat (n d : Nat) : Int :=
  let k : Int := (Nat.log2 n : Int) - Nat.log2 d
  if n * 2 ^ (-k).toNat ≥ d * 2 ^ k.toNat then k else k - 1

/-- n/d divided by 2^q: integer part, remainder, denominator. -/
def scaleRat (n d : Nat) (q : Int) : Nat × Nat × Nat :=
  let num := n * 2 ^ (-q).toNat
  let den := d * 2 ^ q.toNat
  (num / den, num % den, den)

/-- One rounding of the positive rational n/d to the format (R57, R58, R62, R76), with the flags of R55. -/
def Fmt.roundPos (f : Fmt) (mode : RMode) (neg : Bool) (n d : Nat) : Nat × Flags :=
  let k := log2Rat n d
  let emin : Int := 1 - f.bias
  let q : Int := max k emin - f.m
  let (lo, rem, den) := scaleRat n d q
  let r := roundInc mode neg lo rem den
  -- tininess, with the exponent range unbounded
  let (lo', rem', den') := scaleRat n d (k - f.m)
  let r' := roundInc mode neg lo' rem' den'
  let tiny := k < emin && !(k == emin - 1 && r' == 2 ^ (f.m + 1))
  let (r, q) := if r == 2 ^ (f.m + 1) then (2 ^ f.m, q + 1) else (r, q)
  let ef := q + f.m + f.bias
  let mag := if r < 2 ^ f.m then r else ef.toNat * 2 ^ f.m + (r - 2 ^ f.m)
  let nx : Flags := if rem == 0 then 0 else fNX
  if r ≥ 2 ^ f.m && mag > f.maxBits then
    let big := match f.special with
      | .ieee =>
        (match mode with
        | .rne | .rna | .sr _ => f.inf
        | .rz => f.maxBits
        | .ru => if neg then f.maxBits else f.inf
        | .rd => if neg then f.inf else f.maxBits)
      | _ => f.maxBits
    (f.sign neg big, fOF ||| fNX)
  else
    let srOf : Flags := match mode, f.special with
      | .sr _, .ieee => if mag == f.maxBits && lo == r && rem != 0 then fOF else 0
      | _, _ => 0
    (f.sign neg mag, nx ||| srOf ||| (if tiny && rem != 0 then fUF else 0))

/-- One rounding of ± n/d; a zero keeps the sign given. -/
def Fmt.round (f : Fmt) (mode : RMode) (neg : Bool) (n d : Nat) : Nat × Flags :=
  if n == 0 then (f.sign neg 0, 0) else f.roundPos mode neg n d

/-- One rounding of ± m * 2^e. -/
def Fmt.roundExp (f : Fmt) (mode : RMode) (neg : Bool) (m : Nat) (e : Int) : Nat × Flags :=
  f.round mode neg (m * 2 ^ e.toNat) (2 ^ (-e).toNat)

/-- The signed integer of a finite value at exponent e0 ≤ e. -/
def fvInt (neg : Bool) (m : Nat) (e e0 : Int) : Int :=
  let v : Int := (m * 2 ^ (e - e0).toNat : Nat)
  if neg then -v else v

/-- NV for a signalling NaN. -/
def snan : FV → Flags
  | .nan true => fNV
  | _ => 0
def FV.isNan : FV → Bool
  | .nan _ => true
  | _ => false
def FV.negate : FV → FV
  | .nan s => .nan s
  | .inf n => .inf !n
  | .fin n m e => .fin (!n) m e
def FV.isZero : FV → Bool
  | .fin _ 0 _ => true
  | _ => false

/-- Addition of two values with one rounding; signed zeros by R107. -/
def Fmt.addV (f : Fmt) (mode : RMode) (x y : FV) : Nat × Flags :=
  match x, y with
  | .nan _, _ | _, .nan _ => (f.nan, snan x ||| snan y)
  | .inf a, .inf b => if a == b then (f.sign a f.inf, 0) else (f.nan, fNV)
  | .inf a, _ => (f.sign a f.inf, 0)
  | _, .inf b => (f.sign b f.inf, 0)
  | .fin nx mx ex, .fin ny my ey =>
    let e0 := min ex ey
    let s := fvInt nx mx ex e0 + fvInt ny my ey e0
    if s == 0 then
      (f.sign (if mx == 0 && my == 0 && nx == ny then nx else mode == .rd) 0, 0)
    else f.roundExp mode (s < 0) s.natAbs e0

/-- The exact product. -/
def mulV : FV → FV → FV × Flags
  | .nan s, y => (.nan false, snan (.nan s) ||| snan y)
  | x, .nan s => (.nan false, snan x ||| snan (.nan s))
  | .inf a, .inf b => (.inf (a != b), 0)
  | .inf a, .fin b m _ => if m == 0 then (.nan false, fNV) else (.inf (a != b), 0)
  | .fin a m _, .inf b => if m == 0 then (.nan false, fNV) else (.inf (a != b), 0)
  | .fin a m e, .fin b k g => (.fin (a != b) (m * k) (e + g), 0)

/-- A value rounded to the format. -/
def Fmt.ofV (f : Fmt) (mode : RMode) : FV → Nat × Flags
  | .nan s => (f.nan, snan (.nan s))
  | .inf n => (f.sign n f.inf, 0)
  | .fin n m e => f.roundExp mode n m e

def Fmt.add (f : Fmt) (mode : RMode) (a b : Nat) : Nat × Flags := f.addV mode (f.read a) (f.read b)
def Fmt.sub (f : Fmt) (mode : RMode) (a b : Nat) : Nat × Flags := f.addV mode (f.read a) (f.read b).negate
def Fmt.mul (f : Fmt) (mode : RMode) (a b : Nat) : Nat × Flags :=
  let (p, fl) := mulV (f.read a) (f.read b)
  let (r, g) := f.ofV mode p
  (r, fl ||| g)
/-- x * y + z with one rounding (R109): an invalid product raises NV even beside a quiet NaN. -/
def Fmt.fmaV (f : Fmt) (mode : RMode) (x y z : FV) : Nat × Flags :=
  let (p, fl) := mulV x y
  let (r, g) := f.addV mode p z
  (r, fl ||| g)
def Fmt.fma (f : Fmt) (mode : RMode) (a b c : Nat) : Nat × Flags := f.fmaV mode (f.read a) (f.read b) (f.read c)
/-- a / b (R108, R55). -/
def Fmt.div (f : Fmt) (mode : RMode) (a b : Nat) : Nat × Flags :=
  match f.read a, f.read b with
  | .nan s, y => (f.nan, snan (.nan s) ||| snan y)
  | x, .nan s => (f.nan, snan x ||| snan (.nan s))
  | .inf _, .inf _ => (f.nan, fNV)
  | .inf n, .fin k _ _ => (f.sign (n != k) f.inf, 0)
  | .fin n _ _, .inf k => (f.sign (n != k) 0, 0)
  | .fin n m e, .fin k p g =>
    if p == 0 then (if m == 0 then (f.nan, fNV) else (f.sign (n != k) f.inf, fDZ))
    else
      let q := e - g
      f.round mode (n != k) (m * 2 ^ q.toNat) (p * 2 ^ (-q).toNat)

/-- Integer square root, bit by bit. -/
def isqrtAux (n : Nat) : Nat → Nat → Nat
  | 0, acc => acc
  | i + 1, acc =>
    let t := acc + 2 ^ i
    isqrtAux n i (if t * t ≤ n then t else acc)
def isqrt (n : Nat) : Nat := isqrtAux n (Nat.log2 n / 2 + 1) 0

/-- A rational that rounds to any format of this chapter as √(n/d) does: the root itself when it has at most 64 fraction
bits beyond, else a point strictly between two neighbours at that precision. -/
def sqrtRat (n d : Nat) : Nat × Nat :=
  let t := 64 + Nat.log2 d
  let s := isqrt (n * 2 ^ (2 * t) / d)
  (2 * s + (if s * s * d == n * 2 ^ (2 * t) then 0 else 1), 2 ^ (t + 1))

/-- √a (R108). -/
def Fmt.sqrt (f : Fmt) (mode : RMode) (a : Nat) : Nat × Flags :=
  match f.read a with
  | .nan s => (f.nan, snan (.nan s))
  | .inf n => if n then (f.nan, fNV) else (f.inf, 0)
  | .fin n m e =>
    if m == 0 then (f.sign n 0, 0) else if n then (f.nan, fNV)
    else
      let (p, q) := sqrtRat (m * 2 ^ e.toNat) (2 ^ (-e).toNat)
      f.round mode false p q

/-- Comparison of finite or infinite values: x < y. -/
def FV.lt : FV → FV → Bool
  | .fin a m e, .fin b k g =>
    let e0 := min e g
    decide (fvInt a m e e0 < fvInt b k g e0)
  | .inf a, .inf b => a && !b
  | .inf a, .fin _ _ _ => a
  | .fin _ _ _, .inf b => !b
  | _, _ => false
def FV.eq (x y : FV) : Bool := !x.isNan && !y.isNan && !x.lt y && !y.lt x
def FV.neg? : FV → Bool
  | .nan _ => false
  | .inf n => n
  | .fin n _ _ => n

/-- minimumNumber and maximumNumber (R53). -/
def Fmt.minMax (f : Fmt) (isMax : Bool) (a b : Nat) : Nat × Flags :=
  let x := f.read a
  let y := f.read b
  let fl := snan x ||| snan y
  if x.isNan && y.isNan then (f.nan, fl)
  else if x.isNan then (b, fl)
  else if y.isNan then (a, fl)
  else
    let less := x.lt y || (x.eq y && x.neg? && !y.neg?)
    (if less != isMax then a else b, fl)

/-- FABS, FNEG and FCOPYSIGN (R108): a NaN gives the canonical NaN. -/
def Fmt.withSign (f : Fmt) (a : Nat) (neg : Bool) : Nat × Flags :=
  match f.read a with
  | .nan s => (f.nan, snan (.nan s))
  | _ => (f.sign neg (a % 2 ^ (f.e + f.m)), 0)
def Fmt.signOf (f : Fmt) (a : Nat) : Bool := a / 2 ^ (f.e + f.m) % 2 == 1

/-- FCMP and VCMP conditions (R110). -/
def Fmt.cmp (f : Fmt) (c : FCond) (a b : Nat) : Bool × Flags :=
  let x := f.read a
  let y := f.read b
  let un := x.isNan || y.isNan
  let s := snan x ||| snan y
  let quiet : Flags := if un then fNV else 0
  match c with
  | .eq => (!un && x.eq y, s)
  | .ne => (un || !x.eq y, s)
  | .lt => (!un && x.lt y, quiet)
  | .le => (!un && !y.lt x, quiet)
  | .gt => (!un && y.lt x, quiet)
  | .ge => (!un && !x.lt y, quiet)
  | .un => (un, s)
  | .or => (!un, s)

/-- FCLASS (R112). -/
def Fmt.classify (f : Fmt) (a : Nat) : Nat :=
  match f.read a with
  | .nan s => if s then 1 else 2
  | .inf n => if n then 4 else 8
  | .fin n m _ =>
    if m == 0 then (if n then 256 else 512)
    else if m < 2 ^ f.m then (if n then 64 else 128)
    else if n then 16 else 32

/-! ### Stochastic rounding (R75) -/

/-- The 64-bit value z of SrBits, after its four steps (R75, R281). -/
def srZ (seed i : Word) : Word :=
  let z := (i + 1) * 0x9E3779B97F4A7C15 + seed
  let z := (z ^^^ (z >>> 30)) * 0xBF58476D1CE4E5B9
  let z := (z ^^^ (z >>> 27)) * 0x94D049BB133111EB
  z ^^^ (z >>> 31)
/-- The 32 random bits r. -/
def srBits (seed i : Word) : Nat := (srZ seed i >>> 32).toNat

/-! ### Integers and conversions (R49, R62, R63) -/

/-- The integer that w bits stand for. -/
def intOf (signed : Bool) (w v : Nat) : Int :=
  let u := v % 2 ^ w
  if signed && 2 * u ≥ 2 ^ w then (u : Int) - (2 ^ w : Nat) else u

/-- The w-bit pattern of an integer. -/
def ofInt (w : Nat) (v : Int) : Nat := (v % (2 ^ w : Nat)).toNat

/-- Rounding to an integer target (R63, R76): nearest limit and NV outside the range, and no NX there. DEDUCED, log entry 68. -/
def fvToInt (mode : RMode) (signed : Bool) (w : Nat) (x : FV) : Nat × Flags :=
  let hi : Int := if signed then (2 ^ (w - 1) : Nat) - 1 else (2 ^ w : Nat) - 1
  let lo : Int := if signed then -((2 ^ (w - 1) : Nat) : Int) else 0
  match x with
  | .nan _ => (0, fNV)
  | .inf n => (ofInt w (if n then lo else hi), fNV)
  | .fin n m e =>
    let (q, rem, den) := scaleRat (m * 2 ^ e.toNat) (2 ^ (-e).toNat) 0
    let r := roundInc mode n q rem den
    let v : Int := if n then -(r : Int) else r
    if v > hi then (ofInt w hi, fNV) else if v < lo then (ofInt w lo, fNV)
    else (ofInt w v, if rem == 0 then 0 else fNX)

/-- Floating point to floating point (R62). -/
def Fmt.convert (f : Fmt) (mode : RMode) (x : FV) : Nat × Flags :=
  match x with
  | .nan s => (match f.special with
    | .none => (0, fNV)
    | _ => (f.nan, snan (.nan s)))
  | .inf n => (match f.special with
    | .ieee => (f.sign n f.inf, 0)
    | _ => (f.sign n f.maxBits, fOF ||| fNX))
  | .fin n m e => f.roundExp mode n m e

/-- An integer as a value. -/
def intV (v : Int) : FV := .fin (v < 0) v.natAbs 0

/-- Conversion into E8M0 (R64). -/
def toE8m0 (x : FV) : Nat × Flags :=
  match x with
  | .fin false m e =>
    if m == 0 then (0xFF, fNV) else
    let k := (Nat.log2 m : Int) + e
    if k < -127 then (0, fUF ||| fNX)
    else if k ≥ 128 then (0xFE, fOF ||| fNX)
    else ((k + 127).toNat, if m == 2 ^ Nat.log2 m then 0 else fNX)
  | _ => (0xFF, fNV)

/-- L[F] of log6 in 1.15 fixed point (R65). -/
def log6L (f : Nat) : Nat := ([32768, 38968, 46341, 55109][f]?).getD 0
/-- A log6 code's value (R65). -/
def log6Read (c : Nat) : FV :=
  let s := c / 32 % 2 == 1
  let i := c / 4 % 8
  let f := c % 4
  if i == 0 && f == 0 then .fin s 0 0 else .fin s (log6L f) ((i : Int) - 19)
/-- The product of two log6 codes (R66). -/
def log6Mul (a b : Nat) : FV :=
  let sa := a / 32 % 2 == 1
  let sb := b / 32 % 2 == 1
  if a % 32 == 0 || b % 32 == 0 then .fin (sa != sb) 0 0 else
  let fs := a % 4 + b % 4
  .fin (sa != sb) (log6L (fs % 4)) (((a / 4 % 8 + b / 4 % 8 + fs / 4 : Nat) : Int) - 8 - 15)
/-- 2^(j/8) for j = 1, 3, 5, 7 rounded once to FP32, in units of 2^-23 (R67). -/
def log6T (j : Nat) : Nat := ([9147842, 10878679, 12937002, 15384775][j]?).getD 0
/-- The threshold below code c (1-31), as the FP32 value t * 2^e: 2^(nominal exponent - 1/8), rounded once (R67). Code c
has nominal exponent c/4 - 4, so the threshold's exponent is (2c - 33)/8. -/
def log6Thr (c : Nat) : Nat × Int :=
  let n : Int := 2 * c - 33
  (log6T ((n.emod 8).toNat / 2), n.ediv 8 - 23)
/-- The largest code 1-31 whose threshold is at or below ± m * 2^e, or 0. -/
def log6Search (m : Nat) (e : Int) : Nat → Nat
  | 0 => 0
  | c + 1 =>
    let (t, g) := log6Thr (c + 1)
    let e0 := min e g
    if t * 2 ^ (g - e0).toNat ≤ m * 2 ^ (e - e0).toNat then c + 1 else log6Search m e c
/-- Conversion into log6 (R67): the source is first an FP32 value. The flags follow from the source's own value: an f64 source that
FP32 rounds to zero gives UF and NX, and NX tells whether the source itself equals the decoded value (the spec does not say whether
it or its FP32 rounding does: DESIGN CHOICE, log entry 80). -/
def toLog6 (x : FV) : Nat × Flags :=
  match x with
  | .nan _ => (0, fNV)
  | .inf n => (if n then 0x3F else 0x1F, fOF ||| fNX)
  | .fin n m e =>
    let sb := if n then 32 else 0
    if m == 0 then (sb, 0) else
    match f32.read (f32.roundExp .rne n m e).1 with
    | .fin _ m' e' =>
      if m' == 0 then (sb, fUF ||| fNX) else
      let (t, g) := log6Thr 32
      let e0 := min e' g
      if t * 2 ^ (g - e0).toNat ≤ m' * 2 ^ (e' - e0).toNat then (sb + 31, fOF ||| fNX)
      else
        let c := log6Search m' e' 31
        if c == 0 then (sb, fUF ||| fNX)
        else (sb + c, if (log6Read c).eq (.fin false m e) then 0 else fNX)
    | _ => (sb + 31, fOF ||| fNX)

/-- The value of an element's bits (R69); a q4 code is its table value (R68). -/
def efmtRead (f : Efmt) (qtbl : V128) (bits : Nat) : FV :=
  match f with
  | .i8 => intV (intOf true 8 bits)
  | .n8 => intV (intOf false 8 bits)
  | .i16 => intV (intOf true 16 bits)
  | .n16 => intV (intOf false 16 bits)
  | .i32 => intV (intOf true 32 bits)
  | .f32 => Machine.f32.read bits
  | .f16 => Machine.f16.read bits
  | .bf16 => Machine.bf16.read bits
  | .e4m3 => Machine.e4m3.read bits
  | .e5m2 => Machine.e5m2.read bits
  | .e3m2 => Machine.e3m2.read (bits % 64)
  | .e2m3 => Machine.e2m3.read (bits % 64)
  | .e2m1 => Machine.e2m1.read (bits % 16)
  | .log6 => log6Read (bits % 64)
  | .q4 => intV (intOf true 8 ((qtbl >>> (8 * (bits % 16))).toNat % 256))
  | .f64 => Machine.f64.read bits

/-- Integer element formats. -/
def efmtInt : Efmt → Option (Bool × Nat)
  | .i8 => some (true, 8)
  | .n8 => some (false, 8)
  | .i16 => some (true, 16)
  | .n16 => some (false, 16)
  | .i32 => some (true, 32)
  | _ => none

/-- Conversion of an element (R230): integer to integer keeps the low bits (R63). -/
def efmtConvert (src dst : Efmt) (mode : RMode) (qtbl : V128) (bits : Nat) : Nat × Flags :=
  let x := efmtRead src qtbl bits
  let srcInt : Option Int := match src, x with
    | .q4, .fin n m _ => some (if n then -(m : Int) else m)
    | _, .fin n m _ => if (efmtInt src).isSome then some (if n then -(m : Int) else m) else none
    | _, _ => none
  match efmtInt dst, srcInt with
  | some (_, w), some v => (ofInt w v, 0)
  | some (s, w), none => fvToInt mode s w x
  | none, _ =>
    match dst with
    | .f32 => Machine.f32.convert mode x
    | .f16 => Machine.f16.convert mode x
    | .bf16 => Machine.bf16.convert mode x
    | .e4m3 => Machine.e4m3.convert mode x
    | .e5m2 => Machine.e5m2.convert mode x
    | .e3m2 => Machine.e3m2.convert mode x
    | .e2m3 => Machine.e2m3.convert mode x
    | .e2m1 => Machine.e2m1.convert mode x
    | .f64 => Machine.f64.convert mode x
    | .log6 => toLog6 x
    | _ => (0, 0)

/-- The floating-point format of an instruction type. -/
def tyFmt : Ty → Fmt
  | .f16 => Machine.f16
  | .bf16 => Machine.bf16
  | .f64 => Machine.f64
  | .e4m3 => Machine.e4m3
  | .e5m2 => Machine.e5m2
  | _ => Machine.f32

/-- Conversion between instruction types (FCVT, VCVT: R111, R202). -/
def tyConvert (src dst : Ty) (mode : RMode) (bits : Nat) : Nat × Flags :=
  let b := bits % 2 ^ src.bits
  if src.isInt then
    let v := intOf src.signed src.bits b
    if dst.isInt then (ofInt dst.bits v, 0) else (tyFmt dst).convert mode (intV v)
  else
    let x := (tyFmt src).read b
    if dst.isInt then fvToInt mode dst.signed dst.bits x else (tyFmt dst).convert mode x

/-! ### Correctly rounded functions (R203), by intervals whose precision doubles until both ends round alike -/

/-- Bounds of 2^(2^-i), i = 1.., in units of 2^-p, paired with the bits of f (most significant first). -/
def exp2Loop (p : Nat) : List Bool → Nat → Nat → Nat → Nat → Nat × Nat
  | [], _, _, lo, hi => (lo, hi)
  | b :: bs, cl, ch, lo, hi =>
    let cl := isqrt (cl * 2 ^ p)
    let ch := isqrt (ch * 2 ^ p) + 1
    if b then exp2Loop p bs cl ch (lo * cl / 2 ^ p) (hi * ch / 2 ^ p + 1) else exp2Loop p bs cl ch lo hi

/-- The bits of a fraction f / 2^s, most significant first. -/
def fracBits (f : Nat) : Nat → List Bool
  | 0 => []
  | s + 1 => (f / 2 ^ s % 2 == 1) :: fracBits f s

/-- RNE to f32 of 2^(k + f/2^s), 0 < f < 2^s, by precisions p, 2p, ... -/
def exp2Round (k : Int) (f s : Nat) : Nat → Nat → Nat × Flags
  | 0, p =>
    let (lo, _) := exp2Loop p (fracBits f s) (2 * 2 ^ p) (2 * 2 ^ p) (2 ^ p) (2 ^ p)
    f32.roundExp .rne false lo (k - p)
  | fuel + 1, p =>
    let (lo, hi) := exp2Loop p (fracBits f s) (2 * 2 ^ p) (2 * 2 ^ p) (2 ^ p) (2 ^ p)
    let a := f32.roundExp .rne false (4 * lo - 1) (k - p - 2)
    let b := f32.roundExp .rne false (4 * hi + 1) (k - p - 2)
    if a == b then a else exp2Round k f s fuel (2 * p)

/-- 2^x rounded once by RNE to f32 (R203). -/
def exp2F32 (a : Nat) : Nat × Flags :=
  match f32.read a with
  | .nan s => (f32.nan, snan (.nan s))
  | .inf n => if n then (0, 0) else (f32.inf, 0)
  | .fin n m e =>
    if m == 0 then (0x3F800000, 0) else
    if (Nat.log2 m : Int) + e ≥ 8 then (if n then (0, fUF ||| fNX) else (f32.inf, fOF ||| fNX)) else
    if (Nat.log2 m : Int) + e < -26 then (0x3F800000, fNX) else
    let s := (-e).toNat
    let v : Int := fvInt n m (max e 0) 0
    let k := v.ediv (2 ^ s : Nat)
    let f := (v.emod (2 ^ s : Nat)).toNat
    if f == 0 then f32.roundExp .rne false 1 k else exp2Round k f s 4 96

/-- Fraction bits of log2 y for y in [1, 2), y in [lo, hi] / 2^p; none when the interval does not decide. -/
def log2Loop (p : Nat) : Nat → Nat → Nat → Nat → Option Nat
  | 0, _, _, acc => some acc
  | i + 1, lo, hi, acc =>
    let lo := lo * lo / 2 ^ p
    let hi := hi * hi / 2 ^ p + 1
    if lo ≥ 2 * 2 ^ p then log2Loop p i (lo / 2) ((hi + 1) / 2) (2 * acc + 1)
    else if hi < 2 * 2 ^ p then log2Loop p i lo hi (2 * acc)
    else none

/-- RNE to f32 of k + log2(m / 2^s), 2^s < m < 2^(s+1). -/
def log2Round (k : Int) (m s : Nat) : Nat → Nat → Nat × Flags
  | 0, _ => (0, fNX)
  | fuel + 1, n =>
    let p := 3 * n + 64
    match log2Loop p n (m * 2 ^ p / 2 ^ s) (m * 2 ^ p / 2 ^ s + 1) 0 with
    | none => log2Round k m s fuel (2 * n)
    | some f =>
      -- the value lies strictly between v and v + 1, in units of 2^-n
      let v : Int := k * (2 ^ n : Nat) + f
      let (neg, near, far) := if v ≥ 0 then (false, v.toNat, v.toNat + 1) else (true, (-v).toNat - 1, (-v).toNat)
      let x := f32.roundExp .rne neg (4 * near + 1) (-(n : Int) - 2)
      let y := f32.roundExp .rne neg (4 * far - 1) (-(n : Int) - 2)
      if x == y then x else log2Round k m s fuel (2 * n)

/-- log2 x rounded once by RNE (R203). -/
def log2F32 (a : Nat) : Nat × Flags :=
  match f32.read a with
  | .nan s => (f32.nan, snan (.nan s))
  | .inf n => if n then (f32.nan, fNV) else (f32.inf, 0)
  | .fin n m e =>
    if m == 0 then (f32.sign true f32.inf, fDZ) else if n then (f32.nan, fNV) else
    let s := Nat.log2 m
    let k := e + s
    if m == 2 ^ s then f32.ofV .rne (intV k) else log2Round k m s 6 96

/-- 1/x rounded once by RNE (R203). -/
def rcpF32 (a : Nat) : Nat × Flags :=
  match f32.read a with
  | .nan s => (f32.nan, snan (.nan s))
  | .inf n => (f32.sign n 0, 0)
  | .fin n m e =>
    if m == 0 then (f32.sign n f32.inf, fDZ) else f32.round .rne n (2 ^ (-e).toNat) (m * 2 ^ e.toNat)

/-- 1/√x rounded once by RNE (R203). -/
def rsqF32 (a : Nat) : Nat × Flags :=
  match f32.read a with
  | .nan s => (f32.nan, snan (.nan s))
  | .inf n => if n then (f32.nan, fNV) else (0, 0)
  | .fin n m e =>
    if m == 0 then (f32.sign n f32.inf, fDZ) else if n then (f32.nan, fNV) else
    let (p, q) := sqrtRat (2 ^ (-e).toNat) (m * 2 ^ e.toNat)
    f32.round .rne false p q

/-! ### Term recoding (R70) -/

/-- Non-zero digits of the non-adjacent form, with fuel for the digits of m. -/
def nafCount : Nat → Nat → Nat
  | 0, _ => 0
  | fuel + 1, m =>
    if m == 0 then 0
    else if m % 2 == 1 then
      (if m % 4 == 1 then 1 + nafCount fuel ((m - 1) / 2) else 1 + nafCount fuel ((m + 1) / 2))
    else nafCount fuel (m / 2)

/-- T of an element's bits (R70). -/
def efmtTerms (f : Efmt) (qtbl : V128) (bits : Nat) : Nat :=
  match f with
  | .log6 => if bits % 32 == 0 then 0 else 1
  | _ =>
    match efmtRead f qtbl bits with
    | .fin _ m _ => nafCount (Nat.log2 m + 3) m
    | _ => 1

end Sys2Proof.Machine
end

