-- ==== Sys2Proof/Machine/Operands.lean ====
section
/-! DEFINITION. Where operands live: partitions, cores and slots; scalar registers under the register window (R39 to R43),
queue registers (R32), predicates, guard slots and vector registers; and the dependencies of R20. -/

namespace Sys2Proof.Machine

/-! ### Partition, core, slot -/

def State.part (s : State) (p : Nat) : Part := mget {} s.parts p
def State.coreAt (s : State) (p c : Nat) : Core := mget {} (s.part p).live.cores c
def State.slotAt (s : State) (p c n : Nat) : Slot := mget {} (s.coreAt p c).slots n
def State.vf (s : State) (v : Nat) : VF := mget {} s.vfs v

def updPart (s : State) (p : Nat) (f : Part → Part) : State := { s with parts := mupd s.parts p f }
def updLive (s : State) (p : Nat) (f : PLive → PLive) : State := updPart s p fun x => { x with live := f x.live }
def updCore (s : State) (p c : Nat) (f : Core → Core) : State :=
  updLive s p fun l => { l with cores := mput l.cores c (f (mget {} l.cores c)) }
def updSlot (s : State) (p c n : Nat) (f : Slot → Slot) : State :=
  updCore s p c fun k => { k with slots := mput k.slots n (f (mget {} k.slots n)) }
def updVf (s : State) (v : Nat) (f : VF → VF) : State := { s with vfs := mput s.vfs v (f (mget {} s.vfs v)) }
def updCluster (s : State) (p c : Nat) (f : Cluster → Cluster) : State :=
  updLive s p fun l => { l with clusters := mput l.clusters c (f (mget {} l.clusters c)) }
def updOctet (s : State) (p o : Nat) (f : Octet → Octet) : State :=
  updLive s p fun l => { l with octets := mput l.octets o (f (mget {} l.octets o)) }
def State.cluster (s : State) (p c : Nat) : Cluster := mget {} (s.part p).live.clusters c
def State.octet (s : State) (p o : Nat) : Octet := mget {} (s.part p).live.octets o

/-- The slot whose instruction `exec` runs. -/
def State.me (s : State) : Slot := s.slotAt s.cur.p s.cur.c s.cur.n
/-- Its core and partition. -/
def State.mine (s : State) : Core := s.coreAt s.cur.p s.cur.c
def State.myPart (s : State) : Part := s.part s.cur.p
def updMe (s : State) (f : Slot → Slot) : State := updSlot s s.cur.p s.cur.c s.cur.n f
def updMine (s : State) (f : Core → Core) : State := updCore s s.cur.p s.cur.c f

/-- Cores are numbered chip * 2^20 + COREID (R14); clusters and octets by their first core; dies as 16 * chip + die. -/
def coreId (c : Nat) : Nat := c % 2 ^ 20
def chipOf (c : Nat) : Nat := c / 2 ^ 20
def clusterOf (c : Nat) : Nat := c / 128
def dieOf (c : Nat) : Nat := c / 65536
def octetOf (c : Nat) : Nat := c / 8
/-- A W-cluster has bits [2:0] of its number equal to 7 (R13). -/
def isW (c : Nat) : Bool := clusterOf c % 8 == 7
/-- The core lies in the partition. -/
def Part.hasCore (x : Part) (c : Nat) : Bool := x.clusters.contains (clusterOf c)

/-! ### Scalar registers -/

/-- s0 reads zero; s1-s15 are global; s16-s63 are windowed, and outside the frame read zero (R39, R40). -/
def readReg (x : Slot) (n : Nat) : Word :=
  if n = 0 then 0
  else if n < 16 then mget 0 x.regs n
  else if n < 16 + x.frame then mget 0 x.wregs (x.wbase + n - 16)
  else 0

/-- Writing s0 or a register outside the frame is discarded (R39, R40). -/
def writeReg (x : Slot) (n : Nat) (v : Word) : Slot :=
  if n = 0 then x
  else if n < 16 then { x with regs := mset 0 x.regs n v }
  else if n < 16 + x.frame then { x with wregs := mset 0 x.wregs (x.wbase + n - 16) v }
  else x

/-- Where a result for a scalar operand lands, in terms that a later CALL does not move. -/
def dstOf (x : Slot) : SOp → Dst
  | .s n =>
    let n := n.toNat
    if n = 0 then .none
    else if n < 16 then .glob n
    else if n < 16 + x.frame then .win (x.wbase + n - 16)
    else .none
  | .q n => .queue n.toNat

/-- The entries of a queue register (R32). -/
def queueOf (x : Slot) (n : Nat) : List Word := mget [] x.queues n
def pushQ (x : Slot) (n : Nat) (v : Word) : Slot := { x with queues := mset [] x.queues n (queueOf x n ++ [v]) }
def popQ (x : Slot) (n : Nat) : Slot := { x with queues := mset [] x.queues n (queueOf x n).tail }

/-- Write a result where it lands. -/
def writeDst (x : Slot) (d : Dst) (v : Word) : Slot :=
  match d with
  | .none => x
  | .glob n => { x with regs := mset 0 x.regs n v }
  | .win pos => { x with wregs := mset 0 x.wregs pos v }
  | .queue n => pushQ x n v
  | .pred n => if n < 7 then { x with preds := (x.preds &&& ~~~(1#7 <<< n)) ||| ((v.setWidth 7 &&& 1) <<< n) } else x

/-- ReadS of one operand without popping (R88): the head of a queue register. -/
def peekS (x : Slot) : SOp → Word
  | .s n => readReg x n.toNat
  | .q n => (queueOf x n.toNat).headD 0
/-- The slot after the operand is read: a queue register popped. -/
def popS (x : Slot) : SOp → Slot
  | .s _ => x
  | .q n => popQ x n.toNat
/-- WriteS (R88). -/
def writeS (x : Slot) (d : SOp) (v : Word) : Slot :=
  match d with
  | .s n => writeReg x n.toNat v
  | .q n => pushQ x n.toNat v

/-- The values of sources read in order, and the slot after the pops (R32). -/
def readAll (x : Slot) : List SOp → List Word × Slot
  | [] => ([], x)
  | o :: os =>
    let v := peekS x o
    let (vs, y) := readAll (popS x o) os
    (v :: vs, y)

/-- How often an instruction's sources name a queue register. -/
def popCount (srcs : List SOp) (n : Nat) : Nat := srcs.countP fun o => o == .q (BitVec.ofNat 4 n)

/-- Some queue-register source lacks its entries (R32). -/
def lacksEntry (x : Slot) (srcs : List SOp) : Bool :=
  srcs.any fun o => match o with
    | .q n => (queueOf x n.toNat).length < popCount srcs n.toNat
    | .s _ => false

/-- The outstanding loads of the slot's activation: a response for an earlier activation writes nothing. -/
def liveLoads (x : Slot) : List LqEntry := x.lq.filter fun e => e.acc.act == x.act

/-- The scalar destinations of a memory instruction (R128, R130, R135, R142). -/
def MemOp.dsts (m : MemOp) : List SOp :=
  match m.kind with
  | .load _ _ => [m.d]
  | .loadPair => [m.d, m.d2]
  | .amo _ _ fetch _ _ => if fetch then [m.d] else []
  | .bar .arrive _ | .bar .arrivex _ => [m.d]
  | .store _ | .range _ _ | .bar _ _ | .send _ _ _ | .spawn _ | .wake | .ist _ _ _ _ | .fork _ _ | .join => []
/-- An access of the slot's activation whose destination its load queue does not hold: an arrival at a barrier. -/
def Acc.arrives (e : Acc) : Bool :=
  match e.kind with
  | .bar _ _ => true
  | _ => false
/-- Where the accesses that the slot has still to complete will write (R32, R125, R138): its loads and fetching atomics, its
arrivals at barriers, the access that waits for its home, and the atomic in its retry latch. -/
def owedDsts (x : Slot) : List Dst :=
  ((liveLoads x).flatMap fun e => [e.acc.dst, e.acc.dst2]) ++
  (((x.sb ++ x.unacked).filter fun e => e.act == x.act && e.arrives).map (·.dst)) ++
  (match x.pend with
   | some pd => match pd.acc with
     | some e => if pd.rearm.isSome then [] else [e.dst, e.dst2]
     | none => pd.op.dsts.map (dstOf x)
   | none => []) ++
  (match x.latch with
   | some l => if l.fetch then [l.acc.dst] else []
   | none => [])
/-- Results of outstanding accesses that will be pushed to a queue register. -/
def pendingPush (x : Slot) (n : Nat) : Nat := (owedDsts x).count (.queue n)

/-- Some queue-register destination has no room (R32, R125): at issue, whatever the instruction itself pops. -/
def lacksRoom (x : Slot) (dsts : List SOp) : Bool :=
  dsts.any fun o => match o with
    | .q n => (queueOf x n.toNat).length + pendingPush x n.toNat + dsts.countP (· == .q n) > 4
    | .s _ => false

/-- A register is the destination of an outstanding memory response (R20). -/
def awaits (x : Slot) (d : Dst) : Bool :=
  match d with
  | .none | .queue _ => false
  | d => (liveLoads x).any fun e => e.acc.dst == d || e.acc.dst2 == d

/-- Some named register awaits a memory response (R20). -/
def depends (x : Slot) (ops : List SOp) : Bool := ops.any fun o => awaits x (dstOf x o)

/-! ### Predicates, guards, vector registers -/

/-- p7 reads true (R79). -/
def readP (x : Slot) (p : PReg) : Bool := if p = 7 then true else x.preds.getLsbD p.toNat
/-- A write to p7 is discarded. -/
def writeP (x : Slot) (p : PReg) (b : Bool) : Slot :=
  if p = 7 then x else { x with preds := (x.preds &&& ~~~(1#7 <<< p.toNat)) ||| ((if b then 1#7 else 0#7) <<< p.toNat) }
/-- A predicate that a memory response will write. -/
def awaitsP (x : Slot) (p : PReg) : Bool := awaits x (.pred p.toNat)

def eguard (x : Slot) (n : Nat) : EGuard := mget (.known false) x.eguards n
def setEguard (x : Slot) (n : Nat) (g : EGuard) : Slot := { x with eguards := mset (.known false) x.eguards n g }
def readV (x : Slot) (v : VReg) : V128 := mget 0 x.vregs v.toNat
def writeV (x : Slot) (v : Nat) (b : V128) : Slot := { x with vregs := mset 0 x.vregs v b }

/-! ### The register window (R40 to R43) -/

/-- Drop the windowed registers at positions from `lo` to `hi - 1`: they read zero. -/
def dropWin (m : NMap Word) (lo hi : Nat) : NMap Word := m.filter fun e => !(lo ≤ e.1 && e.1 < hi)

/-- Registers to hold as spilled when the stack reaches `top` positions: groups of eight until 64 fit (R43). -/
def spillNeed (x : Slot) (top : Nat) : Nat :=
  let used := top - x.spilled
  if used ≤ 64 then x.spilled else x.spilled + (used - 64 + 7) / 8 * 8

/-- WSPILL fields (R321). -/
def wspillBase (x : Slot) : Nat := x.wspill.toNat % 2 ^ 14
def wspillSize (x : Slot) : Nat := x.wspill.toNat / 2 ^ 16 % 2 ^ 15

/-- The spilled registers fit the WSPILL region (R43). -/
def spillFits (x : Slot) (n : Nat) : Bool := n ≤ x.spilled || 8 * n ≤ wspillSize x

/-- The slide of CALL (R41), with the return address and the JOIN mark of the frame; none when a spill would pass the
end of the WSPILL region. -/
def slideCall (x : Slot) (ret : Word) (join : Option Word) : Option Slot :=
  let base := x.wbase + x.frame - 8
  let need := spillNeed x (base + 16)
  if spillFits x need then
    let y := writeReg x (15 + x.frame) ret
    some { y with
      wbase := base, frame := 16, frames := ⟨x.frame, join⟩ :: x.frames,
      wregs := dropWin y.wregs (base + 8) (base + 16),
      fillTo := if need = x.spilled then none else some need }
  else none

/-- FRAME (R40, R117). -/
def resizeFrame (x : Slot) (f : Nat) : Option Slot :=
  let need := spillNeed x (x.wbase + f)
  if spillFits x need then
    some { x with
      frame := f, wregs := dropWin x.wregs (x.wbase + min f x.frame) (x.wbase + max f x.frame),
      fillTo := if need = x.spilled then none else some need }
  else none

/-- The slide back to the newest caller frame (R42): the callee's registers above s23 are dropped. -/
def slideBack (x : Slot) : Slot :=
  match x.frames with
  | [] => x
  | fr :: rest =>
    let base := x.wbase - (fr.f - 8)
    { x with
      wbase := base, frame := fr.f, frames := rest,
      wregs := dropWin x.wregs (x.wbase + 8) (x.wbase + x.frame),
      fillTo := if base < x.spilled then some base else none }

/-- Some register that a slide or FRAME writes or drops, at positions from lo to hi - 1, awaits a response (R20). -/
def winBusy (x : Slot) (lo hi : Nat) : Bool :=
  let inside : Dst → Bool := fun d => match d with
    | .win pos => lo ≤ pos && pos < hi
    | _ => false
  (liveLoads x).any fun e => inside e.acc.dst || inside e.acc.dst2

end Sys2Proof.Machine
end

