-- ==== Sys2Proof/Machine/Flags.lean ====
section
/-! DEFINITION. FSTAT (R54 to R57): sticky flags and the dynamic rounding mode, and who raises which flag into it. -/

namespace Sys2Proof.Machine

/-- Bits of FSTAT that exist: RM [10:8] and the flags [5:0]; the others read zero and ignore writes (R54). -/
def fstatMask : Word := 0x73F

/-- OR flags into FSTAT (R56). -/
def orFlags (x : Slot) (fl : Flags) : Slot := { x with fstat := x.fstat ||| fl.setWidth 64 }

/-- The mode that RM selects (R54: 0-4). -/
def rmOf (x : Slot) : Rnd :=
  match (x.fstat.toNat / 256) % 8 with
  | 0 => .rne
  | 1 => .rz
  | 2 => .ru
  | 3 => .rd
  | _ => .rna

/-- A rounding code with code 7 resolved at issue (R57). -/
def resolveRnd (x : Slot) (r : Rnd) : Rnd := if r = .dyn then rmOf x else r

/-- The rounding mode of a resolved code; stochastic rounding takes its draw. -/
def modeOf (r : Rnd) (draw : Nat) : RMode :=
  match r with
  | .rne => .rne
  | .rz => .rz
  | .ru => .ru
  | .rd => .rd
  | .rna => .rna
  | .sr => .sr draw
  | .dyn => .rne

/-- A MOVSW of FSTAT: reserved bits ignored, an RM of 5-7 refused (R54, R118). -/
def fstatWrite (v : Word) : Option Word := if v.toNat / 256 % 8 ≤ 4 then some (v &&& fstatMask) else none

/-- AFLAGS bits [4:0] of a non-fetching FAMO's flags (R137): NV DZ OF UF NX. -/
def aflagsOf (fl : Flags) : BitVec 5 := fl.setWidth 5

end Sys2Proof.Machine
end

