-- ==== Sys2Proof/Machine/Mem.lean ====
section
/-! DEFINITION. Memory (spec/18_memory_system.md): the physical layout, logged writes, page-table walks, windows, homes,
and reading and writing bytes at their place (spec/11_order.md R285, spec/19_coherence.md R361). -/

namespace Sys2Proof.Machine

/-! ### Physical memory -/

/-- Stacks present (R1, R2, R340). -/
def nHbm (v : Variant) : Nat := match v with
  | .w8 => 8
  | .w16 | .s16 => 16
def nDie (v : Variant) : Nat := nHbm v

/-- A physical address is present memory (R340): an HBM stack's bytes, or a second-tier port's. -/
def paPresent (s : State) (a : Nat) : Bool :=
  (a < 0x20000000000 && a / 0x2000000000 < nHbm s.variant && a % 0x2000000000 < 95999950848) ||
  (0x800000000000 ≤ a && a < 0x860000000000 &&
    (a - 0x800000000000) % 0xC000000000 < min (mget 0 s.tierSize ((a - 0x800000000000) / 0xC000000000)) 0xC000000000)

/-- Reachable through a page table: present and not reserved by the plinth (R340, R346). -/
def paUsable (s : State) (a : Nat) : Bool :=
  paPresent s a && !s.reserved.any fun r => r.1 ≤ a && a < r.1 + r.2

/-- Bytes of physical memory. -/
def physRead (s : State) (a n : Nat) : List Byte := bytesAt s.mem a n
/-- A 64-bit word of physical memory. -/
def physRead64 (s : State) (a : Nat) : Word := BitVec.ofNat 64 (leNat (physRead s a 8))

/-- The line's memory copy, logged before the first write of the interval (R333, R370); after a cut the new interval's
log takes it, except for a write-back of a cut-dirty line (`closing`), which the interval that the cut closes takes. -/
def logLine (s : State) (p line : Nat) (closing : Bool) : State :=
  let x := s.part p
  let old := physRead s (128 * line) 128
  if x.cut = .saved && !closing then
    if (mfind? x.undoNew line).isSome then s else updPart s p fun x => { x with undoNew := mput x.undoNew line old }
  else if (mfind? x.undo line).isSome then s
  else updPart s p fun x => { x with undo := mput x.undo line old }

/-- An inbound write is performed at once; a partition whose log covers the line keeps its bytes through a rollback
(R334). -/
def noteInbound (x : Part) (a : Nat) (bs : List Byte) : Part :=
  let put (m : Bytes) : Bytes := (bs.zipIdx).foldl (fun m e => mput m (a + e.2) e.1) m
  let lines := [a / 128, (a + bs.length - 1) / 128]
  let inLog (u : NMap (List Byte)) : Bool := lines.any fun l => (mfind? u l).isSome
  let x := if inLog x.undo then { x with inbound := put x.inbound } else x
  if inLog x.undoNew then { x with inboundNew := put x.inboundNew } else x

/-- A write by partition p to physical memory, logged; to every other partition it is inbound. -/
def physWriteAs (s : State) (p a : Nat) (bs : List Byte) (closing : Bool) : State :=
  if bs.isEmpty then s else
  let s := logLine s p (a / 128) closing
  let s := if (a + bs.length - 1) / 128 = a / 128 then s else logLine s p ((a + bs.length - 1) / 128) closing
  { s with
    mem := putBytes s.mem a bs,
    parts := s.parts.map fun e => if e.1 = p then e else (e.1, noteInbound e.2 a bs) }
def physWrite (s : State) (p a : Nat) (bs : List Byte) : State := physWriteAs s p a bs false

/-- A write from outside every partition: by the host or the plinth (R334). -/
def physWriteIn (s : State) (a : Nat) (bs : List Byte) : State :=
  if bs.isEmpty then s else
  { s with mem := putBytes s.mem a bs, parts := s.parts.map fun e => (e.1, noteInbound e.2 a bs) }

/-! ### Homes and windows -/

/-- HomeOf (R342): the cluster of the partition that serves a coherent line. -/
def homeOf (x : Part) (va : Nat) : Nat :=
  let l := va / 128
  let h := l * 0x9E3779B97F4A7C15 % 2 ^ 64
  let b := Nat.log2 x.clusters.length
  (x.clusters[(if b = 0 then 0 else h / 2 ^ (64 - b))]?).getD 0

/-- A window register's range: base page and size (R350). -/
def inWindow (f : VF) (va : Nat) : Bool :=
  f.ncw.any fun e =>
    let w := e.2.toNat
    let lg := w / 2 ^ 40 % 64
    w / 2 ^ 63 == 1 && va / 2 ^ lg == (w % 2 ^ 39 * 65536) / 2 ^ lg

/-! ### Page tables -/

/-- Kinds of access that the leaf permits or refuses (R346). -/
inductive Perm where
  | read | write | rw | exec | arm
  deriving DecidableEq, Repr

/-- A refusal: cause, and the level of the record (R353). Cause 0x3F: the walk met an uncorrectable error and acts as its access
does (R339); `wait`: the line was written since the latest cocoon, and rollback repairs it (R323). -/
structure Refuse where
  cause : Nat := 0x08
  level : Nat := 3
  wait : Bool := false
  deriving DecidableEq, Repr

/-- A valid entry breaks its layout at a level (R345). -/
def pteBroken (e : Word) (lvl : Nat) : Bool :=
  let v := e.toNat
  let leaf := v / 2 % 2 == 1
  v / 2 ^ 48 != 0 || v / 2 ^ 11 % 32 != 0 || v / 4 % 4 != 0 ||
  (match lvl with
   | 0 => leaf
   | 1 => false
   | _ => !leaf) ||
  (leaf && lvl == 1 && v / 2 ^ 16 % 2 ^ 13 != 0) || (!leaf && v / 16 % 128 != 0)

/-- The index of a level (R344). -/
def pteIndex (va lvl : Nat) : Nat := va / 2 ^ (42 - 13 * lvl) % 8192

/-- The result of a walk: the leaf entry, its level, the entry's address and the physical address. -/
structure Walk where
  entry : Word := 0
  level : Nat := 2
  at_ : Nat := 0
  pa : Nat := 0
  deriving DecidableEq, Repr

/-- The line was written since the latest cocoon: rollback repairs it. -/
def logged (s : State) (p line : Nat) : Bool :=
  (mfind? (s.part p).undo line).isSome || (mfind? (s.part p).undoNew line).isSome
/-- A page-table entry read from memory (R347); in a line with an uncorrectable error it is none (R339). -/
def entryAt (s : State) (p a : Nat) : Except Refuse Word :=
  if s.memErrors.contains (a / 128) then .error ⟨0x3F, 0xFF, logged s p (a / 128)⟩ else .ok (physRead64 s a)
/-- The walk from a table, `fuel` levels deep (R344); `get` reads an entry, from memory or from the slice's cache. -/
def walkFrom (get : Nat → Nat → Except Refuse Word) (va : Nat) : Nat → Nat → Nat → Except Refuse Walk
  | 0, _, _ => .error ⟨0x08, 2, false⟩
  | fuel + 1, lvl, t =>
    let a := t + 8 * pteIndex va lvl
    match get lvl a with
    | .error r => .error r
    | .ok e =>
      let v := e.toNat
      if v % 2 = 0 then .error ⟨0x07, lvl, false⟩
      else if pteBroken e lvl then .error ⟨0x08, lvl, false⟩
      else if v / 2 % 2 = 1 then
        .ok ⟨e, lvl, a, if lvl = 1 then v / 2 ^ 29 % 2 ^ 19 * 2 ^ 29 + va % 2 ^ 29
                         else v / 2 ^ 16 % 2 ^ 32 * 2 ^ 16 + va % 2 ^ 16⟩
      else walkFrom get va fuel (lvl + 1) (v / 2 ^ 16 % 2 ^ 32 * 2 ^ 16)
/-- The valid entries that a walk meets, whether it ends at a leaf or fails below them: level, address, entry (R348). -/
def walkPath (get : Nat → Nat → Except Refuse Word) (va : Nat) : Nat → Nat → Nat → List (Nat × Nat × Word)
  | 0, _, _ => []
  | fuel + 1, lvl, t =>
    let a := t + 8 * pteIndex va lvl
    match get lvl a with
    | .error _ => []
    | .ok e =>
      let v := e.toNat
      if v % 2 = 0 || pteBroken e lvl then []
      else (lvl, a, e) :: if v / 2 % 2 = 1 then [] else walkPath get va fuel (lvl + 1) (v / 2 ^ 16 % 2 ^ 32 * 2 ^ 16)

/-- A function's root table; none while PTROOT is not valid. -/
def rootOf (f : VF) : Option Nat := if f.ptroot.toNat % 2 = 0 then none else some (f.ptroot.toNat / 2 ^ 16 % 2 ^ 32 * 2 ^ 16)
/-- Translation of a virtual address for a partition by a walk of memory (R344, R347). -/
def translate (s : State) (p va : Nat) : Except Refuse Walk :=
  match rootOf (s.vf (s.part p).vf) with
  | none => .error ⟨0x07, 0, false⟩
  | some t => walkFrom (fun _ a => entryAt s p a) va 3 0 t

/-- Bits of a virtual address that an entry of a level covers (R344). -/
def levelBits (lvl : Nat) : Nat := 42 - 13 * lvl
/-- The entry of a level for a virtual address, from the slice's cache when it holds one (R348). -/
def entryCached (s : State) (p cluster va lvl a : Nat) : Except Refuse Word :=
  match (s.part p).tlb.find? fun t => t.cluster == cluster && t.level == lvl && t.index == va / 2 ^ levelBits lvl with
  | some t => .ok t.entry
  | none => entryAt s p a
/-- Translation through the entries a slice has cached (R348). -/
def translateCached (s : State) (p cluster va : Nat) : Except Refuse Walk :=
  match rootOf (s.vf (s.part p).vf) with
  | none => .error ⟨0x07, 0, false⟩
  | some t => walkFrom (entryCached s p cluster va) va 3 0 t

/-- A slice caches the valid entries that a walk met, as the walk found them (R348). -/
def cacheWalk (s : State) (p cluster va : Nat) (cached : Bool) : State :=
  let get := if cached then entryCached s p cluster va else fun _ a => entryAt s p a
  match rootOf (s.vf (s.part p).vf) with
  | none => s
  | some t =>
    let new : List Tlb := (walkPath get va 3 0 t).map fun e => ⟨cluster, e.1, va / 2 ^ levelBits e.1, e.2.2, e.2.1⟩
    updPart s p fun x => { x with
      tlb := new ++ x.tlb.filter fun t => !(new.any fun n => n.cluster == t.cluster && n.level == t.level && n.index == t.index) }

/-- The leaf's permission bits (R346). -/
def permits (e : Word) (k : Perm) : Bool :=
  match k with
  | .read => e.getLsbD 4
  | .write => e.getLsbD 5
  | .rw => e.getLsbD 4 && e.getLsbD 5
  | .exec => e.getLsbD 6
  | .arm => e.getLsbD 7

/-- A virtual access checked by window, walk and leaf (R346, R351): its walk and whether it is non-coherent. -/
def checkAccess (s : State) (p va : Nat) (k : Perm) (w : Except Refuse Walk) : Except Refuse (Walk × Bool) :=
  match w with
  | .error r => .error r
  | .ok w =>
    let win := inWindow (s.vf (s.part p).vf) va
    if win != w.entry.getLsbD 9 then .error ⟨0x08, 3, false⟩
    else if !permits w.entry k then .error ⟨0x08, 3, false⟩
    else if !paUsable s w.pa then .error ⟨0x08, 3, false⟩
    else .ok (w, win)

/-- The leaf that an accepted access keeps. -/
def leafOf (w : Walk) : Leaf := ⟨w.pa, w.at_, w.entry.getLsbD 8, w.entry.getLsbD 10, w.level == 1⟩

/-! ### Rings in host memory -/

/-- Entries of a ring by its base register's LOG2N; a base never written (LOG2N below 4) has none (log entry 12). -/
def ringSize (base : Word) : Nat := let n := base.toNat % 32; if n < 4 then 0 else 2 ^ n
/-- Host address of a ring's entry. -/
def ringAddr (base : Word) (size idx : Nat) : Nat := base.toNat / 64 * 64 + size * (idx % ringSize base)
/-- A write to host memory. -/
def hostWrite (s : State) (a : Nat) (bs : List Byte) : State := { s with hostMem := putBytes s.hostMem a bs }

/-- An entry appended to the dirty log (R355); false when the ring is full. -/
def dirtyRoom (f : VF) : Bool := !f.dlEn || (f.dlprod - f.dlcons).toNat < ringSize f.dlbase
def dirtyAppend (s : State) (v va : Nat) (blk : Bool) : State :=
  let f := s.vf v
  if !f.dlEn then s else
  let e : Nat := va / 65536 % 2 ^ 39 * 65536 + (if blk then 1 else 0)
  let s := hostWrite s (ringAddr f.dlbase 8 f.dlprod.toNat) (leBytes 8 e)
  updVf s v fun f => { f with
    interrupts := if f.dlprod = f.dlcons then f.interrupts ++ [.dirtyLog] else f.interrupts, dlprod := f.dlprod + 1 }
/-- The dirty log found full: FULL is set with the hypervisor exit (R355). -/
def dirtyFull (s : State) (v : Nat) : State :=
  updVf s v fun f => if f.dlFull then f else { f with dlFull := true, interrupts := f.interrupts ++ [.dirtyExit] }

/-- Setting D before a write is performed (R346): the entry's bit 8, and the dirty log's entry. None when the log is full
and D must be set. -/
def setDirty (s : State) (p : Nat) (va : Nat) (l : Leaf) : Option State :=
  let v := (s.part p).vf
  if l.d then some s else
  let e := physRead64 s l.entry
  if e.getLsbD 8 then some s
  else if !dirtyRoom (s.vf v) then none
  else some (dirtyAppend (physWrite s p l.entry (leBytes 8 (e ||| 0x100).toNat)) v va l.blk)

/-! ### Coherent bytes -/

/-- The directory entry of a line (R362). -/
def dirOf (x : PLive) (line : Nat) : DirEntry := mget {} x.dir line
def updDir (s : State) (p line : Nat) (f : DirEntry → DirEntry) : State :=
  updLive s p fun x => { x with dir := mput x.dir line (f (dirOf x line)) }
/-- The line cannot be served to a requester that holds no copy (R362, R367): a transaction is in flight, or a message of the
line is under way. -/
def lineBusy (s : State) (p line : Nat) : Bool :=
  let x := (s.part p).live
  (dirOf x line).txn.isSome || x.snoop.any (·.line == line)
/-- The line is locked by a migration (R357). -/
def lineLocked (s : State) (p line : Nat) : Bool := (dirOf (s.part p).live line).lock

/-- The dirty copy of a line, which memory lacks, with its cut-dirty mark (R361, R363). -/
def dirtyCopy (x : PLive) (line : Nat) : Option (List Byte × Bool) :=
  x.cores.findSome? fun e => match mfind? e.2.l1 line with
    | some l => if l.dirty then some (l.data, l.cutDirty) else none
    | none => none

/-- A core's own copy that it may read (R361, R367). -/
def ownCopy (s : State) (p : Nat) (core : Option Nat) (line : Nat) : Option L1Line :=
  match core with
  | some c => (mfind? (s.coreAt p c).l1 line).filter (·.usable)
  | none => none

/-- Bytes of one line read at their place: the core's own copy, else memory, which the home has made current (R361, R368). -/
def cohRead (s : State) (p : Nat) (core : Option Nat) (va pa n : Nat) : List Byte :=
  match ownCopy s p core (va / 128) with
  | some l => (l.data.drop (va % 128)).take n
  | none => physRead s pa n

/-- The home writes memory: LOG is set (R362, R370). -/
def homeWrite (s : State) (p line pa : Nat) (bs : List Byte) (closing : Bool) : State :=
  updDir (physWriteAs s p pa bs closing) p line fun d => { d with log := true }

/-! ### Snoop filters (R364) -/

/-- The name of a line's entry in a die's filter; dies are numbered below 2^15. -/
def filterKey (line die : Nat) : Nat := 32768 * line + die
/-- The group of eight clusters of a core within its die. -/
def coarseBit (c : Nat) : BitVec 64 := 1#64 <<< (clusterOf c % 512 / 8)
/-- The cores of a die that hold the line, with their copies. -/
def dieCopies (x : PLive) (line die : Nat) : List (Nat × L1Line) :=
  x.cores.filterMap fun e => if dieOf e.1 = die then (mfind? e.2.l1 line).map fun l => (e.1, l) else none
/-- The entry for some holders: exact up to four of them, else coarse; the owner holds E, O or M. -/
def filterOf (cs : List (Nat × L1Line)) : Filter :=
  { owner := (cs.find? fun c => c.2.st != .s).map (·.1),
    exact := if cs.length ≤ 4 then cs.map (·.1) else [],
    coarse := if cs.length ≤ 4 then none else some (cs.foldl (fun m c => m ||| coarseBit c.1) 0) }
/-- A die's filter follows the copies that its cores hold; an entry whose eviction the home has not acknowledged stays. -/
def syncFilter (x : PLive) (line die : Nat) : PLive :=
  let cs := dieCopies x line die
  let k := filterKey line die
  if cs.isEmpty then
    if (mget ({} : Filter) x.filters k).leaving then { x with filters := mput x.filters k { leaving := true } }
    else { x with filters := mdel x.filters k }
  else { x with filters := mput x.filters k (filterOf cs) }
/-- A change of the copies of a line in the cores of a die. -/
def updCopies (s : State) (p line die : Nat) (f : Nat → NMap L1Line → NMap L1Line) : State :=
  updLive s p fun x =>
    syncFilter { x with cores := x.cores.map fun e => if dieOf e.1 = die then (e.1, { e.2 with l1 := f e.1 e.2.l1 }) else e } line die

/-- Some core holds a copy of the line. -/
def lineHeld (x : PLive) (line : Nat) : Bool := x.cores.any fun e => (mfind? e.2.l1 line).isSome

/-- Every copy of a line leaves: dirty data is written to memory first, and the directory holds I (R368: what NcWr and Atm
do at the home of a line that is not BUSY). -/
def recallLine (s : State) (p line : Nat) : State :=
  let s := match dirtyCopy (s.part p).live line with
    | some (d, cut) => homeWrite s p line (dirOf (s.part p).live line).pa d cut
    | none => s
  if !lineHeld (s.part p).live line then s
  else
    updLive s p fun x => { x with
      cores := x.cores.map fun e => (e.1, { e.2 with l1 := mdel e.2.l1 line }),
      dir := mupd x.dir line fun d => { d with st := .i, owner := 0, dies := [] },
      filters := x.filters.filter fun e => e.1 / 32768 != line }

/-- A dirty line goes to memory and its copies stay, in S (R133 CCLEAN; R368: what NcRd does at the home). -/
def cleanLine (s : State) (p line : Nat) : State :=
  match (s.part p).live.cores.find? fun e => (mfind? e.2.l1 line).any fun l => l.st != .s with
  | none => s
  | some (c, k) =>
    let l := mget ({} : L1Line) k.l1 line
    let s := if l.dirty then homeWrite s p line (dirOf (s.part p).live line).pa l.data l.cutDirty else s
    let s := updCopies s p line (dieOf c) fun _ m => mupd m line fun l => { l with st := .s, dirty := false, cutDirty := false }
    updDir s p line fun d => { d with st := .s, owner := 0 }

/-- Replace bytes inside a line's data. -/
def patch (data : List Byte) (off : Nat) (bs : List Byte) : List Byte :=
  data.take off ++ bs ++ data.drop (off + bs.length)

/-- The writer's own copy, when it may write it (R361): in E or M, not cut-dirty (R370), its leaf without PT (R347). -/
def writableCopy (s : State) (p : Nat) (core : Option Nat) (line : Nat) (pt : Bool) : Option L1Line :=
  (ownCopy s p core line).filter fun l => !l.cutDirty && !pt && (l.st == .e || l.st == .m)

/-- Bytes of one line written at their place: into the writer's own copy when it may write it (R361), else at the home
after every copy has left (R368). -/
def cohWrite (s : State) (p : Nat) (core : Option Nat) (va pa : Nat) (pt : Bool) (bs : List Byte) : State :=
  let line := va / 128
  match core, writableCopy s p core line pt with
  | some c, some l => updCore s p c fun k => { k with
      l1 := mput k.l1 line { l with st := .m, dirty := true, data := patch l.data (va % 128) bs } }
  | _, _ => homeWrite (recallLine s p line) p line pa bs false

/-! ### Non-coherent copies and the ways of a slice (R351, R352, R133, R233) -/

/-- The line's dirty bytes go to memory. -/
def ncClean (s : State) (p cl va pa : Nat) : State :=
  let l := va / 128 * 128
  let x := s.cluster p cl
  let s := (List.range 128).foldl (fun s i =>
    if mget false x.ncDirty (l + i) then physWrite s p (pa / 128 * 128 + i) [mget 0 x.nc (l + i)] else s) s
  updCluster s p cl fun x => { x with ncDirty := x.ncDirty.filter fun e => e.1 / 128 != va / 128 }
/-- The cluster's copy of the line goes, with its way. -/
def ncDrop (s : State) (p cl va : Nat) : State :=
  updCluster s p cl fun x => { x with
    nc := x.nc.filter fun e => e.1 / 128 != va / 128, ncDirty := x.ncDirty.filter fun e => e.1 / 128 != va / 128,
    l2 := x.l2.filter fun l => !(l.cls == .nc && l.line == va / 128) }

/-- The ways that lines of a partition's function may take in a slice: those its mask sets and no cluster store holds. -/
def l2Ways (s : State) (p cl : Nat) : List Nat :=
  (List.range 16).filter fun i => (s.vf (s.part p).vf).wayEffect.getLsbD i &&
    !((s.cluster p cl).stores.any fun t => t.way ≤ i && i < t.way + t.ways)
/-- The set of a line: 512 KiB in 16 ways of 128-byte lines are 256 sets (R5). Which line goes to which set the spec leaves
open: DESIGN CHOICE, log entry 63. -/
def l2Set (line : Nat) : Nat := line % 256
/-- The line that makes room in a set: a transit line at the eviction head, another transit line, else, unless a transit line
is to be placed, the oldest line (R233; the order of the rest is open: DESIGN CHOICE, log entry 63). -/
def l2Victim (ls : List L2Line) (transit : Bool) : Option L2Line :=
  (ls.find? fun l => l.cls == .transit && l.old).or ((ls.find? fun l => l.cls == .transit).or (if transit then none else ls.head?))
/-- A line leaves its way: a non-coherent copy is written back first. -/
def l2Evict (s : State) (p cl : Nat) (l : L2Line) : State :=
  if l.cls = .nc then ncDrop (ncClean s p cl (128 * l.line) l.pa) p cl (128 * l.line)
  else updCluster s p cl fun x => { x with l2 := x.l2.erase l }
/-- A slice takes a line (R352): in a free permitted way, else in place of a line there; a transit line for which neither is
found is skipped. -/
def l2Take (s : State) (p cl line pa : Nat) (cls : L2Class) : State :=
  let x := s.cluster p cl
  if x.l2.any fun l => l.line == line && l.cls == cls then s
  else
    let ways := l2Ways s p cl
    let here := x.l2.filter fun l => l2Set l.line == l2Set line && ways.contains l.way
    let add (s : State) (w : Nat) : State := updCluster s p cl fun x => { x with
      l2 := x.l2 ++ [{ line := line, cls := cls, way := w, pa := pa / 128 * 128 }] }
    match ways.find? fun w => !here.any (·.way == w) with
    | some w => add s w
    | none => match l2Victim here (cls == .transit) with
      | some v => add (l2Evict s p cl v) v.way
      | none => s
/-- A line's first read by a copy moves it to the eviction head (R233). -/
def l2Read (s : State) (p cl line : Nat) : State :=
  updCluster s p cl fun x => { x with
    l2 := x.l2.map fun l => if l.cls = .transit && l.line = line then { l with old := true } else l }
/-- A line's copies other than the non-coherent ones leave the ways of some slices (R133): the home's, and transit lines. -/
def dropWays (s : State) (p line : Nat) (sel : Nat → Bool) : State :=
  updLive s p fun x => { x with
    clusters := x.clusters.map fun e =>
      if sel e.1 then (e.1, { e.2 with l2 := e.2.l2.filter fun l => !(l.cls != .nc && l.line == line) }) else e }

/-- The cluster takes a copy of a line's bytes that it does not hold yet. -/
def ncFill (s : State) (p cl va pa : Nat) : State :=
  let s := l2Take s p cl (va / 128) pa .nc
  let x := s.cluster p cl
  let l := va / 128 * 128
  let mem := physRead s (pa / 128 * 128) 128
  updCluster s p cl fun x' => { x' with
    nc := (mem.zipIdx).foldl (fun m e => if (mfind? x.nc (l + e.2)).isSome then m else mput m (l + e.2) e.1) x'.nc }
def ncRead (s : State) (p cl va n : Nat) : List Byte := bytesAt (s.cluster p cl).nc va n
def ncWrite (s : State) (p cl va : Nat) (bs : List Byte) : State :=
  updCluster s p cl fun x => { x with
    nc := (bs.zipIdx).foldl (fun m e => mput m (va + e.2) e.1) x.nc,
    ncDirty := (bs.zipIdx).foldl (fun m e => mput m (va + e.2) true) x.ncDirty }

/-! ### Scratchpads and cluster stores -/

/-- The 128-byte units logged once some bytes are written (R333): the first write of the interval to a unit logs it. -/
def logUnits (us : List Nat) (off n : Nat) : List Nat :=
  ((List.range n).map fun i => (off + i) / 128).foldl (fun us u => if us.contains u then us else u :: us) us
def spadRead (s : State) (p c off n : Nat) : List Byte := bytesAt (s.coreAt p c).spad off n
def spadWrite (s : State) (p c off : Nat) (bs : List Byte) : State :=
  updCore s p c fun k => { k with spad := putBytes k.spad off bs, units := logUnits k.units off bs.length }
/-- The cluster store a launch holds in a cluster (R352). -/
def storeOf (s : State) (p cl launch : Nat) : Option CStore := (s.cluster p cl).stores.find? fun t => t.launch == launch
/-- Its size for a core's launch (R46): 0 when the core holds no launch. -/
def storeSize (s : State) (p c : Nat) : Nat :=
  match (s.coreAt p c).launch with
  | some l => match storeOf s p (clusterOf c) l with
    | some t => t.ways * 32768
    | none => 0
  | none => 0
def storeRead (s : State) (p cl launch off n : Nat) : List Byte :=
  match storeOf s p cl launch with
  | some t => bytesAt t.bytes off n
  | none => List.replicate n 0
def storeWrite (s : State) (p cl launch off : Nat) (bs : List Byte) : State :=
  updCluster s p cl fun x => { x with
    stores := x.stores.map fun t => if t.launch == launch then { t with bytes := putBytes t.bytes off bs, units := logUnits t.units off bs.length } else t }

/-! ### Address forms (R45, R46, R123) -/

/-- A failed check of an address: cause and BADADDR. -/
structure AddrFault where
  cause : Nat
  bad : Word
  deriving DecidableEq, Repr

/-- The core that a global address or header names, escapes applied (R45, R47). -/
def namedCore (me : Nat) (a : Word) (lit : Bool) : Nat :=
  let chip := a.toNat / 2 ^ 52 % 2048
  let core := a.toNat / 2 ^ 32 % 2 ^ 20
  (if !lit && chip = 0x7FF then chipOf me else chip) * 2 ^ 20 + (if !lit && core = 0xFFFFF then coreId me else core)

/-- Bit 63 of an address. -/
def isGlobal (a : Word) : Bool := a.msb
/-- The virtual form of R45: bits [63:55] zero. -/
def virtualForm (a : Word) : Bool := a.toNat < 2 ^ 55

/-- Where a global-form address of `len` bytes lies, by the checks of R46 in the order of R123: region, partition, offset,
and then the multiple `align`; the extent last. R207 does not order the multiple and the extent of an area: the model takes the same
order there (log entry 70). -/
def globalPlace (s : State) (p me : Nat) (a : Word) (align len : Nat) : Except AddrFault (Place × Nat) :=
  let region := a.toNat / 2 ^ 28 % 16
  let off := a.toNat % 2 ^ 28
  let c := namedCore me a false
  if region ≥ 2 then .error ⟨0x0B, a⟩
  else if !(s.part p).hasCore c then .error ⟨0x0B, a⟩
  else
    let limit := if region = 0 then 0x4000 else storeSize s p c
    if off ≥ limit then .error ⟨0x0B, a⟩
    else if off % align ≠ 0 then .error ⟨0x06, a⟩
    else if off + len > limit then .error ⟨0x0B, a⟩
    else if region = 0 then .ok (if c = me then .own c else .spad c, off)
    else .ok (.cstore (clusterOf c) ((s.coreAt p c).launch.getD 0), off)

/-- Bytes at a scratchpad or cluster-store place. -/
def placeRead (s : State) (p : Nat) (pl : Place) (off n : Nat) : List Byte :=
  match pl with
  | .own c | .spad c => spadRead s p c off n
  | .cstore cl l => storeRead s p cl l off n
  | .home _ | .ncCopy _ | .queue _ => List.replicate n 0
def placeWrite (s : State) (p : Nat) (pl : Place) (off : Nat) (bs : List Byte) : State :=
  match pl with
  | .own c | .spad c => spadWrite s p c off bs
  | .cstore cl l => storeWrite s p cl l off bs
  | .home _ | .ncCopy _ | .queue _ => s

end Sys2Proof.Machine
end

