-- ==== Sys2Proof/Machine/Ops.lean ====
section
/-! DEFINITION. The operations that every meaning shares: issuing an instruction under its guard and its waits (R20, R32,
R81, R88), taking a trap (R22, R322, R325) and posting its fault record (R353, R354), returning from one (R327 ERET), and
starting and ending activations (R23 to R27). -/

namespace Sys2Proof.Machine

/-! ### Fault records -/

/-- Bytes of a fault record, as R353 lays them out. R243 has a block's TAG reported in fault records, and R353 gives it no field: the
model follows R353, and TAG is found in ARMSTAT alone (DESIGN CHOICE, log entry 72). -/
def recordBytes (x : Part) (r : FaultRec) (index : Nat) : List Byte :=
  leBytes 8 r.addr.toNat ++ leBytes 8 r.task.toNat ++ leBytes 4 (coreId r.core + chipOf r.core * 2 ^ 20) ++
  leBytes 1 r.code ++ leBytes 1 r.sub ++ leBytes 1 r.kind ++
  leBytes 1 (r.slot + (if r.repost then 4 else 0) + (if r.ncw then 8 else 0) + (if r.rearm then 16 else 0)) ++
  leBytes 2 x.partId ++ leBytes 1 r.level ++ leBytes 1 0 ++ leBytes 4 index

/-- The fault ring has room (R354). -/
def faultRoom (f : VF) : Bool := (f.fbprod - f.fbcons).toNat < ringSize f.fbbase

/-- A record written to the ring: FBPROD advances, and the fault interrupt is raised when the ring was empty (R354). -/
def writeRecord (s : State) (p : Nat) (r : FaultRec) : State :=
  let x := s.part p
  let f := s.vf x.vf
  updVf (hostWrite s (ringAddr f.fbbase 32 f.fbprod.toNat) (recordBytes x r f.fbprod.toNat)) x.vf fun f => { f with
    interrupts := if f.fbprod = f.fbcons then f.interrupts ++ [.fault] else f.interrupts, fbprod := f.fbprod + 1 }

/-- A record that finds the ring full stays in its core (R354). -/
def holdRecord (s : State) (p : Nat) (r : FaultRec) : State :=
  let s := updCore { s with nextId := s.nextId + 1 } p r.core fun k => { k with
    heldRecs := k.heldRecs ++ [{ r with order := s.nextId }] }
  let s := updSlot s p r.core r.slot fun x => { x with held := true }
  updVf s (s.part p).vf fun f => { f with
    interrupts := if f.fbovf then f.interrupts else f.interrupts ++ [.faultOverflow], fbovf := true }

/-- Posting a record (R354). -/
def postFault (s : State) (p : Nat) (r : FaultRec) : State :=
  if faultRoom (s.vf (s.part p).vf) then writeRecord s p r else holdRecord s p r

/-! ### Traps -/

/-- A trap (R322): cause, sub-cause, the value BADADDR takes, and what its fault record holds (R353): kind, walk level,
window flag. `posted` says that the engine that met the fault has already posted the record. -/
structure Trap where
  cause : Nat
  sub : Nat := 0
  bad : Word := 0
  kind : Nat := 10
  level : Nat := 0xFF
  ncw : Bool := false
  impr : Bool := false
  posted : Bool := false
  deriving DecidableEq, Repr

/-- CAUSE (R319). -/
def causeWord (t : Trap) : Word := BitVec.ofNat 64 (t.cause % 256 + 256 * (t.sub % 256) + if t.impr then 65536 else 0)

/-- A trap posts a record when its cause is of R322's list and its address has bit 63 clear. -/
def Trap.recorded (t : Trap) : Bool :=
  !t.posted && !t.bad.msb && [0x05, 0x06, 0x07, 0x08, 0x0A, 0x20, 0x21, 0x22, 0x23, 0x24].contains t.cause

/-- The record of a trap taken by a slot. -/
def trapRecord (s : State) (a : At) (t : Trap) : FaultRec :=
  { addr := t.bad, task := (s.slotAt a.p a.c a.n).taskId, core := a.c, code := t.cause, sub := t.sub, kind := t.kind,
    slot := a.n, ncw := t.ncw, level := t.level }

/-- What a trapped slot records (R322): CAUSE, BADADDR, and EPC, the address of the instruction it stands at. -/
def recordTrap (x : Slot) (t : Trap) : Slot :=
  { x with cause := causeWord t, trapCode := t.cause % 256, badaddr := t.bad, epc := x.pc,
           wait := .none, delayed := false, pend := .none, popped := [],
           ist := none, ild := none, joinRead := none, replayNum := 0 }

/-- A slot that waits at its ARMENTER leaves the core's entries (R239): no session starts for it. -/
def leaveEntry (s : State) (a : At) : State :=
  updCore s a.p a.c fun k => { k with armWait := k.armWait.filter (·.slot != a.n) }
/-- TAKING A TRAP. A user slot parks, awaiting service (R22, R326). Slot 3 continues at TVEC with INTRAP set; with INTRAP
set already it is a supervisor double fault: slot 3 parks and the partition stops (R325). -/
def takeTrap (s : State) (a : At) (t : Trap) : State :=
  let s := if t.recorded then postFault s a.p (trapRecord s a t) else s
  if a.n = 3 then
    if (s.slotAt a.p a.c 3).intrap then
      let s := updSlot s a.p a.c 3 fun x => { recordTrap x t with st := .parked }
      updPart s a.p fun x => { x with stopped := true, doubleFaults := x.doubleFaults + 1 }
    else
      updSlot s a.p a.c 3 fun x => { recordTrap x t with st := .ready, intrap := true, pc := (s.coreAt a.p a.c).tvec }
  else updSlot (leaveEntry s a) a.p a.c a.n fun x => { recordTrap x t with st := .parked, svc := true }

/-- RETURNING FROM A TRAP of slot 3 (R327 ERET): INTRAP is cleared and slot 3 continues at its EPC. -/
def returnTrap (x : Slot) : Slot := { x with intrap := false, pc := x.epc, st := .ready, wait := .none, delayed := false }

/-! ### Going on and waiting -/

/-- The slot at its next instruction. -/
def goOn (x : Slot) (pc : Word) : Slot :=
  { x with pc := pc, st := .ready, wait := .none, delayed := false, popped := [], ist := none, ild := none,
           joinRead := none, replayNum := 0 }
/-- Sequential flow (R77): the PC advances by 12. -/
def advance (s : State) : State := updMe s fun x => goOn x (x.pc + 12)
/-- A slot at a given core goes on past its instruction. -/
def advanceAt (s : State) (a : At) : State := updSlot s a.p a.c a.n fun x => goOn x (x.pc + 12)

/-- The instruction cannot issue: the slot is Blocked at it (R20). A wait for an empty source or an unresolved e-slot is a
loss of decoupling (R36). -/
def blockSlot (x : Slot) (w : Wait) : Slot :=
  { x with st := .blocked, wait := w, delayed := x.delayed || w == .queueEmpty || w == .guard }
def block (s : State) (w : Wait) : State := updMe s fun x => blockSlot x w

/-- What an instruction's own operation answers: `ok` takes effect and the PC advances; `to` takes effect and has set the
slot's next state itself; `wait` and `trap` have no effect. -/
inductive Res where
  | ok (s : State)
  | to (s : State)
  | wait (w : Wait)
  | trap (t : Trap)

/-- The step of the slot: `s` is the state before the instruction. -/
def finish (s : State) : Res → Host.Outcome State Fault Refusal
  | .ok t => .next (advance t)
  | .to t => .next t
  | .wait w => .next (block s w)
  | .trap t => .next (takeTrap s s.cur t)

/-- A guard's value where the slot can read it (R81): none when it awaits a memory response, or is an e-guard. -/
def guardNow (x : Slot) (c : Ctl) : Option Bool :=
  match c.guard with
  | .always => some true
  | .pred n neg => if awaitsP x n then none else some (readP x n != neg)
  | .eng _ _ => none

/-- What holds an instruction at the issue point (R20, R32): a register or predicate that awaits a memory response, an
empty source, a full destination. -/
def hazard (x : Slot) (srcs dsts : List SOp) (ps : List PReg) : Option Wait :=
  if depends x (srcs ++ dsts) || ps.any (awaitsP x) then some .memory
  else if lacksEntry x srcs then some .queueEmpty
  else if lacksRoom x dsts then some .queueFull
  else none

/-- The slot once a delayed instruction issues: it counts one loss of decoupling (R36). -/
def countDelay (x : Slot) : Slot := if x.delayed then { x with lodcnt := x.lodcnt + 1 } else x

/-- The values of the sources in order, and the slot with its queue registers popped and the delay counted. -/
def takeSources (x : Slot) (srcs : List SOp) : List Word × Slot :=
  let (vs, y) := readAll x srcs
  (vs, countDelay y)

/-- ISSUING a scalar instruction (R37, R81, R88, R94): a false guard has no effect; otherwise it waits until its operands
can be taken, reads its sources in order, and does its operation. `v i` is the value of source i. -/
def issue (c : Ctl) (srcs dsts : List SOp) (ps : List PReg) (s : State) (body : (Nat → Word) → State → Res) :
    Host.Outcome State Fault Refusal :=
  match c.guard with
  | .eng _ _ => finish s (.trap { cause := 0x02 })
  | _ =>
    match guardNow s.me c with
    | none => finish s (.wait .memory)
    | some false => finish s (.ok s)
    | some true =>
      match hazard s.me srcs dsts ps with
      | some w => finish s (.wait w)
      | none =>
        let r := takeSources s.me srcs
        finish s (body (fun i => r.1.getD i 0) (updMe s fun _ => r.2))

/-- A privileged instruction (R315, R86): cause 0x04 from a user slot, whatever its guard. -/
def issueP (c : Ctl) (srcs dsts : List SOp) (ps : List PReg) (s : State) (body : (Nat → Word) → State → Res) :
    Host.Outcome State Fault Refusal :=
  if s.cur.n = 3 then issue c srcs dsts ps s body else finish s (.trap { cause := 0x04 })

/-- A result written to a scalar destination (R88). -/
def putS (s : State) (d : SOp) (v : Word) : State := updMe s fun x => writeS x d v
/-- A result written to a predicate. -/
def putP (s : State) (p : PReg) (b : Bool) : State := updMe s fun x => writeP x p b

/-! ### Activations -/

/-- Leaving armature mode (R240, R330): links are discarded, inbox entries are discarded and counted. -/
def leaveArmature (k : Core) : Core :=
  { k with arm := { k.arm with
      active := false, links := [], fetched := .none, reading := [], ahead := [], inbox := [], votes := [],
      drop := BitVec.ofNat 8 k.arm.inbox.length } }

/-- ENDING AN ACTIVATION (R27): the slot becomes Idle; its engine commands stay queued. A copy-fault record attached to it
is freed (R329), and an armature session that it entered ends (R330). -/
def endActivation (s : State) (a : At) : State :=
  let x := s.slotAt a.p a.c a.n
  updCore s a.p a.c fun k =>
    let k := if x.arm then leaveArmature k else k
    { k with
      frecs := match x.copyRec with
        | some i => k.frecs.filter fun r => r.id != i
        | none => k.frecs,
      armWait := k.armWait.filter (·.slot != a.n),
      slots := mput k.slots a.n { x with
        st := .idle, wait := .none, delayed := false, popped := [], ist := none, ild := none, joinRead := none, pend := .none,
        latch := .none, report := .none,
        copyRec := .none, replayNum := 0, svc := false, arm := false, act := x.act + 1, route := .none, joinAddr := .none,
        fromQueue := .none, fillTo := .none } }

/-- The registers s16-s19 of a new activation (R23). -/
def argRegs (args : List Word) : NMap Word :=
  mset 0 (mset 0 (mset 0 (mset 0 [] 0 (args.getD 0 0)) 1 (args.getD 1 0)) 2 (args.getD 2 0)) 3 (args.getD 3 0)

/-- The slot of a new activation (R23, R24): every register cleared but s16-s19; LODCNT and NOLEGAL stay. -/
def freshSlot (x : Slot) (pc task : Word) (args : List Word) : Slot :=
  { st := .ready, pc := pc, taskId := task, wregs := argRegs args, lodcnt := x.lodcnt, nolegal := x.nolegal,
    held := x.held, intrap := x.intrap, cause := x.cause, trapCode := x.trapCode, badaddr := x.badaddr, epc := x.epc, latchv := x.latchv,
    wspill := x.wspill, lastCopy := x.lastCopy, lastMatrix := x.lastMatrix, lastVector := x.lastVector,
    lastChisel := x.lastChisel, lq := x.lq, sb := x.sb, unacked := x.unacked, act := x.act }

/-- The issuing slot's activation ends (R27). Slot 3 never becomes Idle while its partition is scheduled (R315): there the
instruction that would end it only moves on. DESIGN CHOICE, log entry 60. -/
def endMine (s : State) : State := if s.cur.n = 3 then advance s else endActivation s s.cur

/-- STARTING AN ACTIVATION (R23, R24) in an Idle slot, with its reply route, its join address and its queue. The start acquires the
definitions `know` that the message or the task which causes it releases (R292). -/
def startActivation (s : State) (a : At) (pc task : Word) (args : List Word) (route : Option Route)
    (join : Option Word) (queue : Option Nat) (know : List Nat) : State :=
  updSlot s a.p a.c a.n fun x => { freshSlot x pc task args with
    route := route, joinAddr := join, fromQueue := queue, seen := know }

/-- The lowest-numbered Idle user slot of a core (R160). -/
def idleSlot (k : Core) : Option Nat :=
  [0, 1, 2].find? fun n => (mget ({} : Slot) k.slots n).st == .idle

/-! ### Message headers and scopes -/

/-- The smallest scope that holds two cores (R154). -/
def scopeOver (a b : Nat) : Scope :=
  if a = b then .core else if clusterOf a = clusterOf b then .cl
  else if a / 65536 = b / 65536 then .die else if chipOf a = chipOf b then .pkg else .sys

/-! ### What releases order before acquires (R292, R293, R308, R313) -/

/-- A core lies in the releasing core's instance of a scope (R288, R293). -/
def inScope (a b : Nat) : Scope → Bool
  | .th => false
  | .core => a == b
  | .cl => clusterOf a == clusterOf b
  | .die => dieOf a == dieOf b
  | .pkg => chipOf a == chipOf b
  | .sys => true
/-- A release by a core at a scope carries the definitions that are ordered before it. -/
def released (seen : List Nat) (core : Nat) (c : Scope) : View := seen.map fun ev => (ev, core, c)
/-- The definitions that an acquire by a core takes from what it reads. -/
def visible (v : View) (core : Nat) : List Nat := (v.filter fun e => inScope e.2.1 core e.2.2).map (·.1)
/-- What a slot knows once it has acquired some definitions. -/
def learn (seen new : List Nat) : List Nat := seen ++ new.filter fun ev => !seen.contains ev
/-- An acquire of some definitions by a slot, or one that it makes itself: its later instructions find them (R308, R313). -/
def acquire (s : State) (a : At) (new : List Nat) : State :=
  updSlot s a.p a.c a.n fun x => { x with seen := learn x.seen new }

/-- The checks of R153 on a header word, up to the core it names; `queueOk` is the entry's test of the QUEUE field (none:
it is left to the caller). -/
def headerCore (s : State) (h : Word) : Except Trap Nat :=
  if !h.msb || h.toNat % 2 ^ 27 != 0 then .error { cause := 0x02 }
  else
    let c := namedCore s.cur.c h (h.getLsbD 27)
    if s.myPart.hasCore c then .ok c else .error { cause := 0x0B, bad := h }
/-- The QUEUE field of a header (R151). -/
def headerQueue (h : Word) : Nat := h.toNat / 2 ^ 28 % 16
/-- The header word that names a core literally (R151). -/
def senderHeader (c : Nat) : Word := BitVec.ofNat 64 (2 ^ 63 + chipOf c * 2 ^ 52 + coreId c * 2 ^ 32 + 2 ^ 27)
/-- Two cores hold the same launch (R153). -/
def sameLaunch (s : State) (p a b : Nat) : Bool :=
  (s.coreAt p a).launch.isSome && (s.coreAt p a).launch == (s.coreAt p b).launch

/-- The register group B..B+3 (R152). -/
def groupOps (b : SReg) : List SOp := [.s b, .s (b + 1), .s (b + 2), .s (b + 3)]

end Sys2Proof.Machine
end

