-- ==== Sys2Proof/Machine/Pieces.lean ====
section
/-! DEFINITION. The engine queues of a core (spec/01_machine.md R29), and the pieces in which a copy moves its bytes: the
aligned 8-byte units of its near side and the parts of such units of its far side (spec/08_isa_matrix.md R216, R230, R232,
spec/11_order.md R294, R295). -/

namespace Sys2Proof.Machine

/-! ### Engine queues -/

/-- The queue of an engine. -/
def getQ (k : Core) : Engine → EngQ
  | .copy => k.cq
  | .matrix => k.mq
  | .vector => k.vq
def setQ (k : Core) (e : Engine) (q : EngQ) : Core :=
  match e with
  | .copy => { k with cq := q }
  | .matrix => { k with mq := q }
  | .vector => { k with vq := q }

/-- Bytes that an engine's read brings. -/
def AccKind.bytesRead : AccKind → Nat
  | .load n _ => n
  | _ => 0

/-! ### The sides of a copy (R228, R230, R232) -/

/-- Bytes of n elements of a format's width. -/
def bytesOfElems (n bits : Nat) : Nat := n * bits / 8
/-- Element width on the near and on the far side (R230). -/
def CopyCmd.nearBits (x : CopyCmd) : Nat := if x.conv then (if x.inbound then x.dfmt.bits else x.sfmt.bits) else 8
def CopyCmd.farBits (x : CopyCmd) : Nat := if x.conv then (if x.inbound then x.sfmt.bits else x.dfmt.bits) else 8
def CopyCmd.srcBits (x : CopyCmd) : Nat := if x.inbound then x.farBits else x.nearBits
def CopyCmd.dstBits (x : CopyCmd) : Nat := if x.inbound then x.nearBits else x.farBits
def CopyCmd.near (x : CopyCmd) : Word := if x.inbound then x.dst else x.src
def CopyCmd.farAddr (x : CopyCmd) : Word := if x.inbound then x.src else x.dst
def CopyCmd.nearStride (x : CopyCmd) : Int := if x.inbound then x.dstride else x.sstride
def CopyCmd.farStride (x : CopyCmd) : Int := if x.inbound then x.sstride else x.dstride
/-- Offset of the near base in the own scratchpad. -/
def CopyCmd.nearOff (x : CopyCmd) : Nat := x.near.toNat % 2 ^ 28
/-- The far side is addressed element by element. -/
def CopyCmd.grouped (x : CopyCmd) : Bool := x.shape == .gather || x.shape == .scatter
/-- Elements per unit of whole bytes. -/
def CopyCmd.perUnit (x : CopyCmd) : Nat := if x.nearBits = 4 || x.farBits = 4 then 2 else 1
/-- Elements of the whole copy. -/
def CopyCmd.elems (x : CopyCmd) : Nat := if x.shape = .two then x.rows * x.count else x.count
/-- Bytes of the stream that it reads and of the one that it writes, uncompressed. -/
def CopyCmd.srcLen (x : CopyCmd) : Nat := bytesOfElems x.elems x.srcBits
def CopyCmd.dstLen (x : CopyCmd) : Nat := bytesOfElems x.elems x.dstBits
/-- The near side's ranges: offset and length of each row (R232). -/
def CopyCmd.nearRows (x : CopyCmd) : List (Int × Nat) :=
  match x.shape with
  | .two => (List.range x.rows).map fun (r : Nat) => ((x.nearOff : Int) + r * x.nearStride, bytesOfElems x.count x.nearBits)
  | _ => [((x.nearOff : Int), bytesOfElems x.count x.nearBits)]

/-- The bytes of the near side that lie in an aligned 8-byte unit: offset and position in the near stream, rows in order. -/
def CopyCmd.nearUnit (x : CopyCmd) (u : Nat) : List (Nat × Nat) :=
  (x.nearRows.zipIdx).flatMap fun e =>
    (List.range 8).filterMap fun (j : Nat) =>
      let i : Int := ((8 * u + j : Nat) : Int) - e.1.1
      if 0 ≤ i && i < e.1.2 then some (8 * u + j, e.2 * e.1.2 + i.toNat) else none
/-- The units that the near side touches. -/
def CopyCmd.nearUnits (x : CopyCmd) : List Nat :=
  x.nearRows.flatMap fun r =>
    (List.range ((r.1.toNat % 8 + r.2 + 7) / 8)).map (r.1.toNat / 8 + ·)

/-- A part of the far side that one access moves: its address, its position in the far stream, its length, and the address of
its row or element. -/
structure Piece where
  at_ : Word
  pos : Nat
  len : Nat
  base : Word
  deriving DecidableEq, Repr
/-- A run of bytes cut where an aligned 8-byte unit ends. -/
def splitRun (a : Word) (pos len : Nat) : List Piece :=
  let sh := a.toNat % 8
  (List.range ((sh + len + 7) / 8)).map fun j =>
    let lo := 8 * j - sh
    { at_ := a + BitVec.ofNat 64 lo, pos := pos + lo, len := min len (8 * (j + 1) - sh) - lo, base := a }
/-- The far side of a copy that is not compressed: its rows in order, or its elements, whose indices are read now (R232). -/
def farPieces (s : State) (p c : Nat) (x : CopyCmd) : List Piece :=
  if x.grouped then
    let w := bytesOfElems 1 x.farBits
    (List.range x.count).map fun n =>
      let a := x.farAddr + BitVec.ofNat 64 (leNat (spadRead s p c (x.index + 4 * n) 4))
      { at_ := a, pos := n * w, len := w, base := a }
  else
    let len := bytesOfElems x.count x.farBits
    (List.range (if x.shape = .two then x.rows else 1)).flatMap fun (r : Nat) =>
      splitRun (x.farAddr + BitVec.ofInt 64 (r * x.farStride)) (r * len) len

/-- The running copy of a core. -/
def copyOf (k : Core) : Option (Running × CopyCmd) :=
  match k.cq.run with
  | some r => match r.cmd.op with
    | .copy x => some (r, x)
    | _ => none
  | none => none
/-- The copy has moved the near bytes of a unit: read them, or written them. -/
def nearMoved (r : Running) (x : CopyCmd) (u : Nat) : Bool := if x.inbound then r.put.contains u else r.asked.contains u
/-- An access of a core's running copy. -/
def ofCopy (d : Nat) (r : Running) (e : Acc) : Bool := e.core == d && e.eng == some .copy && e.act == r.cmd.num
/-- The parts of the far side of a core's copy, and whether the place of each has performed it. A compressed side is moved in order;
its length is known only at its end, and it counts up to the longest. -/
def farParts (s : State) (p d : Nat) (r : Running) (x : CopyCmd) : List (Piece × Bool) :=
  let l := (s.part p).live
  let flying (pos : Nat) : Bool := l.chans.any (fun e => ofCopy d r e.2.2 && e.2.2.piece == pos) || l.delivered.any fun e => ofCopy d r e && e.piece == pos
  if x.zs then
    let n := r.enc.length + ((l.resps.filter fun e => ofCopy d r e.1).map fun e => e.1.kind.bytesRead).sum
    (splitRun x.farAddr 0 (x.srcLen + x.srcLen / 8)).map fun q => (q, q.pos + q.len ≤ n)
  else if x.zd then
    (splitRun x.farAddr 0 (x.dstLen + x.dstLen / 8)).map fun q => (q, q.pos + q.len ≤ r.put.headD 0 && !flying q.pos)
  else (farPieces s p d x).zipIdx.map fun e =>
    (e.1, (if x.inbound then r.asked else r.put).contains e.2 && !flying e.1.pos)
/-- A core's running copy moves bytes of a unit of core c's scratchpad, and has moved all of them: on its near side, or, another
core's copy, on its far side. -/
def copyMoves (s : State) (p c d : Nat) (r : Running) (x : CopyCmd) (u : Nat) : Option Bool :=
  let far := (farParts s p d r x).filter fun e =>
    isGlobal e.1.at_ && e.1.at_.toNat / 2 ^ 28 % 16 == 0 && namedCore d e.1.at_ false == c && e.1.at_.toNat % 2 ^ 28 / 8 == u
  let near := if d = c && !(x.nearUnit u).isEmpty then [nearMoved r x u] else []
  match near ++ far.map (·.2) with
  | [] => none
  | bs => some (bs.all id)
/-- An LDP or STP of a scratchpad would come between the two units of its pair, of which a running copy, of its own core or of
another, has moved one (R216, R295). -/
def splitsPair (s : State) (p : Nat) (pl : Place) (off len : Nat) : Bool :=
  if len ≠ 16 then false
  else
    match pl with
    | .own c | .spad c =>
      (s.part p).live.cores.any fun k =>
        match copyOf k.2 with
        | some (r, x) =>
          (match copyMoves s p c k.1 r x (off / 8), copyMoves s p c k.1 r x (off / 8 + 1) with
           | some a, some b => a != b
           | _, _ => false)
        | none => false
    | _ => false

end Sys2Proof.Machine
end

