-- ==== Sys2Proof/Machine/Access.lean ====
section
/-! DEFINITION. Accesses: issue and acceptance (spec/05_isa_memory.md R123 to R126), the ordering machine's post, deliver,
perform and return (spec/11_order.md R284 to R290), atomics, barriers and messages at their places. -/

namespace Sys2Proof.Machine

/-! ### Operands and kinds -/

/-- The sources of a memory instruction in the order it reads them: A, then B and the third (R88, R130, R135). -/
def MemOp.srcs (m : MemOp) : List SOp :=
  match m.kind with
  | .load _ _ | .loadPair | .send _ _ _ | .spawn _ | .wake | .ist _ _ _ _ | .fork _ _ | .join => [m.a]
  | .store _ => if m.size = 16 then [m.a, m.d, m.b] else [m.a, m.b]
  | .amo .cas _ _ _ _ => [m.a, m.b, m.d]
  | .amo _ _ _ _ _ | .range _ _ | .bar _ _ => [m.a, m.b]

/-- The effective address (R123). -/
def MemOp.ea (m : MemOp) (v : Nat → Word) : Word := v 0 + immS m.off

/-- What the access does, its operands read. -/
def MemOp.kindOf (m : MemOp) (v : Nat → Word) : AccKind :=
  match m.kind with
  | .store _ => if m.size = 16 then .store (leBytes 8 (v 1).toNat ++ leBytes 8 (v 2).toNat)
                else .store (leBytes m.size (v 1).toNat)
  | .amo op w32 fetch _ _ => .amo op w32 fetch (v 1) (v 2)
  | .range op _ => .range op (v 1).toNat
  | .bar op _ => .bar op (v 1)
  | k => k

/-- Bytes of an access (R123). -/
def AccKind.bytes : AccKind → Nat
  | .load n _ => n
  | .loadPair => 16
  | .store bs => bs.length
  | .amo op w32 _ _ _ => match op with
    | .faddF64 => 8
    | .faddF32 | .faddBf16x2 | .fminF32 | .fmaxF32 => 4
    | _ => if w32 then 4 else 8
  | .bar _ _ | .fork _ _ | .join => 8
  | .range _ len => len
  | .ist _ _ _ bs => bs.length
  | .send _ _ _ | .spawn _ | .wake => 0

def AccKind.isLoad : AccKind → Bool
  | .load _ _ | .loadPair | .join => true
  | _ => false
def AccKind.fetching : AccKind → Bool
  | .amo _ _ f _ _ => f
  | _ => false
def AccKind.isAmo : AccKind → Bool
  | .amo _ _ _ _ _ => true
  | _ => false
def AccKind.isIst : AccKind → Bool
  | .ist _ _ _ _ => true
  | _ => false
def AccKind.isMsg : AccKind → Bool
  | .send _ _ _ | .spawn _ | .wake | .fork _ _ => true
  | _ => false
/-- Its slot stays Blocked at the instruction until the response (R133, R143, R153, R160, R164, R166). -/
def AccKind.blocking : AccKind → Bool
  | .range _ _ | .bar _ _ | .send _ _ _ | .spawn _ | .fork _ _ | .join => true
  | _ => false
/-- Permission the leaf must give (R346). -/
def AccKind.perm : AccKind → Perm
  | .load _ _ | .loadPair => .read
  | .store _ => .write
  | .amo _ _ f _ _ => if f then .rw else .write
  | .range op _ => if op = .zero then .rw else .read
  | .ist _ _ _ _ => .rw
  | .bar _ _ | .send _ _ _ | .spawn _ | .wake | .fork _ _ | .join => .read
/-- KIND of a fault record (R353). -/
def AccKind.recKind : AccKind → Nat
  | .load _ _ | .loadPair => 0
  | .store _ => 1
  | .amo _ _ _ _ _ => 2
  | .range _ _ => 9
  | .ist _ _ _ _ => 8
  | .bar _ _ | .send _ _ _ | .spawn _ | .wake | .fork _ _ | .join => 10

/-- The offset of an access within its place. -/
def Acc.off (e : Acc) : Nat := if isGlobal e.ea then e.ea.toNat % 2 ^ 28 else e.ea.toNat
/-- Two accesses touch a common byte of one place. -/
def Acc.overlaps (e f : Acc) : Bool :=
  e.place == f.place && e.off < f.off + f.kind.bytes && f.off < e.off + e.kind.bytes
/-- The place performs the access in the step that posts it (R285). -/
def Acc.own (e : Acc) : Bool :=
  match e.place with
  | .own _ => true
  | _ => false

/-! ### Issue -/

/-- Where an effective address leads before any translation (R123 checks 1 to 3, R133, R142): a place with its offset, a
virtual access that its home must accept, or a trap. -/
def checkEa (s : State) (k : AccKind) (ea : Word) : Except Trap (Option Place) :=
  match k with
  | .range op len =>
    if isGlobal ea || !virtualForm ea || ea.toNat + len > 2 ^ 55 then .error { cause := 0x08, bad := ea, kind := 9 }
    else if len > 0x1000000 then .error { cause := 0x02 }
    else if op = .zero && (ea.toNat % 128 ≠ 0 || len % 128 ≠ 0) then .error { cause := 0x06, bad := ea, kind := 9 }
    else .ok none
  | k =>
    let size := k.bytes
    if isGlobal ea then
      match globalPlace s s.cur.p s.cur.c ea size size with
      | .error f => .error { cause := f.cause, bad := f.bad, kind := k.recKind }
      | .ok (pl, _) => .ok (some pl)
    else if !virtualForm ea then .error { cause := 0x08, bad := ea, kind := k.recKind }
    else match k with
      | .bar _ _ => .error { cause := 0x08, bad := ea, kind := 10 }
      | _ => if ea.toNat % size ≠ 0 then .error { cause := 0x06, bad := ea, kind := k.recKind } else .ok none

/-- The access that an instruction makes. -/
def mkAcc (s : State) (m : MemOp) (v : Nat → Word) (pl : Place) : Acc :=
  let x := s.me
  let d (o : SOp) : Dst := dstOf x o
  let k := m.kindOf v
  { id := s.nextId, core := s.cur.c, slot := s.cur.n, act := x.act, kind := k, ea := m.ea v, place := pl,
    ord := m.ord, scope := m.scope,
    dst := match m.dp, m.dsts with
      | some q, _ => .pred q.toNat
      | none, o :: _ => d o
      | none, [] => .none,
    dst2 := if k = .loadPair then d m.d2 else .none }

/-- The queues have room for the access (R286). -/
def queuesRoom (x : Slot) (k : AccKind) : Bool :=
  (!(k.isLoad || k.fetching) || x.lq.length < 8) && (k.isLoad || x.sb.length < 8)

/-- The access enters the load queue, the store buffer, or both (R286). -/
def enqueueAcc (x : Slot) (e : Acc) : Slot :=
  { x with
    lq := if e.kind.isLoad || e.kind.fetching then x.lq ++ [{ acc := e }] else x.lq,
    sb := if e.kind.isLoad then x.sb else x.sb ++ [e] }

/-- What a Blocked slot waits for until its access answers. -/
def AccKind.waitFor : AccKind → Wait
  | .bar _ _ => .barrier
  | .send _ _ _ | .fork _ _ => .message
  | .spawn _ => .spawnReply
  | _ => .store

/-- What an access releases (R289, R292): one with a releasing order, what its slot knows, at its scope; every store, what the
slot's releasing FENCEs have put before it. -/
def releases (x : Slot) (e : Acc) : View :=
  match e.kind with
  | .load _ _ | .loadPair | .join | .range _ _ => []
  | _ => (if e.ord == .rel || e.ord == .ar || e.ord == .sc then released x.seen e.core e.scope else []) ++ x.freed
/-- An accepted access: it takes its name and its queues, and its slot goes on, or stays Blocked at the instruction until
the response. -/
def acceptAcc (s : State) (a : At) (e : Acc) : State :=
  updSlot { s with nextId := s.nextId + 1 } a.p a.c a.n fun x =>
    let y := enqueueAcc x { e with id := s.nextId, know := releases x e }
    if e.kind.blocking then { y with st := .blocked, wait := e.kind.waitFor, delayed := false } else goOn y (y.pc + 12)

/-- The queue-register entries that an instruction took, for a cut that records it as not issued (R332). -/
def poppedBy (srcs : List SOp) (v : Nat → Word) : List (Nat × Word) :=
  srcs.zipIdx.filterMap fun e => match e.1 with
    | .q n => some (n.toNat, v e.2)
    | .s _ => none

/-- The entries go back to the heads of their queue registers: the instruction has no effect. -/
def unpop (x : Slot) : Slot :=
  { x with
    queues := x.popped.foldr (fun e q => mset [] q e.1 (e.2 :: mget [] q e.1)) x.queues,
    popped := [] }

/-- ISSUING A MEMORY INSTRUCTION (R123, R124, R138): the checks; then an address that needs no translation is accepted at
issue, and a virtual one waits for its home. Sources are popped at acceptance (R125), an atomic's at issue (R138). -/
def issueMem (c : Ctl) (m : MemOp) (s : State) : Host.Outcome State Fault Refusal :=
  issue c m.srcs m.dsts m.dp.toList s fun v t =>
    let k := m.kindOf v
    if (match k with | .range _ len => len == 0 | _ => false) then .ok t
    else
      match checkEa s k (m.ea v) with
      | .error trap => .trap trap
      | .ok (some pl) =>
        if queuesRoom s.me k then
          let u := acceptAcc t t.cur (mkAcc s m v pl)
          .to (if k.blocking then updMe u fun x => { x with popped := poppedBy m.srcs v } else u)
        else .wait .memory
      | .ok none =>
        if k.isAmo then
          .to (updMe t fun y => blockSlot { y with
            pend := some ⟨m, some (mkAcc s m v (.own 0)), none⟩, popped := poppedBy m.srcs v } .accept)
        else .to (updMe s fun y => blockSlot { y with pend := some ⟨m, none, none⟩ } .accept)

/-! ### Acceptance by the home -/

/-- The cluster whose slice serves a virtual access: the issuer's inside a window, else the home (R351). -/
def servingCluster (s : State) (p core va : Nat) : Nat :=
  let x := s.part p
  if inWindow (s.vf x.vf) va then clusterOf core else homeOf x va

/-- The walk at a slice: from memory, or with its cached entries (R344, R348). -/
def walkAt (s : State) (p cluster va : Nat) (cached : Bool) : Except Refuse Walk :=
  if cached then translateCached s p cluster va else translate s p va

/-- Where a page that migrates lies (R356): while its migration entry stands, its home translates each line from it. -/
def migLeaf (s : State) (p va : Nat) (l : Leaf) : Leaf :=
  match (s.part p).mig with
  | some g => if va / 65536 = g.page then { l with pa := (if va / 128 % 512 < g.moved then g.npa else g.opa) + va % 65536 } else l
  | none => l
/-- A virtual address translated and checked at its slice, which caches the valid entries: the leaf, and whether it lies in a
window. -/
def acceptVa (s : State) (p core va : Nat) (k : Perm) (cached : Bool) : State × Except Refuse (Leaf × Bool) :=
  let cl := servingCluster s p core va
  let w := walkAt s p cl va cached
  let s := cacheWalk s p cl va cached
  (s, match checkAccess s p va k w with
    | .ok (w, win) => .ok (migLeaf s p va (leafOf w), win)
    | .error r => .error r)

/-- Every page of a range checked, lowest first (R133): the leaves with their window flags, or the first page refused. -/
def acceptRange (p core : Nat) (k : Perm) (cached : Bool) : Nat → Nat → State → State × Except (Nat × Refuse) (List (Leaf × Bool))
  | 0, _, s => (s, .ok [])
  | n + 1, page, s =>
    match acceptVa s p core (page * 65536) k cached with
    | (s, .ok l) =>
      (match acceptRange p core k cached n (page + 1) s with
       | (s, .ok ls) => (s, .ok (l :: ls))
       | r => r)
    | (s, .error r) => (s, .error (page * 65536, r))

/-- The place of an accepted virtual access. -/
def virtualPlace (s : State) (p core va : Nat) (win : Bool) : Place :=
  if win then .ncCopy (clusterOf core) else .home (homeOf (s.part p) va)

/-- What a refused access traps with; an atomic enters the retry latch (R123, R138). -/
def refuseAcc (s : State) (a : At) (m : MemOp) (e : Acc) (bad : Word) (r : Refuse) : State :=
  let win := inWindow (s.vf (s.part a.p).vf) bad.toNat
  if e.kind.isAmo then
    let l : Latch := { fetch := e.kind.fetching, refuse := BitVec.ofNat 8 r.cause, op := m.op, fn := m.fn, acc := e }
    let s := updSlot s a.p a.c a.n fun x => { x with latch := some l }
    takeTrap s a { cause := 0x0A, sub := r.cause, bad := bad, kind := 2, level := r.level, ncw := win }
  else takeTrap s a { cause := r.cause, bad := bad, kind := e.kind.recKind, level := r.level, ncw := win }
/-- An access whose walk meets an uncorrectable error that rollback does not repair acts as one that meets the error itself (R339,
R323): its slot goes on past it, nothing is performed, no destination is written, and the error is reported at the slot's next
instruction (log entry 62). `x` is the slot with the instruction's sources taken. -/
def walkError (x : Slot) (e : Acc) : Slot := { goOn { x with pend := none } (x.pc + 12) with report := some (0x3F, e.ea) }

/-- The answer of a home to the access sent from a slot's latch (R327 REARM): accepted, the slot goes on after the atomic
and REARM's predicate is true; refused, the latch keeps the atomic, and the predicate is false. A walk that meets an uncorrectable
error ends the atomic as its own error would (R339, log entry 62). -/
def rearmAnswer (s : State) (a : At) (q : PReg) (e : Acc) (r : Option Refuse) : State :=
  let done (s : State) (b : Bool) : State :=
    updSlot s a.p a.c 3 fun x => goOn (writeP x q b) (x.pc + 12)
  let past (y : Slot) : Slot := if a.n = 3 then y else { goOn y y.epc with svc := false }
  match r with
  | none =>
    let s := updSlot { s with nextId := s.nextId + 1 } a.p a.c a.n fun x =>
      past (enqueueAcc { x with latch := none, pend := none, epc := x.epc + 12 } { e with id := s.nextId, know := releases x e })
    done s true
  | some ⟨0x3F, _, _⟩ =>
    done (updSlot s a.p a.c a.n fun x =>
      past { x with latch := none, pend := none, epc := x.epc + 12, report := some (0x3F, e.ea) }) true
  | some r =>
    let s := updSlot s a.p a.c a.n fun x => { x with
      pend := none,
      latch := x.latch.map fun l => { l with sent := false, refuse := BitVec.ofNat 8 r.cause },
      cause := (x.cause &&& ~~~0xFF00) ||| BitVec.ofNat 64 (256 * r.cause) }
    let win := inWindow (s.vf (s.part a.p).vf) e.ea.toNat
    let t : Trap := { cause := 0x0A, sub := r.cause, bad := e.ea, kind := 2, level := r.level, ncw := win }
    done (postFault s a.p { trapRecord s a t with rearm := true }) false

/-- ACCESS_ACCEPT (R124, R138): the accept or the refusal of the access that a slot waits on. -/
def acceptAt (s : State) (a : At) (cached : Bool) : State :=
  let x := s.slotAt a.p a.c a.n
  match x.pend with
  | none => s
  | some pd =>
    let s := { s with cur := a }
    let r := takeSources x pd.op.srcs
    let e := pd.acc.getD (mkAcc s pd.op (fun i => r.1.getD i 0) (.own 0))
    let va := e.ea.toNat
    if !queuesRoom x e.kind || (pd.acc.isNone && lacksEntry x pd.op.srcs) then s
    else
      let refused (s : State) (bad : Word) (f : Refuse) : State :=
        match pd.rearm with
        | some q => rearmAnswer s a q e (some f)
        | none =>
          if f.cause = 0x3F then updSlot s a.p a.c a.n fun x => walkError (if pd.acc.isSome then x else r.2) e
          else refuseAcc s a pd.op e bad f
      let accepted (s : State) (e : Acc) : State :=
        match pd.rearm with
        | some q => rearmAnswer s a q e none
        | none =>
          let s := if pd.acc.isSome then updSlot s a.p a.c a.n fun x => { x with pend := none }
                   else updSlot s a.p a.c a.n fun _ => { r.2 with pend := none }
          acceptAcc s a e
      if e.kind.isAmo && inWindow (s.vf (s.part a.p).vf) va then refused s e.ea ⟨0x09, 0xFF, false⟩
      else
        match e.kind with
        | .range _ len =>
          match acceptRange a.p a.c e.kind.perm cached ((va + len - 1) / 65536 - va / 65536 + 1) (va / 65536) s with
          | (t, .error (page, f)) => if f.wait then s else refused t (BitVec.ofNat 64 page) f
          | (s, .ok ls) => accepted s { e with
              pages := ls, place := virtualPlace s a.p a.c va (inWindow (s.vf (s.part a.p).vf) va) }
        | k =>
          match acceptVa s a.p a.c va k.perm cached with
          | (t, .error f) => if f.wait then s else refused t e.ea f
          | (s, .ok (l, win)) => accepted s { e with leaf := l, place := virtualPlace s a.p a.c va win }

/-! ### Orders and scopes (R288, R289, R140) -/

def scopeFar (c : Scope) : Bool := c == .die || c == .pkg || c == .sys
/-- Every older store, atomic or send of the slot is performed at the scope (R288); `id` bounds what is older. An access to the
own scratchpad is performed at every scope once it is posted. -/
def storesAt (x : Slot) (c : Scope) (id : Nat) : Bool :=
  c == .th || (!(x.sb.any (·.id < id)) && (!scopeFar c || !(x.unacked.any fun e => e.id < id && !e.own)))
/-- Every older load and fetching atomic has returned. -/
def loadsBack (x : Slot) (id : Nat) : Bool := !(x.lq.any (·.acc.id < id))
/-- Every older access of the slot is performed at the scope (R288): a load once it has returned, a fetching atomic as a
store. -/
def olderAt (x : Slot) (c : Scope) (id : Nat) : Bool :=
  !(x.lq.any fun e => e.acc.id < id && e.acc.kind.isLoad) && storesAt x c id

/-- R289's condition before an access is posted; a range operation waits for every older access at .sys (R297). -/
def orderedToPost (x : Slot) (e : Acc) : Bool :=
  match e.kind with
  | .range _ _ => olderAt x .sys e.id
  | _ =>
    match e.ord with
    | .rlx | .acq => true
    | .rel | .ar => loadsBack x e.id && storesAt x e.scope e.id
    | .sc => olderAt x e.scope e.id

/-- The slot issues nothing further: an acquire or a .sc load has not returned, or a .sc access is not performed at its scope
(R289). -/
def orderHold (x : Slot) : Bool :=
  x.lq.any (fun e => e.acc.ord == .acq || e.acc.ord == .ar || (e.acc.ord == .sc && e.acc.kind.isLoad)) ||
  x.sb.any (fun e => e.ord == .sc && e.scope != .th) ||
  x.unacked.any (fun e => e.ord == .sc && scopeFar e.scope && !e.own)

/-- A FENCE may be passed (R140): an acquire waits for the loads and fetching atomics to return, a release for every access to
be performed at the scope. -/
def fencePassed (x : Slot) (o : Ord) (c : Scope) : Bool :=
  let back : Bool := x.lq.isEmpty
  let done : Bool := !(x.lq.any (·.acc.kind.isLoad)) &&
    (c == .th || (x.sb.isEmpty && (!scopeFar c || !(x.unacked.any fun e => !e.own))))
  match o with
  | .rlx | .acq => back
  | .rel => done
  | .ar | .sc => back && done

/-! ### Places: atomics and barriers -/

/-- The value an AMO or FAMO leaves, from the old value and its operands at the access's width, with its flags (R135,
R136). -/
def amoNew (op : AmoOp) (w : Nat) (old b c : Nat) : Nat × Flags :=
  let lt (x y : Nat) : Bool := intOf true w x < intOf true w y
  let fadd (f : Fmt) (x y : Nat) : Nat × Flags :=
    if (f.read x).isNan || (f.read y).isNan then (f.nan, fNV) else f.add .rne x y
  match op with
  | .add => ((old + b) % 2 ^ w, 0)
  | .and => (old &&& b, 0)
  | .or => (old ||| b, 0)
  | .xor => (old ^^^ b, 0)
  | .min => (if lt b old then b else old, 0)
  | .minn => (min old b, 0)
  | .max => (if lt old b then b else old, 0)
  | .maxn => (max old b, 0)
  | .swap => (b, 0)
  | .cas => (if old = c then b else old, 0)
  | .faddF32 => fadd Machine.f32 old b
  | .faddF64 => fadd Machine.f64 old b
  | .faddBf16x2 =>
    let lo := fadd Machine.bf16 (old % 65536) (b % 65536)
    let hi := fadd Machine.bf16 (old / 65536) (b / 65536)
    (lo.1 + 65536 * hi.1, lo.2 ||| hi.2)
  | .fminF32 => Machine.f32.minMax false old b
  | .fmaxF32 => Machine.f32.minMax true old b

/-- FAMO (R136): the old bits return zero-extended. -/
def AmoOp.isFloat : AmoOp → Bool
  | .faddF32 | .faddF64 | .faddBf16x2 | .fminF32 | .fmaxF32 => true
  | _ => false

/-- A barrier word (R141). -/
structure Bar where
  phase : Bool
  bytes : Int
  pend : Nat
  expect : Nat
  deriving DecidableEq, Repr
def Bar.read (v : Nat) : Bar :=
  ⟨v / 2 ^ 63 % 2 == 1, intOf true 31 (v / 2 ^ 32 % 2 ^ 31), v / 2 ^ 16 % 2 ^ 16, v % 2 ^ 16⟩
def Bar.word (b : Bar) : Nat :=
  (if b.phase then 2 ^ 63 else 0) + ofInt 31 b.bytes * 2 ^ 32 + b.pend * 2 ^ 16 + b.expect
/-- The completion check (R142). -/
def Bar.check (b : Bar) : Bar :=
  if b.pend = 0 && b.bytes = 0 then ⟨!b.phase, 0, b.expect, b.expect⟩ else b
/-- BYTES lies in its range. -/
def barRange (i : Int) : Bool := -(2 ^ 30) ≤ i && i < 2 ^ 30
/-- A copy's credit of n bytes (R142, R235); none outside the range. -/
def Bar.credit (b : Bar) (n : Nat) : Option Bar :=
  if barRange (b.bytes - n) then some ({ b with bytes := b.bytes - n } : Bar).check else none

/-- A barrier operation at its object (R142): the new object with the value answered, a trap, or a wait. -/
inductive BarRes where
  | done (b : Bar) (v : Word)
  | trap
  | wait
def barOp (op : BarOp) (b : Bar) (v : Word) : BarRes :=
  let token : Word := if b.phase then 1 else 0
  match op with
  | .init => if v.toNat % 65536 = 0 || v.toNat ≥ 65536 then .trap else .done ⟨false, 0, v.toNat, v.toNat⟩ 0
  | .arrive => if b.pend = 0 then .trap else .done ({ b with pend := b.pend - 1 } : Bar).check token
  | .arrivex =>
    if b.pend = 0 || !barRange v.toInt || !barRange (b.bytes + v.toInt) then .trap
    else .done ({ b with pend := b.pend - 1, bytes := b.bytes + v.toInt } : Bar).check token
  | .expect =>
    if !barRange v.toInt || !barRange (b.bytes + v.toInt) then .trap
    else .done ({ b with bytes := b.bytes + v.toInt } : Bar).check 0
  | .wait => if b.phase != v.getLsbD 0 then .done b 0 else .wait
  | .test => .done b (if b.phase != v.getLsbD 0 then 1 else 0)

/-! ### Places: reading and writing -/

/-- The core that holds its own copy of the line for the access (R360, R361): on the home's chip, no atomic (R139), no
publication of an instar, no access of an engine, and no store to a page-table page, which is written through (R347). -/
def Acc.caches (e : Acc) : Option Nat :=
  match e.place with
  | .home cl => if e.kind.isAmo || e.kind.isIst || e.eng.isSome || e.leaf.pt || chipOf e.core != cl / 8192 then none else some e.core
  | _ => none
/-- The access must wait at its home (R357, R360, R367, R368): a caching core for its own copy, another requester for the
line's transaction; a store or an atomic for a migration's lock. -/
def homeWaits (s : State) (p : Nat) (e : Acc) (core : Option Nat) : Bool :=
  match e.place with
  | .home _ =>
    let line := e.off / 128
    let unready : Bool := match core with
      | some _ => (if e.kind.isLoad then ownCopy s p core line else writableCopy s p core line e.leaf.pt).isNone
      | none => lineBusy s p line || (e.kind.isIst && lineBusy s p (line + 1))
    unready || (!e.kind.isLoad && (lineLocked s p line || (e.kind.isIst && lineLocked s p (line + 1))))
  | _ => false
/-- A read at a home that no delivered access makes waits while a store or an atomic waits at the line's lock (R357). -/
def behindLock (s : State) (p : Nat) (pl : Place) (line : Nat) : Bool :=
  lineLocked s p line && (s.part p).live.delivered.any fun f =>
    f.place == pl && !f.kind.isLoad && f.off / 128 ≤ line && line ≤ (f.off + f.kind.bytes - 1) / 128 &&
    (match f.kind with
     | .range _ _ => false
     | _ => true)
/-- Nothing that an engine's own access of the cluster must follow is still under way (R284, R287, R294): no request of the
cluster in the channel to the place, and none of its requests delivered there to a common byte, but a waiting BAR.WAIT. -/
def placeClear (x : PLive) (c : Nat) (pl : Place) (off len : Nat) : Bool :=
  match pl with
  | .own _ => true
  | _ =>
    !(x.chans.any fun f => f.1 == clusterOf c && f.2.1 == .request && f.2.2.place == pl) &&
    !(x.delivered.any fun f => clusterOf f.core == clusterOf c && f.place == pl && f.off < off + len && off < f.off + f.kind.bytes &&
      (match f.kind with
       | .bar .wait _ => false
       | _ => true))
def portClear (x : PLive) (e : Acc) : Bool := placeClear x e.core e.place e.off e.kind.bytes
/-- A place reads bytes for an access (R285): a cluster's own copy is filled first; a home gives a caching core its own copy,
and for another requester makes memory current (R368). -/
def readAcc (s : State) (p : Nat) (e : Acc) (core : Option Nat) (n : Nat) : State × List Byte :=
  match e.place with
  | .own c | .spad c => (s, spadRead s p c e.off n)
  | .cstore cl l => (s, storeRead s p cl l e.off n)
  | .home cl =>
    if (ownCopy s p core (e.off / 128)).isSome then (s, cohRead s p core e.off e.leaf.pa n)
    else
      let t := l2Take (cleanLine s p (e.off / 128)) p cl (e.off / 128) e.leaf.pa .home
      (t, cohRead t p none e.off e.leaf.pa n)
  | .ncCopy cl =>
    let t := ncFill s p cl e.off e.leaf.pa
    (t, ncRead t p cl e.off n)
  | .queue _ => (s, [])
/-- The source of a host function's accesses: it acts as a cluster of its own, of no chip (R285). -/
def hostCore (v : Nat) : Nat := 2 ^ 40 + 128 * v
def Acc.byHost (e : Acc) : Bool := 2 ^ 40 ≤ e.core
/-- A posted write to the memory window whose accesses are under way. -/
def Posted.isSent : Posted → Bool
  | .sent _ => true
  | _ => false
/-- Bytes written by an access at its place, D set first; none while the dirty log is full (R346, R355). `core` may keep
the line in its own cache; a host write is inbound (R334). -/
def writeAcc (s : State) (p : Nat) (e : Acc) (core : Option Nat) (bs : List Byte) : Option State :=
  match e.place with
  | .own c | .spad c => some (spadWrite s p c e.off bs)
  | .cstore cl l => some (storeWrite s p cl l e.off bs)
  | .home _ => (setDirty s p e.off e.leaf).map fun s =>
    if e.byHost then physWriteIn (recallLine s p (e.off / 128)) e.leaf.pa bs
    else cohWrite s p core e.off e.leaf.pa e.leaf.pt bs
  | .ncCopy cl => (setDirty s p e.off e.leaf).map fun s => ncWrite (ncFill s p cl e.off e.leaf.pa) p cl e.off bs
  | .queue _ => some s

/-- The value of loaded bytes (R128). -/
def loadValue (signed : Bool) (bs : List Byte) : Word :=
  if signed then sext64 (8 * bs.length) (leNat bs) else BitVec.ofNat 64 (leNat bs)

/-- The line of memory that an access reads has an uncorrectable error (R323): its physical line number. -/
def errorLine (s : State) (p : Nat) (e : Acc) (core : Option Nat) : Bool :=
  match e.place with
  | .home _ | .ncCopy _ => s.memErrors.contains (e.leaf.pa / 128) &&
      (dirtyCopy (s.part p).live (e.off / 128)).isNone && (ownCopy s p core (e.off / 128)).isNone
  | _ => false
/-- A watchpoint matches (R389, R398): the range of bytes and the kind of access. -/
def watchMatch (w : Word) (va len : Nat) (wr rd : Bool) : Bool :=
  let v := w.toNat
  let lg := v / 2 ^ 55 % 64
  let base := v % 2 ^ 55
  let kind := v / 2 ^ 61 % 4
  v / 2 ^ 63 == 1 && va < base + 2 ^ lg && base < va + len &&
  (match kind with
   | 0 => wr
   | 1 => rd
   | _ => wr || rd)
def watched (f : VF) (va len : Nat) (wr rd : Bool) : Bool := f.wp.any fun e => watchMatch e.2 va len wr rd

/-- A performed access that a watchpoint matches is to be reported (R398): to its slot, or, where an engine, the host or a
chip other than the line's home makes it, as a patina record of kind 2. The task and core of a host's record are free values. -/
def noteMatch (s : State) (p : Nat) (e : Acc) (home va len : Nat) (wr rd : Bool) : State :=
  if !watched (s.vf (s.part p).vf) va len wr rd then s
  else if e.byHost then
    match s.hostReqs.find? fun q => q.id == e.act && !q.noted with
    | none => s
    | some q =>
      let w := Config.freeWho s.fresh
      { s with
        fresh := s.fresh + 1,
        hostReqs := s.hostReqs.map fun r => if r.id = q.id then { r with noted := true } else r,
        watch := s.watch ++ [{ at_ := ⟨p, 0, 4 + (w.extractLsb' 96 4).toNat⟩, addr := BitVec.ofNat 64 q.va,
                               note := some (w.extractLsb' 0 64, (w.extractLsb' 64 32).toNat) }] }
  else
    { s with watch := s.watch ++ [{ at_ := ⟨p, e.core, e.slot⟩, act := e.act, addr := BitVec.ofNat 64 va,
                                    note := match e.eng with
                                      | some g => some (((getQ (s.coreAt p e.core) g).run.getD {}).cmd.task, e.core)
                                      | none => if chipOf e.core = home / 8192 then none
                                                else some ((s.slotAt p e.core e.slot).taskId, e.core) }] }
/-- A transit line that a copy of the cluster reads moves to the eviction head (R233). -/
def touchTransit (s : State) (p : Nat) (e : Acc) : State :=
  match e.eng, e.place with
  | some .copy, .home _ | some .copy, .ncCopy _ => l2Read s p (clusterOf e.core) (e.off / 128)
  | _, _ => s
/-- What a performed access leaves for the watchpoints of its slice. -/
def noteWatch (s : State) (p : Nat) (e : Acc) : State :=
  let rd := e.kind.isLoad || e.kind.fetching
  let wr := !e.kind.isLoad
  match e.place with
  | .home cl | .ncCopy cl => noteMatch s p e cl e.off e.kind.bytes wr rd
  | _ => s

/-! ### Messages at their queue (R155, R172, R26) -/

/-- Messages a queue holds at most. -/
def queueDepth (q : Nat) : Nat := if q = 15 then 16 else 8
/-- The member of a group that a core is, with its rank. -/
def memberOf (g : Group) (core : Nat) : Option (Nat × Member) :=
  (g.members.zipIdx.find? fun e => e.1.core == core).map fun e => (e.2, e.1)
/-- A timed queue's check of a message (R172). -/
def timedOk (s : State) (p core q : Nat) (m : Msg) : Bool :=
  match mfind? (s.coreAt p core).binds q with
  | some b =>
    if b.timed then
      match mfind? (s.part p).live.groups b.grp with
      | some g => (memberOf g m.sender).any (fun e => e.2.joined && !e.2.left) && m.senderVt.toNat + g.lambda.toNat ≤ (m.pay.getD 0 0).toNat
      | none => false
    else true
  | none => true

/-- The line that a range operation visits next, and its last (R297). -/
def Acc.rangeAt (e : Acc) : Nat := e.off / 128 + e.prog
def Acc.rangeEnd (e : Acc) : Nat := (e.off + e.kind.bytes - 1) / 128
/-- The leaf of a line of a range, as the acceptance of its page found it, with the page's window flag (R133). -/
def rangeLeaf (s : State) (p : Nat) (e : Acc) (line : Nat) : Leaf × Bool :=
  let l := e.pages.getD (line / 512 - e.off / 65536) ({}, false)
  (migLeaf s p (128 * line) { l.1 with pa := l.1.pa + 128 * line % 65536 }, l.2)
/-- The place of a line of a range (R285, R297). -/
def rangePlace (s : State) (p : Nat) (e : Acc) (line : Nat) : Place :=
  virtualPlace s p e.core (128 * line) (rangeLeaf s p e line).2
/-- A line's action follows what its cluster has posted before the operation to the line's place (R284, R285, R297). -/
def lineBehind (s : State) (p : Nat) (e : Acc) (line : Nat) : Bool :=
  let l := (s.part p).live
  let pl := rangePlace s p e line
  (l.chans.any fun f => e.after.contains f.2.2.id && f.2.2.place == pl) ||
  (l.delivered.any fun f => e.after.contains f.id && f.place == pl && f.off < 128 * line + 128 && 128 * line < f.off + f.kind.bytes &&
    (match f.kind with
     | .range _ _ => false
     | _ => true))
/-- A range operation at one line (R133, R297): its action at the line's place; none while it must wait there. -/
def rangeLine (s : State) (p : Nat) (e : Acc) (op : RangeOp) (line : Nat) : Option State :=
  let va := 128 * line
  let cl := clusterOf e.core
  let home := homeOf (s.part p) va
  let l := (rangeLeaf s p e line).1
  if lineBehind s p e line then none
  else if (rangeLeaf s p e line).2 then
    match op with
    | .flush => some (dropWays (ncDrop (ncClean s p cl va l.pa) p cl va) p line (· == cl))
    | .clean => some (ncClean s p cl va l.pa)
    | .inv => some (dropWays (ncDrop s p cl va) p line (· == cl))
    | .zero => (setDirty s p va l).map fun s =>
        noteMatch (ncWrite (ncFill s p cl va l.pa) p cl va (List.replicate 128 0)) p e cl va 128 true false
  else if lineBusy s p line || lineLocked s p line then none
  else
    match op with
    | .flush | .inv => some (dropWays (recallLine s p line) p line fun _ => true)
    | .clean => some (cleanLine s p line)
    | .zero => (setDirty s p va l).map fun s =>
        noteMatch (cohWrite s p none va l.pa l.pt (List.replicate 128 0)) p e home va 128 true false

/-- A key's home takes an instar (R175, R287): D, the bytes, and the stamp in the place that the IST took; none while the dirty
log is full. -/
def publish (s : State) (p : Nat) (e : Acc) (key i : Nat) (τ : Word) (bs : List Byte) : Option State :=
  if !((mget ({} : Key) (s.part p).live.keys key).coming.contains (i, τ)) then some s
  else
    (setDirty s p e.off e.leaf).map fun s =>
      let s := cohWrite s p none e.off e.leaf.pa e.leaf.pt (bs.take 128)
      let m := migLeaf s p (e.off + 128) { e.leaf with pa := e.leaf.pa + 128 }
      let s := if bs.length ≤ 128 then s else cohWrite s p none (e.off + 128) m.pa e.leaf.pt (bs.drop 128)
      updLive s p fun x => { x with
        keys := mupd x.keys key fun k => { k with
          stamps := (k.stamps.filter fun m => m.1 != i) ++ [(i, τ)], coming := k.coming.erase (i, τ) } }

/-- A PLACE PERFORMS AN ACCESS (R287): the state after it with the response, or none while it must wait there: for the line's
copy, transaction or lock (R357, R367), a BAR.WAIT whose phase has not flipped, a full queue (R26), a full dirty log (R355),
an error that rollback repairs (R323), the other unit of a pair that a copy moves (R216). A range operation does its next
line. `prog` = 2 marks a message that its timed queue refused as it arrived (R172). -/
def performAcc (s : State) (p : Nat) (e : Acc) : Option (State × Answer) :=
  let core := e.caches
  if errorLine s p e core && (e.kind.isLoad || e.kind.isAmo) then
    if logged s p (e.leaf.pa / 128) then none else some (s, { error := true })
  else if (match e.kind with | .range _ _ => false | _ => homeWaits s p e core) || splitsPair s p e.place e.off e.kind.bytes then none
  else
    match e.kind with
    | .load n sg =>
      let r := readAcc s p e core n
      some (noteWatch (touchTransit r.1 p e) p e, { v := loadValue sg r.2 })
    | .loadPair =>
      let r := readAcc s p e core 16
      some (noteWatch r.1 p e, { v := loadValue false (r.2.take 8), v2 := loadValue false (r.2.drop 8) })
    | .join =>
      let r := readAcc s p e core 8
      some (r.1, { v := loadValue false r.2 })
    | .store bs => (writeAcc s p e core bs).map fun t => (noteWatch t p e, {})
    | .amo op w32 fetch b c =>
      let n := e.kind.bytes
      let w := 8 * n
      let r := readAcc s p e core n
      let old := leNat r.2
      let new := amoNew op w old (b.toNat % 2 ^ w) (c.toNat % 2 ^ w)
      (writeAcc r.1 p e core (leBytes n new.1)).map fun t =>
        let t := noteWatch t p e
        if fetch then
          (t, { v := if op.isFloat then BitVec.ofNat 64 old else if w32 then sext64 32 old else BitVec.ofNat 64 old,
                flags := new.2 })
        else (updLive t p fun x => { x with aflags := x.aflags ||| aflagsOf new.2 }, {})
    | .bar op b =>
      match barOp op (Bar.read (leNat (readAcc s p e core 8).2)) b with
      | .done nb v => (writeAcc s p e core (leBytes 8 nb.word)).map fun t => (t, { v := v })
      | .trap => some (s, { trap := some (0x02, e.ea) })
      | .wait => none
    | .range op _ => (rangeLine s p e op e.rangeAt).map fun t => (t, {})
    | .send q m _ =>
      match e.place with
      | .queue c =>
        if e.prog = 2 then some (s, { trap := some (0x15, 0) })
        else if (mget [] (s.coreAt p c).inq q).length < queueDepth q then
          some (updCore s p c fun k => { k with inq := mput k.inq q (mget [] k.inq q ++ [m]) }, {})
        else none
      | _ => some (s, {})
    | .spawn m =>
      match e.place with
      | .queue c =>
        match idleSlot (s.coreAt p c) with
        | some n => some (startActivation s ⟨p, c, n⟩ m.pc m.task m.pay none none none m.know, { v := 1 })
        | none => some (s, { v := 0 })
      | _ => some (s, {})
    | .ist key i τ bs => (publish s p e key i τ bs).map fun t => (noteWatch t p e, {})
    | .fork _ _ =>
      let old := BitVec.ofNat 64 (leNat (readAcc s p e core 8).2)
      (writeAcc s p e core (leBytes 8 (old + 1).toNat)).map fun t => (t, { v := 1 })
    | .wake =>
      match e.place with
      | .queue c => some (updCore s p c fun k => { k with
          tpWake := true, wakeKnow := learn k.wakeKnow (visible e.know c) }, {})
      | _ => some (s, {})

/-! ### What performed accesses carry from releases to acquires (R292, R308, R313) -/

/-- The bytes that an access touches; the own scratchpad is one place with the core's agent. -/
def Acc.span (e : Acc) : List (Place × Nat) :=
  (List.range e.kind.bytes).map fun i => ((match e.place with
    | .own c => .spad c
    | pl => pl), e.off + i)
/-- What the stores that an access finds there release. -/
def viewAt (vs : List ((Place × Nat) × View)) (e : Acc) : View :=
  (((vs.filter fun v => e.span.contains v.1).map (·.2)).flatten).eraseDups
/-- What later accesses find there: a store's release replaces what stood there; an atomic, an arrival and a FORK add theirs. -/
def viewsAfter (vs : List ((Place × Nat) × View)) (e : Acc) : List ((Place × Nat) × View) :=
  let mine : List ((Place × Nat) × View) := if e.know.isEmpty then [] else e.span.map fun k => (k, e.know)
  match e.kind with
  | .store _ | .ist _ _ _ _ => mine ++ vs.filter fun v => !e.span.contains v.1
  | .amo _ _ _ _ _ | .fork _ _ => mine ++ vs
  | .bar op _ => if op = .wait || op = .test then vs else mine ++ vs
  | .range .zero _ => vs.filter fun v => !(v.1.2 / 128 == e.rangeAt && (match v.1.1 with
    | .home _ => true
    | .ncCopy cl => cl == clusterOf e.core
    | _ => false))
  | _ => vs
/-- A place performs an access, and its response carries what it found released there. -/
def performed (s : State) (p : Nat) (e : Acc) : Option (State × Acc × Answer) :=
  (performAcc s p e).map fun r =>
    if r.2.error || r.2.trap.isSome then (r.1, e, r.2)
    else (updLive r.1 p fun x => { x with views := viewsAfter x.views e },
          { e with know := viewAt (s.part p).live.views e }, r.2)

/-! ### Return -/

/-- The response of an access that acquires (R289, R292, R166): an acquiring order, a BAR.WAIT, a BAR.TEST that found its phase, a
JOIN that found zero. -/
def Acc.acquires (e : Acc) (r : Answer) : Bool :=
  match e.kind with
  | .load _ _ | .loadPair | .amo _ _ true _ _ => e.ord == .acq || e.ord == .ar || e.ord == .sc
  | .bar .wait _ => true
  | .bar .test _ => r.v == 1
  | .join => r.v == 0
  | _ => false
/-- What a slot learns from a response: an acquire orders it before the slot's later instructions, another load leaves that to an
acquiring FENCE (R140, R292). -/
def heed (x : Slot) (e : Acc) (r : Answer) : Slot :=
  if e.acquires r then { x with seen := learn x.seen (visible e.know e.core) }
  else if e.kind.isLoad || e.kind.fetching then { x with told := learn x.told (visible e.know e.core) }
  else x
/-- A command that moves memory takes a response (R287, R294): bytes at their positions, the encoded bytes of a compressed
source in order, a number of a batch, or the error that ends a copy. -/
def engineTake (r : Running) (e : Acc) (a : Answer) : Running :=
  if a.error then { r with err := r.err.or (some { sub := 0xFE, bad := e.ea }) }
  else
    match e.kind with
    | .load n _ =>
      let bs := leBytes n a.v.toNat
      let got : Bytes := bs.zipIdx.foldl (fun m b => mput m (e.piece + b.2) b.1) r.got
      (match r.cmd.op with
       | .luf _ _ _ _ | .lus _ _ _ _ => { r with vals := r.vals ++ [a.v.toNat] }
       | .copy x => if x.zs then { r with enc := r.enc ++ bs } else { r with got := got }
       | _ => { r with got := got })
    | _ => r
/-- The response of an engine's access reaches its command; `act` holds that command's number. -/
def engineReceive (s : State) (p : Nat) (g : Engine) (e : Acc) (a : Answer) : State :=
  updCore s p e.core fun k =>
    let q := getQ k g
    setQ k g { q with run := q.run.map fun r => if r.cmd.num = e.act then engineTake r e a else r }

/-- THE RESPONSE RETURNS TO THE SLOT (R287, R125, R137): the access leaves its queue; a response of an earlier activation
writes nothing; an instruction that waited for it completes, or traps. A JOIN whose counter is not zero stays at it (R166). -/
def returnAcc (s : State) (p : Nat) (e : Acc) (r : Answer) : State :=
  let a : At := ⟨p, e.core, e.slot⟩
  let live := (s.slotAt p e.core e.slot).act == e.act
  let s := match e.kind with
    | .fork _ t => updCore s p e.core fun k => { k with deque := k.deque ++ [t] }
    | _ => s
  let s := updSlot s p e.core e.slot fun x => { x with
    lq := x.lq.filter (·.acc.id != e.id), unacked := x.unacked.filter (·.id != e.id) }
  if !live then (if r.error then { s with reliability := s.reliability + 1 } else s)
  else if r.error then updSlot s p e.core e.slot fun x => { x with report := some (0x3F, e.ea) }
  else
    match r.trap with
    | some (c, bad) => takeTrap (updSlot s p e.core e.slot unpop) a { cause := c, bad := bad }
    | none =>
      let s := match e.kind with
        | .send _ _ true => updSlot s p e.core e.slot fun x => { x with route := none }
        | _ => s
      let s := updSlot s p e.core e.slot fun x => writeDst (writeDst (orFlags (heed x e r) r.flags) e.dst r.v) e.dst2 r.v2
      if e.kind = .join && r.v != 0 then updSlot s p e.core e.slot fun x => { unpop x with joinRead := some r.v, wait := .phase }
      else if e.kind.blocking then advanceAt s a else s

/-- A response may write its destinations: a queue register takes results in the order of acceptance (R125). -/
def returnReady (x : Slot) (e : Acc) : Bool :=
  [e.dst, e.dst2].all fun d => match d with
    | .queue n => !(x.lq.any fun f => f.acc.id < e.id && f.acc.act == e.act && (f.acc.dst == .queue n || f.acc.dst2 == .queue n))
    | _ => true
/-- Responses that have come and waited for an older result of their queue register now write theirs. -/
def flushHeld (p c n : Nat) : Nat → State → State
  | 0, s => s
  | k + 1, s =>
    let x := s.slotAt p c n
    match x.lq.find? fun f => f.held.isSome && returnReady x f.acc with
    | some f => flushHeld p c n k (returnAcc s p f.acc (f.held.getD {}))
    | none => s
/-- A response reaches the host (R285, R343): after the last one a read is answered with its bytes, or with completer abort
where memory had an error that cannot be repaired, and a posted write is performed. -/
def hostReceive (s : State) (e : Acc) (a : Answer) : State :=
  match s.hostReqs.find? (·.id == e.act) with
  | none => s
  | some q =>
    let bs := if e.kind.isLoad && !a.error then leBytes e.kind.bytes a.v.toNat else []
    let q : HostReq := { q with left := q.left - 1, got := bs.zipIdx.foldl (fun m b => mput m (e.piece + b.2) b.1) q.got }
    if q.left ≠ 0 then { s with hostReqs := s.hostReqs.map fun r => if r.id = q.id then q else r }
    else
      let s := { s with hostReqs := s.hostReqs.filter (·.id != q.id), posted := s.posted.filter fun w => w.2 != .sent q.id }
      if q.read then { s with hostResp := if q.got.length = q.len then some (q.got.map (·.2)) else none } else s

/-- A response reaches its slot: it writes its destinations, or waits in its load-queue entry for an older one; or the engine
or the host that made the access. -/
def receiveAcc (s : State) (p : Nat) (e : Acc) (r : Answer) : State :=
  if e.byHost then hostReceive s e r
  else
  match e.eng with
  | some g => engineReceive s p g e r
  | none =>
  if returnReady (s.slotAt p e.core e.slot) e then flushHeld p e.core e.slot 8 (returnAcc s p e r)
  else updSlot s p e.core e.slot fun x => { x with
    lq := x.lq.map fun f => if f.acc.id = e.id then { f with held := some r } else f }

/-! ### Posting, delivery -/

/-- Channel class of an access (R284). -/
def AccKind.chan (k : AccKind) : ChClass := if k.isMsg then .message else .request

/-- A posted access enters its channel; the own scratchpad performs it in the same step, and a wait there stands at the
place (R285, R287). -/
def sendOut (s : State) (p : Nat) (e : Acc) : State :=
  if e.own then
    match performed s p e with
    | some (s, f, r) => receiveAcc s p f r
    | none => updLive s p fun x => { x with delivered := x.delivered ++ [e] }
  else updLive s p fun x => { x with chans := x.chans ++ [(clusterOf e.core, e.kind.chan, e)] }

/-- The oldest unposted load of a slot may be posted (R287). -/
def loadToPost (x : Slot) : Option Acc :=
  match x.lq.find? fun e => !e.posted with
  | some e =>
    if e.acc.kind.isLoad && !(x.sb.any fun f => f.id < e.acc.id && f.overlaps e.acc) && orderedToPost x e.acc &&
       (!e.acc.own || returnReady x e.acc) then some e.acc else none
  | none => none

/-- The store-buffer head may be posted (R287): every older load is posted. A fetching atomic is also its slot's oldest
unposted load. -/
def storeToPost (x : Slot) : Option Acc :=
  match x.sb with
  | e :: _ =>
    if !(x.lq.any fun f => f.acc.id < e.id && !f.posted) && orderedToPost x e && (!e.own || returnReady x e) then some e
    else none
  | [] => none

/-- What the local path takes now: nothing that would come between the units of a pair that a copy moves (R216). -/
def pathTakes (s : State) (p : Nat) (e : Acc) : Bool := !(e.own && splitsPair s p e.place e.off e.kind.bytes)
def loadNext (s : State) (a : At) : Option Acc := (loadToPost (s.slotAt a.p a.c a.n)).filter (pathTakes s a.p)
def storeNext (s : State) (a : At) : Option Acc := (storeToPost (s.slotAt a.p a.c a.n)).filter (pathTakes s a.p)
/-- POST_A_LOAD by a slot. -/
def postLoad (s : State) (a : At) : State :=
  match loadNext s a with
  | some e => sendOut (updSlot s a.p a.c a.n fun x => { x with
      lq := x.lq.map fun f => if f.acc.id = e.id then { f with posted := true } else f }) a.p e
  | none => s
/-- POST_A_STORE_BUFFER_ENTRY by a slot. -/
def postStore (s : State) (a : At) : State :=
  match storeNext s a with
  | some e => sendOut (updSlot s a.p a.c a.n fun x => { x with
      sb := x.sb.tail,
      unacked := x.unacked ++ [e],
      lq := x.lq.map fun f => if f.acc.id = e.id then { f with posted := true } else f }) a.p e
  | none => s

/-- Two accesses share a channel (R284): source cluster, class and place. -/
def sameChan (e f : Nat × ChClass × Acc) : Bool :=
  e.1 == f.1 && e.2.1 == f.2.1 && e.2.2.place == f.2.2.place &&
  (match e.2.2.kind, f.2.2.kind with
   | .send q _ _, .send r _ _ => q == r
   | _, _ => true)
/-- A message as its queue finds it when it arrives (R172): 1, or 2 where a timed queue refuses it. -/
def arrivesAs (s : State) (p : Nat) (e : Acc) : Nat :=
  match e.kind, e.place with
  | .send q m _, .queue c => if timedOk s p c q m then 1 else 2
  | _, _ => e.prog
/-- The requests of its cluster that were posted before a range operation and are still in their channels (R284, R297). -/
def postedBefore (ch : List (Nat × ChClass × Acc)) (e : Nat × ChClass × Acc) : List Nat :=
  match e.2.2.kind with
  | .range _ _ => (ch.filter fun f => f.1 == e.1 && f.2.1 == .request).map (·.2.2.id)
  | _ => []
/-- DELIVER: the i-th access in flight, when it heads its channel. -/
def deliverAt (s : State) (p i : Nat) : State :=
  let ch := (s.part p).live.chans
  match ch[i]? with
  | some e =>
    if (ch.take i).any (sameChan e) then s
    else updLive s p fun x => { x with
      chans := x.chans.eraseIdx i,
      delivered := x.delivered ++ [{ e.2.2 with prog := arrivesAs s p e.2.2, after := postedBefore (ch.take i) e }] }
  | none => s

/-- An earlier delivered access to a common byte, or to the same queue, goes first; at a locked line a load follows every
store and atomic that waits there (R357). A waiting BAR.WAIT does not hold others back; nor does an LDP or STP that a copy's pair
holds hold that copy's access (R216). A range operation takes its place in the order line by line (R297): it holds nothing back,
and at each line only what was delivered before it to that line goes first. -/
def goesFirst (s : State) (p : Nat) (e f : Acc) : Bool :=
  let locked : Bool := match e.place with
    | .home _ => f.place == e.place && f.off / 128 ≤ e.off / 128 && e.off / 128 ≤ (f.off + f.kind.bytes - 1) / 128 && !f.kind.isLoad &&
        lineLocked s p (e.off / 128)
    | _ => false
  match f.kind, e.kind with
  | .bar .wait _, _ => false
  | .range _ _, _ => false
  | _, .range _ _ => f.place == rangePlace s p e e.rangeAt && f.off < 128 * e.rangeAt + 128 && 128 * e.rangeAt < f.off + f.kind.bytes
  | .send q _ _, .send r _ _ => e.place == f.place && q == r
  | _, _ => (e.overlaps f && !(e.eng == some .copy && splitsPair s p f.place f.off f.kind.bytes)) || locked
/-- The D bit that an access must set, and the dirty log has no room (R355). -/
def findsFull (s : State) (p : Nat) (e : Acc) : Bool :=
  let full (va : Nat) (l : Leaf) : Bool := (setDirty s p va l).isNone
  match e.kind, e.place with
  | .store _, .home _ | .store _, .ncCopy _ | .amo _ _ _ _ _, .home _ | .ist _ _ _ _, .home _ => full e.off e.leaf
  | .range .zero _, _ => full (128 * e.rangeAt) (rangeLeaf s p e e.rangeAt).1
  | _, _ => false
/-- PERFORM: a place performs the i-th delivered access, and the response is on its way; at the own scratchpad it returns at
once. A range operation answers after its last line. One that finds the dirty log full waits, and FULL is set (R355). -/
def performAt (s : State) (p i : Nat) : State :=
  let d := (s.part p).live.delivered
  match d[i]? with
  | some e =>
    if (d.take i).any (goesFirst s p e) then s
    else
      match performed s p e with
      | none => if findsFull s p e then dirtyFull s (s.part p).vf else s
      | some (t, f, r) =>
        let more : Bool := match e.kind with
          | .range _ _ => e.rangeAt < e.rangeEnd
          | _ => false
        if more then updLive t p fun x => { x with delivered := x.delivered.set i { e with prog := e.prog + 1 } }
        else
          let t := updLive t p fun x => { x with delivered := x.delivered.eraseIdx i }
          if e.own then receiveAcc t p f r else updLive t p fun x => { x with resps := x.resps ++ [(f, r)] }
  | none => s

/-- Two responses share a channel (R284): from one place to one cluster. -/
def sameResp (e f : Acc × Answer) : Bool := clusterOf e.1.core == clusterOf f.1.core && e.1.place == f.1.place
/-- RETURN: the i-th response, when it heads its channel. -/
def returnAt (s : State) (p i : Nat) : State :=
  let q := (s.part p).live.resps
  match q[i]? with
  | some e =>
    if (q.take i).any (sameResp e) then s
    else receiveAcc (updLive s p fun x => { x with resps := x.resps.eraseIdx i }) p e.1 e.2
  | none => s

/-! ### Forward -/

/-- The byte at an offset that the youngest older plain store of the slot's store buffer writes. -/
def forwardByte (x : Slot) (e : Acc) (i : Nat) : Option Byte :=
  (x.sb.filter fun f => f.id < e.id).foldl (fun r f =>
    match f.kind with
    | .store bs => if f.place == e.place && f.off ≤ e.off + i && e.off + i < f.off + bs.length
                   then bs[e.off + i - f.off]? else r
    | _ => r) none
/-- A load that may be forwarded (R287): unposted, .rlx or .acq, and every byte from an older plain store, with no older
entry of another kind on it. -/
def forwardValue (x : Slot) (id : Nat) : Option (Acc × List Byte) :=
  match x.lq.find? fun f => f.acc.id == id with
  | some f =>
    let e := f.acc
    let plain := !(x.sb.any fun g => g.id < e.id && g.overlaps e && (match g.kind with | .store _ => false | _ => true))
    let bs := (List.range e.kind.bytes).map (forwardByte x e)
    if !f.posted && e.kind.isLoad && e.kind != .join && (e.ord == .rlx || e.ord == .acq) && plain && bs.all (·.isSome) && returnReady x e
    then some (e, bs.map fun b => b.getD 0) else none
  | none => none
/-- FORWARD. -/
def forwardAt (s : State) (a : At) (id : Nat) : State :=
  match forwardValue (s.slotAt a.p a.c a.n) id with
  | some (e, bs) =>
    match e.kind with
    | .load _ sg => receiveAcc s a.p e { v := loadValue sg bs }
    | _ => receiveAcc s a.p e { v := loadValue false (bs.take 8), v2 := loadValue false (bs.drop 8) }
  | none => s

end Sys2Proof.Machine
end

