-- ==== Sys2Proof/Machine/Scalar.lean ====
section
/-! DEFINITION. Integer, move and predicate instructions (spec/04_isa_scalar.md R94 to R106). -/

namespace Sys2Proof.Machine

abbrev Out := Host.Outcome State Fault Refusal

/-- An operation at width w (R96). -/
abbrev IntOp := (w : Nat) → BitVec w → BitVec w → BitVec w

/-- The 64-bit form, or the 32-bit form of R97: bits [31:0] of each operand, the result sign-extended. -/
def alu (op : IntOp) (w32 : Bool) (a b : Word) : Word :=
  if w32 then (op 32 (a.setWidth 32) (b.setWidth 32)).signExtend 64 else op 64 a b

/-! #### The operations of R96 (and R50) -/

def opAdd : IntOp := fun _ a b => a + b
def opSub : IntOp := fun _ a b => a - b
def opMul : IntOp := fun _ a b => a * b
/-- Bits [2w-1:w] of the exact signed product. -/
def opMulhi : IntOp := fun w a b => BitVec.ofInt w ((a.toInt * b.toInt) / (2 ^ w : Nat))
/-- Bits [2w-1:w] of the exact unsigned product. -/
def opMulhn : IntOp := fun w a b => BitVec.ofNat w (a.toNat * b.toNat / 2 ^ w)
/-- Truncated signed quotient; all ones by zero; the most negative value by -1 gives itself (R50). -/
def opDiv : IntOp := fun w a b => if b = 0 then BitVec.allOnes w else BitVec.ofInt w (a.toInt.tdiv b.toInt)
def opDivn : IntOp := fun w a b => if b = 0 then BitVec.allOnes w else BitVec.ofNat w (a.toNat / b.toNat)
/-- The remainder has the dividend's sign; by zero it is the dividend (R50). -/
def opRem : IntOp := fun w a b => if b = 0 then a else BitVec.ofInt w (a.toInt.tmod b.toInt)
def opRemn : IntOp := fun w a b => if b = 0 then a else BitVec.ofNat w (a.toNat % b.toNat)
def opAnd : IntOp := fun _ a b => a &&& b
def opOr : IntOp := fun _ a b => a ||| b
def opXor : IntOp := fun _ a b => a ^^^ b
def opAndn : IntOp := fun _ a b => a &&& ~~~b
def opOrn : IntOp := fun _ a b => a ||| ~~~b
/-- Shift and rotate amounts are taken modulo w (R50). -/
def opShl : IntOp := fun w a b => a <<< (b.toNat % w)
def opShr : IntOp := fun w a b => a >>> (b.toNat % w)
def opSar : IntOp := fun w a b => a.sshiftRight (b.toNat % w)
def opRol : IntOp := fun w a b => a.rotateLeft (b.toNat % w)
def opRor : IntOp := fun w a b => a.rotateRight (b.toNat % w)
def opMin : IntOp := fun _ a b => if a.toInt ≤ b.toInt then a else b
def opMinn : IntOp := fun _ a b => if a.toNat ≤ b.toNat then a else b
def opMax : IntOp := fun _ a b => if b.toInt ≤ a.toInt then a else b
def opMaxn : IntOp := fun _ a b => if b.toNat ≤ a.toNat then a else b

/-- The register form of R95. -/
def alu3 (op : IntOp) (x : Alu3) (s : State) : Out :=
  issue x.c [x.a, x.b] [x.d] [] s fun v t => .ok (putS t x.d (alu op x.w32 (v 0) (v 1)))
/-- The immediate form of R95; `ext` is the immediate's extension. -/
def aluI (op : IntOp) (ext : BitVec 32 → Word) (x : AluI) (s : State) : Out :=
  issue x.c [x.a] [x.d] [] s fun v t => .ok (putS t x.d (alu op x.w32 (v 0) (ext x.imm)))

/-- ADD, register form (R95, R96). -/
def execAdd (x : Alu3) (s : State) : Out := alu3 opAdd x s
/-- ADD, immediate form; the immediate is sign-extended (R96). -/
def execAddImm (x : AluI) (s : State) : Out := aluI opAdd immS x s
/-- SUB, register form (R95, R96). -/
def execSub (x : Alu3) (s : State) : Out := alu3 opSub x s
/-- SUB, immediate form; the immediate is sign-extended (R96). -/
def execSubImm (x : AluI) (s : State) : Out := aluI opSub immS x s
/-- MUL, register form (R95, R96). -/
def execMul (x : Alu3) (s : State) : Out := alu3 opMul x s
/-- MUL, immediate form; the immediate is sign-extended (R96). -/
def execMulImm (x : AluI) (s : State) : Out := aluI opMul immS x s
/-- MULHI, register form (R95, R96). -/
def execMulhi (x : Alu3) (s : State) : Out := alu3 opMulhi x s
/-- MULHI, immediate form; the immediate is sign-extended (R96). -/
def execMulhiImm (x : AluI) (s : State) : Out := aluI opMulhi immS x s
/-- MULHN, register form (R95, R96). -/
def execMulhn (x : Alu3) (s : State) : Out := alu3 opMulhn x s
/-- MULHN, immediate form; the immediate is zero-extended (R96). -/
def execMulhnImm (x : AluI) (s : State) : Out := aluI opMulhn immZ x s
/-- DIV, register form (R95, R96). -/
def execDiv (x : Alu3) (s : State) : Out := alu3 opDiv x s
/-- DIV, immediate form; the immediate is sign-extended (R96). -/
def execDivImm (x : AluI) (s : State) : Out := aluI opDiv immS x s
/-- DIVN, register form (R95, R96). -/
def execDivn (x : Alu3) (s : State) : Out := alu3 opDivn x s
/-- DIVN, immediate form; the immediate is zero-extended (R96). -/
def execDivnImm (x : AluI) (s : State) : Out := aluI opDivn immZ x s
/-- REM, register form (R95, R96). -/
def execRem (x : Alu3) (s : State) : Out := alu3 opRem x s
/-- REM, immediate form; the immediate is sign-extended (R96). -/
def execRemImm (x : AluI) (s : State) : Out := aluI opRem immS x s
/-- REMN, register form (R95, R96). -/
def execRemn (x : Alu3) (s : State) : Out := alu3 opRemn x s
/-- REMN, immediate form; the immediate is zero-extended (R96). -/
def execRemnImm (x : AluI) (s : State) : Out := aluI opRemn immZ x s
/-- AND, register form (R95, R96). -/
def execAnd (x : Alu3) (s : State) : Out := alu3 opAnd x s
/-- AND, immediate form; the immediate is sign-extended (R96). -/
def execAndImm (x : AluI) (s : State) : Out := aluI opAnd immS x s
/-- OR, register form (R95, R96). -/
def execOr (x : Alu3) (s : State) : Out := alu3 opOr x s
/-- OR, immediate form; the immediate is sign-extended (R96). -/
def execOrImm (x : AluI) (s : State) : Out := aluI opOr immS x s
/-- XOR, register form (R95, R96). -/
def execXor (x : Alu3) (s : State) : Out := alu3 opXor x s
/-- XOR, immediate form; the immediate is sign-extended (R96). -/
def execXorImm (x : AluI) (s : State) : Out := aluI opXor immS x s
/-- ANDN, register form (R95, R96). -/
def execAndn (x : Alu3) (s : State) : Out := alu3 opAndn x s
/-- ANDN, immediate form; the immediate is sign-extended (R96). -/
def execAndnImm (x : AluI) (s : State) : Out := aluI opAndn immS x s
/-- ORN, register form (R95, R96). -/
def execOrn (x : Alu3) (s : State) : Out := alu3 opOrn x s
/-- ORN, immediate form; the immediate is sign-extended (R96). -/
def execOrnImm (x : AluI) (s : State) : Out := aluI opOrn immS x s
/-- SHL, register form (R95, R96). -/
def execShl (x : Alu3) (s : State) : Out := alu3 opShl x s
/-- SHL, immediate form; the immediate is sign-extended (R96). -/
def execShlImm (x : AluI) (s : State) : Out := aluI opShl immS x s
/-- SHR, register form (R95, R96). -/
def execShr (x : Alu3) (s : State) : Out := alu3 opShr x s
/-- SHR, immediate form; the immediate is sign-extended (R96). -/
def execShrImm (x : AluI) (s : State) : Out := aluI opShr immS x s
/-- SAR, register form (R95, R96). -/
def execSar (x : Alu3) (s : State) : Out := alu3 opSar x s
/-- SAR, immediate form; the immediate is sign-extended (R96). -/
def execSarImm (x : AluI) (s : State) : Out := aluI opSar immS x s
/-- ROL, register form (R95, R96). -/
def execRol (x : Alu3) (s : State) : Out := alu3 opRol x s
/-- ROL, immediate form; the immediate is sign-extended (R96). -/
def execRolImm (x : AluI) (s : State) : Out := aluI opRol immS x s
/-- ROR, register form (R95, R96). -/
def execRor (x : Alu3) (s : State) : Out := alu3 opRor x s
/-- ROR, immediate form; the immediate is sign-extended (R96). -/
def execRorImm (x : AluI) (s : State) : Out := aluI opRor immS x s
/-- MIN, register form (R95, R96). -/
def execMin (x : Alu3) (s : State) : Out := alu3 opMin x s
/-- MIN, immediate form; the immediate is sign-extended (R96). -/
def execMinImm (x : AluI) (s : State) : Out := aluI opMin immS x s
/-- MINN, register form (R95, R96). -/
def execMinn (x : Alu3) (s : State) : Out := alu3 opMinn x s
/-- MINN, immediate form; the immediate is zero-extended (R96). -/
def execMinnImm (x : AluI) (s : State) : Out := aluI opMinn immZ x s
/-- MAX, register form (R95, R96). -/
def execMax (x : Alu3) (s : State) : Out := alu3 opMax x s
/-- MAX, immediate form; the immediate is sign-extended (R96). -/
def execMaxImm (x : AluI) (s : State) : Out := aluI opMax immS x s
/-- MAXN, register form (R95, R96). -/
def execMaxn (x : Alu3) (s : State) : Out := alu3 opMaxn x s
/-- MAXN, immediate form; the immediate is zero-extended (R96). -/
def execMaxnImm (x : AluI) (s : State) : Out := aluI opMaxn immZ x s

/-! #### Unary (R98) -/

/-- An operation on one value at width w. -/
abbrev UnOp := (w : Nat) → BitVec w → BitVec w

/-- Leading zero bits of a value of n bits. -/
def clzFrom (v : Nat) : Nat → Nat
  | 0 => 0
  | n + 1 => if v.testBit n then 0 else 1 + clzFrom v n
/-- Trailing zero bits, looking at n bits from bit i upward. -/
def ctzFrom (v i : Nat) : Nat → Nat
  | 0 => 0
  | n + 1 => if v.testBit i then 0 else 1 + ctzFrom v (i + 1) n
/-- One bits among the low n bits. -/
def popFrom (v : Nat) : Nat → Nat
  | 0 => 0
  | n + 1 => (if v.testBit n then 1 else 0) + popFrom v n
/-- The n low bits in reverse order. -/
def revFrom (v : Nat) : Nat → Nat
  | 0 => 0
  | n + 1 => (if v.testBit n then 1 else 0) + 2 * revFrom v n
/-- The n low bytes in reverse order. -/
def swapFrom (v : Nat) (n : Nat) : Nat := leNat (leBytes n v).reverse

def opClz : UnOp := fun w a => BitVec.ofNat w (clzFrom a.toNat w)
def opCtz : UnOp := fun w a => BitVec.ofNat w (ctzFrom a.toNat 0 w)
def opPopc : UnOp := fun w a => BitVec.ofNat w (popFrom a.toNat w)
/-- Bit n of the result is bit w-1-n of the operand. -/
def opBrev : UnOp := fun w a => BitVec.ofNat w (revFrom a.toNat w)
/-- Byte n of the result is byte w/8-1-n of the operand. -/
def opBswap : UnOp := fun w a => BitVec.ofNat w (swapFrom a.toNat (w / 8))
/-- The most negative value gives itself. -/
def opAbs : UnOp := fun _ a => if a.msb then -a else a
def opNeg : UnOp := fun _ a => -a

def alu1 (op : UnOp) (x : Un) (s : State) : Out :=
  issue x.c [x.a] [x.d] [] s fun v t => .ok (putS t x.d (alu (fun w a _ => op w a) x.w32 (v 0) 0))
/-- An instruction whose result is a function of one source. -/
def map1 (f : Word → Word) (x : DA) (s : State) : Out :=
  issue x.c [x.a] [x.d] [] s fun v t => .ok (putS t x.d (f (v 0)))

/-- CLZ (R98). -/
def execClz (x : Un) (s : State) : Out := alu1 opClz x s
/-- CTZ (R98). -/
def execCtz (x : Un) (s : State) : Out := alu1 opCtz x s
/-- POPC (R98). -/
def execPopc (x : Un) (s : State) : Out := alu1 opPopc x s
/-- BREV (R98). -/
def execBrev (x : Un) (s : State) : Out := alu1 opBrev x s
/-- BSWAP (R98). -/
def execBswap (x : Un) (s : State) : Out := alu1 opBswap x s
/-- ABS (R98). -/
def execAbs (x : Un) (s : State) : Out := alu1 opAbs x s
/-- NEG (R98). -/
def execNeg (x : Un) (s : State) : Out := alu1 opNeg x s
/-- SEXT.i8 (R98). -/
def execSextI8 (x : DA) (s : State) : Out := map1 (fun a => (a.setWidth 8).signExtend 64) x s
/-- SEXT.i16 (R98). -/
def execSextI16 (x : DA) (s : State) : Out := map1 (fun a => (a.setWidth 16).signExtend 64) x s
/-- SEXT.i32 (R98). -/
def execSextI32 (x : DA) (s : State) : Out := map1 (fun a => (a.setWidth 32).signExtend 64) x s
/-- ZEXT.n8 (R98). -/
def execZextN8 (x : DA) (s : State) : Out := map1 (fun a => (a.setWidth 8).setWidth 64) x s
/-- ZEXT.n16 (R98). -/
def execZextN16 (x : DA) (s : State) : Out := map1 (fun a => (a.setWidth 16).setWidth 64) x s
/-- ZEXT.n32 (R98). -/
def execZextN32 (x : DA) (s : State) : Out := map1 (fun a => (a.setWidth 32).setWidth 64) x s

/-! #### Moves and addresses (R99, R100) -/

/-- MOV. -/
def execMov (x : DA) (s : State) : Out := map1 (fun a => a) x s
/-- MOVI: the immediate sign-extended. -/
def execMovi (x : MovI) (s : State) : Out := issue x.c [] [x.d] [] s fun _ t => .ok (putS t x.d (immS x.imm))
/-- MOVHI: the immediate above the register's low half. -/
def execMovhi (x : MovHi) (s : State) : Out :=
  issue x.c [.s x.d] [.s x.d] [] s fun v t => .ok (putS t (.s x.d) (x.imm ++ (v 0).setWidth 32))
/-- LEA: no access, no trap. -/
def execLea (x : Lea) (s : State) : Out :=
  issue x.c [x.a, x.b] [x.d] [] s fun v t => .ok (putS t x.d (v 0 + (v 1 <<< x.sh.toNat) + immS x.imm))

/-! #### Predicates (R101 to R104) -/

/-- The conditions of CMP at width w. -/
def icond (c : ICond) {w : Nat} (a b : BitVec w) : Bool :=
  match c with
  | .eq => a == b
  | .ne => a != b
  | .lt => a.toInt < b.toInt
  | .le => a.toInt ≤ b.toInt
  | .gt => b.toInt < a.toInt
  | .ge => b.toInt ≤ a.toInt
  | .ltn => a.toNat < b.toNat
  | .len => a.toNat ≤ b.toNat
  | .gtn => b.toNat < a.toNat
  | .gen => b.toNat ≤ a.toNat
/-- The comparison at the instruction's width. -/
def cmpAt (w32 : Bool) (c : ICond) (a b : Word) : Bool :=
  if w32 then icond c (a.setWidth 32) (b.setWidth 32) else icond c a b
/-- The immediate of CMP is zero-extended for the unsigned orders (R101). -/
def extCond (c : ICond) (imm : BitVec 32) : Word :=
  match c with
  | .eq | .ne | .lt | .le | .gt | .ge => immS imm
  | .ltn | .len | .gtn | .gen => immZ imm

/-- CMP, register form. -/
def execCmp (x : CmpR) (s : State) : Out :=
  issue x.c [x.a, x.b] [] [x.p] s fun v t => .ok (putP t x.p (cmpAt x.w32 x.cond (v 0) (v 1)))
/-- CMP, immediate form. -/
def execCmpImm (x : CmpI) (s : State) : Out :=
  issue x.c [x.a] [] [x.p] s fun v t => .ok (putP t x.p (cmpAt x.w32 x.cond (v 0) (extCond x.cond x.imm)))

def pred3 (f : Bool → Bool → Bool) (x : P3) (s : State) : Out :=
  issue x.c [] [] [x.d, x.a, x.b] s fun _ t => .ok (putP t x.d (f (readP t.me x.a) (readP t.me x.b)))
def pred2 (f : Bool → Bool) (x : P2) (s : State) : Out :=
  issue x.c [] [] [x.d, x.a] s fun _ t => .ok (putP t x.d (f (readP t.me x.a)))
/-- PAND (R102). -/
def execPand (x : P3) (s : State) : Out := pred3 (fun a b => a && b) x s
/-- POR. -/
def execPor (x : P3) (s : State) : Out := pred3 (fun a b => a || b) x s
/-- PXOR. -/
def execPxor (x : P3) (s : State) : Out := pred3 (fun a b => a != b) x s
/-- PANDN. -/
def execPandn (x : P3) (s : State) : Out := pred3 (fun a b => a && !b) x s
/-- PNOT. -/
def execPnot (x : P2) (s : State) : Out := pred2 (fun a => !a) x s
/-- PMOV. -/
def execPmov (x : P2) (s : State) : Out := pred2 (fun a => a) x s

/-- p0-p6, all of which PGET and PSET name. -/
def allPreds : List PReg := [0, 1, 2, 3, 4, 5, 6]
/-- PGET (R103): p7 to p0 in bits [7:0]. -/
def execPget (x : D1) (s : State) : Out :=
  issue x.c [] [x.d] allPreds s fun _ t => .ok (putS t x.d ((1#1 ++ t.me.preds).setWidth 64))
/-- PSET (R103): the predicates of the mask take the source's bits. -/
def execPset (x : PSet) (s : State) : Out :=
  issue x.c [x.a] [] allPreds s fun v t => .ok (updMe t fun y => { y with
    preds := (y.preds &&& ~~~x.mask) ||| ((v 0).setWidth 7 &&& x.mask) })
/-- SEL (R104). -/
def execSel (x : Sel) (s : State) : Out :=
  issue x.c [x.a, x.b] [x.d] [x.p] s fun v t => .ok (putS t x.d (if readP t.me x.p then v 0 else v 1))

/-! #### Queue counts and engine guards (R105, R106) -/

/-- QCNT: the entries held, before its own push. It never waits for the queue that it counts; for a full destination queue, or a
destination that awaits a memory response, it waits as every instruction does (R20, R32), and counts no loss of decoupling.
DEDUCED, log entry 67. -/
def execQcnt (x : QCnt) (s : State) : Out :=
  issue x.c [] [x.d] [] s fun _ t => .ok (putS t x.d (BitVec.ofNat 64 (queueOf t.me x.q.toNat).length))
/-- GETE: waits, as a loss of decoupling, until the e-slot is resolved. -/
def execGete (x : GetE) (s : State) : Out :=
  issue x.c [] [] [x.p] s fun _ t =>
    match eguard t.me x.e.toNat with
    | .waiting _ => .wait .guard
    | .known b => .ok (putP t x.p b)

end Sys2Proof.Machine
end

