-- ==== Sys2Proof/Machine/Control.lean ====
section
/-! DEFINITION. Control transfer, windows, special registers, traps, SYNCI (spec/04_isa_scalar.md R113 to R122). -/

namespace Sys2Proof.Machine

/-- The target of BR, CALL and FORK (R87). -/
def relTarget (pc : Word) (off : BitVec 32) : Word := pc + 12 * immS off
/-- An address of code named by an instruction is a multiple of 4 (R87). -/
def aligned4 (a : Word) : Bool := a.toNat % 4 == 0
/-- The trap of a misaligned code address: cause 0x05, with the address (R322, R353 KIND 3). -/
def badTarget (a : Word) : Trap := { cause := 0x05, bad := a, kind := 3 }

/-- Control goes to a target. -/
def jumpTo (t : State) (pc : Word) : State := updMe t fun y => goOn y pc

/-- A slot whose window spills or fills is Blocked until the transfer completes (R43). -/
def windowWait (y : Slot) : Slot := if y.fillTo.isSome then { y with st := .blocked, wait := .window } else y

/-- BR (R113). -/
def execBr (x : Off) (s : State) : Out :=
  issue x.c [] [] [] s fun _ t => .to (jumpTo t (relTarget t.me.pc x.off))
/-- JMP (R114). -/
def execJmp (x : AOff) (s : State) : Out :=
  issue x.c [x.a] [] [] s fun v t =>
    let target := v 0 + immS x.off
    if aligned4 target then .to (jumpTo t target) else .trap (badTarget target)

/-- Entering a function (R41, R115, R166): the slide, then the target. A register that the entry writes waits for its response:
those of the slide, and of a task's entry s[8+F] to s[11+F]. -/
def enterCall (t : State) (target : Word) (join : Option Word) : Res :=
  let x := t.me
  if winBusy x (x.wbase + x.frame - 1) (x.wbase + x.frame + 8) ||
     (join.isSome && winBusy x (x.wbase + x.frame - 8) (x.wbase + x.frame - 4)) then .wait .memory
  else
    match slideCall x (if join.isSome then x.pc else x.pc + 12) join with
    | none => .trap { cause := 0x18 }
    | some y => .to (updMe t fun _ => windowWait (goOn y target))

/-- CALL (R115). -/
def execCall (x : Off) (s : State) : Out :=
  issue x.c [] [] [] s fun _ t => enterCall t (relTarget t.me.pc x.off) none
/-- CALLR (R115): the target is read before the return address is written. -/
def execCallr (x : AOff) (s : State) : Out :=
  issue x.c [x.a] [] [] s fun v t =>
    let target := v 0 + immS x.off
    if aligned4 target then enterCall t target none else .trap (badTarget target)

/-- RET (R42, R116): at depth 0 it ends the activation. -/
def execRet (x : C0) (s : State) : Out :=
  issue x.c [] [] [] s fun _ t =>
    let y := t.me
    if y.frames.isEmpty then .to (endMine t)
    else if awaits y (dstOf y (.s 23)) || winBusy y (y.wbase + 8) (y.wbase + y.frame) then .wait .memory
    else
      let target := readReg y 23
      if aligned4 target then .to (updMe t fun y => windowWait (goOn (slideBack y) target))
      else .trap (badTarget target)

/-- FRAME (R40, R117). -/
def execFrame (x : FrameI) (s : State) : Out :=
  issue x.c [] [] [] s fun _ t =>
    let y := t.me
    let f := x.f.toNat
    if winBusy y (y.wbase + min f y.frame) (y.wbase + max f y.frame) then .wait .memory
    else
      match resizeFrame y f with
      | none => .trap { cause := 0x18 }
      | some z => .to (updMe t fun _ => windowWait (goOn z (z.pc + 12)))

/-! ### Special registers -/

/-- CAPS (R2). -/
def caps (v : Variant) : Word :=
  match v with
  | .w16 => 0x0_1070
  | .s16 => 0x1_1050
  | .w8 => 0x2_0868

/-- A user special register (R15) of a slot; none for an unassigned number. -/
def userRead (s : State) (a : At) (num : Nat) : Option Word :=
  let k := s.coreAt a.p a.c
  let x := s.slotAt a.p a.c a.n
  match num with
  | 0x000 => some (BitVec.ofNat 64 (coreId a.c))
  | 0x001 => some (BitVec.ofNat 64 (chipOf a.c))
  | 0x002 => some (BitVec.ofNat 64 k.teamId)
  | 0x003 => some (BitVec.ofNat 64 k.teamSize)
  | 0x004 => some (BitVec.ofNat 64 k.stage)
  | 0x005 => some (BitVec.ofNat 64 a.n)
  | 0x006 => some x.taskId
  | 0x010 => some (caps s.variant)
  | 0x020 => some (BitVec.ofNat 64 k.mqwgt)
  | 0x021 => some x.lodcnt
  | 0x030 => some x.fstat
  | 0x040 => some k.terms
  | 0x041 => some k.gsteps
  | 0x042 => some k.skips
  | 0x043 => some k.mcmds
  | 0x048 => some x.nolegal
  | _ => none

/-- A write of a user special register (R16, R54): none where it is cause 0x02. -/
def userWrite (s : State) (a : At) (num : Nat) (v : Word) : Option State :=
  let slot (f : Slot → Slot) : Option State := some (updSlot s a.p a.c a.n f)
  let core (f : Core → Core) : Option State := some (updCore s a.p a.c f)
  match num with
  | 0x020 => if 1 ≤ v.toNat && v.toNat ≤ 8 then core fun k => { k with mqwgt := v.toNat } else none
  | 0x021 => slot fun x => { x with lodcnt := v }
  | 0x030 => match fstatWrite v with
    | some w => slot fun x => { x with fstat := w }
    | none => none
  | 0x040 => core fun k => { k with terms := v }
  | 0x041 => core fun k => { k with gsteps := v }
  | 0x042 => core fun k => { k with skips := v }
  | 0x043 => core fun k => { k with mcmds := v }
  | 0x048 => slot fun x => { x with nolegal := v }
  | _ => none

/-- The number checks of MOVS and MOVSW (R16, R118). -/
def movsCause (n num : Nat) : Option Nat :=
  if num < 0x100 then none else if n ≠ 3 && num < 0x300 then some 0x04 else some 0x02

/-- MOVS (R118). -/
def execMovs (x : MovsR) (s : State) : Out :=
  issue x.c [] [x.d] [] s fun _ t =>
    match movsCause t.cur.n x.num.toNat with
    | some c => .trap { cause := c }
    | none => match userRead t t.cur x.num.toNat with
      | some v => .ok (putS t x.d v)
      | none => .trap { cause := 0x02 }
/-- MOVSW (R118, R119). -/
def execMovsw (x : MovsW) (s : State) : Out :=
  issue x.c [x.a] [] [] s fun v t =>
    match movsCause t.cur.n x.num.toNat with
    | some c => .trap { cause := c }
    | none => match userWrite t t.cur x.num.toNat (v 0) with
      | some u => .ok u
      | none => .trap { cause := 0x02 }

/-! ### Traps and SYNCI -/

/-- TRAP (R120). -/
def execTrap (x : Off) (s : State) : Out :=
  issue x.c [] [] [] s fun _ _ => .trap { cause := 0x38, bad := immZ x.off }
/-- BRK (R121). -/
def execBrk (x : Off) (s : State) : Out :=
  issue x.c [] [] [] s fun _ _ => .trap { cause := 0x30, bad := immZ x.off }

/-- A line holds a byte of [start, start + len) modulo 2^64 (R122). -/
def lineInRange (line : Nat) (start len : Word) : Bool :=
  let first : Word := BitVec.ofNat 64 (128 * line)
  len != 0 && ((first - start) < len || (start - first) < 128)

/-- Every store of the slot issued so far has been performed at its place. -/
def storesDone (x : Slot) : Bool := x.sb.isEmpty && x.unacked.isEmpty

/-- SYNCI (R122): after the slot's stores, the octet's instruction cache drops the range. -/
def execSynci (x : AB) (s : State) : Out :=
  issue x.c [x.a, x.b] [] [] s fun v t =>
    if storesDone t.me then
      .ok (updOctet t t.cur.p (octetOf t.cur.c) fun o => { o with
        icache := o.icache.filter fun e => !lineInRange e.1 (v 0) (v 1) })
    else .wait .synci

end Sys2Proof.Machine
end

