-- ==== Sys2Proof/Machine/Memory.lean ====
section
/-! DEFINITION. Memory, atomic, fence and barrier-object instructions (spec/05_isa_memory.md R128 to R143) and the steps of
the ordering machine (spec/11_order.md R287). -/

namespace Sys2Proof.Machine

/-- Bytes of a width, and whether a load of it is signed (R128). -/
def widthOfW : Width → Nat × Bool
  | .i8 => (1, true)
  | .n8 => (1, false)
  | .i16 => (2, true)
  | .n16 => (2, false)
  | .i32 => (4, true)
  | .n32 => (4, false)
  | .d64 => (8, false)

/-- LD (R128). -/
def execLd (x : LdI) (s : State) : Out :=
  issueMem x.c { kind := .load (widthOfW x.width).1 (widthOfW x.width).2, a := x.a, off := x.off, d := x.d, ord := x.ord,
                 scope := x.scope } s
/-- ST (R129). -/
def execSt (x : StI) (s : State) : Out :=
  issueMem x.c { kind := .store [], size := (widthOfW x.width).1, a := x.a, off := x.off, b := x.b, ord := x.ord,
                 scope := x.scope } s
/-- LDP (R130): D takes the low eight bytes, B the high. -/
def execLdp (x : PairI) (s : State) : Out :=
  issueMem x.c { kind := .loadPair, a := x.a, off := x.off, d := x.d, d2 := x.b, ord := x.ord, scope := x.scope } s
/-- STP (R130): A, D and B are read in that order. -/
def execStp (x : PairI) (s : State) : Out :=
  issueMem x.c { kind := .store [], size := 16, a := x.a, off := x.off, d := x.d, b := x.b, ord := x.ord,
                 scope := x.scope } s
/-- PF (R132): a hint; its source pops and nothing a program can read changes. -/
def execPf (x : PfI) (s : State) : Out := issue x.c [x.a] [] [] s fun _ t => .ok t

def rangeOp (op : RangeOp) (x : AB) (s : State) : Out := issueMem x.c { kind := .range op 0, a := x.a, b := x.b } s
/-- CFLUSH (R133). -/
def execCflush (x : AB) (s : State) : Out := rangeOp .flush x s
/-- CCLEAN (R133). -/
def execCclean (x : AB) (s : State) : Out := rangeOp .clean x s
/-- CINV (R133). -/
def execCinv (x : AB) (s : State) : Out := rangeOp .inv x s
/-- CZERO (R133). -/
def execCzero (x : AB) (s : State) : Out := rangeOp .zero x s

/-- A fetching AMO (R135); OP and FN are what the retry latch reports (R320). -/
def amoF (op : AmoOp) (fn : BitVec 8) (x : AmoF) (s : State) : Out :=
  issueMem x.c { kind := .amo op x.w32 true 0 0, a := x.a, off := x.off, b := x.b, d := x.d, ord := x.ord,
                 scope := x.scope, op := 0x28, fn := (if x.w32 then 0x80 else 0) ||| fn } s
/-- A non-fetching AMO (R135). -/
def amoN (op : AmoOp) (fn : BitVec 8) (x : AmoN) (s : State) : Out :=
  issueMem x.c { kind := .amo op x.w32 false 0 0, a := x.a, off := x.off, b := x.b, ord := x.ord, scope := x.scope,
                 op := 0x29, fn := (if x.w32 then 0x80 else 0) ||| fn } s
/-- A fetching FAMO (R136). -/
def famoF (op : AmoOp) (fn : BitVec 8) (x : FamoF) (s : State) : Out :=
  issueMem x.c { kind := .amo op false true 0 0, a := x.a, off := x.off, b := x.b, d := x.d, ord := x.ord,
                 scope := x.scope, op := 0x2A, fn := fn } s
/-- A non-fetching FAMO (R136). -/
def famoN (op : AmoOp) (fn : BitVec 8) (x : FamoN) (s : State) : Out :=
  issueMem x.c { kind := .amo op false false 0 0, a := x.a, off := x.off, b := x.b, ord := x.ord, scope := x.scope,
                 op := 0x2B, fn := fn } s

/-- AMO.ADD, fetching (R135). -/
def execAmoAdd (x : AmoF) (s : State) : Out := amoF .add 0 x s
/-- AMO.AND, fetching (R135). -/
def execAmoAnd (x : AmoF) (s : State) : Out := amoF .and 1 x s
/-- AMO.OR, fetching (R135). -/
def execAmoOr (x : AmoF) (s : State) : Out := amoF .or 2 x s
/-- AMO.XOR, fetching (R135). -/
def execAmoXor (x : AmoF) (s : State) : Out := amoF .xor 3 x s
/-- AMO.MIN, fetching (R135). -/
def execAmoMin (x : AmoF) (s : State) : Out := amoF .min 4 x s
/-- AMO.MINN, fetching (R135). -/
def execAmoMinn (x : AmoF) (s : State) : Out := amoF .minn 5 x s
/-- AMO.MAX, fetching (R135). -/
def execAmoMax (x : AmoF) (s : State) : Out := amoF .max 6 x s
/-- AMO.MAXN, fetching (R135). -/
def execAmoMaxn (x : AmoF) (s : State) : Out := amoF .maxn 7 x s
/-- AMO.SWAP, fetching (R135). -/
def execAmoSwap (x : AmoF) (s : State) : Out := amoF .swap 8 x s
/-- AMO.CAS (R135): the expected value is read from D, which receives the old value. -/
def execAmoCas (x : CasI) (s : State) : Out := amoF .cas 9 ⟨x.c, x.w32, x.ord, x.scope, .s x.d, x.a, x.b, x.off⟩ s
/-- AMO.ADD, non-fetching (R135). -/
def execAmoAddNf (x : AmoN) (s : State) : Out := amoN .add 0 x s
/-- AMO.AND, non-fetching (R135). -/
def execAmoAndNf (x : AmoN) (s : State) : Out := amoN .and 1 x s
/-- AMO.OR, non-fetching (R135). -/
def execAmoOrNf (x : AmoN) (s : State) : Out := amoN .or 2 x s
/-- AMO.XOR, non-fetching (R135). -/
def execAmoXorNf (x : AmoN) (s : State) : Out := amoN .xor 3 x s
/-- AMO.MIN, non-fetching (R135). -/
def execAmoMinNf (x : AmoN) (s : State) : Out := amoN .min 4 x s
/-- AMO.MINN, non-fetching (R135). -/
def execAmoMinnNf (x : AmoN) (s : State) : Out := amoN .minn 5 x s
/-- AMO.MAX, non-fetching (R135). -/
def execAmoMaxNf (x : AmoN) (s : State) : Out := amoN .max 6 x s
/-- AMO.MAXN, non-fetching (R135). -/
def execAmoMaxnNf (x : AmoN) (s : State) : Out := amoN .maxn 7 x s
/-- FAMO faddF32, fetching (R136). -/
def execFamoFaddF32 (x : FamoF) (s : State) : Out := famoF .faddF32 0 x s
/-- FAMO faddF64, fetching (R136). -/
def execFamoFaddF64 (x : FamoF) (s : State) : Out := famoF .faddF64 1 x s
/-- FAMO faddBf16x2, fetching (R136). -/
def execFamoFaddBf16x2 (x : FamoF) (s : State) : Out := famoF .faddBf16x2 2 x s
/-- FAMO fminF32, fetching (R136). -/
def execFamoFminF32 (x : FamoF) (s : State) : Out := famoF .fminF32 3 x s
/-- FAMO fmaxF32, fetching (R136). -/
def execFamoFmaxF32 (x : FamoF) (s : State) : Out := famoF .fmaxF32 4 x s
/-- FAMO faddF32, non-fetching (R136). -/
def execFamoFaddF32Nf (x : FamoN) (s : State) : Out := famoN .faddF32 0 x s
/-- FAMO faddF64, non-fetching (R136). -/
def execFamoFaddF64Nf (x : FamoN) (s : State) : Out := famoN .faddF64 1 x s
/-- FAMO faddBf16x2, non-fetching (R136). -/
def execFamoFaddBf16x2Nf (x : FamoN) (s : State) : Out := famoN .faddBf16x2 2 x s
/-- FAMO fminF32, non-fetching (R136). -/
def execFamoFminF32Nf (x : FamoN) (s : State) : Out := famoN .fminF32 3 x s
/-- FAMO fmaxF32, non-fetching (R136). -/
def execFamoFmaxF32Nf (x : FamoN) (s : State) : Out := famoN .fmaxF32 4 x s

/-- What a FENCE orders (R140, R292, R296): an acquiring one, what the slot's loads have read; a releasing one, what the slot then
knows before its later stores. -/
def fenced (x : Slot) (core : Nat) (o : Ord) (c : Scope) : Slot :=
  let y := if o == .acq || o == .ar || o == .sc then { x with seen := learn x.seen x.told } else x
  if o == .rel || o == .ar || o == .sc then { y with freed := y.freed ++ released y.seen core c } else y
/-- FENCE (R140): the slot does not issue past it until the order and scope hold. -/
def execFence (x : FenceI) (s : State) : Out :=
  issue x.c [] [] [] s fun _ t =>
    if fencePassed t.me x.ord x.scope then .ok (updMe t fun y => fenced y t.cur.c x.ord x.scope) else .wait .memory

/-! ### Barrier objects (R142, R143) -/

/-- BAR.INIT. -/
def execBarInit (x : ABOff) (s : State) : Out :=
  issueMem x.c { kind := .bar .init 0, a := x.a, off := x.off, b := x.b } s
/-- BAR.ARRIVE: a release at .sys. -/
def execBarArrive (x : DAOff) (s : State) : Out :=
  issueMem x.c { kind := .bar .arrive 0, a := x.a, off := x.off, d := x.d, ord := .rel } s
/-- BAR.ARRIVEX: a release at .sys. -/
def execBarArrivex (x : DABOff) (s : State) : Out :=
  issueMem x.c { kind := .bar .arrivex 0, a := x.a, off := x.off, b := x.b, d := x.d, ord := .rel } s
/-- BAR.EXPECT. -/
def execBarExpect (x : ABOff) (s : State) : Out :=
  issueMem x.c { kind := .bar .expect 0, a := x.a, off := x.off, b := x.b } s
/-- BAR.WAIT: blocks until the phase differs from the token. -/
def execBarWait (x : ABOff) (s : State) : Out :=
  issueMem x.c { kind := .bar .wait 0, a := x.a, off := x.off, b := x.b } s
/-- BAR.TEST. -/
def execBarTest (x : PABOff) (s : State) : Out :=
  issueMem x.c { kind := .bar .test 0, a := x.a, off := x.off, b := x.b, dp := some x.p } s

/-! ### Steps of the ordering machine -/

/-- The partition is on its cores: it exists, is scheduled and not stopped, and the compute clocks run. -/
def alive (s : State) (p : Nat) : Bool :=
  match mfind? s.parts p with
  | some x => x.scheduled && !x.stopped && !s.halted
  | none => false
/-- The cocoon with number n has committed. -/
def committed (x : Part) (n : Nat) : Bool := (x.seq - BitVec.ofNat 32 n).toNat < 2 ^ 31
/-- The closing cut of the partition's quantum is recorded: the quantum ends with it (R383). -/
def quantumOver (s : State) (p : Nat) : Bool :=
  let x := s.part p
  s.nodes.any fun n => !n.retired && n.tenants[n.running]? == some p &&
    n.closing.any fun k => committed x k.toNat || (x.cut == .saved && x.seq + 1 == k)
/-- The partition runs: its quantum goes on. -/
def runs (s : State) (p : Nat) : Bool := alive s p && !quantumOver s p

/-- Units in the log that takes a partition's first writes now (R333): lines of memory, lines of cluster stores, and 128-byte units
of scratchpads. -/
def logUsed (x : Part) : Nat :=
  (if x.cut = .saved then x.undoNew.length else x.undo.length) + msum (·.units.length) [] x.live.cores +
    msum (fun c => (c.stores.map (·.units.length)).sum) [] x.live.clusters
/-- Effects held in a partition's egress buffer. -/
def egressUsed (x : Part) : Nat := x.egress.length + x.egressNew.length
/-- A step would overfill the partition's log or its egress buffer: its writer waits until the commit (R335). A step that
begins or ends a cut is not held. -/
def overfull (s t : State) (p : Nat) : Bool :=
  let x := s.part p
  let y := t.part p
  x.cut == y.cut &&
  ((logUsed x < logUsed y && y.logCap < logUsed y) || (egressUsed x < egressUsed y && y.egressCap < egressUsed y))
/-- A step of an agent of a partition: taken only while the partition runs, and its log and egress buffer have room. -/
def agentStep (s : State) (p : Nat) (t : State) : Out := .next (if runs s p && !overfull s t p then t else s)
/-- A step of the coherence machinery or of a cut: taken also once the quantum's closing cut is recorded, for its commit waits for
write-backs (R370, R383). -/
def homeStep (s : State) (p : Nat) (t : State) : Out := .next (if alive s p && !overfull s t p then t else s)

/-- ACCESS_ACCEPT (R124). -/
def execAccessAccept (x : At) (cached : Bool) (s : State) : Out := agentStep s x.p (acceptAt s x cached)
/-- FORWARD (R287). -/
def execForward (x : At) (id : Nat) (s : State) : Out := agentStep s x.p (forwardAt s x id)
/-- DELIVER (R287). -/
def execDeliver (p i : Nat) (s : State) : Out := agentStep s p (deliverAt s p i)

/-- The i-th delivered access is a request to another core's scratchpad (R48). -/
def remoteRequest (s : State) (p i : Nat) : Bool :=
  match (s.part p).live.delivered[i]? with
  | some e => (match e.place with | .spad _ => true | _ => false)
  | none => false
/-- PERFORM (R287): every place but a core's hardware agent. -/
def execPerform (p i : Nat) (s : State) : Out := agentStep s p (if remoteRequest s p i then s else performAt s p i)
/-- REMOTE_SCRATCHPAD_REQUEST (R48): a core's hardware agent performs a request for its scratchpad. -/
def execRemoteScratchpadRequest (p i : Nat) (s : State) : Out :=
  agentStep s p (if remoteRequest s p i then performAt s p i else s)
/-- RETURN (R287). -/
def execRespReturn (p i : Nat) (s : State) : Out := agentStep s p (returnAt s p i)

end Sys2Proof.Machine
end

