-- ==== Sys2Proof/Machine/Timeline.lean ====
section
/-! DEFINITION. Hierarchical barriers and engine timelines (spec/05_isa_memory.md R145 to R150). -/

namespace Sys2Proof.Machine

/-! ### Hierarchical barriers -/

/-- The barrier of a level that a core takes part in, named by its launch and its lowest possible core (R146, R17). -/
def hbarInst (k : Core) (c : Nat) (l : Level) : Nat :=
  k.launch.getD 0 * 2 ^ 40 +
  (match l with
   | .team => c - c % k.teamSize
   | .die => c - c % 65536
   | .pkg => c - c % 2 ^ 20)
/-- The scope of a level's release and acquire (R147). -/
def hbarScope : Level → Scope
  | .team => .cl
  | .die => .die
  | .pkg => .pkg
def levelKey : Level → Nat
  | .team => 0
  | .die => 1
  | .pkg => 2
/-- The cores that share a core's barrier (R146); a core of no launch meets itself. -/
def hbarCores (s : State) (p c : Nat) (l : Level) : List Nat :=
  match (s.coreAt p c).launch with
  | some id =>
    ((mget ({} : Launch) ((s.part p).live.launches.map fun x => (x.id, x)) id).cores).filter fun d =>
      hbarInst (s.coreAt p d) d l == hbarInst (s.coreAt p c) c l
  | none => [c]

def samePhase (l : Level) (i : Nat) (h : HPhase) : Bool := h.level == l && h.inst == i
/-- The core's latest arrival at the level is in a phase that is not complete. -/
def hbarOpen (s : State) (p c : Nat) (l : Level) : Bool :=
  (s.part p).live.hphases.any fun h => samePhase l (hbarInst (s.coreAt p c) c l) h && h.arrived.any (·.1 == c)

/-- An arrival of a core with its contribution (R146), and the definitions that it releases (R147). -/
def hbarArrive (s : State) (p c : Nat) (l : Level) (v : Word) (r : Red) (uns : Bool) (know : List Nat) : State :=
  let i := hbarInst (s.coreAt p c) c l
  let old := mget ({} : Hbar) (s.coreAt p c).hbar (levelKey l)
  let n := old.joined.getD 0 + 1
  let s := updCore s p c fun k => { k with hbar := mput k.hbar (levelKey l) { old with joined := some n } }
  updLive s p fun x => { x with
    hphases := match takeFirst (samePhase l i) x.hphases with
      | some (h, rest) => { h with arrived := h.arrived ++ [(c, v, r, uns)], know := learn h.know know } :: rest
      | none => { level := l, inst := i, num := n, arrived := [(c, v, r, uns)], know := know } :: x.hphases }

/-- The result of a phase over its arrivals (R146): the kind is that of the arrival of lowest core. -/
def hbarReduce (arr : List (Nat × Word × Red × Bool)) : Word :=
  match arr with
  | [] => 0
  | a :: as =>
    let low := as.foldl (fun m e => if e.1 < m.1 then e else m) a
    let le (x y : Word) : Bool := if low.2.2.2 then x ≤ y else x.toInt ≤ y.toInt
    match low.2.2.1 with
    | .none => 0
    | .sum => as.foldl (fun r e => r + e.2.1) a.2.1
    | .min => as.foldl (fun r e => if le r e.2.1 then r else e.2.1) a.2.1
    | .max => as.foldl (fun r e => if le r e.2.1 then e.2.1 else r) a.2.1

/-- HBAR.ARRIVE (R145 to R147). -/
def execHbarArrive (x : HbArr) (s : State) : Out :=
  issue x.c (if x.red = .none then [] else [x.b]) [] [] s fun v t =>
    if hbarOpen s s.cur.p s.cur.c x.level then .wait .phase
    else if fencePassed s.me .rel (hbarScope x.level) then
      .ok (hbarArrive t s.cur.p s.cur.c x.level (if x.red = .none then 0 else v 0) x.red x.uns s.me.seen)
    else .wait .memory
/-- HBAR.WAIT (R145 to R147). A core that has seen no phase complete in its launch reads 0: the spec gives no result there (DESIGN
CHOICE, log entry 74). -/
def execHbarWait (x : HbWait) (s : State) : Out :=
  issue x.c [] [x.d] [] s fun _ t =>
    if hbarOpen s s.cur.p s.cur.c x.level then .wait .phase
    else
      let h := mget ({} : Hbar) s.mine.hbar (levelKey x.level)
      .ok (putS (acquire t t.cur h.know) x.d h.result)

/-- A phase at a level completes once each participant has arrived: every core that takes part learns the result, and what the
arrivals release. -/
def hbarComplete (s : State) (p : Nat) (l : Level) (i : Nat) : State :=
  match takeFirst (samePhase l i) (s.part p).live.hphases with
  | some (h, rest) =>
    match h.arrived with
    | [] => s
    | a :: _ =>
      let cs := hbarCores s p a.1 l
      if cs.all fun c => h.arrived.any (·.1 == c) then
        let r := hbarReduce h.arrived
        let s := updLive s p fun x => { x with hphases := rest }
        cs.foldl (fun s c => updCore s p c fun k =>
          let b := mget ({} : Hbar) k.hbar (levelKey l)
          { k with hbar := mput k.hbar (levelKey l) { b with result := r, know := learn b.know h.know } }) s
      else s
  | none => s
/-- HBAR_PHASE_COMPLETE (R146). -/
def execHbarPhaseComplete (p : Nat) (level : Level) (grp : Nat) (s : State) : Out :=
  agentStep s p (hbarComplete s p level grp)

/-! ### Timelines -/

/-- The engine queue that FN names (R149). -/
def engQ (k : Core) : Eng → EngQ
  | .copy | .chisel => k.cq
  | .matrix => k.mq
  | .vector => k.vq
/-- The slot's latest number on an engine's timeline (R148). -/
def ownNum (x : Slot) : Eng → Nat
  | .copy | .chisel => x.lastCopy
  | .matrix => x.lastMatrix
  | .vector => x.lastVector

/-- A definition that nothing orders before the instruction, and that it does not find (R308, R313): `ev` is its number among
the partition's definitions. -/
def unseen (s : State) (ev : Nat) : Bool := s.stale && !s.me.seen.contains ev
/-- A chisel context that the launch of the issuing core has opened, as its slot finds it (R149, R261, R313). -/
def openCtx (s : State) (n : Word) : Option Ctx :=
  if n.toNat > 63 then none
  else (mfind? (s.cluster s.cur.p (clusterOf s.cur.c)).ctxs n.toNat).filter fun x =>
    x.launch == s.mine.launch && !(x.by_ != s.cur && unseen s x.born)
/-- A context that another slot has closed, which the issuing slot may still find as it stood (R313): where it stands. -/
def closedCtx (s : State) (n : Word) : Option (Nat × Ctx) :=
  let cl := s.cluster s.cur.p (clusterOf s.cur.c)
  match mfind? cl.closed n.toNat with
  | some (ev, a) =>
    if n.toNat ≤ 63 && a != s.cur && unseen s ev then
      ((mfind? cl.ctxs (64 * ev + n.toNat)).filter fun x => x.launch == s.mine.launch).map fun x => (64 * ev + n.toNat, x)
    else none
  | none => none
/-- The context that an instruction finds, and where it stands. -/
def anyCtx (s : State) (n : Word) : Option (Nat × Ctx) := ((openCtx s n).map fun x => (n.toNat, x)).or (closedCtx s n)
def updCtx (s : State) (p c n : Nat) (f : Ctx → Ctx) : State :=
  updCluster s p (clusterOf c) fun x => { x with ctxs := mupd x.ctxs n f }

/-- The undelivered copy-fault record of lowest number at or below n (R237). A record keeps its number when its launch ends, and
the next launch's timeline counts anew: DESIGN CHOICE, log entry 69. -/
def lowestRecord (k : Core) (n : Nat) : Option CopyFault :=
  k.frecs.foldl (fun r f =>
    if f.delivered || f.num > n then r
    else match r with
      | some g => if f.num < g.num then some f else r
      | none => some f) none
/-- A copy-fault record is delivered to a slot as cause 0x20 (R237), and stays attached to it (R329). -/
def deliverRecord (s : State) (f : CopyFault) : Res :=
  let s := updMine s fun k => { k with frecs := k.frecs.map fun g => if g.id = f.id then { g with delivered := true } else g }
  let s := updMe s fun x => { x with copyRec := some f.id }
  .to (takeTrap s s.cur { cause := 0x20, sub := f.sub, bad := f.bad, posted := true })

/-- TLWAIT on the copy engine (R149, R150, R237, R329): after a replay it waits for the replay's number first. -/
def tlwaitCopy (s t : State) (n : Word) : Res :=
  if s.mine.cq.completed < s.me.replayNum then .wait .timeline
  else match lowestRecord s.mine n.toNat with
    | some f => deliverRecord s f
    | none => if s.mine.cq.completed < n.toNat then .wait .timeline else .ok t
/-- TLWAIT on a chisel context (R149, R277); it acquires the CHCLOSE that it covers (R150, R313). -/
def tlwaitChisel (s t : State) (n c : Word) : Res :=
  match anyCtx s c with
  | none => .trap { cause := 0x02 }
  | some (i, x) =>
    match x.pending.filter fun f => f.1 ≤ n.toNat with
    | some (_, code, bad) =>
      let s := updCtx s s.cur.p s.cur.c i fun x => { x with pending := none }
      .to (takeTrap s s.cur { cause := 0x24, sub := code, bad := bad, posted := true })
    | none =>
      if x.completed < n.toNat then .wait .timeline
      else .ok (if x.shut ≠ 0 && x.shut ≤ n.toNat then acquire t t.cur [i / 64] else t)

/-- TLWAIT (R149, R150). The commands of an engine queue define no group, key or context, and their completion releases their memory
writes alone (R292): the wait orders no definition. -/
def execTlwait (x : TlWait) (s : State) : Out :=
  issue x.c (if x.eng = .chisel then [x.a, x.b] else [x.a]) [] [] s fun v t =>
    match x.eng with
    | .copy => tlwaitCopy s t (v 0)
    | .chisel => if s.variant = .s16 then .trap { cause := 0x03 } else tlwaitChisel s t (v 0) (v 1)
    | e => if (engQ s.mine e).completed < (v 0).toNat then .wait .timeline else .ok t

/-- TLGET (R149). -/
def execTlget (x : TlGet) (s : State) : Out :=
  issue x.c (if x.eng = .chisel then [x.b] else []) [x.d] [] s fun v t =>
    let pick (assigned completed own : Nat) : Res :=
      .ok (putS t x.d (BitVec.ofNat 64 (if x.sel = 0 then assigned else if x.sel = 1 then completed else own)))
    match x.eng with
    | .chisel =>
      if s.variant = .s16 then .trap { cause := 0x03 } else
      match anyCtx s (v 0) with
      | none => .trap { cause := 0x02 }
      | some (i, c) => pick c.assigned c.completed (mget 0 s.me.lastChisel i)
    | e => pick (engQ s.mine e).assigned (engQ s.mine e).completed (ownNum s.me e)

end Sys2Proof.Machine
end

