-- ==== Sys2Proof/Machine/Work.lean ====
section
/-! DEFINITION. Messages, handlers, placed activations and tasks (spec/06_isa_work.md R151 to R167), and the starts of
activations (spec/01_machine.md R23 to R28). -/

namespace Sys2Proof.Machine

/-! ### Messages (R151 to R155, R160 to R162) -/

/-- The message of a slot with a payload (R151). Its scope holds the target (R154): what its slot knows, the activation finds. -/
def messageOf (s : State) (pay : List Word) : Msg :=
  { pay := pay, sender := s.cur.c, task := s.me.taskId, senderVt := s.mine.vt, know := s.me.seen }

/-- A message leaves for a core, as a release at the scope that holds both (R154); its slot is Blocked until the target
answers. `t` is the state with the sources taken, `popped` what they took. -/
def post (s t : State) (c : Nat) (k : AccKind) (dst : Dst) (popped : List (Nat × Word)) : Res :=
  if queuesRoom s.me k then
    let e : Acc := { core := s.cur.c, slot := s.cur.n, act := s.me.act, kind := k, place := .queue c, ord := .rel,
                     scope := scopeOver s.cur.c c, dst := dst }
    .to (updMe (acceptAcc t t.cur e) fun x => { x with popped := popped })
  else .wait .memory

/-- The core of a header, checked as R153 orders: form, partition, launch; then `pc` for misalignment (R160, R161). -/
def target (s : State) (h : Word) (queueOk : Nat → Bool) (pc : Word) : Except Trap Nat :=
  if !queueOk (headerQueue h) then .error { cause := 0x02 }
  else
    match headerCore s h with
    | .error t => .error t
    | .ok c =>
      if !sameLaunch s s.cur.p s.cur.c c then .error { cause := 0x0C, bad := h }
      else if aligned4 pc then .ok c else .error (badTarget pc)

/-- Source values 1 to 4: a register group's (R152). -/
def groupOf (v : Nat → Word) : List Word := [v 1, v 2, v 3, v 4]

/-- SEND (R153). Queue 15 of a header that passes the earlier checks is cause 0x0C. -/
def execSend (x : MsgI) (s : State) : Out :=
  let srcs := x.a :: groupOps x.base
  issue x.c srcs [] [] s fun v t =>
    match target s (v 0) (fun _ => true) 0 with
    | .error e => .trap e
    | .ok c =>
      if headerQueue (v 0) = 15 then .trap { cause := 0x0C, bad := v 0 }
      else post s t c (.send (headerQueue (v 0)) (messageOf s (groupOf v)) false) .none (poppedBy srcs v)
/-- SPAWN (R160). -/
def execSpawn (x : SpawnI) (s : State) : Out :=
  let srcs := x.a :: groupOps x.base ++ [x.cc]
  issue x.c srcs [] [x.p] s fun v t =>
    if x.p = 7 then .trap { cause := 0x02 }
    else match target s (v 0) (· == 0) (v 5) with
      | .error e => .trap e
      | .ok c =>
        post s t c (.spawn { messageOf s (groupOf v) with pc := v 5 }) (.pred x.p.toNat) (poppedBy srcs v)
/-- CALLAT (R161). -/
def execCallat (x : CallAtI) (s : State) : Out :=
  let srcs := x.a :: groupOps x.base ++ [x.cc]
  issue x.c srcs [] [] s fun v t =>
    if x.queue = 15 then .trap { cause := 0x02 }
    else match target s (v 0) (fun q => q == 0 || q == 15) (v 5) with
      | .error e => .trap e
      | .ok c =>
        post s t c (.send 15 { messageOf s (groupOf v) with pc := v 5, route := some ⟨s.cur.c, x.queue.toNat⟩ } false)
          .none (poppedBy srcs v)
/-- REPLY (R162): the route is consumed when the queue has taken the reply. -/
def execReply (x : ReplyI) (s : State) : Out :=
  issue x.c (groupOps x.base) [] [] s fun v t =>
    match s.me.route with
    | none => .trap { cause := 0x0C }
    | some r => post s t r.core (.send r.queue (messageOf s [v 0, v 1, v 2, v 3]) true) .none []

/-! ### Handlers (R156 to R158) -/

/-- Offset of a ring of `len` bytes in the own scratchpad (R156). -/
def ringPlace (s : State) (base : Word) (len : Nat) : Except Trap Nat :=
  let out : Except Trap Nat := .error { cause := 0x0B, bad := base }
  if isGlobal base then
    match globalPlace s s.cur.p s.cur.c base 1 len with
    | .ok (.own _, off) => if base.toNat % 32 = 0 then .ok off else .error { cause := 0x06, bad := base }
    | _ => out
  else out

/-- BIND (R156). -/
def execBind (x : BindI) (s : State) : Out :=
  issue x.c (if x.land = .ring then [x.a, x.b] else [x.a]) [] [] s fun v t =>
    if x.queue = 15 then .trap { cause := 0x02 }
    else if !aligned4 (v 0) then .trap (badTarget (v 0))
    else
      match (if x.land = .ring then ringPlace s (v 1) (32 * 2 ^ x.ring.toNat) else .ok 0) with
      | .error e => .trap e
      | .ok off =>
        if x.timed && (mfind? s.myPart.live.groups x.grp.toNat).isNone then .trap { cause := 0x13 }
        else .ok (updMine t fun k => { k with
          binds := mput k.binds x.queue.toNat
            { pc := v 0, land := x.land, ring := x.ring.toNat, base := BitVec.ofNat 64 off, seq := 0, timed := x.timed,
              grp := x.grp.toNat } })
/-- UNBIND (R158). -/
def execUnbind (x : UnbindI) (s : State) : Out :=
  issue x.c [] [] [] s fun _ t =>
    if x.queue = 15 then .trap { cause := 0x02 }
    else .ok (updMine t fun k => { k with binds := mdel k.binds x.queue.toNat })

/-! ### The floor as a place has seen it (R171) -/

/-- Places that see the floor: a home cluster, a core. -/
def homeView (cluster : Nat) : Nat := 2 * cluster
def coreView (core : Nat) : Nat := 2 * core + 1
def floorKey (g view : Nat) : Nat := g * 2 ^ 40 + view
/-- A member's contribution (R171): none once it has left. -/
def contribution (s : State) (p : Nat) (m : Member) : Option Nat :=
  if m.left then none else some (if m.joined then (s.coreAt p m.core).vt.toNat else m.origin.toNat)
/-- The floor of a group (R171). -/
def floorOf (s : State) (p : Nat) (g : Group) : Nat :=
  (g.members.filterMap (contribution s p)).foldl min (2 ^ 64 - 1)
/-- The floor that a place has seen; before its first change it is the least origin. -/
def seenFloor (s : State) (p g view : Nat) : Nat :=
  match mfind? (s.part p).live.floors (floorKey g view), mfind? (s.part p).live.groups g with
  | some w, _ => w.toNat
  | none, some gr => (gr.members.map fun m => m.origin.toNat).foldl min (2 ^ 64 - 1)
  | none, none => 0

/-! ### Starts of activations (R23, R25, R157, R172) -/

/-- An activation of the queue is live (R25). -/
def queueLive (k : Core) (q : Nat) : Bool :=
  [0, 1, 2].any fun n => (mget ({} : Slot) k.slots n).st != .idle && (mget ({} : Slot) k.slots n).fromQueue == some q

/-- Position of the message of lowest stamp; equal stamps order by sender, then by arrival (R172). -/
def lowestStamp (ms : List Msg) : Option (Nat × Msg) :=
  (ms.zipIdx.foldl (fun (r : Option (Nat × Msg)) e =>
    match r with
    | none => some (e.2, e.1)
    | some (i, m) =>
      let a := (e.1.pay.getD 0 0).toNat
      let b := (m.pay.getD 0 0).toNat
      if a < b || (a == b && e.1.sender < m.sender) then some (e.2, e.1) else some (i, m)) none)

/-- The message of a queue that may start an activation, with its position: the head, or on a timed queue the lowest
stamp once the floor has passed it (R25, R172). -/
def startable (s : State) (p c q : Nat) : Option (Nat × Msg) :=
  let k := s.coreAt p c
  let ms := mget [] k.inq q
  if q = 15 then ms.head?.map fun m => (0, m)
  else
    match mfind? k.binds q with
    | none => none
    | some b =>
      if queueLive k q then none
      else if b.timed then
        match lowestStamp ms, mfind? (s.part p).live.groups b.grp with
        | some (i, m), some g =>
          if seenFloor s p b.grp (coreView c) + g.lambda.toNat > (m.pay.getD 0 0).toNat then some (i, m) else none
        | _, _ => none
      else ms.head?.map fun m => (0, m)
/-- The queue that goes next: 15, then the lowest (R25). -/
def nextQueue (s : State) (p c : Nat) : Option Nat :=
  (15 :: List.range 15).find? fun q => (startable s p c q).isSome
def isTimed (k : Core) (q : Nat) : Bool :=
  match mfind? k.binds q with
  | some b => q != 15 && b.timed
  | none => false

/-- The local global-form address of an offset of the own scratchpad. -/
def localAddr (off : Nat) : Word := BitVec.ofNat 64 (0xFFFFFFFF00000000 + off)

/-- The arguments of a handler activation (R157), and the core once the ring transform has stored the payload and
counted. -/
def landArgs (k : Core) (q : Nat) (b : Binding) (m : Msg) : List Word × Core :=
  let hdr := senderHeader m.sender
  let p (i : Nat) : Word := m.pay.getD i 0
  match b.land with
  | .regs => ([p 0, p 1, p 2, p 3], k)
  | .src => ([p 0, p 1, p 2, hdr], k)
  | .ring =>
    let off := b.base.toNat + 32 * (b.seq.toNat % 2 ^ b.ring)
    let bytes := leBytes 8 (p 0).toNat ++ leBytes 8 (p 1).toNat ++ leBytes 8 (p 2).toNat ++ leBytes 8 (p 3).toNat
    ([localAddr off, hdr, b.seq, p 0],
     { k with spad := putBytes k.spad off bytes, units := logUnits k.units off 32, binds := mput k.binds q { b with seq := b.seq + 1 } })

/-- A message leaves its queue and starts an activation in an Idle slot (R23, R157, R161). -/
def startMessage (s : State) (a : At) (q : Nat) : State :=
  match startable s a.p a.c q with
  | none => s
  | some (i, m) =>
    let s := updCore s a.p a.c fun k => { k with inq := mset [] k.inq q ((mget [] k.inq q).eraseIdx i) }
    if q = 15 then startActivation s a m.pc m.task m.pay m.route none (some 15) m.know
    else
      let k := s.coreAt a.p a.c
      let b := mget ({} : Binding) k.binds q
      let r := landArgs k q b m
      startActivation (updCore s a.p a.c fun _ => r.2) a b.pc m.task r.1 none none (some q) m.know

/-- A user slot that may take an activation. -/
def idleUser (s : State) (a : At) : Bool := a.n < 3 && (s.slotAt a.p a.c a.n).st == .idle

/-- MESSAGE_ACTIVATION_START (R23, R25). -/
def execMessageActivationStart (a : At) (s : State) : Out :=
  agentStep s a.p (match nextQueue s a.p a.c with
    | some q => if idleUser s a && !isTimed (s.coreAt a.p a.c) q then startMessage s a q else s
    | none => s)
/-- TIMED_QUEUE_ACTIVATION (R172). -/
def execTimedQueueActivation (a : At) (q : Nat) (s : State) : Out :=
  agentStep s a.p (if idleUser s a && isTimed (s.coreAt a.p a.c) q && nextQueue s a.p a.c == some q then startMessage s a q
                   else s)

/-- The cores a thief visits (R165). -/
def thiefOrder (c : Nat) : List Nat := (List.range 128).map fun i => c / 128 * 128 + (c % 128 + i) % 128
/-- TASK_STEAL (R165). -/
def steal (s : State) (a : At) : State :=
  if idleUser s a && (s.coreAt a.p a.c).launch.isSome && (nextQueue s a.p a.c).isNone then
    match (thiefOrder a.c).find? fun c => sameLaunch s a.p a.c c && !(s.coreAt a.p c).deque.isEmpty with
    | some c =>
      match (s.coreAt a.p c).deque with
      | e :: rest =>
        startActivation (updCore s a.p c fun k => { k with deque := rest }) a e.pc e.task e.regs none (some e.counter) none e.know
      | [] => s
    | none => s
  else s
def execTaskSteal (a : At) (s : State) : Out := agentStep s a.p (steal s a)

/-! ### Ends and waits (R159) -/

/-- DONE (R159, R27). -/
def execDone (x : C0) (s : State) : Out := issue x.c [] [] [] s fun _ t => .to (endMine t)

/-- YIELD (R159): Blocked for n clks; n = 0 is the yield hint of R21. -/
def execYield (x : YieldI) (s : State) : Out :=
  issue x.c [] [] [] s fun _ t =>
    if x.n = 0 then .ok (updMe t fun y => { y with skip := true }) else .wait (.yield x.n.toNat)
/-- YIELD_EXPIRY: the clks have passed. -/
def execYieldExpiry (a : At) (s : State) : Out :=
  agentStep s a.p (match (s.slotAt a.p a.c a.n).st, (s.slotAt a.p a.c a.n).wait with
    | .blocked, .yield _ => advanceAt s a
    | _, _ => s)

/-! ### Tasks (R163 to R167) -/

/-- A join counter's name: its core and offset. -/
def counterName (c off : Nat) : Word := BitVec.ofNat 64 (c * 2 ^ 28 + off)
/-- The counter's value. -/
def counterRead (s : State) (p : Nat) (name : Word) : Nat :=
  leNat (spadRead s p (name.toNat / 2 ^ 28) (name.toNat % 2 ^ 28) 8)
/-- The checks of a counter address (R164). -/
def counterPlace (s : State) (ea : Word) : Except Trap Word :=
  if !isGlobal ea then .error { cause := 0x08, bad := ea }
  else if ea.toNat / 2 ^ 28 % 16 ≠ 0 then .error { cause := 0x0B, bad := ea }
  else
    match globalPlace s s.cur.p s.cur.c ea 1 1 with
    | .error f => .error { cause := f.cause, bad := f.bad }
    | .ok (_, off) =>
      let c := namedCore s.cur.c ea false
      if !sameLaunch s s.cur.p s.cur.c c then .error { cause := 0x0B, bad := ea }
      else if off % 8 ≠ 0 then .error { cause := 0x06, bad := ea }
      else .ok (counterName c off)

/-- The place and the address of a counter, for a core's access to it. -/
def counterAt (me : Nat) (name : Word) : Place × Word :=
  let c := name.toNat / 2 ^ 28
  (if c = me then .own c else .spad c, BitVec.ofNat 64 (2 ^ 63 + name.toNat % 2 ^ 28))
/-- The access of a slot to a counter (R163, R285): the counter's scratchpad performs it. -/
def counterAcc (s : State) (name : Word) (k : AccKind) (o : Ord) (dst : Dst) : Acc :=
  { core := s.cur.c, slot := s.cur.n, act := s.me.act, kind := k, ea := (counterAt s.cur.c name).2,
    place := (counterAt s.cur.c name).1, ord := o, scope := .cl, dst := dst }
/-- Entries of the core's deque that its slots have on their way (R164). -/
def forksComing (k : Core) : Nat :=
  (k.slots.map fun e => (e.2.sb ++ e.2.unacked).countP fun a => match a.kind with
    | .fork _ _ => true
    | _ => false).sum
/-- FORK (R164): a message to the counter's scratchpad adds 1 to it (R284); its answer brings the entry to the tail. A release
at .cl. -/
def execFork (x : ForkI) (s : State) : Out :=
  issue x.c (x.a :: groupOps x.base) [] [x.p] s fun v t =>
    if x.p = 7 then .trap { cause := 0x02 }
    else match counterPlace s (v 0) with
      | .error e => .trap e
      | .ok ctr =>
        if s.mine.deque.length + forksComing s.mine ≥ 16 then .ok (putP t x.p false)
        else
          let w : Task := { pc := relTarget s.me.pc x.off, regs := groupOf v, counter := ctr, task := s.me.taskId, know := s.me.seen }
          if queuesRoom s.me (.fork ctr w) then
            .to (updMe (acceptAcc t t.cur (counterAcc s ctr (.fork ctr w) .rel (.pred x.p.toNat))) fun y => { y with popped := poppedBy (x.a :: groupOps x.base) v })
          else .wait .memory

/-- JOIN's read of its counter is accepted (R166, R285): its slot is Blocked at the JOIN until the value has come. -/
def joinSend (s t : State) (ctr : Word) (popped : List (Nat × Word)) : Res :=
  if queuesRoom s.me .join then
    .to (updMe (acceptAcc t t.cur (counterAcc s ctr .join .rlx .none)) fun y => { y with joinRead := none, popped := popped })
  else .wait .memory
/-- JOIN enters the task at the tail of the core's deque (R166, R41). -/
def joinEnter (t : State) (e : Task) : Res :=
  match enterCall t e.pc (some e.counter) with
  | .to u =>
    let u := updMine u fun k => { k with deque := k.deque.dropLast }
    .to (updMe u fun y => writeReg (writeReg (writeReg (writeReg y 16 (e.regs.getD 0 0)) 17 (e.regs.getD 1 0))
      18 (e.regs.getD 2 0)) 19 (e.regs.getD 3 0))
  | r => r
/-- JOIN (R166): it reads its counter at the counter's scratchpad; a zero ends it as the value comes. Once another value has come, it
enters the tail task of the core's deque, or waits until the deque gains one or the counter changes, and then reads again. -/
def execJoin (x : AOff) (s : State) : Out :=
  issue x.c [x.a] [] [] s fun v t =>
    match counterPlace s (v 0 + immS x.off) with
    | .error e => .trap e
    | .ok ctr =>
      match s.me.joinRead, s.mine.deque.getLast? with
      | some _, some e => joinEnter t e
      | some c, none => if counterRead s s.cur.p ctr = c.toNat then .wait .phase else joinSend s t ctr (poppedBy [x.a] v)
      | none, _ => joinSend s t ctr (poppedBy [x.a] v)

/-- The window unwound to the frame that the innermost JOIN entry made (R167). -/
def unwind : List Frame → Slot → Slot
  | [], x => x
  | f :: rest, x => if f.join.isSome then x else unwind rest (slideBack x)

/-- DONE.task's decrement of a join counter (R167): an atomic of the counter's scratchpad, posted as a release at .cl (R163, R285,
log entry 84). -/
def decrement (s t : State) (ctr : Word) : State :=
  updMe { t with nextId := t.nextId + 1 } fun y =>
    let e := counterAcc s ctr (.amo .add false false (-1) 0) .rel .none
    enqueueAcc y { e with id := t.nextId, know := releases y e }
/-- DONE.task (R167): the registers of the JOIN entry's frame are filled first (R43). -/
def execDoneTask (x : C0) (s : State) : Out :=
  issue x.c [] [] [] s fun _ t =>
    let y := s.me
    match y.frames.find? fun f => f.join.isSome with
    | some f =>
      let z := unwind y.frames t.me
      if y.sb.length ≥ 8 || winBusy y (z.wbase + 7) (y.wbase + y.frame) then .wait .memory
      else if z.fillTo.isSome then .to (updMe t fun _ => windowWait z)
      else
        let ret := readReg z 23
        if aligned4 ret then
          .to (decrement s (updMe t fun _ => windowWait (goOn (slideBack z) ret)) (f.join.getD 0))
        else .trap (badTarget ret)
    | none =>
      match y.joinAddr with
      | some ctr =>
        if y.sb.length < 8 then .to (endMine (decrement s t ctr)) else .wait .memory
      | none => .to (endMine t)

end Sys2Proof.Machine
end

