-- ==== Sys2Proof/Machine/Instar.lean ====
section
/-! DEFINITION. Virtual time, coupling groups and the instar store (spec/06_isa_work.md R168 to R183). -/

namespace Sys2Proof.Machine

/-! ### Membership and virtual time (R168 to R170) -/

/-- The core is a joined member of the group (R170). -/
def joinedIn (g : Group) (core : Nat) : Option (Nat × Member) :=
  (memberOf g core).bind fun e => if e.2.joined && !e.2.left then some e else none
/-- The group that a core is a member of, with its number, its rank and its record. -/
def membership (s : State) (p c : Nat) : Option (Nat × Group × Nat × Member) :=
  (s.part p).live.groups.findSome? fun e => (joinedIn e.2 c).map fun m => (e.1, e.2, m.1, m.2)
/-- The group span D (R169). -/
def span (g : Group) : Nat := (g.members.map fun m => m.step.toNat).sum

/-- Keys by number: group and key (R173). -/
def keyIndex (w : Word) : Nat := w.toNat % 2 ^ 15
def keyGroup (w : Word) : Nat := w.toNat / 2 ^ 12 % 8
/-- A definition of another core, with its number, that the issuing slot does not find (R308; log entry 64). -/
def hidden (s : State) (by_ ev : Nat) : Bool := by_ != s.cur.c && unseen s ev
/-- A group as the issuing slot finds it (R308). -/
def groupAt (s : State) (p g : Nat) : Option Group :=
  (mfind? (s.part p).live.groups g).filter fun gr => !hidden s gr.by_ gr.born
/-- A registered key, as the issuing slot finds it (R308). -/
def liveKey (s : State) (p n : Nat) : Option Key := (mfind? (s.part p).live.keys n).filter fun k => !hidden s k.by_ k.born
/-- A key that another core has dropped, which the issuing slot may still find (R308). -/
def droppedKey (s : State) (p n : Nat) : Option Key :=
  match mfind? (s.part p).live.dropped n with
  | some (ev, by_, k) => if hidden s by_ ev then some k else none
  | none => none
/-- The key of a key word, with its group, as the issuing slot finds them (R308). -/
def keyOf (s : State) (p : Nat) (w : Word) : Option (Key × Group) :=
  match (liveKey s p (keyIndex w)).or (droppedKey s p (keyIndex w)), groupAt s p (keyGroup w) with
  | some k, some g => some (k, g)
  | _, _ => none
/-- The number that the next definition takes. -/
def nextEvent (s : State) : Nat := s.myPart.live.events + 1
/-- The partition's definitions so far, one more. -/
def define (l : PLive) : PLive := { l with events := l.events + 1 }
/-- An instar of the key with the stamp: its place in the key's storage. -/
def instarAt (k : Key) (τ : Nat) : Option Nat := (k.stamps.find? fun e => e.2.toNat == τ).map (·.1)
/-- The publication horizon P (R173): none before the first publication. -/
def horizon (k : Key) : Option Nat :=
  k.stamps.foldl (fun r e => match r with
    | none => some e.2.toNat
    | some m => some (max m e.2.toNat)) none

/-- The key has an instar with the stamp, or an IST has it on its way to the home (R175). -/
def hasStamp (k : Key) (τ : Nat) : Bool := (instarAt k τ).isSome || k.coming.any fun e => e.2.toNat == τ
/-- Some key that the member owns lacks an instar at its current VT (R168, R176): one on its way counts. -/
def owesInstar (s : State) (p c g rank : Nat) : Bool :=
  (s.part p).live.keys.any fun e =>
    e.1 / 4096 == g && e.2.writer == rank && !hasStamp e.2 (s.coreAt p c).vt.toNat

/-- VTSET (R168). -/
def execVtset (x : DA) (s : State) : Out :=
  issue x.c [x.a] [x.d] [] s fun v t =>
    if (membership s s.cur.p s.cur.c).isSome || v 0 < s.mine.vt then .trap { cause := 0x15 }
    else .ok (putS (updMine t fun k => { k with vt := v 0 }) x.d (v 0))
/-- An IST of the core has been issued and is not performed (R168, R175). -/
def istPending (k : Core) : Bool :=
  k.slots.any fun e => e.2.ist.isSome || (e.2.sb ++ e.2.unacked).any fun a => a.kind.isIst
/-- VTADV (R168): the trap checks, then the wait for every earlier IST of the core. BADADDR of its 0x14 is 0: it names no key word,
and R322 gives 0 for IGRP and IJOIN alone (DESIGN CHOICE, log entry 78). -/
def execVtadv (x : DA) (s : State) : Out :=
  issue x.c [x.a] [x.d] [] s fun v t =>
    let sum := s.mine.vt.toNat + (v 0).toNat
    let bad : Option Trap := match membership s s.cur.p s.cur.c with
      | some (g, _, rank, m) =>
        if sum ≥ 2 ^ 64 || v 0 != m.step then some { cause := 0x15 }
        else if owesInstar s s.cur.p s.cur.c g rank then some { cause := 0x14 } else none
      | none => if sum ≥ 2 ^ 64 then some { cause := 0x15 } else none
    match bad with
    | some e => .trap e
    | none =>
      if istPending s.mine then .wait .instar
      else .ok (putS (updMine t fun k => { k with vt := s.mine.vt + v 0 }) x.d (s.mine.vt + v 0))

/-! ### Groups (R169, R170) -/

/-- The number of `n` bytes at an offset of a byte list. -/
def fieldAt (bs : List Byte) (off n : Nat) : Nat := leNat ((bs.drop off).take n)

/-- The n bytes of an IGRP descriptor, wholly inside the issuing core's scratchpad or its launch's cluster store. -/
def descPlace (s : State) (a : Word) (n : Nat) : Option (List Byte) :=
  match globalPlace s s.cur.p s.cur.c a 1 n with
  | .ok (.own c, off) => some (placeRead s s.cur.p (.own c) off n)
  | .ok (.cstore cl l, off) => if s.mine.launch == some l then some (placeRead s s.cur.p (.cstore cl l) off n) else none
  | _ => none

/-- Member records of a descriptor (R169); none for a record outside its limits. -/
def readMembers (s : State) (bs : List Byte) : Nat → Option (List Member)
  | 0 => some []
  | n + 1 =>
    match readMembers s bs n with
    | none => none
    | some ms =>
      let h : Word := BitVec.ofNat 64 (fieldAt bs (32 + 24 * n) 8)
      match headerCore s h with
      | .ok c =>
        let step := fieldAt bs (40 + 24 * n) 8
        if headerQueue h = 0 && sameLaunch s s.cur.p s.cur.c c && !(ms.any (·.core == c)) && 1 ≤ step then
          some (ms ++ [{ core := c, step := BitVec.ofNat 64 step, origin := BitVec.ofNat 64 (fieldAt bs (48 + 24 * n) 8) }])
        else none
      | .error _ => none

/-- IGRP's group, or the first check that fails (R169). -/
def readGroup (s : State) (a : Word) : Except Trap (Nat × Group) :=
  let bad (c : Nat) : Except Trap (Nat × Group) := .error { cause := c, bad := a }
  if !isGlobal a then bad 0x08
  else if a.toNat % 8 ≠ 0 then bad 0x06
  else
    match descPlace s a 32 with
    | none => bad 0x0B
    | some hd =>
      let num := fieldAt hd 0 1
      let n := fieldAt hd 4 4
      let pool := fieldAt hd 16 8
      let size := fieldAt hd 24 8
      if num > 7 || fieldAt hd 1 3 ≠ 0 || n = 0 || n > 1024 || fieldAt hd 8 8 = 0 || pool % 65536 ≠ 0 || pool ≥ 2 ^ 55 ||
         size = 0 || size % 65536 ≠ 0 then .error { cause := 0x13 }
      else
        match descPlace s a (32 + 24 * n) with
        | none => bad 0x0B
        | some bs =>
          match readMembers s bs n with
          | none => .error { cause := 0x13 }
          | some ms =>
            let g : Group := { launch := s.mine.launch.getD 0, lambda := BitVec.ofNat 64 (fieldAt hd 8 8),
                               pool := BitVec.ofNat 64 pool, poolSize := BitVec.ofNat 64 size, members := ms,
                               born := nextEvent s, by_ := s.cur.c }
            if (mfind? s.myPart.live.groups num).isSome || span g ≥ 2 ^ 63 then .error { cause := 0x13 } else .ok (num, g)

/-- Every access that the slot made is performed and has returned. -/
def quiet (x : Slot) : Bool := x.lq.isEmpty && storesDone x

/-- IGRP (R169). -/
def execIgrp (x : A1) (s : State) : Out :=
  issue x.c [x.a] [] [] s fun v t =>
    if !quiet s.me then .wait .memory
    else match readGroup s (v 0) with
      | .error e => .trap e
      | .ok (num, g) => .ok (acquire (updLive t s.cur.p fun l => { define l with
          groups := mput l.groups num g, floors := l.floors.filter fun e => e.1 / 2 ^ 40 != num }) s.cur [nextEvent s])
def updMember (s : State) (p g core : Nat) (f : Member → Member) : State :=
  updLive s p fun l => { l with
    groups := mupd l.groups g fun gr => { gr with members := gr.members.map fun m => if m.core == core then f m else m } }
/-- IJOIN (R170). -/
def execIjoin (x : GrpI) (s : State) : Out :=
  issue x.c [] [] [] s fun _ t =>
    match (groupAt s s.cur.p x.g.toNat).bind fun g => memberOf g s.cur.c with
    | none => .trap { cause := 0x13 }
    | some (_, m) =>
      if (membership s s.cur.p s.cur.c).isSome || m.left || s.mine.vt > m.origin then .trap { cause := 0x15 }
      else .ok (updMember (updMine t fun k => { k with vt := m.origin }) s.cur.p x.g.toNat s.cur.c
        fun m => { m with joined := true })
/-- ILEAVE (R170). BADADDR of its 0x13 is 0: it names no key word (DESIGN CHOICE, log entry 78). -/
def execIleave (x : GrpI) (s : State) : Out :=
  issue x.c [] [] [] s fun _ t =>
    match (mfind? s.myPart.live.groups x.g.toNat).bind fun g => joinedIn g s.cur.c with
    | none => .trap { cause := 0x15 }
    | some (rank, _) =>
      if s.myPart.live.keys.any fun e => e.1 / 4096 == x.g.toNat && e.2.writer == rank then .trap { cause := 0x13 }
      else .ok (updMember t s.cur.p x.g.toNat s.cur.c fun m => { m with left := true })

/-! ### Keys (R173, R174) -/

/-- The first offset of the pool at or after `at_` with room for `len` bytes between the storages of its keys. -/
def poolFit (size len : Nat) : List (Nat × Nat) → Nat → Option Nat
  | [], at_ => if at_ + len ≤ size then some at_ else none
  | (o, n) :: rest, at_ => if at_ + len ≤ o then some at_ else poolFit size len rest (o + n)
/-- Storages of a group's keys within its pool, by rising offset. -/
def poolUsed (s : State) (p g : Nat) (gr : Group) : List (Nat × Nat) :=
  let l := ((s.part p).live.keys.filter fun e => e.1 / 4096 == g).map fun e =>
    (e.2.base.toNat - gr.pool.toNat, e.2.keep * 256)
  l.foldl (fun m e => mput m e.1 e.2) []

/-- The key of an IREG, or nothing where R173 gives cause 0x13. -/
def readKey (s : State) (w xlim : Word) : Option Key :=
  let v := w.toNat
  let n := v / 2 ^ 32 % 256
  let up := v / 2 ^ 26 % 2 == 1
  let m := v / 2 ^ 24 % 4
  let dbl := v / 2 ^ 23 % 2 == 1
  let cnt := v / 2 ^ 16 % 128
  let fields := v / 2 ^ 40 == 0 && n ≥ 1 && v / 2 ^ 27 % 32 == 0 && m ≠ 3 && cnt ≥ 1 && cnt ≤ (if dbl then 32 else 64) &&
    v / 2 ^ 15 % 2 == 0
  if !fields || (m ≠ 0 && !up) then none
  else
    match groupAt s s.cur.p (keyGroup w) with
    | none => none
    | some g =>
      match joinedIn g s.cur.c with
      | none => none
      | some (rank, mem) =>
        let d := mem.step.toNat
        if (mfind? s.myPart.live.keys (keyIndex w)).isSome || (droppedKey s s.cur.p (keyIndex w)).isSome ||
           n < (span g + d - 1) / d + m + 2 then none
        else
          match poolFit g.poolSize.toNat (n * 256) (poolUsed s s.cur.p (keyGroup w) g) 0 with
          | none => none
          | some o => some { writer := rank, keep := n, kind := up, ord := m, f64 := dbl, cnt := cnt, xlim := xlim,
                             base := g.pool + BitVec.ofNat 64 o, born := nextEvent s, by_ := s.cur.c }

/-- The trap of a refused page of a key's storage (R173). -/
def keyRefusal (s : State) (page : Nat) (r : Refuse) : Trap :=
  { cause := r.cause, bad := BitVec.ofNat 64 page, kind := 8, level := r.level,
    ncw := inWindow (s.vf s.myPart.vf) page }

/-- IREG (R173): the home checks every page of the storage for R and W. A walk that meets an uncorrectable error is reported as an
access's error is, and no key is registered (R339, log entry 62). -/
def execIreg (x : AB) (s : State) : Out :=
  issue x.c [x.a, x.b] [] [] s fun v t =>
    match readKey s (v 0) (v 1) with
    | none => .trap { cause := 0x13, bad := v 0 }
    | some k =>
      let first := k.base.toNat / 65536
      let last := (k.base.toNat + k.keep * 256 - 1) / 65536
      match acceptRange s.cur.p s.cur.c .rw true (last - first + 1) first t with
      | (_, .error (page, r)) =>
        if r.wait then .wait .memory
        else if r.cause = 0x3F then .to (updMe t fun y => walkError y { ea := BitVec.ofNat 64 page })
        else .trap (keyRefusal s page r)
      | (u, .ok _) =>
        .ok (acquire (updLive u s.cur.p fun l => { define l with keys := mput l.keys (keyIndex (v 0)) k }) s.cur [nextEvent s])

/-- The issuing core owns the key (R174, R175). -/
def ownsKey (c : Nat) (k : Key) (g : Group) : Bool :=
  match joinedIn g c with
  | some (rank, _) => k.writer == rank
  | none => false
/-- Slots whose blocked ILD reads the key. -/
def readersOf (s : State) (p : Nat) (key : Nat) : List At :=
  (s.part p).live.cores.flatMap fun e => e.2.slots.filterMap fun f =>
    match f.2.ild with
    | some h => if keyIndex h.word == key && h.gone.isNone then some ⟨p, e.1, f.1⟩ else none
    | none => none
/-- IDROP (R174): a read blocked on the key ends in cause 0x13 at the reader. It waits for ISTs of the key that are on their way:
DESIGN CHOICE, log entry 65. -/
def execIdrop (x : A1) (s : State) : Out :=
  issue x.c [x.a] [] [] s fun v t =>
    match keyOf s s.cur.p (v 0) with
    | none => .trap { cause := 0x13, bad := v 0 }
    | some (k, g) =>
      if !ownsKey s.cur.c k g then .trap { cause := 0x13, bad := v 0 }
      else if !k.coming.isEmpty then .wait .instar
      else
        let u := updLive t s.cur.p fun l => { define l with
          keys := mdel l.keys (keyIndex (v 0)), dropped := mput l.dropped (keyIndex (v 0)) (l.events + 1, s.cur.c, k) }
        .ok ((readersOf u s.cur.p (keyIndex (v 0))).foldl (fun u a =>
          let bad : Word := match (u.slotAt a.p a.c a.n).ild with
            | some h => h.word
            | none => 0
          takeTrap (updSlot u a.p a.c a.n unpop) a { cause := 0x13, bad := bad }) (acquire u s.cur [nextEvent s]))

/-! ### Publication (R175, R181) -/

def elemBytes (k : Key) : Nat := if k.f64 then 8 else 4
/-- Lat (R173) where it is defined; the origin before. -/
def lat (o d : Nat) (x : Int) : Int := if x < o then o else o + (x - o) / d * d

/-- The reach bound of a key for its writer's step and origin (R181). -/
def reachBound (k : Key) (g : Group) (floor : Nat) : Int :=
  match g.members[k.writer]? with
  | some m =>
    if k.kind then lat m.origin.toNat m.step.toNat ((floor : Int) - span g) - k.ord * m.step.toNat
    else lat m.origin.toNat m.step.toNat floor
  | none => 0

/-- A place of the key's storage for a new instar (R181): free, or the oldest instar's once it is unreachable; none while the
IST must stall. A place that an IST has taken is not free, and is taken once. -/
def instarSlot (k : Key) (bound : Int) : Option Nat :=
  let taken (i : Nat) : Bool := k.coming.any (·.1 == i)
  ((List.range k.keep).find? fun i => !(k.stamps.any (·.1 == i)) && !taken i).or
    ((k.stamps.find? fun e => !taken e.1).bind fun e => if (e.2.toNat : Int) < bound then some e.1 else none)

/-- An address of the issuing core's scratchpad whose base is 16-byte aligned (R175, R177): its offset. -/
def vectorPlace (s : State) (a : Word) : Except Trap Nat :=
  if a.toNat % 16 ≠ 0 then .error { cause := 0x06, bad := a }
  else
    match (if isGlobal a then globalPlace s s.cur.p s.cur.c a 1 1 else .error ⟨0x0B, a⟩) with
    | .ok (.own _, off) => .ok off
    | _ => .error { cause := 0x0B, bad := a }

/-- The floor's change reaches a key's home (R171). -/
def floorTo (s : State) (p gn : Nat) (g : Group) (view : Nat) : State :=
  updLive s p fun l => { l with floors := mput l.floors (floorKey gn view) (BitVec.ofNat 64 (floorOf s p g)) }
/-- The place that an IST takes (R175, R181), and the state in which it does: by the floor that the home has seen, or by the
floor's latest change, which is then taken to have reached it. DEDUCED from R310 (no IST of that program stalls), log entry 71. -/
def istSlot (s t : State) (w : Word) (k : Key) (g : Group) : Option (State × Nat) :=
  let view := homeView (homeOf s.myPart k.base.toNat)
  match instarSlot k (reachBound k g (seenFloor s s.cur.p (keyGroup w) view)) with
  | some i => some (t, i)
  | none => (instarSlot k (reachBound k g (floorOf s s.cur.p g))).map fun i => (floorTo t s.cur.p (keyGroup w) g view, i)

/-- An IST with its elements read (R173, R175, R292): the home's page check; then it takes its place in the key's storage and
is posted like a relaxed store to the key's home. It stalls while the retention rule forbids the store. -/
def sendIst (s t : State) (w : Word) (k : Key) (g : Group) (h : IstHold) : Res :=
  let p := s.cur.p
  let hold : Res := .to (updMe s fun y => { blockSlot y .instar with ist := some h })
  match istSlot s t w k g with
  | none => hold
  | some (t, i) =>
    let va := k.base.toNat + 256 * i
    match acceptVa t p s.cur.c va .rw true with
    | (_, .error r) =>
      if r.wait then hold
      else if r.cause = 0x3F then .to (updMe s fun y => walkError y { ea := BitVec.ofNat 64 va })
      else .trap (keyRefusal s (va / 65536 * 65536) r)
    | (u, .ok (l, _)) =>
      let kind : AccKind := .ist (keyIndex w) i h.stamp h.data
      if !queuesRoom s.me kind then hold
      else
        let u := updLive u p fun x => { x with
          keys := mupd x.keys (keyIndex w) fun k => { k with coming := k.coming ++ [(i, h.stamp)] } }
        .to (acceptAcc u s.cur { core := s.cur.c, slot := s.cur.n, act := s.me.act, kind := kind, ea := BitVec.ofNat 64 va,
                                 leaf := l, place := .home (homeOf s.myPart k.base.toNat) })

/-- Own stores of a slot to bytes of its own scratchpad that are not performed yet. -/
def ownStoreTo (x : Slot) (off len : Nat) : Bool :=
  x.sb.any fun e => e.own && e.off < off + len && off < e.off + e.kind.bytes

/-- IST (R175): the elements are read at issue, after the slot's own stores to them, and stamped; a stalled IST keeps them. Of two
slots that stall in an IST of one key at one VT, the second finds the first one's instar when it goes on, and traps: DEDUCED, log
entry 71. -/
def execIst (x : AB) (s : State) : Out :=
  issue x.c [x.a, x.b] [] [] s fun v t =>
    match vectorPlace s (v 1) with
    | .error e => .trap e
    | .ok off =>
      match keyOf s s.cur.p (v 0) with
      | none => .trap { cause := 0x13, bad := v 0 }
      | some (k, g) =>
        let len := k.cnt * elemBytes k
        if !ownsKey s.cur.c k g then .trap { cause := 0x13, bad := v 0 }
        else if off + len > Config.spadBytes then .trap { cause := 0x0B, bad := v 1 }
        else
          match s.me.ist with
          | some h => if hasStamp k h.stamp.toNat then .trap { cause := 0x15 } else sendIst s t (v 0) k g h
          | none =>
            if hasStamp k s.mine.vt.toNat then .trap { cause := 0x15 }
            else if ownStoreTo s.me off len then .wait .memory
            else sendIst s t (v 0) k g { stamp := s.mine.vt, data := spadRead s s.cur.p s.cur.c off len }

/-! ### Reading (R177 to R180) -/

/-- How a read forms its result: an instar itself, between two, or beyond the last. -/
inductive Form where
  | inst (τ : Nat)
  | interp (τ0 τ1 d step : Nat)
  | extrap1 (τ0 τ1 e step : Nat)
  | extrap2 (τ0 τ1 τ2 e step : Nat)
  deriving DecidableEq, Repr
/-- The stamps a form reads. -/
def Form.stamps : Form → List Nat
  | .inst τ => [τ]
  | .interp a b _ _ | .extrap1 a b _ _ => [a, b]
  | .extrap2 a b c _ _ => [a, b, c]

/-- ILD.S's form, or its trap (R178). -/
def settledForm (k : Key) (w r : Member) (rank : Nat) (vt t : Word) : Except Nat Form :=
  let t' := t.toNat
  let o := w.origin.toNat
  let d := w.step.toNat
  if k.writer ≥ rank then .error 0x10
  else if t' < vt.toNat || t' > vt.toNat + r.step.toNat || t' < o then .error 0x11
  else
    let τ0 := o + (t' - o) / d * d
    if t' = τ0 then .ok (.inst τ0) else .ok (.interp τ0 (τ0 + d) (t' - τ0) d)
/-- ILD.U's form, or its trap (R179). -/
def upstreamForm (k : Key) (g : Group) (w : Member) (vt t : Word) : Except Nat Form :=
  let o := w.origin.toNat
  let d := w.step.toNat
  let bp := (lat o d ((vt.toNat : Int) - span g)).toNat
  let t' := t.toNat
  if t' < bp then .error 0x11
  else if t' - bp > k.xlim.toNat then .error 0x12
  else
    let q := min k.ord ((bp - o) / d)
    if t' = bp || q = 0 then .ok (.inst bp)
    else if q = 1 then .ok (.extrap1 (bp - d) bp (t' - bp) d)
    else .ok (.extrap2 (bp - 2 * d) (bp - d) bp (t' - bp) d)
/-- The form of a read of a key by a member. -/
def readForm (k : Key) (g : Group) (r : Nat × Member) (h : IldHold) : Except Nat Form :=
  match g.members[k.writer]? with
  | none => .error 0x13
  | some w => if h.upstream then upstreamForm k g w h.vt h.t else settledForm k w r.2 r.1 h.vt h.t

/-- One element of a result (R180), from the element's bits in each instar read. -/
def formElem (f : Fmt) (form : Form) (y : List Nat) : Nat × Flags :=
  let y0 := y.getD 0 0
  let y1 := y.getD 1 0
  let y2 := y.getD 2 0
  match form with
  | .inst _ => (y0, 0)
  | .interp _ _ d step =>
    let w := f.round .rne false d step
    let m := f.sub .rne y1 y0
    let r := f.fma .rne w.1 m.1 y0
    (r.1, w.2 ||| m.2 ||| r.2)
  | .extrap1 _ _ e step =>
    let w := f.round .rne false e step
    let m := f.sub .rne y1 y0
    let r := f.fma .rne w.1 m.1 y1
    (r.1, w.2 ||| m.2 ||| r.2)
  | .extrap2 _ _ _ e d =>
    let c0 := f.round .rne false (e * (e + d)) (2 * d * d)
    let c1 := f.round .rne true (e * (e + 2 * d)) (d * d)
    let c2 := f.round .rne false ((e + d) * (e + 2 * d)) (2 * d * d)
    let a := f.mul .rne c2.1 y2
    let b := f.fma .rne c1.1 y1 a.1
    let r := f.fma .rne c0.1 y0 b.1
    (r.1, c0.2 ||| c1.2 ||| c2.2 ||| a.2 ||| b.2 ||| r.2)

/-- The checks of ILD before any wait (R177), in order: the hold of the read, or a trap. -/
def ildCheck (s : State) (up : Bool) (w t dst : Word) : Except Trap IldHold :=
  match vectorPlace s dst with
  | .error e => .error e
  | .ok off =>
    let key (c : Nat) : Except Trap IldHold := .error { cause := c, bad := w }
    match keyOf s s.cur.p w with
    | none => key 0x13
    | some (k, g) =>
      match joinedIn g s.cur.c with
      | none => key 0x13
      | some r =>
        if k.kind != up then key 0x13
        else if off + k.cnt * elemBytes k > Config.spadBytes then .error { cause := 0x0B, bad := dst }
        else if owesInstar s s.cur.p s.cur.c (keyGroup w) r.1 then key 0x14
        else
          let h : IldHold := { upstream := up, dst := off, word := w, t := t, vt := s.mine.vt }
          match readForm k g r h with
          | .error c => key c
          | .ok form =>
            if (liveKey s s.cur.p (keyIndex w)).isSome then .ok h
            else if form.stamps.all fun τ => (instarAt k τ).isSome then .ok { h with gone := some k } else key 0x13
/-- ILD.S and ILD.U (R177): the slot is Blocked until the result is written. A key that its writer has dropped, where the slot may
still find it (R308), is read if its instars are there; a read that would have to wait ends in cause 0x13, as R174 ends a waiting
one (log entry 64). -/
def ild (up : Bool) (x : IldI) (s : State) : Out :=
  issue x.c [x.a, x.b, x.cc] [] [] s fun v t =>
    match ildCheck s up (v 0) (v 1) (v 2) with
    | .error e => .trap e
    | .ok h =>
      .to (updMe t fun y => { blockSlot y .instar with ild := some h, popped := poppedBy [x.a, x.b, x.cc] v })
/-- ILD.S (R178). -/
def execIldS (x : IldI) (s : State) : Out := ild false x s
/-- ILD.U (R179). -/
def execIldU (x : IldI) (s : State) : Out := ild true x s

/-- The second line of a place of a key's storage. -/
def secondLine (s : State) (p va : Nat) (l : Leaf) : Leaf := migLeaf s p (va + 128) { l with pa := l.pa + 128 }
/-- An uncorrectable error in a line of an instar (R323, R339): cause 0x3F, with whether rollback repairs it. -/
def instarError (s : State) (p va : Nat) (l : Leaf) : Option Refuse :=
  ([(va, l.pa), (va + 128, (secondLine s p va l).pa)].find? fun e =>
    s.memErrors.contains (e.2 / 128) && (dirtyCopy (s.part p).live (e.1 / 128)).isNone).map fun e =>
    ⟨0x3F, 0xFF, logged s p (e.2 / 128)⟩
/-- The lowest page of some instars' storage that is refused, or an error met there (R173, R323). -/
def refusedPage (s : State) (p core : Nat) (vas : List Nat) : Option (Nat × Refuse) :=
  vas.foldl (fun r va =>
    let page := va / 65536 * 65536
    let bad : Option Refuse := match (acceptVa s p core va .rw true).2 with
      | .error e => some e
      | .ok (l, _) => instarError s p va l
    match bad, r with
    | some e, some (q, f) => if page < q then some (page, e) else some (q, f)
    | some e, none => some (page, e)
    | none, _ => r) none
/-- The bytes of one instar, its page accepted and its lines clean. -/
def readInstar (s : State) (p core va : Nat) : State × List Byte :=
  match acceptVa s p core va .rw true with
  | (s, .error _) => (s, [])
  | (s, .ok (l, _)) =>
    let t := cleanLine (cleanLine s p (va / 128)) p (va / 128 + 1)
    (t, physRead t l.pa 128 ++ physRead t (secondLine s p va l).pa 128)
/-- An instar's line cannot be read at its home now (R357, R367). -/
def instarHeld (s : State) (p va : Nat) : Bool :=
  [va / 128, va / 128 + 1].any fun l => lineBusy s p l || behindLock s p (.home (homeOf (s.part p) va)) l
/-- The instars a form reads, each 256 bytes of a checked page: none while one is not published. One whose stamp was never
published, the key being registered after it, stays so: DESIGN CHOICE, log entry 65. -/
def readInstars (s : State) (p core : Nat) (k : Key) (τs : List Nat) :
    Option (State × Except (Nat × Refuse) (List (List Byte))) :=
  let at_ := τs.filterMap (instarAt k)
  let vas := at_.map fun i => k.base.toNat + 256 * i
  if at_.length < τs.length then none
  else
    match refusedPage s p core vas with
    | some (page, r) => if r.wait then none else some (s, .error (page, r))
    | none =>
      if vas.any (instarHeld s p) then none
      else
        let r := vas.foldl (fun (r : State × List (List Byte)) va =>
          let o := readInstar r.1 p core va
          (o.1, r.2 ++ [o.2])) (s, [])
        some (r.1, .ok r.2)

/-- The result bytes of a read with its flags. -/
def formBytes (k : Key) (form : Form) (insts : List (List Byte)) : List Byte × Flags :=
  let n := elemBytes k
  let f := if k.f64 then Machine.f64 else Machine.f32
  (List.range k.cnt).foldl (fun r j =>
    let e := formElem f form (insts.map fun b => fieldAt b (n * j) n)
    (r.1 ++ leBytes n e.1, r.2 ||| e.2)) ([], 0)

/-- The key of a waiting read: the one that it found dropped, else the registered one. -/
def heldKey (s : State) (p : Nat) (h : IldHold) : Option (Key × Group) :=
  match h.gone with
  | some k => (groupAt s p (keyGroup h.word)).map fun g => (k, g)
  | none => keyOf s p h.word
/-- What the ISTs of the instars that a read finds release to it (R177, R292). -/
def instarsTell (s : State) (p core : Nat) (k : Key) (τs : List Nat) : List Nat :=
  (τs.filterMap (instarAt k)).flatMap fun i =>
    visible (viewAt (s.part p).live.views { kind := .load 1 false, ea := BitVec.ofNat 64 (k.base.toNat + 256 * i),
                                            place := .home (homeOf (s.part p) k.base.toNat) }) core
/-- INSTAR_READ_COMPLETE (R177): the instars are there, the result is written after the slot's own older stores to its bytes
(DEDUCED, log entry 29), the flags are ORed, the slot goes on; the read acquires the ISTs. An uncorrectable error is reported at the
next instruction, with nothing written (R323). -/
def completeIld (s : State) (a : At) : State :=
  match (s.slotAt a.p a.c a.n).ild with
  | none => s
  | some h =>
    match heldKey s a.p h with
    | none => s
    | some (k, g) =>
      match readForm k g ((memberOf g a.c).getD (0, {})) h with
      | .error _ => s
      | .ok form =>
        match readInstars s a.p a.c k form.stamps with
        | none => s
        | some (t, .error (page, r)) =>
          if r.cause = 0x3F then updSlot t a.p a.c a.n fun x => walkError x { ea := BitVec.ofNat 64 page }
          else takeTrap (updSlot t a.p a.c a.n unpop) a (keyRefusal { t with cur := a } page r)
        | some (t, .ok insts) =>
          if ownStoreTo (s.slotAt a.p a.c a.n) h.dst (k.cnt * elemBytes k) then s
          else
            let out := formBytes k form insts
            let t := spadWrite t a.p a.c h.dst out.1
            advanceAt (updSlot (acquire t a (instarsTell s a.p a.c k form.stamps)) a.p a.c a.n fun x => orFlags x out.2) a
def execInstarReadComplete (a : At) (s : State) : Out := agentStep s a.p (completeIld s a)

/-- The oldest retained stamp of a key: what lies below the reach bound, as the home of the key has seen the floor, has
retired (R181). -/
def oldestKept (s : State) (p : Nat) (w : Word) (k : Key) (g : Group) : Option Nat :=
  let b := reachBound k g (seenFloor s p (keyGroup w) (homeView (homeOf (s.part p) k.base.toNat)))
  (k.stamps.find? fun e => b ≤ (e.2.toNat : Int)).map (·.2.toNat)
/-- IQRY (R182). -/
def execIqry (x : IqryI) (s : State) : Out :=
  issue x.c [x.a] [x.d] [] s fun v t =>
    let p := s.cur.p
    let w := v 0
    let bad : Res := .trap { cause := 0x13, bad := w }
    let put (n : Nat) : Res := .ok (putS t x.d (BitVec.ofNat 64 n))
    let ones := 2 ^ 64 - 1
    match x.sel.toNat with
    | 0 => match (keyOf s p w).map (·.1) with
      | some k => put ((horizon k).getD ones)
      | none => bad
    | 1 => match keyOf s p w with
      | some (k, g) => put ((oldestKept s p w k g).getD ones)
      | none => bad
    | 2 => if (groupAt s p (keyGroup w)).isSome then put (seenFloor s p (keyGroup w) (coreView s.cur.c))
           else bad
    | 3 => match groupAt s p (keyGroup w) with
      | some g => put (span g)
      | none => bad
    | 4 => put s.mine.vt.toNat
    | 5 => put (match membership s p s.cur.c with
      | some (_, _, rank, _) => rank
      | none => ones)
    | _ => .trap { cause := 0x01 }

/-- FLOOR_UPDATE (R171): the floor's change arrives at a place. -/
def execFloorUpdate (p g place : Nat) (s : State) : Out :=
  agentStep s p (match mfind? (s.part p).live.groups g with
    | some gr => floorTo s p g gr place
    | none => s)

end Sys2Proof.Machine
end

