-- ==== Sys2Proof/Machine/Engines.lean ====
section
/-! DEFINITION. The engine queues (spec/01_machine.md R29 to R34, spec/07_isa_vector.md R185 to R188): entering a command,
what holds it at its queue's head, discarding it, and completing it. -/

namespace Sys2Proof.Machine

/-- Commands a queue holds (R29); the running one stands at its head. -/
def depthOf : Engine → Nat
  | .copy | .vector => 2
  | .matrix => 4
def EngQ.held (q : EngQ) : Nat := q.queue.length + (if q.run.isSome then 1 else 0)

/-! ### Tiles (R214, R215, R237) -/

def tileSt (k : Core) (n : Nat) : TileState := mget .empty k.tstate n
def tileBad (k : Core) (n : Nat) : Bool := mget false k.tfault n
/-- A started command pins the tile (R215). -/
def pinned (k : Core) (n : Nat) : Bool :=
  [k.vq, k.mq].any fun q => match q.run with
    | some r => r.pins.contains n
    | none => false

/-- The tiles that hold a byte of the near side (R214). -/
def CopyCmd.tiles (x : CopyCmd) : List Nat :=
  (List.range 32).filter fun n => x.nearRows.any fun r => r.1 < 512 * n + 512 && (512 * n : Int) < r.1 + r.2

/-- The tiles that a command names (R214, R237). -/
def EngOp.tiles : EngOp → List Nat
  | .vloadT _ _ t | .vstoreT _ _ t | .tld _ t | .tst _ t => [t]
  | .msta _ t | .mlda _ t => [t, t + 1]
  | .copy x => x.tiles
  | _ => []
/-- The tiles of a TTSET mask. -/
def maskTiles (m : Word) : List Nat := (List.range 32).filter fun n => m.getLsbD n
/-- A data copy. -/
def EngOp.isCopy : EngOp → Bool
  | .copy _ => true
  | _ => false
/-- The tile table lets the command start (R214, R215). -/
def tilesPermit (k : Core) : EngOp → Bool
  | .copy x => x.tiles.all fun n => !pinned k n &&
      (if x.inbound then tileSt k n == .empty || (x.ovw && tileSt k n == .ready) else tileSt k n == .ready)
  | .ttset m _ _ => (maskTiles m).all fun n => !pinned k n
  | op => op.tiles.all fun n => tileSt k n == .ready

/-- A tile-naming instruction issues on a tile whose FAULT is set (R237): the record that set it is delivered, or, once it
has been, the trap names the tile and its SUB is a free value. -/
def tileTrap (s : State) (tiles : List Nat) : Option Res :=
  match tiles.find? (tileBad s.mine) with
  | none => none
  | some n =>
    match (mfind? s.mine.tfaultBy n).bind fun i => s.mine.frecs.find? fun f => f.id == i && !f.delivered with
    | some f => some (deliverRecord s f)
    | none => some (.to (takeTrap { s with fresh := s.fresh + 1 } s.cur
        { cause := 0x20, sub := (Config.freeSub s.fresh).toNat, bad := BitVec.ofNat 64 (0xFFFFFFFF00000000 + 512 * n) }))

/-! ### Entering (R30, R34, R81, R186) -/

/-- The accesses of the slot after whose performance a command starts: all of them for the copy engine (R236), those to
scratchpads and cluster stores for the vector engine and the matrix unit (R193, R218, R294). -/
def startsAfter (x : Slot) (e : Engine) : List Nat :=
  let near (a : Acc) : Bool := match a.place with
    | .own _ | .spad _ | .cstore _ _ => true
    | _ => false
  (((x.lq.map (·.acc)) ++ x.sb ++ x.unacked).filter fun a => e == .copy || near a).map (·.id)

/-- A command that reads QTBL (R204). -/
def EngOp.readsQtbl : EngOp → Bool
  | .mma _ _ _ _ cb _ _ => cb.toNat % 16 == 14
  | .copy x => x.conv && x.sfmt == .q4
  | _ => false
/-- The engine guard that a command's VCMP resolves (R198). -/
def EngOp.target : EngOp → Option EReg
  | .vcmp _ _ (.any e) _ _ | .vcmp _ _ (.all e) _ _ => some e
  | _ => none

/-- A command enters its queue with the next number (R30); a VCMP makes its e-slot unresolved (R199). -/
def enterCmd (s : State) (e : Engine) (cmd : Cmd) : State :=
  let num := (getQ s.mine e).assigned + 1
  let s := updMine s fun k =>
    let q := getQ k e
    let k := setQ k e { q with assigned := num, queue := q.queue ++ [{ cmd with num := num }] }
    match cmd.op with
    | .vqtbl _ => { k with lastQtbl := num }
    | _ => k
  updMe s fun x =>
    let x := match e with
      | .copy => { x with lastCopy := num }
      | .matrix => { x with lastMatrix := num }
      | .vector => { x with lastVector := num }
    match cmd.op.target with
    | some g => setEguard x g.toNat (.waiting num)
    | none => x

/-- The guard that a command takes with it: an e-slot's, as the latest VCMP before it leaves it (R34). -/
def takeGuard (x : Slot) (c : Ctl) : Option EGuard × Bool :=
  match c.guard with
  | .eng n neg => (some (eguard x n.toNat), neg)
  | _ => (none, false)

/-- ISSUING AN ENGINE COMMAND (R30, R34, R81, R186): a false predicate guard has no effect; the body checks the operands
and gives the command, or what the instruction does instead; a full queue blocks. Under an e-guard the operands are checked at issue,
as R187 and R218 say, whatever the e-slot holds or will hold; R86 makes such checks only under a true guard (DESIGN CHOICE, log
entry 73). -/
def issueEng (e : Engine) (c : Ctl) (r : Rnd) (srcs : List SOp) (s : State)
    (body : (Nat → Word) → Except Res EngOp) : Out :=
  let x := s.me
  let go : Out :=
    match hazard x srcs [] [] with
    | some w => finish s (.wait w)
    | none =>
      match body (fun i => peekS x (srcs.getD i (.s 0))) with
      | .error res => finish s res
      | .ok op =>
        if (getQ s.mine e).held ≥ depthOf e then finish s (.wait .engineFull)
        else
          let g := takeGuard x c
          finish s (.ok (enterCmd s e
            { slot := s.cur.n, act := x.act, task := x.taskId, guard := g.1, neg := g.2, rm := resolveRnd x r,
              after := startsAfter x e, qtbl := if op.readsQtbl then s.mine.lastQtbl else 0, know := x.seen, op := op }))
  match c.guard with
  | .pred n neg => if awaitsP x n then finish s (.wait .memory) else if readP x n != neg then go else finish s (.ok s)
  | _ => go

/-! ### Starting (R185, R228) -/

/-- The partition's engines may start commands: it runs, and no cut stops them (R331). -/
def engineMay (s : State) (p : Nat) : Bool := runs s p && (s.part p).cut != .stopping
/-- A command's guard, once resolved. -/
def Cmd.verdict (c : Cmd) : Option Bool :=
  match c.guard with
  | none => some true
  | some (.known b) => some (b != c.neg)
  | some (.waiting _) => none
/-- The head of a queue that has no running command. -/
def EngQ.head (q : EngQ) : Option Cmd := if q.run.isSome then none else q.queue.head?

/-- Queue registers that a command pops when it starts. -/
def EngOp.pops : EngOp → List Nat
  | .vdup _ _ none q | .vins _ _ _ none q => [q]
  | .vcvt _ _ _ _ _ seed sq idx iq _ =>
    (if seed.isNone then [sq] else []) ++ (if idx.isNone then [iq] else [])
  | _ => []
/-- The issuing activation is still the slot's. -/
def liveCmd (k : Core) (c : Cmd) : Bool := (mget ({} : Slot) k.slots c.slot).act == c.act
/-- The entries are there; a command whose activation has ended pops nothing (R188). -/
def popsReady (k : Core) (c : Cmd) : Bool :=
  !liveCmd k c ||
  let x := mget ({} : Slot) k.slots c.slot
  c.op.pops.all fun q => c.op.pops.count q ≤ (queueOf x q).length

/-- The head of an engine's queue, when nothing holds it (R34, R185, R214, R218, R228, R236, R237). Armature mode holds
the copy and matrix queues (R239). -/
def startable? (s : State) (p c : Nat) (e : Engine) : Option Cmd :=
  let k := s.coreAt p c
  match (getQ k e).head with
  | none => none
  | some cmd =>
    let x := mget ({} : Slot) k.slots cmd.slot
    let done (i : Nat) : Bool := !(x.lq.any (·.acc.id == i) || x.sb.any (·.id == i) || x.unacked.any (·.id == i))
    if engineMay s p && !(e != .vector && k.arm.active) && cmd.verdict == some true && popsReady k cmd &&
       !(cmd.op.tiles.any (tileBad k)) && cmd.after.all done && cmd.qtbl ≤ k.vq.completed && tilesPermit k cmd.op &&
       (!cmd.op.isCopy || k.frecs.length < 4)
    then some cmd else none

/-- A command becomes the running one. -/
def startCmd (s : State) (p c : Nat) (e : Engine) (r : Running) : State :=
  updCore s p c fun k => setQ k e { getQ k e with queue := (getQ k e).queue.tail, run := some r }

/-! ### Guards resolve (R34, R199) -/

/-- A VCMP's number resolves: its slot's e-slot if it still awaits it, and every queued command that does. -/
def resolveGuard (k : Core) (slot num : Nat) (b : Bool) : Core :=
  let fixG (g : EGuard) : EGuard := if g = .waiting num then .known b else g
  let fixC (c : Cmd) : Cmd := if c.slot = slot then { c with guard := c.guard.map fixG } else c
  let fixQ (q : EngQ) : EngQ := { q with queue := q.queue.map fixC }
  let x := mget ({} : Slot) k.slots slot
  { k with
    vq := fixQ k.vq, cq := fixQ k.cq, mq := fixQ k.mq,
    slots := mput k.slots slot ((List.range 4).foldl (fun x n => setEguard x n (fixG (eguard x n))) x) }

/-- GUARDED_COMMAND_DISCARD (R34, R37, R237): a head whose guard is false, or that names a tile with FAULT set, completes
with no other effect than its number; a VCMP resolves its e-slot false. A visit of the octet's arbiter ends as it empties the core's
matrix queue (R31). -/
def discardHead (s : State) (p c : Nat) (e : Engine) : State :=
  let k := s.coreAt p c
  match (getQ k e).head with
  | none => s
  | some cmd =>
    let held := e != .vector && k.arm.active
    if engineMay s p && !held && (cmd.verdict == some false || (cmd.verdict == some true && cmd.op.tiles.any (tileBad k))) then
      let t := updCore s p c fun k =>
        let k := setQ k e { getQ k e with queue := (getQ k e).queue.tail, completed := cmd.num }
        match cmd.op.target with
        | some _ => resolveGuard k cmd.slot cmd.num false
        | none => k
      if e = .matrix && (getQ (t.coreAt p c) e).queue.isEmpty && (s.octet p (octetOf c)).ptr % 8 = c % 8 then
        updOctet t p (octetOf c) fun x => { x with left := 0 }
      else t
    else s
def execGuardedCommandDiscard (x : CoreAt) (e : Engine) (s : State) : Out := agentStep s x.p (discardHead s x.p x.c e)

/-! ### Completing (R186, R188, R214, R226, R235) -/

/-- An access of the engine's running command is under way (R287). -/
def engineBusy (s : State) (p c : Nat) (e : Engine) : Bool :=
  let x := (s.part p).live
  let mine (a : Acc) : Bool := a.eng == some e && a.core == c
  x.chans.any (fun f => mine f.2.2) || x.delivered.any mine || x.resps.any fun r => mine r.1
/-- An access of a command is posted (R294): at the own scratchpad it is performed at once. -/
def sendEng (s : State) (p : Nat) (a : Acc) : State := sendOut { s with nextId := s.nextId + 1 } p { a with id := s.nextId }
/-- An access of a command, whose first byte has a position among those it moves. -/
def engAcc (c : Nat) (g : Engine) (cmd : Cmd) (k : AccKind) (ea : Word) (pos : Nat) : Acc :=
  { core := c, slot := cmd.slot, act := cmd.num, kind := k, ea := ea, eng := some g, piece := pos }
/-- An access of a command to a scratchpad or a cluster store; one that leads nowhere any more reads zero and writes
nothing. -/
def sendNear (s : State) (p c : Nat) (g : Engine) (cmd : Cmd) (k : AccKind) (ea : Word) (pos : Nat) : State :=
  let a := engAcc c g cmd k ea pos
  match globalPlace s p c ea 1 k.bytes with
  | .ok (pl, _) => sendEng s p { a with place := pl }
  | .error _ => engineReceive s p g a {}
/-- A change of an engine's running command. -/
def updRun (s : State) (p c : Nat) (g : Engine) (f : Running → Running) : State :=
  updCore s p c fun k => setQ k g { getQ k g with run := (getQ k g).run.map f }

/-- The push of a completing command can be made: its activation has ended, or its queue register has room beside the `owed` results
that others will push there. -/
def pushReady (x : Slot) (live : Bool) (eff : Effect) (owed : Nat) : Bool :=
  match eff.push with
  | some (q, _) => !live || (queueOf x q).length + pendingPush x q + owed < 4
  | none => true
/-- Results that CHSTATs of a slot, accepted and not yet executed, will push to a queue register (R276). -/
def statPushes (s : State) (p c n q : Nat) : Nat :=
  ((s.cluster p (clusterOf c)).ctxs.map fun k => k.2.queue.countP fun m =>
    m.at_ == ⟨p, c, n⟩ && m.act == (s.slotAt p c n).act && (match m.op with
      | .stat d _ => d == .queue q
      | _ => false)).sum
/-- The push of a slot's completing command finds room (R32). -/
def pushFits (s : State) (p c : Nat) (cmd : Cmd) (eff : Effect) : Bool :=
  pushReady (s.slotAt p c cmd.slot) (liveCmd (s.coreAt p c) cmd) eff (statPushes s p c cmd.slot (eff.push.elim 0 (·.1)))

/-- What completion does to the issuing slot: the NOLEGAL count always, the rest while the activation lives (R188). -/
def landEffect (x : Slot) (live : Bool) (eff : Effect) : Slot :=
  let x := if eff.nolegal then { x with nolegal := x.nolegal + 1 } else x
  if live then
    let x := eff.vregs.foldl (fun x e => writeV x e.1 e.2) x
    let x := match eff.push with
      | some (q, v) => pushQ x q v
      | none => x
    orFlags x eff.flags
  else x

/-- What completion does to the core: engine registers, the tile table, counters. -/
def coreEffect (k : Core) (cmd : Cmd) (eff : Effect) : Core :=
  { k with
    spad := eff.spad.foldl (fun m e => mset 0 m e.1 e.2) k.spad,
    units := eff.spad.foldl (fun us e => logUnits us e.1 1) k.units,
    tregs := eff.tregs.foldl (fun m e => mset 0 m e.1 e.2) k.tregs,
    accs := eff.accs.foldl (fun m e => mset 0 m e.1 e.2) k.accs,
    qtbl := eff.qtbl.getD k.qtbl,
    tstate := match eff.tileTo with
      | some t => eff.tiles.foldl (fun m n => mset .empty m n t) k.tstate
      | none => k.tstate,
    terms := k.terms + BitVec.ofNat 64 eff.terms,
    gsteps := k.gsteps + BitVec.ofNat 64 eff.gsteps,
    skips := k.skips + BitVec.ofNat 64 eff.skips,
    mcmds := if eff.mma then k.mcmds + 1 else k.mcmds,
    zdBytes := match eff.zd with
      | some n => mset 0 k.zdBytes cmd.slot n
      | none => k.zdBytes }

/-- A VQTBL completes: queued commands entered before it read the table that it replaces (R204). -/
def captureTable (k : Core) (num : Nat) : Core :=
  let fix (c : Cmd) : Cmd := if c.op.readsQtbl && c.qtbl < num && c.table.isNone then { c with table := some k.qtbl } else c
  { k with cq := { k.cq with queue := k.cq.queue.map fix }, mq := { k.mq with queue := k.mq.queue.map fix } }
/-- A command completes: its effects, its guard, its number (R148). -/
def completeCmd (s : State) (p c : Nat) (e : Engine) (cmd : Cmd) (eff : Effect) : State :=
  let live := liveCmd (s.coreAt p c) cmd
  let s := updSlot s p c cmd.slot fun x => landEffect x live eff
  updCore s p c fun k =>
    let k := if eff.qtbl.isSome then captureTable k cmd.num else k
    let k := coreEffect k cmd eff
    let k := match eff.resolve with
      | some b => resolveGuard k cmd.slot cmd.num b
      | none => k
    setQ k e { getQ k e with run := none, completed := cmd.num }
/-- The running command completes when its push can be made (R32). -/
def finishWith (s : State) (p c : Nat) (e : Engine) (cmd : Cmd) (eff : Effect) : State :=
  if pushFits s p c cmd eff then completeCmd s p c e cmd eff else s
/-- The same for a command that moves no memory. -/
def finishRun (s : State) (p c : Nat) (e : Engine) : State :=
  match (getQ (s.coreAt p c) e).run with
  | none => s
  | some r => finishWith s p c e r.cmd r.eff

end Sys2Proof.Machine
end

