-- ==== Sys2Proof/Machine/Sampling.lean ====
section
/-! DEFINITION. The sampling instructions (spec/10_chisel.md R278 to R282). -/

namespace Sys2Proof.Machine

/-- An address operand of an engine command that touches scratchpads and cluster stores: virtual, R46, the multiple, the
extent. -/
def nearPlace (s : State) (a : Word) (align len : Nat) : Except Trap (Place × Nat) :=
  if !isGlobal a then .error { cause := 0x08, bad := a }
  else match globalPlace s s.cur.p s.cur.c a align len with
    | .ok r => .ok r
    | .error f => .error { cause := f.cause, bad := f.bad }

/-- KeyOf (R279), of 32 bits. -/
def keyBits (b : BitVec 32) : BitVec 32 := if b.msb then b ^^^ 0x7FFFFFFF else b

/-- An eligible element: legal and no NaN (R278). -/
def eligible (mask : List Byte) (moff i : Nat) (bits : Nat) : Bool :=
  (mask.getD ((moff + i) / 8) 0).getLsbD ((moff + i) % 8) && !(Machine.f32.read bits).isNan

/-- The eligible element of largest key, lowest index among equals, over the elements given (R280). -/
def bestKey (mask : List Byte) (moff : Nat) (ls : List Nat) : Option (Nat × Int) :=
  ls.zipIdx.foldl (fun r e =>
    if eligible mask moff e.2 e.1 then
      let k := (keyBits (BitVec.ofNat 32 e.1)).toInt
      match r with
      | some (_, m) => if k > m then some (e.2, k) else r
      | none => some (e.2, k)
    else r) none

/-- W(i) of an eligible element (R280): logit l, team maximum m, scale c, threshold θ, all f32 bits. -/
def weight (l m c θ : Nat) : Nat :=
  let f := Machine.f32
  let pinf := f.inf
  let ninf := f.sign true f.inf
  if m = ninf then 0
  else if m = pinf then (if l = pinf then 2 ^ 40 else 0)
  else if l = ninf then 0
  else
    let d := (f.sub .rne l m).1
    let d := if (FV.fin false 0 0).lt (f.read d) then 0 else d
    let y := (f.mul .rne d c).1
    let w := (exp2F32 y).1
    if (f.read w).lt (f.read θ) then 0
    else match f.read w with
      | .fin _ k e => k * 2 ^ (e + 40).toNat / 2 ^ (-(e + 40)).toNat
      | _ => 0

/-- The weights of a chunk. -/
def weights (mask : List Byte) (moff : Nat) (ls : List Nat) (m c θ : Nat) : List Nat :=
  ls.zipIdx.map fun e => if eligible mask moff e.2 e.1 then weight e.1 m c θ else 0

/-- M, c and θ from a group's first two registers, or nothing where R280 gives cause 0x02. -/
def sampParams (g0 g1 : Word) : Option (Nat × Nat × Nat) :=
  let f := Machine.f32
  let m := (keyBits (g0.setWidth 32)).toNat
  let c := g0.toNat / 2 ^ 32
  let θ := g1.toNat % 2 ^ 32
  let zero := FV.fin false 0 0
  let cOk := match f.read c with
    | .fin n k _ => !n && k != 0
    | _ => false
  let t := f.read θ
  let θOk := !t.isNan && !t.lt zero && !(f.read 0x3F800000).lt t
  if cOk && θOk && !(f.read m).isNan && g1.toNat / 2 ^ 32 = 0 then some (m, c, θ) else none

/-- SPICK's word, and whether it took the no-legal path (R282). -/
def pick (ws : List Nat) (r S P : Nat) : Nat × Bool :=
  if S = 0 then (0x00000001FFFFFFFF, true)
  else
    let t := r * S / 2 ^ 64
    if t < P then (0x00000000FFFFFFFE, false)
    else
      let u := t - P
      match (ws.zipIdx.foldl (fun (st : Nat × Option Nat) e =>
          (st.1 + e.1, if st.2.isNone && st.1 + e.1 > u then some e.2 else st.2)) (0, none)).2 with
      | some i => (0x0000000200000000 ||| i, false)
      | none => (0x00000000FFFFFFFE, false)

/-- The result of a sampling command over its chunk (R280, R282). -/
def sampResult (o : SampOp) (mask : List Byte) (moff : Nat) (ls : List Nat) (g : List Word) : Word × Bool :=
  let gr (i : Nat) : Word := g.getD i 0
  let wsum (m c θ : Nat) : List Nat := weights mask moff ls m c θ
  match o with
  | .smaxl =>
    (match bestKey mask moff ls with
     | some (_, k) => BitVec.ofInt 64 k
     | none => 0xFFFFFFFF807FFFFF, false)
  | .sgreedy =>
    (match bestKey mask moff ls with
     | some (i, k) => (BitVec.ofInt 64 k <<< 32) ||| BitVec.ofNat 64 (0xFFFFFFFF - ((gr 0).toNat + i))
     | none => 0x8000000000000000, false)
  | .swsum =>
    match sampParams (gr 0) (gr 1) with
    | some (m, c, θ) => (BitVec.ofNat 64 (wsum m c θ).sum, false)
    | none => (0, false)
  | .spick =>
    match sampParams (gr 0) (gr 1) with
    | some (m, c, θ) =>
      let r := pick (wsum m c θ) (gr 2).toNat (gr 3).toNat (gr 4).toNat
      (BitVec.ofNat 64 r.1, r.2)
    | none => (0, false)

/-- The bytes of a chunk's mask. -/
def maskLen (n moff : Nat) : Nat := (moff + n + 7) / 8
/-- The i-th access of a chunk form (R278): a logit, or an aligned 8-byte unit of the mask. It gives the address, the length
and the position of the bytes: the logits' first. -/
def sampPiece (a b : Word) (n moff i : Nat) : Option (Word × Nat × Nat) :=
  let j := i - n
  if i < n then some (a + BitVec.ofNat 64 (4 * i), 4, 4 * i)
  else if 8 * j < maskLen n moff then some (b + BitVec.ofNat 64 (8 * j), min 8 (maskLen n moff - 8 * j), 4 * n + 8 * j)
  else none
/-- The effect of a sampling command once its bytes are read (R278). -/
def sampEffect (got : Bytes) (o : SampOp) (q n moff : Nat) (g : List Word) : Effect :=
  let ls := (List.range n).map fun i => leNat (bytesAt got (4 * i) 4)
  let r := sampResult o (bytesAt got (4 * n) (maskLen n moff)) moff ls g
  { push := some (q, r.1), nolegal := r.2 }

/-- Issuing a chunk form (R278): `k` registers of the group that C names; `more` are the checks of the values. -/
def sampIssue (o : SampOp) (k : Nat) (x : SampI) (s : State) (more : List Word → Bool) : Out :=
  let grp : List SOp := (List.range k).map fun i => .s (x.cc + BitVec.ofNat 6 i)
  issueEng .vector x.c .rne ([.s x.a, .s x.b] ++ grp) s fun v =>
    let n := x.n.toNat
    match nearPlace s (v 0) 4 (4 * n) with
    | .error e => .error (.trap e)
    | .ok _ =>
      match nearPlace s (v 1) 16 ((x.moff.toNat + n + 7) / 8) with
      | .error e => .error (.trap e)
      | .ok _ =>
        let g := (List.range k).map fun i => v (i + 2)
        if more g then .ok (.samp o x.q.toNat (v 0) (v 1) n x.moff.toNat g) else .error (.trap { cause := 0x02 })
/-- The check of C and C+1 (R280). -/
def paramsOk (g : List Word) : Bool := (sampParams (g.getD 0 0) (g.getD 1 0)).isSome

/-- SMAXL (R280). -/
def execSmaxl (x : SampI) (s : State) : Out := sampIssue .smaxl 0 x s fun _ => true
/-- SWSUM (R280). -/
def execSwsum (x : SampI) (s : State) : Out := sampIssue .swsum 2 x s paramsOk
/-- SPICK (R282). -/
def execSpick (x : SampI) (s : State) : Out := sampIssue .spick 5 x s paramsOk
/-- SGREEDY (R280): the last token must not pass 2^20. -/
def execSgreedy (x : SampI) (s : State) : Out :=
  sampIssue .sgreedy 1 x s fun g => (g.getD 0 0).toNat + x.n.toNat ≤ 2 ^ 20
/-- SDRAW (R281). -/
def execSdraw (x : SDrawI) (s : State) : Out :=
  issueEng .vector x.c .rne [.s x.a, .s x.b] s fun v => .ok (.sdraw x.q.toNat (v 0) (v 1))

end Sys2Proof.Machine
end

