-- ==== Sys2Proof/Machine/VecCalc.lean ====
section
/-! DEFINITION. What the vector engine computes (spec/07_isa_vector.md R189 to R211): lanes, arithmetic, reductions,
conversions, the batched solver. -/

namespace Sys2Proof.Machine

/-! ### Lanes (R189) -/

/-- Lane k of width w. -/
def lane (w : Nat) (v : V128) (k : Nat) : Nat := v.toNat / 2 ^ (w * k) % 2 ^ w
/-- The register of lanes, lane 0 first. -/
def ofLanes (w : Nat) (xs : List Nat) : V128 := BitVec.ofNat 128 (xs.foldr (fun x r => x % 2 ^ w + 2 ^ w * r) 0)
def lanesOf (w : Nat) (v : V128) : List Nat := (List.range (128 / w)).map (lane w v)
/-- Lane k replaced. -/
def setLane (w : Nat) (v : V128) (k x : Nat) : V128 := ofLanes w ((lanesOf w v).set k x)
/-- Lane-wise results with the flags of all lanes ORed (R195). -/
def mapLanes (w : Nat) (f : Nat → Nat × Flags) : V128 × Flags :=
  let rs := (List.range (128 / w)).map f
  (ofLanes w (rs.map (·.1)), rs.foldl (fun fl r => fl ||| r.2) 0)

/-! ### Arithmetic (R195 to R198) -/

/-- One lane of a floating-point operation. -/
def vfpLane (o : VFop) (f : Fmt) (m : RMode) (a b c : Nat) : Nat × Flags :=
  match o with
  | .add => f.add m a b
  | .sub => f.sub m a b
  | .mul => f.mul m a b
  | .div => f.div m a b
  | .sqrt => f.sqrt m a
  | .min => f.minMax false a b
  | .max => f.minMax true a b
  | .abs => f.withSign a false
  | .neg => f.withSign a (!f.signOf a)
  | .fma => f.fma m a b c
  | .fms => f.fmaV m (f.read a) (f.read b) (f.read c).negate
  | .fnma => f.fmaV m (f.read a).negate (f.read b) (f.read c)
  | .exp2 => exp2F32 a
  | .log2 => log2F32 a
  | .rcp => rcpF32 a
  | .rsq => rsqF32 a
/-- A floating-point operation on registers. -/
def vfp (o : VFop) (t : Ty) (m : RMode) (a b c : V128) : V128 × Flags :=
  let w := t.bits
  mapLanes w fun k => vfpLane o (tyFmt t) m (lane w a k) (lane w b k) (lane w c k)

/-- One lane of an integer operation at width w (R197). -/
def vintLane (o : VIop) (signed : Bool) (w a b : Nat) : Nat :=
  let less (x y : Nat) : Bool := intOf signed w x < intOf signed w y
  match o with
  | .add => a + b
  | .sub => a + 2 ^ w - b
  | .mul => a * b
  | .shl => a * 2 ^ (b % w)
  | .shr => a / 2 ^ (b % w)
  | .sar => ofInt w (intOf true w a / (2 ^ (b % w) : Nat))
  | .and => a &&& b
  | .or => a ||| b
  | .xor => a ^^^ b
  | .min => if less b a then b else a
  | .max => if less a b then b else a
def vint (o : VIop) (t : Ty) (a b : V128) : V128 :=
  let w := t.bits
  ofLanes w ((List.range t.lanes).map fun k => vintLane o t.signed w (lane w a k) (lane w b k))

/-- One lane's comparison (R198, R110). -/
def vcmpLane (t : Ty) (c : FCond) (a b : Nat) : Bool × Flags :=
  if t.isInt then
    let x := intOf t.signed t.bits a
    let y := intOf t.signed t.bits b
    (match c with
     | .eq => x == y
     | .ne => x != y
     | .lt => x < y
     | .le => x ≤ y
     | .gt => y < x
     | .ge => y ≤ x
     | .un | .or => false, 0)
  else (tyFmt t).cmp c a b
/-- The verdict of each lane, with the flags. -/
def vcmp (t : Ty) (c : FCond) (a b : V128) : List Bool × Flags :=
  let rs := (List.range t.lanes).map fun k => vcmpLane t c (lane t.bits a k) (lane t.bits b k)
  (rs.map (·.1), rs.foldl (fun fl r => fl ||| r.2) 0)

/-- VPERM (R200). -/
def vperm (a b c : V128) : V128 :=
  ofLanes 8 ((List.range 16).map fun n =>
    let x := lane 8 c n
    if x ≥ 128 then 0 else if x % 32 < 16 then lane 8 a (x % 32) else lane 8 b (x % 32 - 16))

/-! ### Reduction (R201) -/

def redStep (t : Ty) (o : RedOp) (m : RMode) (a b : Nat) : Nat × Flags :=
  if t.isInt then
    (match o with
     | .sum => (a + b) % 2 ^ t.bits
     | .min => vintLane .min t.signed t.bits a b
     | .max => vintLane .max t.signed t.bits a b, 0)
  else
    match o with
    | .sum => (tyFmt t).add m a b
    | .min => (tyFmt t).minMax false a b
    | .max => (tyFmt t).minMax true a b
/-- One level of the tree: neighbours combined. -/
def redLevel (t : Ty) (o : RedOp) (m : RMode) : List Nat → List Nat × Flags
  | a :: b :: rest =>
    let r := redStep t o m a b
    let q := redLevel t o m rest
    (r.1 :: q.1, r.2 ||| q.2)
  | xs => (xs, 0)
def redTree (t : Ty) (o : RedOp) (m : RMode) : Nat → List Nat → Nat × Flags
  | 0, xs => (xs.headD 0, 0)
  | n + 1, xs =>
    let l := redLevel t o m xs
    let r := redTree t o m n l.1
    (r.1, l.2 ||| r.2)
def vred (t : Ty) (o : RedOp) (m : RMode) (a : V128) : V128 × Flags :=
  let r := redTree t o m (Nat.log2 t.lanes) (lanesOf t.bits a)
  (ofLanes t.bits [r.1], r.2)

/-! ### Conversion (R202) -/

/-- VCVT: `mode` gives the rounding mode of element m of the command. -/
def vcvt (src dst : Ty) (mode : Nat → RMode) (p : Nat) (d a : V128) : V128 × Flags :=
  let ws := src.bits
  let wt := dst.bits
  let n := if ws ≥ wt then 128 / ws else 128 / wt
  let lo := if ws ≥ wt then 0 else p * n
  let rs := (List.range n).map fun k => tyConvert src dst (mode k) (lane ws a (lo + k))
  let fl := rs.foldl (fun fl r => fl ||| r.2) 0
  if ws ≥ wt then
    (ofLanes wt ((lanesOf wt d).zipIdx.map fun e =>
      if p * n ≤ e.2 && e.2 < (p + 1) * n then (rs.getD (e.2 - p * n) (0, 0)).1 else e.1), fl)
  else (ofLanes wt (rs.map (·.1)), fl)

/-! ### Dot products (R205) -/

/-- Sat32 with its flag (R74, R205). -/
def sat32 (v : Int) : Nat × Flags :=
  if v > 2147483647 then (0x7FFFFFFF, fSAT) else if v < -2147483648 then (0x80000000, fSAT) else (ofInt 32 v, 0)
def vdot4 (uns : Bool) (a b c : V128) : V128 × Flags :=
  mapLanes 32 fun j =>
    sat32 (((List.range 4).map fun k => intOf (!uns) 8 (lane 8 a (4 * j + k)) * intOf true 8 (lane 8 b (4 * j + k))).sum
      + intOf true 32 (lane 32 c j))

/-! ### The batched solver (R206 to R210) -/

/-- A solver descriptor: order, count, format (R206). -/
structure Solver where
  n : Nat
  count : Nat
  dbl : Bool
  deriving DecidableEq, Repr
def Solver.read (d : Word) : Option Solver :=
  let v := d.toNat
  let n := v % 32
  let count := v / 2 ^ 16 % 2 ^ 16
  if v / 2 ^ 32 = 0 && v / 2 ^ 9 % 128 = 0 && v / 32 % 8 = 0 && 1 ≤ n && n ≤ 16 && 1 ≤ count && count ≤ 1024 then
    some ⟨n, count, v / 256 % 2 == 1⟩
  else none
def Solver.fmt (x : Solver) : Fmt := if x.dbl then Machine.f64 else Machine.f32
def Solver.elem (x : Solver) : Nat := if x.dbl then 8 else 4
def roundUp16 (n : Nat) : Nat := (n + 15) / 16 * 16
/-- Sizes of one matrix and one vector (R207). -/
def Solver.ms (x : Solver) : Nat := roundUp16 (x.n * x.n * x.elem)
def Solver.vs (x : Solver) : Nat := roundUp16 (x.n * x.elem)

/-- The elements of a byte area. -/
def elemsOf (size : Nat) : Nat → List Byte → List Nat
  | 0, _ => []
  | n + 1, bs => leNat (bs.take size) :: elemsOf size n (bs.drop size)
def chunks (k : Nat) : Nat → List Nat → List (List Nat)
  | 0, _ => []
  | n + 1, xs => xs.take k :: chunks k n (xs.drop k)

/-- A matrix under factorisation. -/
structure Luf where
  rows : List (List Nat) := []
  perm : List Nat := []
  reg : Nat := 0
  zero : Bool := false
  flags : Flags := 0
  deriving DecidableEq, Repr

def at2 (rows : List (List Nat)) (i j : Nat) : Nat := (rows.getD i []).getD j 0
/-- Size of an element for pivoting: its magnitude bits, a NaN above every number (R209). -/
def pivotKey (f : Fmt) (x : Nat) : Nat := if (f.read x).isNan then 2 ^ f.width else x % 2 ^ (f.e + f.m)
/-- The row in j..n-1 of largest magnitude, the lowest of equals. -/
def pivotRow (f : Fmt) (rows : List (List Nat)) (n j : Nat) : Nat :=
  (List.range n).foldl (fun q r => if r > j && pivotKey f (at2 rows r j) > pivotKey f (at2 rows q j) then r else q) j
def swapAt {α : Type} (d : α) (xs : List α) (i j : Nat) : List α := (xs.set i (xs.getD j d)).set j (xs.getD i d)

/-- Column j of LUF (R209): pivot, replacement, multipliers and eliminations. -/
def lufColumn (f : Fmt) (n τ δ : Nat) (st : Luf) (j : Nat) : Luf :=
  let q := pivotRow f st.rows n j
  let rows := swapAt [] st.rows q j
  let p := at2 rows j j
  let v := f.read p
  let small := v.isZero || (!v.isNan && (f.read (p % 2 ^ (f.e + f.m))).lt (f.read τ))
  let piv := if small then (if f.signOf p && !v.isZero then f.sign true δ else δ) else p
  let rows := rows.set j ((rows.getD j []).set j piv)
  let top := rows.getD j []
  let step (r : List Nat × Flags) : List Nat × Flags :=
    let m := f.div .rne (r.1.getD j 0) piv
    let row := r.1.set j m.1
    (List.range n).foldl (fun r k =>
      if k > j then
        let e := f.fmaV .rne (f.read m.1).negate (f.read (top.getD k 0)) (f.read (r.1.getD k 0))
        (r.1.set k e.1, r.2 ||| e.2)
      else r) (row, r.2 ||| m.2)
  let rs := rows.zipIdx.map fun e => if e.2 > j && e.2 < n then step (e.1, 0) else (e.1, 0)
  { rows := rs.map (·.1), perm := swapAt 0 st.perm q j, reg := if small then st.reg + 2 ^ j else st.reg,
    zero := st.zero || v.isZero, flags := rs.foldl (fun fl r => fl ||| r.2) st.flags }
/-- LUF of one matrix (R209). -/
def lufMatrix (f : Fmt) (n τ δ : Nat) (rows : List (List Nat)) : Luf :=
  (List.range n).foldl (lufColumn f n τ δ) { rows := rows, perm := List.range n }
/-- STATUS (R208). -/
def Luf.status (x : Luf) (f : Fmt) : Nat :=
  let nonfin := x.rows.any fun r => r.any fun e => match f.read e with
    | .fin _ _ _ => false
    | _ => true
  x.reg + (if x.zero then 2 ^ 16 else 0) + (if nonfin then 2 ^ 17 else 0)
/-- The record of a matrix (R207). -/
def Luf.record (x : Luf) (f : Fmt) : List Byte :=
  (x.perm.map fun r => BitVec.ofNat 8 r) ++ List.replicate (16 - x.perm.length) 0 ++ leBytes 4 (x.status f) ++
  List.replicate 12 0
/-- The stored factors. -/
def Luf.bytes (x : Luf) (size : Nat) : List Byte := x.rows.flatMap fun r => r.flatMap fun e => leBytes size e

/-- s := FMA(-a, x, s) with the flags so far. -/
def subMul (f : Fmt) (a x : Nat) (s : Nat × Flags) : Nat × Flags :=
  let r := f.fmaV .rne (f.read a).negate (f.read x) (f.read s.1)
  (r.1, s.2 ||| r.2)
/-- LUS of one matrix (R210). -/
def lusVector (f : Fmt) (n : Nat) (rows : List (List Nat)) (perm b : List Nat) : List Nat × Flags :=
  let y0 := (List.range n).map fun r => b.getD (perm.getD r 0 % n) 0
  let fwd := (List.range n).foldl (fun (st : List Nat × Flags) i =>
    let s := (List.range i).foldl (fun s k => subMul f (at2 rows i k) (st.1.getD k 0) s) (y0.getD i 0, st.2)
    (st.1.set i s.1, s.2)) (y0, 0)
  (List.range n).foldl (fun (st : List Nat × Flags) u =>
    let i := n - 1 - u
    let s := (List.range n).foldl (fun s k => if k > i then subMul f (at2 rows i k) (st.1.getD k 0) s else s)
      (st.1.getD i 0, st.2)
    let x := f.div .rne s.1 (at2 rows i i)
    (st.1.set i x.1, s.2 ||| x.2)) fwd

/-- Whether two areas of one command overlap (R207). -/
def areasMeet (a la b lb : Nat) : Bool := a < b + lb && b < a + la

end Sys2Proof.Machine
end

