-- ==== Sys2Proof/Machine/Vector.lean ====
section
/-! DEFINITION. Vector and solver instructions (spec/07_isa_vector.md) and the steps of the vector engine. -/

namespace Sys2Proof.Machine

/-! ### Starting and completing a vector command (R186, R191, R192) -/

/-- Where a vector command's sources stand when it starts: the slot with its queue registers popped, and the popped
values by queue. A command whose activation has ended pops nothing. -/
def popAll (x : Slot) (qs : List Nat) : List Word × Slot :=
  qs.foldl (fun r q => (r.1 ++ [(queueOf r.2 q).headD 0], popQ r.2 q)) ([], x)

/-- The lanes of a copy of a value (R194). -/
def splat (w : Nat) (v : Word) : V128 := ofLanes w (List.replicate (128 / w) v.toNat)

/-! ### The accesses of the batched solver (R206 to R211)

LUF and LUS access their areas one element at a time. An element of LUF's matrix is read once, when R209 first names it, and
the factors, PERM and STATUS are written by its last line: DEDUCED, log entry 6. -/

/-- An access of a batch: a read of some bytes, or a write; `last` ends its matrix. -/
inductive BatchAcc where
  | read (a : Word) (size : Nat)
  | write (a : Word) (bs : List Byte) (last : Bool)
  deriving DecidableEq, Repr

/-- The matrix elements in the order in which LUF reads them (R209), from the numbers read so far: column 0 for the first pivot,
the two rows that swap, then each row of the elimination. -/
def lufOrder (f : Fmt) (n : Nat) (vals : List Nat) : List (Nat × Nat) :=
  let first := (List.range n).map fun i => (i, 0)
  if vals.length < n then first
  else
    let q := pivotRow f (vals.map fun v => [v]) n 0
    let row (i : Nat) : Nat := if i = 0 then q else if i = q then 0 else i
    let swap := if q = 0 then [] else (List.range n).flatMap fun k => [(q, k), (0, k)]
    let elim := (List.range n).flatMap fun i => if i = 0 then [] else
      (List.range n).flatMap fun k => if k = 0 then [] else [(row 0, k), (row i, k)]
    (first ++ swap ++ elim).foldl (fun l e => if l.contains e then l else l ++ [e]) []
/-- The rows of a matrix from its elements in some order of reading. -/
def rowsRead (n : Nat) (order : List (Nat × Nat)) (vals : List Nat) : List (List Nat) :=
  (List.range n).map fun i => (List.range n).map fun k => vals.getD (order.idxOf (i, k)) 0
/-- LUF's factors of a matrix whose elements are read (R209). -/
def lufOf (d : Solver) (par : Word) (vals : List Nat) : Luf :=
  let conv (b : Nat) : Nat := if d.dbl then (Machine.f64.convert .rne (Machine.f32.read b)).1 else b
  lufMatrix d.fmt d.n (conv (par.toNat % 2 ^ 32)) (conv (par.toNat / 2 ^ 32)) (rowsRead d.n (lufOrder d.fmt d.n vals) vals)
/-- What LUF writes: elements row by row, then the record's PERM bytes, STATUS and zero words. -/
def lufWrites (d : Solver) (r : Luf) (mat rec : Word) : List (Word × List Byte) :=
  (r.rows.flatten.zipIdx.map fun e => (mat + BitVec.ofNat 64 (d.elem * e.2), leBytes d.elem e.1)) ++
  ((List.range 16).map fun i => (rec + BitVec.ofNat 64 i, leBytes 1 (r.perm.getD i 0))) ++
  [(rec + 16, leBytes 4 (r.status d.fmt)), (rec + 20, leBytes 4 0), (rec + 24, leBytes 4 0), (rec + 28, leBytes 4 0)]
/-- LUF's next access to matrix and record `mat`, `rec`. -/
def lufNext (d : Solver) (par mat rec : Word) (vals : List Nat) (wrote : Nat) : Option BatchAcc :=
  if vals.length < d.n * d.n then
    ((lufOrder d.fmt d.n vals)[vals.length]?).map fun e => .read (mat + BitVec.ofNat 64 (d.elem * (e.1 * d.n + e.2))) d.elem
  else
    let ws := lufWrites d (lufOf d par vals) mat rec
    (ws[wrote]?).map fun w => .write w.1 w.2 (wrote + 1 == ws.length)

/-- The steps of R210 after y: a read of a[i][k], or the write of x[i]. -/
def lusSteps (n : Nat) : List (Nat × Option Nat) :=
  ((List.range n).flatMap fun i => (List.range i).map fun k => (i, some k)) ++
  ((List.range n).reverse.flatMap fun i =>
    ((List.range n).filter (i < ·)).map (fun k => (i, some k)) ++ [(i, some i), (i, none)])
/-- LUS's vector from the numbers read so far: PERM and b in turn, then elements of the factors. -/
def lusOf (d : Solver) (vals : List Nat) : List Nat × Flags :=
  let order := (lusSteps d.n).filterMap fun e => e.2.map fun k => (e.1, k)
  lusVector d.fmt d.n (rowsRead d.n order (vals.drop (2 * d.n))) (List.range d.n)
    ((List.range d.n).map fun r => vals.getD (2 * r + 1) 0)
/-- LUS's next access (R210). -/
def lusNext (d : Solver) (mat rec rhs : Word) (vals : List Nat) (wrote : Nat) : Option BatchAcc :=
  let t := vals.length
  if t < 2 * d.n then
    if t % 2 = 0 then some (.read (rec + BitVec.ofNat 64 (t / 2)) 1)
    else some (.read (rhs + BitVec.ofNat 64 (d.elem * (vals.getD (t - 1) 0 % d.n))) d.elem)
  else
    ((lusSteps d.n)[t - 2 * d.n + wrote]?).map fun e => match e.2 with
      | some k => .read (mat + BitVec.ofNat 64 (d.elem * (e.1 * d.n + k))) d.elem
      | none => .write (rhs + BitVec.ofNat 64 (d.elem * e.1)) (leBytes d.elem ((lusOf d vals).1.getD e.1 0)) (e.1 == 0)

/-- The descriptor of a batch. -/
def EngOp.solver : EngOp → Option Solver
  | .luf _ desc _ _ | .lus _ desc _ _ => Solver.read desc
  | _ => none
/-- The next access of a batch, and the flags that its matrix leaves. -/
def batchNext (r : Running) : Option BatchAcc :=
  let at_ (base : Word) (size : Nat) : Word := base + BitVec.ofNat 64 (r.mat * size)
  match r.cmd.op with
  | .luf par desc mat rec => (Solver.read desc).bind fun d =>
      if r.mat < d.count then lufNext d par (at_ mat d.ms) (at_ rec 32) r.vals r.put.length else none
  | .lus rhs desc mat rec => (Solver.read desc).bind fun d =>
      if r.mat < d.count then lusNext d (at_ mat d.ms) (at_ rec 32) (at_ rhs d.vs) r.vals r.put.length else none
  | _ => none
def batchFlags (r : Running) : Flags :=
  match r.cmd.op, r.cmd.op.solver with
  | .luf par _ _ _, some d => (lufOf d par r.vals).flags
  | .lus _ _ _ _, some d => (lusOf d r.vals).2
  | _, _ => 0
/-- A write of a batch is posted; the last of a matrix brings the next. -/
def batchWrote (r : Running) (last : Bool) : Running :=
  if last then { r with mat := r.mat + 1, vals := [], put := [], eff := { r.eff with flags := r.eff.flags ||| batchFlags r } }
  else { r with put := r.put.length :: r.put }

/-- The effect of a vector command, its sources read from the slot `x` as it starts, `pop` the values it popped (R186). Commands
that go on accessing memory give theirs when they complete. -/
def vecEffect (s : State) (p c : Nat) (x : Slot) (rm : RMode) (pop : List Word) : EngOp → Effect :=
  let v (r : VReg) : V128 := readV x r
  let res (d : VReg) (r : V128 × Flags) : Effect := { vregs := [(d.toNat, r.1)], flags := r.2 }
  fun op => match op with
  | .vload d ea =>
    (match globalPlace s p c ea 16 16 with
     | .ok (.own k, off) => res d (BitVec.ofNat 128 (leNat (spadRead s p k off 16)), 0)
     | _ => {})
  | .vloadT d off _ => res d (BitVec.ofNat 128 (leNat (spadRead s p c off 16)), 0)
  | .vmov d a => res d (v a, 0)
  | .vdup t d y _ => res d (splat t.bits (y.getD (pop.getD 0 0)), 0)
  | .vins t d k y _ => res d (setLane t.bits (v d) k (y.getD (pop.getD 0 0)).toNat, 0)
  | .vext t q a k =>
    let b := lane t.bits (v a) k
    { push := some (q, if t = .i8 || t = .i16 || t = .i32 then sext64 t.bits b else BitVec.ofNat 64 b) }
  | .vfp o t d a b e => res d (vfp o t rm (v a) (v b) (v e))
  | .vint o t d a b => res d (vint o t (v a) (v b), 0)
  | .vcmp t cond dst a b =>
    let r := vcmp t cond (v a) (v b)
    (match dst with
     | .mask d => res d (ofLanes t.bits (r.1.map fun h => if h then 2 ^ t.bits - 1 else 0), r.2)
     | .any _ => { resolve := some (r.1.any id), flags := r.2 }
     | .all _ => { resolve := some (r.1.all id), flags := r.2 })
  | .vsel d a b e => res d ((v a &&& v e) ||| (v b &&& ~~~(v e)), 0)
  | .vperm d a b e => res d (vperm (v a) (v b) (v e), 0)
  | .vred t o d a => res d (vred t o rm (v a))
  | .vcvt src dst sr d a seed _ idx _ part =>
    let seedV := seed.getD (pop.getD 0 0)
    let idxV := idx.getD (pop.getD (if seed.isNone then 1 else 0) 0)
    res d (vcvt src dst (fun m => if sr then .sr (srBits seedV (idxV + BitVec.ofNat 64 m)) else rm) part (v d) (v a))
  | .vqtbl a => { qtbl := some (v a) }
  | .vdot4 u d a b e => res d (vdot4 u (v a) (v b) (v e))
  | .sdraw q seed i => { push := some (q, srZ seed i) }
  | _ => {}

/-- The bytes that a command stores as it starts, with their address. -/
def storedNow (x : Slot) : EngOp → Option (Word × List Byte)
  | .vstore v ea => some (ea, leBytes 16 (readV x v).toNat)
  | .vstoreT v off _ => some (localAddr off, leBytes 16 (readV x v).toNat)
  | _ => none
/-- An address lies in the core's own scratchpad. -/
def nearOwn (s : State) (p c : Nat) (a : Word) : Bool :=
  match globalPlace s p c a 1 1 with
  | .ok (.own _, _) => true
  | _ => false
/-- The accesses that a VLD or VST posts as it starts (R191): the two aligned halves of a place beyond the core. A store to
the own scratchpad is performed. -/
def startAccess (s : State) (p c : Nat) (x : Slot) (cmd : Cmd) : State :=
  match storedNow x cmd.op, cmd.op with
  | some (a, bs), _ =>
    if nearOwn s p c a then spadWrite s p c (a.toNat % 2 ^ 28) bs
    else sendNear (sendNear s p c .vector cmd (.store (bs.take 8)) a 0) p c .vector cmd (.store (bs.drop 8)) (a + 8) 8
  | none, .vload _ a =>
    if nearOwn s p c a then s
    else sendNear (sendNear s p c .vector cmd (.load 8 false) a 0) p c .vector cmd (.load 8 false) (a + 8) 8
  | none, _ => s
/-- VECTOR_COMMAND_START (R185, R186, R191, R192). -/
def startVector (s : State) (p c : Nat) : State :=
  match startable? s p c .vector with
  | none => s
  | some cmd =>
    let x := s.slotAt p c cmd.slot
    let r := if liveCmd (s.coreAt p c) cmd then popAll x cmd.op.pops else ([], x)
    let eff := vecEffect s p c r.2 (modeOf cmd.rm 0) r.1 cmd.op
    let s := updSlot s p c cmd.slot fun _ => r.2
    startAccess (startCmd s p c .vector { cmd := cmd, pins := cmd.op.tiles, eff := eff }) p c r.2 cmd
def execVectorCommandStart (x : CoreAt) (s : State) : Out := agentStep s x.p (startVector s x.p x.c)

/-- A load or a store of the running vector command is posted (R211, R278, R294): the next access of a batch, once the one
before it is done, or the i-th access of a chunk. -/
def postVector (s : State) (p c i : Nat) (store : Bool) : State :=
  match (s.coreAt p c).vq.run with
  | none => s
  | some r =>
    match r.cmd.op, batchNext r with
    | .samp _ _ a b n moff _, _ =>
      (match sampPiece a b n moff i with
       | some (ea, len, pos) =>
         if store || r.asked.contains i then s
         else sendNear (updRun s p c .vector fun r => { r with asked := i :: r.asked }) p c .vector r.cmd (.load len false) ea pos
       | none => s)
    | _, some (.read ea len) =>
      if store || engineBusy s p c .vector then s else sendNear s p c .vector r.cmd (.load len false) ea 0
    | _, some (.write ea bs last) =>
      if !store || engineBusy s p c .vector then s
      else sendNear (updRun s p c .vector fun r => batchWrote r last) p c .vector r.cmd (.store bs) ea 0
    | _, none => s

/-- The effect of the running command as it completes; none while it has more to read or to write. -/
def vectorDone (r : Running) : Option Effect :=
  match r.cmd.op with
  | .vload d _ =>
    if !r.eff.vregs.isEmpty then some r.eff
    else if r.got.length = 16 then some { r.eff with vregs := [(d.toNat, BitVec.ofNat 128 (leNat (bytesAt r.got 0 16)))] }
    else none
  | .luf _ _ _ _ | .lus _ _ _ _ => if (batchNext r).isSome then none else some r.eff
  | .samp o q _ _ n moff g => if r.got.length = 4 * n + maskLen n moff then some (sampEffect r.got o q n moff g) else none
  | _ => some r.eff
/-- VECTOR_COMMAND_COMPLETE (R186, R188, R294): every access of the command has been performed. -/
def completeVector (s : State) (p c : Nat) : State :=
  match (s.coreAt p c).vq.run with
  | none => s
  | some r =>
    match vectorDone r with
    | some eff => if engineBusy s p c .vector then s else finishWith s p c .vector r.cmd eff
    | none => s
def execVectorCommandComplete (x : CoreAt) (s : State) : Out := agentStep s x.p (completeVector s x.p x.c)

/-! ### Loads and stores (R191, R192) -/

def vecMem (store : Bool) (x : VMem) (s : State) : Out :=
  issueEng .vector x.c .rne [.s x.a] s fun v =>
    let ea := v 0 + immS x.off
    match nearPlace s ea 16 16 with
    | .error e => .error (.trap e)
    | .ok _ => .ok (if store then .vstore x.v ea else .vload x.v ea)
/-- VLD (R191). -/
def execVld (x : VMem) (s : State) : Out := vecMem false x s
/-- VST (R191). -/
def execVst (x : VMem) (s : State) : Out := vecMem true x s
/-- VLD.t and VST.t (R192): a row outside 0-31 is checked before the tile's FAULT (R237): DESIGN CHOICE, log entry 70. -/
def vecTile (store : Bool) (x : VMemT) (s : State) : Out :=
  issueEng .vector x.c .rne [.s x.a] s fun v =>
    let row : Word := v 0 + BitVec.ofNat 64 x.row.toNat
    let tile := x.tile.toNat
    if row.toNat > 31 then .error (.trap { cause := 0x02 })
    else match tileTrap s [tile] with
      | some r => .error r
      | none =>
        let off := 512 * tile + 16 * row.toNat
        .ok (if store then .vstoreT x.v off tile else .vloadT x.v off tile)
/-- VLD.t (R192). -/
def execVldT (x : VMemT) (s : State) : Out := vecTile false x s
/-- VST.t (R192). -/
def execVstT (x : VMemT) (s : State) : Out := vecTile true x s

/-! ### Commands on registers -/

/-- A command that checks nothing at issue. -/
def vecCmd (c : Ctl) (r : Rnd) (op : EngOp) (s : State) : Out := issueEng .vector c r [] s fun _ => .ok op
/-- A scalar operand (R186): a register's value travels, a queue register pops at the start. -/
def scalarNow (o : SOp) : List SOp := match o with
  | .s _ => [o]
  | .q _ => []
def queueOfOp : SOp → Nat
  | .q n => n.toNat
  | .s _ => 0

/-- VMOV (R194). -/
def execVmov (x : V2) (s : State) : Out := vecCmd x.c .rne (.vmov x.d x.a) s
/-- VDUP (R194). -/
def execVdup (x : VDupI) (s : State) : Out :=
  issueEng .vector x.c .rne (scalarNow x.a) s fun v =>
    .ok (.vdup x.ty x.d (if (scalarNow x.a).isEmpty then none else some (v 0)) (queueOfOp x.a))
/-- VINS (R194). -/
def execVins (x : VInsI) (s : State) : Out :=
  issueEng .vector x.c .rne (scalarNow x.a) s fun v =>
    .ok (.vins x.ty x.d x.lane.toNat (if (scalarNow x.a).isEmpty then none else some (v 0)) (queueOfOp x.a))
/-- VEXT (R194). -/
def execVext (x : VExtI) (s : State) : Out := vecCmd x.c .rne (.vext x.ty x.q.toNat x.a x.lane.toNat) s

/-- The three-register form of R195. -/
def vf3 (o : VFop) (x : VF3) (s : State) : Out := vecCmd x.c x.rnd (.vfp o x.ty x.d x.a x.b 0) s
/-- VADD (R195). -/
def execVadd (x : VF3) (s : State) : Out := vf3 .add x s
/-- VSUB (R195). -/
def execVsub (x : VF3) (s : State) : Out := vf3 .sub x s
/-- VMUL (R195). -/
def execVmul (x : VF3) (s : State) : Out := vf3 .mul x s
/-- VDIV (R195). -/
def execVdiv (x : VF3) (s : State) : Out := vf3 .div x s
/-- VSQRT (R195). -/
def execVsqrt (x : VF2) (s : State) : Out := vecCmd x.c x.rnd (.vfp .sqrt x.ty x.d x.a 0 0) s
/-- VMIN (R53, R195). -/
def execVmin (x : VT3) (s : State) : Out := vecCmd x.c .rne (.vfp .min x.ty x.d x.a x.b 0) s
/-- VMAX (R53, R195). -/
def execVmax (x : VT3) (s : State) : Out := vecCmd x.c .rne (.vfp .max x.ty x.d x.a x.b 0) s
/-- VABS (R195). -/
def execVabs (x : VT2) (s : State) : Out := vecCmd x.c .rne (.vfp .abs x.ty x.d x.a 0 0) s
/-- VNEG (R195). -/
def execVneg (x : VT2) (s : State) : Out := vecCmd x.c .rne (.vfp .neg x.ty x.d x.a 0 0) s
def vf4 (o : VFop) (x : VF4) (s : State) : Out := vecCmd x.c x.rnd (.vfp o x.ty x.d x.a x.b x.cc) s
/-- VFMA (R196). -/
def execVfma (x : VF4) (s : State) : Out := vf4 .fma x s
/-- VFMS (R196). -/
def execVfms (x : VF4) (s : State) : Out := vf4 .fms x s
/-- VNMA (R196). -/
def execVnma (x : VF4) (s : State) : Out := vf4 .fnma x s

/-- An integer operation of R197. -/
def vi3 (o : VIop) (x : VT3) (s : State) : Out := vecCmd x.c .rne (.vint o x.ty x.d x.a x.b) s
/-- VIADD (R197). -/
def execViadd (x : VT3) (s : State) : Out := vi3 .add x s
/-- VISUB (R197). -/
def execVisub (x : VT3) (s : State) : Out := vi3 .sub x s
/-- VIMUL (R197). -/
def execVimul (x : VT3) (s : State) : Out := vi3 .mul x s
/-- VISHL (R197). -/
def execVishl (x : VT3) (s : State) : Out := vi3 .shl x s
/-- VISHR (R197). -/
def execVishr (x : VT3) (s : State) : Out := vi3 .shr x s
/-- VISAR (R197). -/
def execVisar (x : VT3) (s : State) : Out := vi3 .sar x s
/-- VIAND (R197). -/
def execViand (x : VT3) (s : State) : Out := vi3 .and x s
/-- VIOR (R197). -/
def execVior (x : VT3) (s : State) : Out := vi3 .or x s
/-- VIXOR (R197). -/
def execVixor (x : VT3) (s : State) : Out := vi3 .xor x s
/-- VIMIN (R197). -/
def execVimin (x : VT3) (s : State) : Out := vi3 .min x s
/-- VIMAX (R197). -/
def execVimax (x : VT3) (s : State) : Out := vi3 .max x s

/-- VCMP (R198, R199). -/
def execVcmp (x : VCmpI) (s : State) : Out := vecCmd x.c .rne (.vcmp x.ty x.cond x.dst x.a x.b) s
/-- VSEL (R200). -/
def execVsel (x : V4) (s : State) : Out := vecCmd x.c .rne (.vsel x.d x.a x.b x.cc) s
/-- VPERM (R200). -/
def execVperm (x : V4) (s : State) : Out := vecCmd x.c .rne (.vperm x.d x.a x.b x.cc) s
/-- VRED (R201). -/
def execVred (x : VRedI) (s : State) : Out := vecCmd x.c x.rnd (.vred x.ty x.op x.d x.a) s
/-- VCVT (R202): with code 5, B and C are the seed and the index base. -/
def execVcvt (x : VCvtI) (s : State) : Out :=
  let nb := (scalarNow x.b).length
  issueEng .vector x.c x.rnd (scalarNow x.b ++ scalarNow x.cc) s fun v =>
    .ok (.vcvt x.src x.dst (x.rnd = .sr) x.d x.a (if (scalarNow x.b).isEmpty then none else some (v 0)) (queueOfOp x.b)
      (if (scalarNow x.cc).isEmpty then none else some (v nb)) (queueOfOp x.cc) x.part.toNat)
/-- VEXP2 (R203). -/
def execVexp2 (x : V2) (s : State) : Out := vecCmd x.c .rne (.vfp .exp2 .f32 x.d x.a 0 0) s
/-- VLOG2 (R203). -/
def execVlog2 (x : V2) (s : State) : Out := vecCmd x.c .rne (.vfp .log2 .f32 x.d x.a 0 0) s
/-- VRCP (R203). -/
def execVrcp (x : V2) (s : State) : Out := vecCmd x.c .rne (.vfp .rcp .f32 x.d x.a 0 0) s
/-- VRSQ (R203). -/
def execVrsq (x : V2) (s : State) : Out := vecCmd x.c .rne (.vfp .rsq .f32 x.d x.a 0 0) s
/-- VQTBL (R204). -/
def execVqtbl (x : V1) (s : State) : Out := vecCmd x.c .rne (.vqtbl x.a) s
/-- VDOT4 (R205). -/
def execVdot4 (x : VDot) (s : State) : Out := vecCmd x.c .rne (.vdot4 x.uns x.d x.a x.b x.cc) s

/-! ### The batched solver (R206, R207) -/

/-- One area: an address, its length, and where it lies. An address that is no multiple of 16 is cause 0x06 though the area overruns
too: DESIGN CHOICE, log entry 70. -/
def areaOf (s : State) (a : Word) (len : Nat) : Except Trap (Place × Nat × Nat) :=
  match nearPlace s a 16 len with
  | .ok (pl, off) => .ok (pl, off, len)
  | .error e => .error e
def overlapsArea (x y : Place × Nat × Nat) : Bool := x.1 == y.1 && areasMeet x.2.1 x.2.2 y.2.1 y.2.2
/-- The checks of R207 on three areas: where several fail, the first that is given decides; matrix, record, right-hand side:
DESIGN CHOICE, log entry 70. -/
def areasOk (s : State) (x y z : Word × Nat) : Except Trap Unit :=
  match areaOf s x.1 x.2, areaOf s y.1 y.2, areaOf s z.1 z.2 with
  | .ok a, .ok b, .ok c =>
    if overlapsArea a b || overlapsArea a c || overlapsArea b c then .error { cause := 0x02 } else .ok ()
  | .error e, _, _ => .error e
  | _, .error e, _ => .error e
  | _, _, .error e => .error e

/-- τ and δ of LUF are allowed (R207). -/
def lufParams (par : Word) : Bool :=
  let f := Machine.f32
  let zero := FV.fin false 0 0
  let fin (v : FV) : Bool := match v with
    | .fin _ _ _ => true
    | _ => false
  let τ := f.read (par.toNat % 2 ^ 32)
  let δ := f.read (par.toNat / 2 ^ 32)
  fin τ && !τ.lt zero && fin δ && zero.lt δ

/-- LUF (R206 to R209). Where both areas fail, the matrix decides: DESIGN CHOICE, log entry 70. -/
def execLuf (x : SolveI) (s : State) : Out :=
  issueEng .vector x.c .rne [.s x.d, .s x.a, .s x.b, .s x.cc] s fun v =>
    match Solver.read (v 1) with
    | none => .error (.trap { cause := 0x02 })
    | some d =>
      if !lufParams (v 0) then .error (.trap { cause := 0x02 })
      else
        match areaOf s (v 2) (d.count * d.ms), areaOf s (v 3) (d.count * 32) with
        | .ok a, .ok b =>
          if overlapsArea a b then .error (.trap { cause := 0x02 }) else .ok (.luf (v 0) (v 1) (v 2) (v 3))
        | .error e, _ => .error (.trap e)
        | _, .error e => .error (.trap e)
/-- LUS (R206, R207, R210). -/
def execLus (x : SolveI) (s : State) : Out :=
  issueEng .vector x.c .rne [.s x.d, .s x.a, .s x.b, .s x.cc] s fun v =>
    match Solver.read (v 1) with
    | none => .error (.trap { cause := 0x02 })
    | some d =>
      match areasOk s (v 2, d.count * d.ms) (v 3, d.count * 32) (v 0, d.count * d.vs) with
      | .error e => .error (.trap e)
      | .ok _ => .ok (.lus (v 0) (v 1) (v 2) (v 3))

end Sys2Proof.Machine
end

