-- ==== Sys2Proof/Machine/Copy.lean ====
section
/-! DEFINITION. The copy engine and the tile table's commands (spec/08_isa_matrix.md R214 to R217, R228 to R237, R399). -/

namespace Sys2Proof.Machine

/-! ### Issue (R399) -/

/-- An address that names the own scratchpad, by either form (R228). -/
def namesOwn (c : Nat) (a : Word) : Bool :=
  isGlobal a && a.toNat / 2 ^ 28 % 16 == 0 && namedCore c a false == c
/-- Bytes that an element's address is a multiple of (R232). -/
def alignOf (bits : Nat) : Nat := max 1 (bits / 8)
def CopyCmd.nearAlign (x : CopyCmd) : Nat := alignOf x.nearBits
def CopyCmd.farAlign (x : CopyCmd) : Nat := if x.zs || x.zd then 1 else alignOf x.farBits
/-- Signed 32-bit stride. -/
def stride32 (n : Nat) : Int := intOf true 32 n
/-- The kind of a copy's fault record: read or write of the far side (R353). -/
def CopyCmd.recKind (x : CopyCmd) : Nat := if x.inbound then 5 else 6

/-- Check 3: the count (R232, R230, R231). -/
def CopyCmd.countOk (x : CopyCmd) (w : Word) : Bool :=
  let even := x.perUnit = 1 || x.count % 2 = 0
  let packed := !(x.zs || x.zd) || bytesOfElems x.count x.farBits % 64 = 0
  1 ≤ x.count && even && packed &&
  (match x.shape with
   | .one => w.toNat ≤ 16384
   | .two => 1 ≤ x.rows && w.toNat / 2 ^ 48 = 0
   | .gather | .scatter => w.toNat ≤ 4096)
/-- Check 4 on the near range. -/
def CopyCmd.nearOk (x : CopyCmd) : Bool := x.nearRows.all fun r => 0 ≤ r.1 && r.1 + r.2 ≤ 0x4000
/-- Check 6: the first misaligned address. Both strides of a CPY2 misaligned: the source stride is given first; and the address
is that of the second row, of a single row too: DESIGN CHOICE, log entry 70. -/
def CopyCmd.misaligned (x : CopyCmd) (idx : Word) : Option Word :=
  let strideAt (base : Word) (st : Int) (n : Nat) : Option Word :=
    if st % n = 0 then none else some (base + BitVec.ofInt 64 st)
  if x.near.toNat % x.nearAlign ≠ 0 then some x.near
  else if x.farAddr.toNat % x.farAlign ≠ 0 then some x.farAddr
  else
    match x.shape with
    | .two =>
      let sa := if x.inbound then x.farAlign else x.nearAlign
      let da := if x.inbound then x.nearAlign else x.farAlign
      (strideAt x.src x.sstride sa).or (strideAt x.dst x.dstride da)
    | .gather | .scatter => if idx.toNat % 4 ≠ 0 then some idx else none
    | .one => none

/-- Checks 1 to 7 in their order (R399). `w` is the count word, `idx` the index-list address. -/
def copyChecks (s : State) (x : CopyCmd) (w idx : Word) : Option Trap :=
  let c := s.cur.c
  let bad02 : Option Trap := some { cause := 0x02 }
  if namesOwn c x.dst == namesOwn c x.src then bad02
  else if (x.ovw && !x.inbound) || (x.rel && x.inbound) || (x.zs && !x.inbound) || (x.zd && x.inbound) ||
          (x.zs && x.zd) then bad02
  else if !x.countOk w then bad02
  else if !x.nearOk then some { cause := 0x0B, bad := x.near }
  else if x.grouped && !(namesOwn c idx && x.index + 4 * x.count ≤ 0x4000) then some { cause := 0x0B, bad := idx }
  else
    let far : Option Trap :=
      if isGlobal x.farAddr then
        match globalPlace s s.cur.p c x.farAddr 1 1 with
        | .ok _ => none
        | .error f => some { cause := f.cause, bad := f.bad }
      else if virtualForm x.farAddr then none else some { cause := 0x08, bad := x.farAddr, kind := x.recKind }
    far.or
      (match x.misaligned idx with
       | some a => some { cause := 0x06, bad := a, kind := x.recKind }
       | none =>
         match x.cred with
         | none => none
         | some b =>
           if !isGlobal b then some { cause := 0x08, bad := b }
           else match globalPlace s s.cur.p c b 8 8 with
             | .ok _ => none
             | .error f => some { cause := f.cause, bad := f.bad })

/-- Issuing a data copy (R229, R232): the operand values are taken, checked, and enter the queue with the command. -/
def copyIssue (shape : CopyShape) (x : CpyI) (s : State) : Out :=
  let two := shape != .one
  let sr := x.rnd == .sr
  let base : List SOp := [.s x.d, .s x.a, .s x.b] ++ (if two then [.s (x.b + 1)] else [])
  let n := base.length
  let srcs := base ++ (if x.cred then [.s x.cc] else []) ++ (if sr then [.s (x.cc + 1), .s (x.cc + 2)] else [])
  let m := n + if x.cred then 1 else 0
  issueEng .copy x.c x.rnd srcs s fun v =>
    let w := v 2
    let g := v 3
    let cmd : CopyCmd := {
      shape := shape, dst := v 0, src := v 1,
      count := if shape = .two then w.toNat % 2 ^ 32 else w.toNat,
      rows := if shape = .two then w.toNat / 2 ^ 32 % 2 ^ 16 else 1,
      sstride := stride32 (g.toNat % 2 ^ 32), dstride := stride32 (g.toNat / 2 ^ 32),
      index := g.toNat % 2 ^ 28, inbound := namesOwn s.cur.c (v 0),
      cred := if x.cred then some (v n) else none,
      seed := if sr then v m else 0, ibase := if sr then v (m + 1) else 0,
      rel := x.rel, ovw := x.ovw, zw := x.zw, zd := x.zd, zs := x.zs, conv := x.conv, dfmt := x.dfmt, sfmt := x.sfmt }
    match copyChecks s cmd w g with
    | some t => .error (.trap t)
    | none =>
      match tileTrap s cmd.tiles with
      | some r => .error r
      | none => .ok (.copy cmd)

/-- CPY (R229 to R232). -/
def execCpy (x : CpyI) (s : State) : Out := copyIssue .one x s
/-- CPY2 (R232). -/
def execCpy2 (x : CpyI) (s : State) : Out := copyIssue .two x s
/-- CPYG (R232). -/
def execCpyg (x : CpyI) (s : State) : Out := copyIssue .gather x s
/-- CPYS (R232). -/
def execCpys (x : CpyI) (s : State) : Out := copyIssue .scatter x s
/-- CPYPF (R233). -/
def execCpypf (x : CpyPfI) (s : State) : Out :=
  issueEng .copy x.c .rne [.s x.a, .s x.b] s fun v =>
    if v 1 = 0 || (v 1).toNat > 0x1000000 then .error (.trap { cause := 0x02 }) else .ok (.cpypf (v 0) (v 1).toNat)
/-- TTGET (R217). -/
def execTtget (x : TtGetI) (s : State) : Out :=
  issueEng .copy x.c .rne [] s fun _ => .ok (.ttget x.q.toNat x.sel.toNat)
/-- TTSET (R217). -/
def execTtset (x : TtSetI) (s : State) : Out :=
  issueEng .copy x.c .rne [.s x.a] s fun v => .ok (.ttset (v 0) x.ready x.clrf)

/-! ### The far side as a copy runs (R237) -/

/-- How a read of far bytes ends: done, at a fault, or waiting (for the line, or an error that rollback repairs). -/
inductive CRes (α : Type) where
  | ok (a : α)
  | fault (f : CFault) (s : State)
  | wait

/-- One far access at its place: the access, its page checked. -/
def farAccess (s : State) (p c : Nat) (a : Word) (k : AccKind) : State × Except CFault Acc :=
  let n := k.bytes
  if isGlobal a then
    match globalPlace s p c a 1 n with
    | .ok (pl, _) => (s, .ok { core := c, kind := k, ea := BitVec.ofNat 64 (a.toNat % 2 ^ 63 + 2 ^ 63), place := pl })
    | .error f => (s, .error { sub := f.cause, bad := a })
  else if !virtualForm a then (s, .error { sub := 0x08, bad := a })
  else
    match acceptVa s p c a.toNat k.perm true with
    | (s, .error r) => (s, .error { sub := if r.cause = 0x3F then 0xFE else r.cause, bad := a, level := r.level,
                                    ncw := inWindow (s.vf (s.part p).vf) a.toNat, wait := r.wait })
    | (s, .ok (l, win)) => (s, .ok { core := c, kind := k, ea := a, leaf := l, place := virtualPlace s p c a.toNat win })

/-- Reading far bytes that lie in one page. -/
def farRead (s : State) (p c : Nat) (a : Word) (n : Nat) : CRes (State × List Byte) :=
  match farAccess s p c a (.load n false) with
  | (s, .error f) => if f.wait then .wait else .fault f s
  | (s, .ok e) =>
    if homeWaits s p e none || behindLock s p e.place (e.off / 128) || !portClear (s.part p).live e then .wait
    else if errorLine s p e none then
      if logged s p (e.leaf.pa / 128) then .wait else .fault { sub := 0xFE, bad := a } s
    else .ok (readAcc s p e none n)
/-- Bytes read one by one (compressed streams need no alignment, R231). -/
def farReadBytes (p c : Nat) : Nat → Word → State → CRes (State × List Byte)
  | 0, _, s => .ok (s, [])
  | n + 1, a, s =>
    match farRead s p c a 1 with
    | .ok (s, b) =>
      (match farReadBytes p c n (a + 1) s with
       | .ok (s, bs) => .ok (s, b ++ bs)
       | .fault f s => .fault f s
       | .wait => .wait)
    | .fault f s => .fault f s
    | .wait => .wait
/-! ### Elements (R230) and the codec (R231) -/

/-- The rounding mode of element n. -/
def CopyCmd.modeAt (x : CopyCmd) (rm : Rnd) (n : Nat) : RMode :=
  if rm = .sr then .sr (srBits x.seed (x.ibase + BitVec.ofNat 64 n)) else modeOf rm 0
/-- k elements converted, from source bytes to target bytes; `i` numbers the first. -/
def CopyCmd.convert (x : CopyCmd) (rm : Rnd) (qtbl : V128) (i k : Nat) (bs : List Byte) : List Byte × Flags :=
  if !x.conv then (bs, 0)
  else
    let v := leNat bs
    let ws := x.sfmt.bits
    let wd := x.dfmt.bits
    let rs := (List.range k).map fun j => efmtConvert x.sfmt x.dfmt (x.modeAt rm (i + j)) qtbl (v / 2 ^ (ws * j) % 2 ^ ws)
    (leBytes (k * wd / 8) (rs.foldr (fun r acc => r.1 % 2 ^ wd + 2 ^ wd * acc) 0), rs.foldl (fun fl r => fl ||| r.2) 0)

/-- Codec elements per block, and bytes of one (R231). -/
def CopyCmd.blockElems (x : CopyCmd) : Nat × Nat := if x.zw then (32, 2) else (64, 1)
/-- A 64-byte block encoded. -/
def CopyCmd.encodeBlock (x : CopyCmd) (bs : List Byte) : List Byte :=
  let (n, w) := x.blockElems
  let es := (List.range n).map fun i => (bs.drop (i * w)).take w
  let live (e : List Byte) : Bool := e.any (· != 0)
  let mask := es.zipIdx.foldl (fun m e => if live e.1 then m + 2 ^ e.2 else m) 0
  leBytes (n / 8) mask ++ (es.filter live).flatten
/-- A block decoded from its mask and its non-zero elements. -/
def CopyCmd.decodeBlock (x : CopyCmd) (mask : Nat) (bs : List Byte) : List Byte :=
  let (n, w) := x.blockElems
  ((List.range n).foldl (fun (r : List Byte × List Byte) i =>
    if mask / 2 ^ i % 2 = 1 then (r.1 ++ r.2.take w, r.2.drop w) else (r.1 ++ List.replicate w 0, r.2)) ([], bs)).1

/-! ### The streams of a running copy (R230, R231, R295) -/

/-- What the encoded bytes read so far give (R231): the bytes of the blocks that are whole, and how many encoded bytes are
known to be needed next. -/
def CopyCmd.decodeBlocks (x : CopyCmd) : Nat → List Byte → List Byte × Nat
  | 0, _ => ([], 0)
  | left + 1, enc =>
    let (n, w) := x.blockElems
    let ml := n / 8
    if enc.length < ml then ([], ml - enc.length)
    else
      let mask := leNat (enc.take ml)
      let len := ((List.range n).countP fun i => mask / 2 ^ i % 2 == 1) * w
      let body := enc.drop ml
      if body.length < len then ([], len - body.length + if left = 0 then 0 else ml)
      else
        let r := x.decodeBlocks left (body.drop len)
        (x.decodeBlock mask (body.take len) ++ r.1, r.2)
/-- A byte of the source stream, once it has been read. -/
def srcByte (r : Running) (x : CopyCmd) (pos : Nat) : Option Byte :=
  if x.zs then (x.decodeBlocks (x.srcLen / 64) r.enc).1[pos]? else mfind? r.got pos
/-- All of the list's values, or none. -/
def allSome {α : Type} : List (Option α) → Option (List α)
  | [] => some []
  | none :: _ => none
  | some a :: as => (allSome as).map (a :: ·)
/-- Bytes of the target stream, once the source bytes they come from have been read: whole elements are converted. -/
def dstBytes (r : Running) (x : CopyCmd) (pos len : Nat) : Option (List Byte) :=
  let k := x.perUnit
  let first := pos * 8 / x.dstBits / k * k
  let last := (((pos + len) * 8 + x.dstBits - 1) / x.dstBits + k - 1) / k * k
  let lo := bytesOfElems first x.srcBits
  (allSome ((List.range (bytesOfElems last x.srcBits - lo)).map fun i => srcByte r x (lo + i))).map fun bs =>
    ((x.convert r.cmd.rm r.qtbl first (last - first) bs).1.drop (pos - bytesOfElems first x.dstBits)).take len
/-- The flags of all elements (R230). -/
def copyFlags (r : Running) (x : CopyCmd) : Flags :=
  (x.convert r.cmd.rm r.qtbl 0 x.elems ((List.range x.srcLen).map fun i => (srcByte r x i).getD 0)).2
/-- The encoded target stream of a ZD copy as far as its leading blocks are there, and whether it is whole. -/
def encodedBlocks (r : Running) (x : CopyCmd) : Nat → Nat → List Byte × Bool
  | 0, _ => ([], true)
  | left + 1, b =>
    match dstBytes r x (64 * b) 64 with
    | none => ([], false)
    | some bs =>
      let q := encodedBlocks r x left (b + 1)
      (x.encodeBlock bs ++ q.1, q.2)
def encoded (r : Running) (x : CopyCmd) : List Byte × Bool := encodedBlocks r x (x.dstLen / 64) 0

/-! ### The pieces that a running copy moves (R287, R294, R295) -/

/-- The next part of an encoded far stream from a position: what an aligned 8-byte unit holds of `n` bytes. -/
def nextPart (x : CopyCmd) (pos n : Nat) : Option Piece :=
  let a := x.farAddr + BitVec.ofNat 64 pos
  if n = 0 then none else some { at_ := a, pos := pos, len := min n (8 - a.toNat % 8), base := a }
/-- The i-th part of the far source, unread; of an encoded one, the next part, once the one before it has come. -/
def sourcePiece (s : State) (p c : Nat) (r : Running) (x : CopyCmd) (i : Nat) : Option Piece :=
  if x.zs then
    if engineBusy s p c .copy then none else nextPart x r.enc.length (x.decodeBlocks (x.srcLen / 64) r.enc).2
  else if r.asked.contains i then none else (farPieces s p c x)[i]?
/-- The i-th part of the far target, unwritten; of an encoded one, the next part: a whole unit, but at the end. `put` holds
how many encoded bytes have been written. -/
def targetPiece (s : State) (p c : Nat) (r : Running) (x : CopyCmd) (i : Nat) : Option Piece :=
  if x.zd then
    let e := encoded r x
    let pos := r.put.headD 0
    (nextPart x pos (e.1.length - pos)).filter fun q => e.2 || (q.at_.toNat + q.len) % 8 = 0
  else if r.put.contains i then none else (farPieces s p c x)[i]?
/-- The far access of a piece: the access, or the fault it meets (R237). -/
def pieceAccess (s : State) (p c : Nat) (x : CopyCmd) (q : Piece) (k : AccKind) : State × Except CFault Acc :=
  if q.base.toNat % x.farAlign ≠ 0 then (s, .error { sub := 0x06, bad := q.base }) else farAccess s p c q.at_ k
/-- A far access of the running copy is posted through the cluster port (R294). -/
def sendFar (s : State) (p c : Nat) (r : Running) (e : Acc) (pos : Nat) (f : Running → Running) : State :=
  sendEng (updRun s p c .copy f) p
    { e with slot := r.cmd.slot, act := r.cmd.num, eng := some .copy, piece := pos }

/-- A read of the running copy: unit i of the near side at the local path, or the i-th part of the far side. -/
def postCopyLoad (s : State) (p c i : Nat) (r : Running) (x : CopyCmd) : State :=
  if x.inbound then
    match sourcePiece s p c r x i with
    | none => s
    | some q =>
      match pieceAccess s p c x q (.load q.len false) with
      | (_, .error _) => s
      | (t, .ok e) => sendFar t p c r e q.pos fun r => { r with asked := i :: r.asked }
  else if r.asked.contains i || (x.nearUnit i).isEmpty then s
  else
    let got : Bytes := (x.nearUnit i).foldl (fun m b => mput m b.2 ((spadRead s p c b.1 1).headD 0)) r.got
    updRun s p c .copy fun r => { r with asked := i :: r.asked, got := got }
/-- A write of the running copy, once its source bytes have been read: unit i of the near side, or the i-th part of the far
side. -/
def postCopyStore (s : State) (p c i : Nat) (r : Running) (x : CopyCmd) : State :=
  if x.inbound then
    match allSome ((x.nearUnit i).map fun b => (dstBytes r x b.2 1).map fun bs => (b.1, bs)) with
    | some (b :: bs) =>
      if r.put.contains i then s
      else
        let t := updRun s p c .copy fun r => { r with put := i :: r.put }
        (b :: bs).foldl (fun t w => spadWrite t p c w.1 w.2) t
    | _ => s
  else
    match targetPiece s p c r x i with
    | none => s
    | some q =>
      match (if x.zd then some (((encoded r x).1.drop q.pos).take q.len) else dstBytes r x q.pos q.len) with
      | none => s
      | some bs =>
        match pieceAccess s p c x q (.store bs) with
        | (_, .error _) => s
        | (t, .ok e) => sendFar t p c r e q.pos fun r => { r with put := (if x.zd then q.pos + q.len else i) :: r.put }
/-- A load or a store of the running copy is posted; none once an error has been met. -/
def postCopy (s : State) (p c i : Nat) (store : Bool) : State :=
  match copyOf (s.coreAt p c) with
  | some (r, x) => if r.err.isSome then s else if store then postCopyStore s p c i r x else postCopyLoad s p c i r x
  | none => s

/-- Every byte of the copy has been written. -/
def copyWritten (s : State) (p c : Nat) (r : Running) (x : CopyCmd) : Bool :=
  if x.inbound then x.nearUnits.all r.put.contains
  else if x.zd then (encoded r x).2 && (encoded r x).1.length == r.put.headD 0
  else (List.range (farPieces s p c x).length).all r.put.contains
/-- Bytes that it wrote (R235): encoded ones under ZD. -/
def bytesWritten (r : Running) (x : CopyCmd) : Nat := if x.zd then (encoded r x).1.length else x.dstLen

/-- BADADDR of a copy fault (R237): the lowest byte that the copy needs in the refused page, or in the failing line. -/
def lowestNeeded (s : State) (p c : Nat) (x : CopyCmd) (f : CFault) : CFault :=
  let size := if f.sub = 0xFE then 128 else 65536
  if isGlobal f.bad || !virtualForm f.bad || f.sub = 0x06 || f.sub = 0x0B then f
  else
    let runs := if x.zs || x.zd then [(x.farAddr.toNat, f.bad.toNat + 1 - x.farAddr.toNat)]
                else (farPieces s p c x).map fun q => (q.at_.toNat, q.len)
    let page := f.bad.toNat / size
    { f with bad := BitVec.ofNat 64 (runs.foldl (fun m q =>
        let a := max q.1 (page * size)
        if a < q.1 + q.2 && a / size = page then min m a else m) f.bad.toNat) }
/-- The fault of the i-th far part, which the copy still has to move, or the error that a read has met. -/
def copyFaultAt (s : State) (p c i : Nat) (r : Running) (x : CopyCmd) : Option (State × CFault) :=
  match r.err with
  | some f => some (s, lowestNeeded s p c x f)
  | none =>
    let q := if x.inbound then sourcePiece s p c r x i else targetPiece s p c r x i
    q.bind fun q =>
      match pieceAccess s p c x q (if x.inbound then .load q.len false else .store (List.replicate q.len 0)) with
      | (t, .error f) => if f.wait then none else some (t, lowestNeeded s p c x f)
      | (_, .ok _) => none

/-- The credit of a copy's barrier (R235): the state after it; none where it falls out of range. It is a release at .sys, like an
ARRIVEX. -/
def creditBar (s : State) (p c : Nat) (b : Word) (n : Nat) (know : List Nat) : Option State :=
  match globalPlace s p c b 8 8 with
  | .ok (pl, off) => ((Bar.read (leNat (placeRead s p pl off 8))).credit n).map fun nb =>
      updLive (placeWrite s p pl off (leBytes 8 nb.word)) p fun x => { x with
        views := viewsAfter x.views { core := c, kind := .bar .arrivex 0, ea := b, place := pl, know := released know c .sys } }
  | .error _ => some s

/-- The barrier's place can take the credit of a core (R294). -/
def creditClear (s : State) (p c : Nat) (b : Option Word) : Bool :=
  match b with
  | none => true
  | some b => match globalPlace s p c b 8 8 with
    | .ok (pl, off) => placeClear (s.part p).live c pl off 8
    | .error _ => true

/-- Tiles of a copy take a state; FAULT is set on each when the copy faults (R214). -/
def setTiles (s : State) (p c : Nat) (ts : List Nat) (t : TileState) (bad : Bool) : State :=
  updCore s p c fun k => { k with
    tstate := ts.foldl (fun m n => mset .empty m n t) k.tstate,
    tfault := if bad then ts.foldl (fun m n => mset false m n true) k.tfault else k.tfault }
/-- The completion row of R214. -/
def CopyCmd.doneState (x : CopyCmd) : TileState := if !x.inbound && x.rel then .empty else .ready

/-- The record of a copy fault enters the core's fault records, and is posted when its address is virtual (R237, R322). -/
def recordFault (s : State) (p c : Nat) (cmd : Cmd) (x : CopyCmd) (f : CFault) : State :=
  let r : CopyFault := { id := s.nextId, num := cmd.num, sub := f.sub, bad := f.bad, tiles := x.tiles, cmd := cmd }
  let s := updCore { s with nextId := s.nextId + 1 } p c fun k => { k with
    frecs := k.frecs ++ [r], tfaultBy := x.tiles.foldl (fun m n => mput m n r.id) k.tfaultBy }
  if f.bad.msb then s
  else postFault s p { addr := f.bad, task := cmd.task, core := c, code := 0x20, sub := f.sub, kind := x.recKind,
                       slot := cmd.slot, ncw := f.ncw, level := f.level }

/-- The running copy ends without a fault: flags, credit, tiles and number. None where it has bytes to move, an access under
way, or an error, or its credit falls out of range. -/
def copyDone (s : State) (p c : Nat) (r : Running) (x : CopyCmd) : Option State :=
  if r.err.isSome || engineBusy s p c .copy || !copyWritten s p c r x || !creditClear s p c x.cred then none
  else
    let n := bytesWritten r x
    let credited : Option State := match x.cred with
      | some b => creditBar s p c b n r.cmd.know
      | none => some s
    credited.map fun t =>
      completeCmd t p c .copy r.cmd
        { flags := copyFlags r x, tiles := x.tiles, tileTo := some x.doneState, zd := if x.zd then some n else none }
/-- The running copy ends at the fault of its i-th far part, or at an error (R237), its accesses being over; a credit out of
range is the fault of a completed copy (R235). A copy that faults writes no compressed length: TTGET selector 2 keeps that of the
copy before it (DESIGN CHOICE, log entry 75). -/
def copyFaulted (s : State) (p c i : Nat) (r : Running) (x : CopyCmd) : Option State :=
  if engineBusy s p c .copy then none
  else
    match copyFaultAt s p c i r x with
    | some (t, f) =>
      let t := setTiles t p c x.tiles (if x.inbound then .empty else .ready) true
      some (completeCmd (recordFault t p c r.cmd x f) p c .copy r.cmd {})
    | none =>
      match x.cred with
      | some b =>
        if !copyWritten s p c r x || !creditClear s p c x.cred || (creditBar s p c b (bytesWritten r x) r.cmd.know).isSome then none
        else
          let t := setTiles s p c x.tiles x.doneState true
          some (completeCmd (recordFault t p c r.cmd x { sub := 0xFD, bad := b }) p c .copy r.cmd
            { flags := copyFlags r x, zd := if x.zd then some (bytesWritten r x) else none })
      | none => none

/-! ### Steps of the copy engine -/

/-- The states of all tiles, as TTGET selector 0 gives them (R217). -/
def tileWord (k : Core) : Nat :=
  (List.range 32).foldl (fun m n => m + (match tileSt k n with
    | .empty => 0
    | .filling => 1
    | .ready => 2
    | .draining => 3) * 4 ^ n) 0
def faultWord (k : Core) : Nat := (List.range 32).foldl (fun m n => if tileBad k n then m + 2 ^ n else m) 0

/-- CPYPF brings one line into the cluster's slice (R233): one whose page is refused, that has an error (R339) or that a
migration locks (R357) is left out. -/
def prefetchLine (p c : Nat) (s : State) (l : Nat) : State :=
  match acceptVa s p c (128 * l) .read true with
  | (t, .ok (f, _)) =>
    if s.memErrors.contains (f.pa / 128) || lineLocked s p l then s else l2Take t p (clusterOf c) l f.pa .transit
  | (_, .error _) => s
/-- The lines of a range in ascending order; nothing where the address itself is no virtual one that may be read. -/
def prefetch (s : State) (p c : Nat) (a : Word) (len : Nat) : State :=
  let okay : Bool := !isGlobal a && virtualForm a && (match acceptVa s p c a.toNat .read true with
    | (_, .ok _) => true
    | (_, .error _) => false)
  if okay then
    let first := a.toNat / 128
    ((List.range ((a.toNat + len - 1) / 128 - first + 1)).map (first + ·)).foldl (prefetchLine p c) s
  else s

/-- COPY_COMMAND_START (R214, R228): the tiles of a copy leave empty or ready, and it takes the q4 table (R204). -/
def startCopy (s : State) (p c : Nat) : State :=
  match startable? s p c .copy with
  | none => s
  | some cmd =>
    let k := s.coreAt p c
    match cmd.op with
    | .copy x =>
      startCmd (setTiles s p c x.tiles (if x.inbound then .filling else .draining) false) p c .copy
        { cmd := cmd, qtbl := cmd.table.getD k.qtbl }
    | .ttget q sel =>
      let v := if sel = 0 then tileWord k else if sel = 1 then faultWord k else mget 0 k.zdBytes cmd.slot
      startCmd s p c .copy { cmd := cmd, eff := { push := some (q, BitVec.ofNat 64 v) } }
    | _ => startCmd s p c .copy { cmd := cmd }
def execCopyCommandStart (x : CoreAt) (s : State) : Out := agentStep s x.p (startCopy s x.p x.c)

/-- TTSET takes effect (R214, R217): the states of the mask's tiles, and FAULT with CLRF. -/
def ttset (s : State) (p c : Nat) (m : Word) (ready clrf : Bool) : State :=
  let s := setTiles s p c (maskTiles m) (if ready then .ready else .empty) false
  if clrf then updCore s p c fun k => { k with tfault := (maskTiles m).foldl (fun f n => mset false f n false) k.tfault } else s
/-- COPY_COMMAND_COMPLETE (R214, R229, R235): a TTSET takes effect while none of its tiles is pinned (R215). -/
def completeCopy (s : State) (p c : Nat) : State :=
  match (s.coreAt p c).cq.run with
  | none => s
  | some r =>
    match r.cmd.op with
    | .copy x => (copyDone s p c r x).getD s
    | .cpypf a len => finishRun (prefetch s p c a len) p c .copy
    | .ttset m ready clrf =>
      if (maskTiles m).any (pinned (s.coreAt p c)) then s else finishRun (ttset s p c m ready clrf) p c .copy
    | _ => finishRun s p c .copy
def execCopyCommandComplete (x : CoreAt) (s : State) : Out := agentStep s x.p (completeCopy s x.p x.c)

/-- COPY_FAULT (R237): the running copy ends at its i-th far part. -/
def faultCopy (s : State) (p c i : Nat) : State :=
  match copyOf (s.coreAt p c) with
  | some (r, x) => (copyFaulted s p c i r x).getD s
  | none => s
def execCopyFault (x : CorePart) (s : State) : Out := agentStep s x.at_.p (faultCopy s x.at_.p x.at_.c x.i)

/-! ### The cluster port (R287, R294) -/

/-- The port's clients besides the four slots: the vector engine, the copy engine, the matrix unit and the cluster's chisel unit. -/
def portVector : Nat := 4
def portCopy : Nat := 5
def portMatrix : Nat := 6
def portChisel : Nat := 7
/-- The matrix unit moves the i-th 8-byte unit of the scratchpad tiles of its running command at the local path (R219, R220, R287):
the reads of a TLD or MLDA and the writes of a TST or MSTA, in any order; what is left is moved as the command completes (log entry
81). -/
def postMatrix (s : State) (p c i : Nat) (store : Bool) : State :=
  match (s.coreAt p c).mq.run with
  | none => s
  | some r =>
    let read (n len : Nat) : State :=
      if store || r.asked.contains i || len ≤ i then s
      else updRun s p c .matrix fun r => { r with
        asked := i :: r.asked,
        got := (spadRead s p c (512 * n + 8 * i) 8).zipIdx.foldl (fun m b => mput m (8 * i + b.2) b.1) r.got }
    let write (n len : Nat) : State :=
      if !store || r.put.contains i || len ≤ i then s
      else spadWrite (updRun s p c .matrix fun r => { r with put := i :: r.put }) p c (512 * n + 8 * i)
        (((r.eff.spad.drop (8 * i)).take 8).map (·.2))
    match r.cmd.op with
    | .tld _ n => read n 64
    | .mlda _ n => read n 128
    | .tst _ n => write n 64
    | .msta _ n => write n 128
    | _ => s
/-- POST_A_LOAD (R287): a slot's oldest unposted load, or a load of the running command of an engine. -/
def execPostALoad (x : PortPart) (s : State) : Out :=
  let a := x.at_
  agentStep s a.p (if a.n = portVector then postVector s a.p a.c x.i false
    else if a.n = portCopy then postCopy s a.p a.c x.i false
    else if a.n = portMatrix then postMatrix s a.p a.c x.i false else postLoad s a)

end Sys2Proof.Machine
end

