-- ==== Sys2Proof/Machine/MatCalc.lean ====
section
/-! DEFINITION. What the matrix unit computes (spec/02_numbers.md R70 to R74, spec/08_isa_matrix.md R221 to R226). -/

namespace Sys2Proof.Machine

/-- A tile control register's fields (R212). -/
def ctlFmt (w : Word) : Nat := w.toNat % 16
def ctlRows (w : Word) : Nat := w.toNat / 2 ^ 8 % 32
def ctlBpr (w : Word) : Nat := w.toNat / 2 ^ 16 % 64
/-- The format of a code (R69). -/
def efmtCode (n : Nat) : Efmt :=
  ([Efmt.i8, .n8, .i16, .n16, .i32, .f32, .f16, .bf16, .e4m3, .e5m2, .e3m2, .e2m3, .e2m1, .log6, .q4, .f64][n]?).getD .i8
/-- A control-register value that TCFG refuses (R212, R213). -/
def ctlOk (w : Word) : Bool :=
  w.toNat / 2 ^ 22 = 0 && w.toNat / 2 ^ 13 % 8 = 0 && w.toNat / 16 % 16 = 0 && 1 ≤ ctlRows w && ctlRows w ≤ 16 &&
  1 ≤ ctlBpr w && ctlBpr w ≤ 32

/-- Bits of element k of row i of a tile's bytes: zero at or beyond the row's BPR (R221). -/
def elemBits (tile : List Byte) (f : Efmt) (bpr i k : Nat) : Nat :=
  let w := f.bits
  let first := w * k / 8
  if first ≥ bpr then 0
  else leNat ((tile.drop (32 * i + first)).take ((w + 7) / 8)) / 2 ^ (w * k % 8) % 2 ^ w

/-- What an MMA accumulates for a format pair (R222). -/
inductive Pair where
  | int | fp | none
  deriving DecidableEq, Repr
def pairOf (a b : Efmt) (wide : Bool) : Pair :=
  let small (f : Efmt) : Bool := [Efmt.e4m3, .e5m2, .e3m2, .e2m3, .e2m1].contains f
  if (a = .i8 || a = .n8) && (b = .i8 || b = .n8 || b = .q4) then .int
  else if small a && small b then .fp
  else if a = .log6 && b = .log6 then .fp
  else if (a = .f16 || a = .bf16) && (b = .f16 || b = .bf16 || b = .f32) && wide then .fp
  else .none
/-- K of a pair (R221). -/
def kOf (a b : Efmt) : Nat := 256 / max a.bits b.bits

/-! ### Block summation (R72 to R74) -/

/-- The exact product of two elements (R66, R72), with NV for an invalid one. -/
def elemProduct (a b : Efmt) (qtbl : V128) (x y : Nat) : FV × Flags :=
  if a = .log6 && b = .log6 then (log6Mul x y, 0) else mulV (efmtRead a qtbl x) (efmtRead b qtbl y)

def FV.isInf : FV → Bool
  | .inf _ => true
  | _ => false
/-- floor(log2) of a non-zero finite value. -/
def FV.log2 : FV → Option Int
  | .fin _ m e => if m = 0 then none else some ((Nat.log2 m : Int) + e)
  | _ => none
/-- p / 2^q toward zero. -/
def FV.truncAt (q : Int) : FV → Int
  | .fin n m e =>
    let sh := e - q
    let t : Nat := m * 2 ^ sh.toNat / 2 ^ (-sh).toNat
    if n then -(t : Int) else t
  | _ => 0

/-- BlockValue (R72, R73): products with their flags, the two E8M0 scale bytes (127: none). -/
def blockValue (ps : List (FV × Flags)) (sa sb : Nat) : Nat × Flags :=
  let f := Machine.f32
  let fl := ps.foldl (fun r p => r ||| p.2) 0
  if sa = 255 || sb = 255 then (f.nan, fl ||| fNV)
  else if ps.any (·.1.isNan) then (f.nan, fl)
  else if ps.any (·.1.isInf) then
    let pos := ps.any fun p => p.1 == .inf false
    let neg := ps.any fun p => p.1 == .inf true
    if pos && neg then (f.nan, fNV) else (f.sign neg f.inf, 0)
  else
    match ps.foldl (fun (r : Option Int) p => match r, p.1.log2 with
      | some a, some b => some (max a b)
      | none, b => b
      | a, none => a) none with
    | none => (0, 0)
    | some e =>
      let S : Int := (ps.map fun p => p.1.truncAt (e - 46)).sum
      f.roundExp .rne (S < 0) S.natAbs (e - 46 + sa + sb - 254)

/-- One block added to a floating-point accumulator word (R72). -/
def addBlock (acc : BitVec 32) (ps : List (FV × Flags)) (sa sb : Nat) : BitVec 32 × Flags :=
  let b := blockValue ps sa sb
  let r := Machine.f32.add .rne acc.toNat b.1
  (BitVec.ofNat 32 r.1, b.2 ||| r.2)
/-- One block added to an integer accumulator word (R74). -/
def addIntBlock (acc : BitVec 32) (sum : Int) : BitVec 32 × Flags :=
  let r := sat32 (acc.toInt + sum)
  (BitVec.ofNat 32 r.1, r.2)
/-- The integer that an integer element's product is. -/
def fvToI : FV → Int
  | .fin n m e => let v : Nat := m * 2 ^ e.toNat; if n then -(v : Int) else v
  | _ => 0

/-- An output element over its blocks of 32 k-steps (R72, R74): `prod k` is step k's product, `sa blk` and `sb blk` the
scales. -/
def accumulate (int : Bool) (K : Nat) (prod : Nat → FV × Flags) (sa sb : Nat → Nat) (acc : BitVec 32) : BitVec 32 × Flags :=
  (List.range ((K + 31) / 32)).foldl (fun (r : BitVec 32 × Flags) blk =>
    let ps := (List.range (min 32 (K - 32 * blk))).map fun k => prod (32 * blk + k)
    let q := if int then addIntBlock r.1 ((ps.map fun p => fvToI p.1).sum) else addBlock r.1 ps (sa blk) (sb blk)
    (q.1, r.2 ||| q.2)) (acc, 0)

/-! ### Counters (R225, R226) -/

/-- TERMS, GSTEPS and SKIPS of a command: `t k j` is T(k, j). -/
def termCounts (K cols : Nat) (t : Nat → Nat → Nat) : Nat × Nat × Nat :=
  (List.range K).foldl (fun (r : Nat × Nat × Nat) k =>
    (List.range ((cols + 3) / 4)).foldl (fun (r : Nat × Nat × Nat) g =>
      let ts := (List.range (min 4 (cols - 4 * g))).map fun c => t k (4 * g + c)
      let m := ts.foldl max 0
      (r.1 + ts.sum, r.2.1 + m, r.2.2 + if m = 0 then 1 else 0)) r) (0, 0, 0)

/-! ### Scale records (R223) -/

/-- A scale record: no scale, or the offset of its scale tile. -/
def scaleRecord (w : Word) : Option (Option Nat) :=
  let v := w.toNat
  let sf := v / 2 ^ 36 % 16
  let blk := v / 2 ^ 32 % 16
  let addr := v % 2 ^ 32
  if v / 2 ^ 40 ≠ 0 || sf > 1 || blk ≠ 0 || (sf = 0 && addr ≠ 0) then none
  else some (if sf = 1 then some addr else none)

/-! ### MMA (R221 to R226) -/

/-- What an MMA reads when it starts: its control registers, tiles, scale bytes, QTBL, accumulator. -/
structure MmaIn where
  ca : Word
  cb : Word
  ta : List Byte
  tb : List Byte
  sa : Option (List Byte)
  sb : Option (List Byte)
  qtbl : V128
  acc : Nat → Nat → BitVec 32

/-- The words that an MMA writes, its flags, and its counts. -/
structure MmaOut where
  words : List (Nat × BitVec 32) := []
  flags : Flags := 0
  terms : Nat := 0
  gsteps : Nat := 0
  skips : Nat := 0
  deriving DecidableEq, Repr

/-- The scale byte of a row and block; 127 is the scale 1. -/
def scaleByte (t : Option (List Byte)) (K row blk : Nat) : Nat :=
  match t with
  | none => 127
  | some bs => (bs.getD (max 1 (K / 32) * row + blk) 0).toNat

def mmaCompute (x : MmaIn) : MmaOut :=
  let fa := efmtCode (ctlFmt x.ca)
  let fb := efmtCode (ctlFmt x.cb)
  let K := kOf fa fb
  let ra := ctlRows x.ca
  let rb := ctlRows x.cb
  let int := pairOf fa fb true = .int
  let a (i k : Nat) : Nat := elemBits x.ta fa (ctlBpr x.ca) i k
  let b (j k : Nat) : Nat := elemBits x.tb fb (ctlBpr x.cb) j k
  let one (i j : Nat) : Nat × (BitVec 32 × Flags) :=
    (16 * i + j, accumulate int K (fun k => elemProduct fa fb x.qtbl (a i k) (b j k)) (scaleByte x.sa K i)
      (scaleByte x.sb K j) (x.acc i j))
  let rs := (List.range ra).flatMap fun i => (List.range rb).map (one i)
  let n := termCounts K rb fun k j => efmtTerms fb x.qtbl (b j k)
  { words := rs.map fun r => (r.1, r.2.1), flags := rs.foldl (fun fl r => fl ||| r.2.2) 0,
    terms := n.1, gsteps := n.2.1, skips := n.2.2 }

end Sys2Proof.Machine
end

