-- ==== Sys2Proof/Machine/Matrix.lean ====
section
/-! DEFINITION. Tile and matrix instructions and the steps of the matrix unit (spec/08_isa_matrix.md R212 to R227,
spec/01_machine.md R31). -/

namespace Sys2Proof.Machine

/-- The 512 bytes of a tile register. -/
def tileBytes (k : Core) (t : Nat) : List Byte := bytesAt k.tregs (512 * t) 512
/-- A word of an accumulator. -/
def accWord (k : Core) (a i j : Nat) : BitVec 32 := mget 0 k.accs (256 * a + 16 * i + j)
def ctlOf (k : Core) (t : Nat) : Word := mget 0 k.tctl t
/-- Bytes listed from an address upward. -/
def placed (a : Nat) (bs : List Byte) : Bytes := bs.zipIdx.map fun e => (a + e.2, e.1)

/-! ### Issue -/

/-- TCFG (R213): a scalar instruction; in armature mode the slot waits (R239). -/
def execTcfg (x : TcfgI) (s : State) : Out :=
  issue x.c [x.a] [] [] s fun v t =>
    if s.mine.arm.active then .wait .armature
    else if ctlOk (v 0) then .ok (updMine t fun k => { k with tctl := mset 0 k.tctl x.t.toNat (v 0) })
    else .trap { cause := 0x02 }
/-- TCFGR (R213). -/
def execTcfgr (x : TcfgrI) (s : State) : Out :=
  issue x.c [] [x.d] [] s fun _ t => .ok (putS t x.d (ctlOf s.mine x.t.toNat))

/-- A matrix command that names scratchpad tiles (R218, R237). -/
def matTile (c : Ctl) (op : EngOp) (s : State) : Out :=
  issueEng .matrix c .rne [] s fun _ =>
    match tileTrap s op.tiles with
    | some r => .error r
    | none => .ok op
/-- TLD (R219). -/
def execTld (x : TMem) (s : State) : Out := matTile x.c (.tld x.t.toNat x.tile.toNat) s
/-- TST (R219). -/
def execTst (x : TMem) (s : State) : Out := matTile x.c (.tst x.t.toNat x.tile.toNat) s
/-- TZERO (R219). -/
def execTzero (x : T1) (s : State) : Out := matTile x.c (.tzero x.t.toNat) s
/-- MZERO (R220). -/
def execMzero (x : M1) (s : State) : Out := matTile x.c (.mzero x.acc.toNat) s
/-- MSTA (R220): an odd tile is cause 0x02. -/
def execMsta (x : MMem) (s : State) : Out :=
  if x.tile.toNat % 2 = 1 then issueEng .matrix x.c .rne [] s fun _ => .error (.trap { cause := 0x02 })
  else matTile x.c (.msta x.acc.toNat x.tile.toNat) s
/-- MLDA (R220). -/
def execMlda (x : MMem) (s : State) : Out :=
  if x.tile.toNat % 2 = 1 then issueEng .matrix x.c .rne [] s fun _ => .error (.trap { cause := 0x02 })
  else matTile x.c (.mlda x.acc.toNat x.tile.toNat) s

/-- The checks of one scale record (R223). -/
def scaleCheck (p : Pair) (K : Nat) (w : Word) : Option Trap :=
  match scaleRecord w with
  | none => some { cause := 0x02 }
  | some none => none
  | some (some addr) =>
    let bad := localAddr 0 + BitVec.ofNat 64 addr
    if p = .int then some { cause := 0x21 }
    else if addr % 16 ≠ 0 then some { cause := 0x06, bad := bad }
    else if addr + 16 * max 1 (K / 32) > 0x4000 then some { cause := 0x0B, bad := bad } else none

/-- MMA (R221 to R223): the control registers and the scale records are captured at issue. -/
def execMma (x : MmaI) (s : State) : Out :=
  issueEng .matrix x.c .rne [.s x.ra, .s x.rb] s fun v =>
    let ca := ctlOf s.mine x.ta.toNat
    let cb := ctlOf s.mine x.tb.toNat
    let fa := efmtCode (ctlFmt ca)
    let fb := efmtCode (ctlFmt cb)
    let p := pairOf fa fb (isW s.cur.c)
    if ctlRows ca = 0 || ctlRows cb = 0 || p = .none then .error (.trap { cause := 0x21 })
    else
      match (scaleCheck p (kOf fa fb) (v 0)).or (scaleCheck p (kOf fa fb) (v 1)) with
      | some t => .error (.trap t)
      | none => .ok (.mma x.acc.toNat x.ta.toNat x.tb.toNat ca cb (v 0) (v 1))

/-! ### The matrix unit (R31, R218) -/

/-- The scale bytes that a record names, read as the MMA starts (R223). -/
def scaleTile (k : Core) (K : Nat) (w : Word) : Option (List Byte) :=
  match scaleRecord w with
  | some (some addr) => some (bytesAt k.spad addr (16 * max 1 (K / 32)))
  | _ => none

/-- The effect of a matrix command, its tile registers and accumulators read as it starts (R218 to R226). -/
def matEffect (k : Core) : EngOp → Effect
  | .tst t n => { spad := placed (512 * n) (tileBytes k t) }
  | .tzero t => { tregs := placed (512 * t) (List.replicate 512 0) }
  | .mzero a => { accs := (List.range 256).map fun i => (256 * a + i, 0) }
  | .msta a n => { spad := placed (512 * n) ((List.range 256).flatMap fun i => leBytes 4 (accWord k a 0 i).toNat) }
  | .mma a ta tb ca cb ra rb =>
    let K := kOf (efmtCode (ctlFmt ca)) (efmtCode (ctlFmt cb))
    let r := mmaCompute { ca := ca, cb := cb, ta := tileBytes k ta, tb := tileBytes k tb, sa := scaleTile k K ra,
                          sb := scaleTile k K rb, qtbl := k.qtbl, acc := accWord k a }
    { accs := r.words.map fun w => (256 * a + w.1, w.2), flags := r.flags, terms := r.terms, gsteps := r.gsteps,
      skips := r.skips, mma := true }
  | _ => {}

/-- Bytes of scratchpad tiles that a TLD or MLDA has read: unit by unit, and the rest as it completes (R287). -/
def tileRead (k : Core) (r : Running) (n i len : Nat) : List Byte :=
  (List.range len).map fun j => (mfind? r.got (i + j)).getD (mget 0 k.spad (512 * n + i + j))
/-- The effect of a matrix command as it completes (R219, R220): a TLD or MLDA brings what it has read, a TST or MSTA writes the units
that it has not written yet. The spec does not say when between start and completion each unit moves: DESIGN CHOICE, log entry 81. -/
def matDone (k : Core) (r : Running) : Effect :=
  match r.cmd.op with
  | .tld t n => { tregs := placed (512 * t) (tileRead k r n 0 512) }
  | .mlda a n => { accs := (List.range 256).map fun i => (256 * a + i, BitVec.ofNat 32 (leNat (tileRead k r n (4 * i) 4))) }
  | _ => { r.eff with spad := (r.eff.spad.zipIdx.filter fun e => !r.put.contains (e.2 / 8)).map (·.1) }

/-- A fetched armature block waits for the matrix unit (R239: an MMA.T counts as one command of the core; R252: an ACT
occupies the unit too). -/
def armWants (s : State) (p c : Nat) : Bool :=
  let k := s.coreAt p c
  engineMay s p && k.arm.active && (mget ({} : Slot) k.slots k.arm.slot).wait == .armature &&
  (match k.arm.fetched with
   | some (o :: _) => o == 1 || o == 3
   | _ => false)

/-- A core has a command, or a block, that the arbiter of its octet may grant. -/
def grantable (s : State) (p c : Nat) : Bool := (startable? s p c .matrix).isSome || armWants s p c
/-- The core that the arbiter of an octet grants next (R31): the core it visits while that visit has grants left, then the
others in turn, each with MQWGT grants; a core whose head is held is passed over. -/
def nextGrant (s : State) (p o : Nat) : Option (Nat × Nat) :=
  let x := s.octet p o
  let can (i : Nat) : Bool := grantable s p (8 * o + i)
  if x.left > 0 && can (x.ptr % 8) then some (x.ptr % 8, x.left)
  else ((List.range 8).map fun i => (x.ptr + 1 + i) % 8).findSome? fun i =>
    if can i then some (i, (s.coreAt p (8 * o + i)).mqwgt) else none

/-- The arbiter's visit to a core ends once that core has nothing to grant, its queue being empty or its head held: the core's next
visit takes MQWGT anew (R31, R119). -/
def endVisit (s : State) (p o : Nat) : State :=
  updOctet s p o fun x => { x with left := if grantable s p (8 * o + x.ptr % 8) then x.left else 0 }
/-- MATRIX_GRANT (R31, R218). -/
def grantMatrix (s : State) (p o : Nat) : State :=
  if (s.octet p o).busy.isSome then s
  else
    match nextGrant s p o with
    | none => if (s.octet p o).left = 0 then s else endVisit s p o
    | some (i, left) =>
      let c := 8 * o + i
      match startable? s p c .matrix with
      | none => s
      | some cmd =>
        let k := s.coreAt p c
        let s := startCmd s p c .matrix
          { cmd := cmd, pins := cmd.op.tiles, eff := matEffect { k with qtbl := cmd.table.getD k.qtbl } cmd.op }
        updOctet s p o fun x => { x with ptr := i, left := left - 1, busy := some c }
def execMatrixGrant (p octet : Nat) (s : State) : Out := agentStep s p (grantMatrix s p octet)

/-- MATRIX_COMMAND_COMPLETE (R218, R226): the octet's unit is free again. -/
def completeMatrix (s : State) (p c : Nat) : State :=
  match (s.coreAt p c).mq.run with
  | some r =>
    endVisit (updOctet (finishWith s p c .matrix r.cmd (matDone (s.coreAt p c) r)) p (octetOf c) fun x => { x with busy := none })
      p (octetOf c)
  | none => s
def execMatrixCommandComplete (x : CoreAt) (s : State) : Out := agentStep s x.p (completeMatrix s x.p x.c)

end Sys2Proof.Machine
end

