-- ==== Sys2Proof/Machine/Armature.lean ====
section
/-! DEFINITION. Armature mode (spec/09_armature.md R238 to R260): ARMENTER, the session, block fetch and the checks of R249,
and the block opcodes. A step of the sequencer is one block: it acts whole or not at all. -/

namespace Sys2Proof.Machine

/-! ### Entering and reading (R238, R241) -/

/-- ARMENTER (R238): the checks at issue; then the slot is Blocked, and its session starts in issue order. A slot that a
fault of its session parked enters the same session again (R257). -/
def execArmenter (x : ArmEnterI) (s : State) : Out :=
  issue x.c [.s x.a] [.s x.d] [] s fun v t =>
    if !virtualForm (v 0) then .trap { cause := 0x08, bad := v 0, kind := 4 }
    else if (v 0).toNat % 16 ≠ 0 then .trap { cause := 0x06, bad := v 0, kind := 4 }
    else
      let t := updMe t fun y => blockSlot y .armature
      if s.me.arm then .to (updMine t fun k => { k with arm := { k.arm with fetched := none, reading := [], ahead := [] } })
      else .to (updMine t fun k => { k with
        armWait := k.armWait.filter (·.slot != s.cur.n) ++ [⟨s.cur.n, x.d.toNat, v 0, x.team⟩] })

/-- A slot that waits at its ARMENTER. -/
def atArmenter (k : Core) (n : Nat) : Bool :=
  let x := mget ({} : Slot) k.slots n
  x.st == .blocked && x.wait == .armature
/-- Every command of the queue has completed. -/
def EngQ.idle (q : EngQ) : Bool := q.queue.isEmpty && q.run.isNone

/-- ARMATURE_SESSION_START (R238 steps 1 to 5). -/
def startSession (s : State) (p c : Nat) : State :=
  let k := s.coreAt p c
  match k.armWait.find? fun e => atArmenter k e.slot with
  | none => s
  | some e =>
    let x := mget ({} : Slot) k.slots e.slot
    if k.arm.active || !quiet x || !k.cq.idle || !k.mq.idle || !engineMay s p then s
    else
      let s := updSlot s p c e.slot fun x => { x with arm := true }
      updCore s p c fun k => { k with
        armWait := k.armWait.filter (·.slot != e.slot),
        arm := { k.arm with
          active := true, team := e.team, slot := e.slot, dst := e.dst, block := e.block, fetched := none,
          reading := [], ahead := [], links := [],
          inbox := [], tp := 0x80#8 ||| x.preds.setWidth 8, csc := List.replicate 16 0x7F, done := 0, votes := [] } }
def execArmatureSessionStart (x : CoreAt) (s : State) : Out := agentStep s x.p (startSession s x.p x.c)

/-- The status word of ARMSTAT (R241). -/
def armStatus (a : Arm) : Word :=
  BitVec.ofNat 64 (a.tag.toNat * 2 ^ 32 + a.drop.toNat * 2 ^ 16 + a.links.length * 2 ^ 8 + a.inbox.length * 4 +
    (if a.team then 2 else 0) + if a.active then 1 else 0)
/-- ARMSTAT (R241). -/
def execArmstat (x : DSel3) (s : State) : Out :=
  issue x.c [] [x.d] [] s fun _ t =>
    let a := s.mine.arm
    match x.sel.toNat with
    | 0 => .ok (putS t x.d (armStatus a))
    | 1 => .ok (putS t x.d a.block)
    | 2 => .ok (putS t x.d a.done)
    | 3 => .ok (putS t x.d (a.tp.setWidth 64))
    | 4 => .ok (putS t x.d (BitVec.ofNat 64 a.detail))
    | _ => .trap { cause := 0x01 }

/-! ### The block (R243 to R247) -/

/-- A block's fields. -/
structure Blk where
  opc : Nat := 0
  flags : Nat := 0
  len : Nat := 0
  route : Nat := 0
  ft : Nat := 0
  link : Nat := 0
  opw : Nat := 0
  crc : Nat := 0
  tag : Nat := 0
  pay : List Byte := []
  deriving DecidableEq, Repr

def readBlk (bs : List Byte) : Blk :=
  { opc := fieldAt bs 0 1, flags := fieldAt bs 1 1, len := fieldAt bs 2 2, route := fieldAt bs 4 2, ft := fieldAt bs 6 2,
    link := fieldAt bs 8 8, opw := fieldAt bs 16 8, crc := fieldAt bs 24 4, tag := fieldAt bs 28 4, pay := bs.drop 32 }

/-- A bit field: `n` bits from bit `lo`. -/
def bitsAt (v lo n : Nat) : Nat := v / 2 ^ lo % 2 ^ n
def Blk.member (b : Blk) : Nat := bitsAt b.route 9 7
def Blk.acc (b : Blk) : Nat := bitsAt b.route 7 2
def Blk.tile (b : Blk) : Nat := bitsAt b.route 4 3
def Blk.mode (b : Blk) : Nat := bitsAt b.route 0 4
def Blk.afmt (b : Blk) : Nat := bitsAt b.ft 12 4
def Blk.srec (b : Blk) : Nat := bitsAt b.ft 8 4
def Blk.tmax (b : Blk) : Nat := bitsAt b.ft 4 4
def Blk.off (b : Blk) : Word := sext64 48 (bitsAt b.link 0 48)
def Blk.kind (b : Blk) : Nat := bitsAt b.link 48 4
def Blk.pred (b : Blk) : Nat := bitsAt b.link 52 4
def Blk.neg (b : Blk) : Bool := bitsAt b.link 56 1 == 1
/-- K or ROWS, N, VOTE and SCALE of the operand word. -/
def Blk.opK (b : Blk) : Nat := bitsAt b.opw 0 7
def Blk.opRows (b : Blk) : Nat := bitsAt b.opw 0 5
def Blk.opN (b : Blk) : Nat := bitsAt b.opw 16 5
def Blk.vote (b : Blk) : Nat := bitsAt b.opw 0 2
def Blk.scale (b : Blk) : Nat := bitsAt b.opw 24 8

/-- CRC-32 of IEEE 802.3 (R249): eight bit steps of the reflected polynomial. -/
def crcBits : Nat → BitVec 32 → BitVec 32
  | 0, r => r
  | n + 1, r => crcBits n (if r.getLsbD 0 then (r >>> 1) ^^^ 0xEDB88320#32 else r >>> 1)
def crc32 (bs : List Byte) : BitVec 32 :=
  ~~~(bs.foldl (fun r b => crcBits 8 (r ^^^ b.setWidth 32)) 0xFFFFFFFF#32)

/-! ### The checks of R249 -/

/-- Fields that an opcode uses (R248): masks of ROUTE, FT, OPW and LINK. A mode leaves the other register's field unused. -/
def Blk.used (b : Blk) : Nat × Nat × Nat × Nat :=
  let link := 0x000FFFFFFFFFFFFF
  let either := if b.route % 2 = 1 then 0x0070 else 0x0180
  match b.opc with
  | 1 => (0x01F0, 0xFFF0, if b.srec = 1 then 0xFF1F007F else 0x1F007F, link)
  | 3 => if b.route / 2 % 2 = 1 then (0x01F3, 0xF000, 0x1F001F, link) else (0x0183, 0, 0x1F001F, link)
  | 4 | 5 => (0xFE01 + either, 0, 0, link)
  | 6 => (0xFF81, 0, 0, link)
  | 7 => (0, 0, 3, link)
  | 9 => (0, 0, 0, 0x000F000000000000)
  | 10 => (0, 0, 0, 0x01FFFFFFFFFFFFFF)
  | 12 => (0, 0, 0xFFFFFFFFFFFFFFFF, 0)
  | _ => (0, 0, 0, link)
/-- Check 3: FLAGS and the unused fields are zero. -/
def Blk.unusedZero (b : Blk) : Bool :=
  let u := b.used
  b.flags ≤ (if b.opc = 1 then 1 else 0) && b.route &&& u.1 == b.route && b.ft &&& u.2.1 == b.ft &&
  b.opw &&& u.2.2.1 == b.opw && b.link &&& u.2.2.2 == b.link
/-- Check 4: LEN. -/
def Blk.lenOk (b : Blk) : Bool :=
  match b.opc with
  | 1 | 11 => true
  | 2 => b.len == 1
  | 3 => 1 ≤ b.len && b.len ≤ 64
  | _ => b.len == 0
/-- Formats accepted for an activation tile (R245). -/
def afmtOk (n : Nat) : Bool := [0, 1, 8, 9, 10, 11, 12].contains n
/-- KIND of an opcode; EXIT's LINK is zero. -/
def Blk.kindOf (b : Blk) : Nat :=
  match b.opc with
  | 8 => 2
  | 9 => 3
  | 10 => 1
  | _ => 0
/-- Check 5: values within their limits. -/
def Blk.valuesOk (b : Blk) : Bool :=
  let inside (lo n hi : Nat) : Bool := lo ≤ n && n ≤ hi
  b.kind == b.kindOf && (b.opc != 10 || b.pred ≤ 7) &&
  (match b.opc with
   | 1 => afmtOk b.afmt && b.srec ≤ 2 && inside 1 b.tmax 7 && inside 1 b.opK 64 && inside 1 b.opN 16
   | 3 => inside 1 b.opRows 16 && inside 1 b.opN 16 && (b.route / 2 % 2 == 0 || afmtOk b.afmt)
   | 7 => b.vote ≤ 2
   | _ => true)
/-- Check 6: the link stack (R248). -/
def Blk.linksOk (b : Blk) (depth : Nat) : Bool :=
  match b.kind with
  | 2 => depth < 4
  | 3 => 0 < depth
  | _ => true
/-- Check 7: the activation tile. -/
def Blk.tileOk (b : Blk) (k : Core) : Bool :=
  b.opc != 1 ||
  let ctl := ctlOf k b.tile
  ctlRows ctl != 0 && ctlFmt ctl == b.afmt && b.opK ≤ 256 / (efmtCode b.afmt).bits

/-- One record of an MMA.T payload (R250): its four lanes' terms, and the bytes after it; none when it is not well formed. -/
def readRecord (pay : List Byte) (tmax lanes : Nat) : Option (List (List Nat) × List Byte) :=
  if pay.length < 2 then none
  else
    let h := fieldAt pay 0 2
    let cs := (List.range 4).map fun i => bitsAt h (3 * i) 3
    let bytes := (cs.sum + 1) / 2
    let rest := pay.drop 2
    if h / 2 ^ 15 ≠ 0 || bitsAt h 12 3 ≠ cs.foldl max 0 || cs.any (· > tmax) || (cs.drop lanes).any (· ≠ 0) ||
       rest.length < bytes || (cs.sum % 2 = 1 && fieldAt rest (bytes - 1) 1 / 16 ≠ 0) then none
    else
      let v := leNat (rest.take bytes)
      let term (i : Nat) : Nat := bitsAt v (4 * i) 4
      let starts := (List.range 4).map fun i => (cs.take i).sum
      some ((starts.zip cs).map fun e => (List.range e.2).map fun i => term (e.1 + i), rest.drop bytes)
/-- The records of a payload in order, and what follows them. -/
def readRecords (tmax : Nat) : List Nat → List Byte → Option (List (List (List Nat)) × List Byte)
  | [], pay => some ([], pay)
  | lanes :: more, pay =>
    match readRecord pay tmax lanes with
    | none => none
    | some (r, rest) =>
      match readRecords tmax more rest with
      | none => none
      | some (rs, last) => some (r :: rs, last)
/-- Groups of an MMA.T, and the lanes of each record within N. -/
def Blk.groups (b : Blk) : Nat := (b.opN + 3) / 4
def Blk.records (b : Blk) : Option (List (List (List Nat)) × List Byte) :=
  readRecords b.tmax ((List.range b.opK).flatMap fun _ => (List.range b.groups).map fun g => min 4 (b.opN - 4 * g)) b.pay
/-- A term's value: ±2^shift. -/
def termValue (t : Nat) : Int := if t / 8 = 1 then -(2 ^ (t % 8) : Int) else 2 ^ (t % 8)
/-- The terms of w(k, j). -/
def Blk.terms (b : Blk) (rs : List (List (List Nat))) (k j : Nat) : List Nat :=
  (rs.getD (k * b.groups + j / 4) []).getD (j % 4) []

/-- Entries of an ACT payload: LO, M, C (R252). -/
def Blk.entry (b : Blk) (m : Nat) : Nat × Nat × Nat :=
  (fieldAt b.pay (16 * m) 4, fieldAt b.pay (16 * m + 4) 4, fieldAt b.pay (16 * m + 8) 4)
/-- a ≤ b of f32 patterns, neither a NaN. -/
def f32Le (a b : Nat) : Bool :=
  let x := Machine.f32.read a
  let y := Machine.f32.read b
  !x.isNan && !y.isNan && !y.lt x
/-- Check 8: the payload. -/
def Blk.payloadOk (b : Blk) : Bool :=
  match b.opc with
  | 1 => match b.records with
    | some (_, rest) => rest.all (· == 0)
    | none => false
  | 3 =>
    (List.range b.len).all (fun m => fieldAt b.pay (16 * m + 12) 4 == 0) &&
    (List.range (b.len - 1)).all fun m =>
      let lo := (b.entry (m + 1)).1
      !(Machine.f32.read lo).isNan && (m == 0 || f32Le (b.entry m).1 lo)
  | _ => true

/-- The checks of R249 in order: the detail code of the first that fails. -/
def checkBlk (k : Core) (bs : List Byte) : Option Nat :=
  let b := readBlk bs
  if b.len > 254 then some 4
  else if (crc32 (bs.take 24 ++ (bs.drop 28).take 4 ++ b.pay)).toNat ≠ b.crc then some 1
  else if b.opc = 0 || b.opc > 12 then some 2
  else if !b.unusedZero then some 3
  else if !b.lenOk then some 4
  else if !b.valuesOk then some 5
  else if !b.linksOk k.arm.links.length then some 7
  else if !b.tileOk k then some 8
  else if !b.payloadOk then some 9
  else none

/-! ### Fetch (R255, R256) -/

/-- Units of a block that its fetch reads (R255): the four of its header until the first of them gives LEN; a LEN above 254
ends the fetch after the header. -/
def blkUnits (us : NMap (List Byte)) : Nat :=
  match mfind? us 0 with
  | none => 4
  | some b => if fieldAt b 2 2 > 254 then 4 else 4 + 2 * fieldAt b 2 2
/-- Every unit has been read. -/
def blkWhole (us : NMap (List Byte)) : Bool := (List.range (blkUnits us)).all fun u => (mfind? us u).isSome
/-- The bytes of a block read whole. -/
def blkBytes (us : NMap (List Byte)) : List Byte := (List.range (blkUnits us)).flatMap fun u => mget [] us u
/-- The lowest unit not read yet. -/
def nextUnit (us : NMap (List Byte)) : Nat :=
  ((List.range (blkUnits us)).find? fun u => (mfind? us u).isNone).getD 0

/-- An aligned 8-byte unit of a block, on a page with A (R255, R256, R259): the bytes, a fault at its lowest byte, or a wait
at its home. -/
def readUnit (s : State) (p c : Nat) (a : Word) : CRes (State × List Byte) :=
  if !virtualForm a then .fault { sub := 0x08, bad := a } s
  else
    match acceptVa s p c a.toNat .arm true with
    | (s, .error r) =>
      if r.wait then .wait
      else .fault { sub := if r.cause = 0x3F then 0xFE else r.cause, bad := a, level := r.level,
                    ncw := inWindow (s.vf (s.part p).vf) a.toNat } s
    | (s, .ok (l, win)) =>
      let e : Acc := { core := c, kind := .load 8 false, ea := a, leaf := l, place := virtualPlace s p c a.toNat win }
      if homeWaits s p e none || behindLock s p e.place (e.off / 128) || !portClear (s.part p).live e then .wait
      else if errorLine s p e none then
        if logged s p (l.pa / 128) then .wait else .fault { sub := 0xFE, bad := a } s
      else .ok (readAcc s p e none 8)
/-- The lowest unread unit from one on that faults, where those before it can be read. -/
def unitFault (p c : Nat) (us : NMap (List Byte)) (a : Word) (s : State) : Nat → Nat → Option (CFault × State)
  | 0, _ => none
  | n + 1, u =>
    if (mfind? us u).isSome then unitFault p c us a s n (u + 1)
    else
      match readUnit s p c (a + BitVec.ofNat 64 (8 * u)) with
      | .ok _ => unitFault p c us a s n (u + 1)
      | .fault f t => some (f, t)
      | .wait => none

/-- The sequencer may act: the session is active, its slot waits for it, and no cut stops it (R257, R331). -/
def armMay (s : State) (p c : Nat) : Bool :=
  let k := s.coreAt p c
  engineMay s p && k.arm.active && atArmenter k k.arm.slot
def updArm (s : State) (p c : Nat) (f : Arm → Arm) : State := updCore s p c fun k => { k with arm := f k.arm }
/-- An armature fault (R257): precise at the block, at the entering slot; the session stays. -/
def armFault (s : State) (p c cause detail : Nat) (f : CFault) : State :=
  let s := updArm s p c fun a => { a with detail := detail, fetched := none, reading := [], ahead := [] }
  takeTrap s ⟨p, c, (s.coreAt p c).arm.slot⟩
    { cause := cause, sub := f.sub, bad := f.bad, kind := 4, level := f.level, ncw := f.ncw }
/-- A block fault, cause 0x22 (R249). -/
def blockFault (s : State) (p c detail : Nat) : State :=
  armFault s p c 0x22 detail { sub := detail, bad := (s.coreAt p c).arm.block }

/-- The successor of a block that completes, with the link stack after it (R248). -/
def successor (a : Arm) (b : Blk) : Word × List Word :=
  let nx := a.block + BitVec.ofNat 64 (32 + 16 * b.len)
  let far := a.block + 16 * b.off
  match b.kind with
  | 1 => (if a.tp.getLsbD b.pred != b.neg then far else nx, a.links)
  | 2 => (far, nx :: a.links)
  | 3 => (a.links.headD 0, a.links.tail)
  | _ => (far, a.links)
/-- The current block, read whole, is checked before it acts (R249). -/
def checkFetched (s : State) (p c : Nat) : State :=
  let k := s.coreAt p c
  let bs := blkBytes k.arm.reading
  match checkBlk k bs with
  | some d => blockFault s p c d
  | none => updArm s p c fun a => { a with fetched := some bs }
/-- ARMATURE_BLOCK_FETCH (R255, R259): a unit of the current block is read, and once all are, the block is checked; while the
current block acts or waits, a unit of its successor, into the other half of the buffer. A unit of the successor that cannot
be read has no effect. -/
def fetchStep (s : State) (p c unit : Nat) : State :=
  let a := (s.coreAt p c).arm
  let wants (us : NMap (List Byte)) : Bool := unit < blkUnits us && (mfind? us unit).isNone
  if !armMay s p c then s
  else
    match a.fetched with
    | none =>
      if blkWhole a.reading then checkFetched s p c
      else if !wants a.reading then s
      else
        (match readUnit s p c (a.block + BitVec.ofNat 64 (8 * unit)) with
         | .ok (t, bs) =>
           let t := updArm t p c fun a => { a with reading := mput a.reading unit bs }
           if blkWhole (t.coreAt p c).arm.reading then checkFetched t p c else t
         | _ => s)
    | some bs =>
      if (readBlk bs).opc = 12 || !wants a.ahead then s
      else
        (match readUnit s p c ((successor a (readBlk bs)).1 + BitVec.ofNat 64 (8 * unit)) with
         | .ok (t, bs) => updArm t p c fun a => { a with ahead := mput a.ahead unit bs }
         | _ => s)
def execArmatureBlockFetch (x : CorePart) (s : State) : Out := agentStep s x.at_.p (fetchStep s x.at_.p x.at_.c x.i)
/-- ARMATURE_FETCH_FAULT (R256): of the current block, at its lowest faulting byte. -/
def fetchFaultStep (s : State) (p c : Nat) : State :=
  let a := (s.coreAt p c).arm
  if !armMay s p c || a.fetched.isSome then s
  else
    match unitFault p c a.reading a.block s (blkUnits a.reading) 0 with
    | some (f, t) => armFault t p c 0x23 6 f
    | none => s
def execArmatureFetchFault (x : CoreAt) (s : State) : Out := agentStep s x.p (fetchFaultStep s x.p x.c)

/-! ### Acting -/

/-- The session's block, when the sequencer may act on it and it has the opcode. -/
def blkHere (s : State) (p c opc : Nat) : Option Blk :=
  if armMay s p c then
    match (s.coreAt p c).arm.fetched with
    | some bs => if (readBlk bs).opc = opc then some (readBlk bs) else none
    | none => none
  else none

/-- A block completes: its flags reach the entering slot, and the chain goes on (R240, R241, R248). -/
def finishBlk (s : State) (p c : Nat) (b : Blk) (fl : Flags) : State :=
  let s := updSlot s p c (s.coreAt p c).arm.slot fun x => orFlags x fl
  updArm s p c fun a =>
    let n := successor a b
    { a with block := n.1, links := n.2, fetched := none, reading := a.ahead, ahead := [], done := a.done + 1,
             tag := BitVec.ofNat 32 b.tag }

/-- Words written to an accumulator, numbered 16 * row + column. -/
def setAcc (k : Core) (a : Nat) (ws : List (Nat × BitVec 32)) : Core :=
  { k with accs := ws.foldl (fun m w => mset 0 m (256 * a + w.1) w.2) k.accs }
/-- The words of an accumulator in order. -/
def accWords (k : Core) (a : Nat) : List (BitVec 32) := (List.range 256).map fun i => mget 0 k.accs (256 * a + i)
/-- A tile register and its control register. -/
def setTile (k : Core) (t : Nat) (bs : List Byte) (ctl : Word) : Core :=
  { k with tregs := putBytes k.tregs (512 * t) bs, tctl := mset 0 k.tctl t ctl }

/-- The matrix unit is granted to the core now (R239, R31): the octet's arbiter after the grant. The visit goes on where the successor
block has been read and takes the unit too. -/
def takeUnit (s : State) (p c : Nat) : Option State :=
  let o := octetOf c
  if (s.octet p o).busy.isSome then none
  else
    match nextGrant s p o with
    | some (i, left) =>
      if 8 * o + i = c && armWants s p c then some (updOctet s p o fun x => { x with
        ptr := i,
        left := (let us := (s.coreAt p c).arm.ahead
                 if blkWhole us && [1, 3].contains (readBlk (blkBytes us)).opc then left - 1 else 0) }) else none
    | none => none

/-- What an MMA.T block writes (R251). -/
def mmaTOut (k : Core) (b : Blk) : MmaOut :=
  let f := efmtCode b.afmt
  let ctl := ctlOf k b.tile
  let tile := tileBytes k b.tile
  let rs : List (List (List Nat)) := match b.records with
    | some r => r.1
    | none => []
  let w (kk j : Nat) : FV := intV ((b.terms rs kk j).map termValue).sum
  let int := b.afmt < 2 && b.srec = 0
  let sb (j : Nat) : Nat := match b.srec with
    | 1 => b.scale
    | 2 => (k.arm.csc.getD j 0x7F).toNat
    | _ => 127
  let one (i j : Nat) : Nat × (BitVec 32 × Flags) :=
    (16 * i + j, accumulate int b.opK (fun kk => mulV (efmtRead f k.qtbl (elemBits tile f (ctlBpr ctl) i kk)) (w kk j))
      (fun _ => 127) (fun _ => sb j) (if b.flags = 1 then 0 else accWord k b.acc i j))
  let out := (List.range (ctlRows ctl)).flatMap fun i => (List.range b.opN).map (one i)
  let n := termCounts b.opK b.opN fun kk j => (b.terms rs kk j).length
  { words := (if b.flags = 1 then (List.range 256).map fun i => (i, 0) else []) ++ out.map fun r => (r.1, r.2.1),
    flags := out.foldl (fun fl r => fl ||| r.2.2) 0, terms := n.1, gsteps := n.2.1, skips := n.2.2 }
/-- MMA.T (R248, R251). -/
def mmaTStep (s : State) (p c : Nat) : State :=
  match blkHere s p c 1 with
  | none => s
  | some b =>
    match takeUnit s p c with
    | none => s
    | some s =>
      let r := mmaTOut (s.coreAt p c) b
      let s := updCore s p c fun k =>
        let k := setAcc k b.acc r.words
        { k with terms := k.terms + BitVec.ofNat 64 r.terms, gsteps := k.gsteps + BitVec.ofNat 64 r.gsteps,
                 skips := k.skips + BitVec.ofNat 64 r.skips, mcmds := k.mcmds + 1 }
      finishBlk s p c b r.flags
def execMmaT (x : CoreAt) (s : State) : Out := agentStep s x.p (mmaTStep s x.p x.c)

/-- SCALE (R248). -/
def scaleStep (s : State) (p c : Nat) : State :=
  match blkHere s p c 2 with
  | none => s
  | some b => finishBlk (updArm s p c fun a => { a with csc := b.pay.take 16 }) p c b 0
def execScale (x : CoreAt) (s : State) : Out := agentStep s x.p (scaleStep s x.p x.c)

/-- The function of ACT at one word (R252). -/
def actWord (b : Blk) (word : Nat) : Nat × Flags :=
  let f := Machine.f32
  let v : Nat × Flags := if b.mode % 2 = 1 then f.convert .rne (intV (intOf true 32 word)) else (word, 0)
  let x := f.read v.1
  if x.isNan then (f.nan, v.2 ||| snan x)
  else
    let m := (List.range b.len).foldl (fun m i => if 1 ≤ i && f32Le (b.entry i).1 v.1 then i else m) 0
    let r := f.fma .rne (b.entry m).2.1 v.1 (b.entry m).2.2
    (r.1, v.2 ||| r.2)
/-- A row of 32 bytes that holds elements from its start. -/
def packRow (bits : Nat) (es : List Nat) : List Byte :=
  leBytes 32 (es.foldr (fun e r => e % 2 ^ bits + 2 ^ bits * r) 0)
/-- ACT (R252). -/
def actStep (s : State) (p c : Nat) : State :=
  match blkHere s p c 3 with
  | none => s
  | some b =>
    match takeUnit s p c with
    | none => s
    | some s =>
      let k := s.coreAt p c
      let y (i j : Nat) : Nat × Flags := actWord b (accWord k b.acc i j).toNat
      let cells := (List.range b.opRows).map fun i => (List.range b.opN).map (y i)
      let fl := cells.flatten.foldl (fun fl r => fl ||| r.2) 0
      if b.mode / 2 % 2 = 0 then
        let ws := cells.zipIdx.flatMap fun r => r.1.zipIdx.map fun e => (16 * r.2 + e.2, BitVec.ofNat 32 e.1.1)
        finishBlk (updCore s p c fun k => setAcc k b.acc ws) p c b fl
      else
        let f := efmtCode b.afmt
        let conv := cells.map fun r => r.map fun e => efmtConvert .f32 f .rne 0 e.1
        let rows := conv.flatMap fun r => packRow f.bits (r.map (·.1))
        let bpr := bytesOfElems (b.opN + if f.bits = 4 then b.opN % 2 else 0) f.bits
        let ctl := BitVec.ofNat 64 (b.afmt + b.opRows * 2 ^ 8 + bpr * 2 ^ 16)
        finishBlk (updCore s p c fun k => setTile k b.tile rows ctl) p c b
          (conv.flatten.foldl (fun fl r => fl ||| r.2) fl)
def execAct (x : CoreAt) (s : State) : Out := agentStep s x.p (actStep s x.p x.c)

/-! ### Team blocks (R253, R254) -/

/-- The ranks of a session and its own; a solo session is a team of one (R238). -/
def armTeam (k : Core) (c : Nat) : Nat × Nat := if k.arm.team then (k.teamSize, c % k.teamSize) else (1, 0)
/-- The core of the member that MEMBER names (R244). -/
def memberCore (k : Core) (c member : Nat) : Nat :=
  let t := armTeam k c
  if k.arm.team then c - t.2 + (t.2 + member) % t.1 else c
/-- Its rank. -/
def memberRank (k : Core) (c member : Nat) : Nat :=
  let t := armTeam k c
  (t.2 + member) % t.1

/-- ROUTE (R253). -/
def routeStep (s : State) (p c : Nat) : State :=
  match blkHere s p c 4 with
  | none => s
  | some b =>
    let k := s.coreAt p c
    let d := memberCore k c b.member
    let m := (s.coreAt p d).arm
    if !m.active || m.team != k.arm.team || m.inbox.length ≥ 4 then s
    else
      let e : Routed := if b.mode % 2 = 0 then .acc (accWords k b.acc) else .tile (tileBytes k b.tile) (ctlOf k b.tile)
      finishBlk (updArm s p d fun a => { a with inbox := a.inbox ++ [((armTeam k c).2, e)] }) p c b 0
def execRoute (x : CoreAt) (s : State) : Out := agentStep s x.p (routeStep s x.p x.c)

/-- The oldest entry from a rank, and the inbox without it. -/
def takeEntry (k : Core) (rank : Nat) : Option (Routed × List (Nat × Routed)) :=
  (takeFirst (fun e : Nat × Routed => e.1 == rank) k.arm.inbox).map fun e => (e.1.2, e.2)
/-- RECV (R253): an entry of the other kind is a block fault of detail 10, and stays. -/
def recvStep (s : State) (p c : Nat) : State :=
  match blkHere s p c 5 with
  | none => s
  | some b =>
    let k := s.coreAt p c
    match takeEntry k (memberRank k c b.member) with
    | none => s
    | some (e, rest) =>
      let put (f : Core → Core) : State := finishBlk (updArm (updCore s p c f) p c fun a => { a with inbox := rest }) p c b 0
      match e, b.mode % 2 with
      | .acc ws, 0 => put fun k => setAcc k b.acc (ws.zipIdx.map fun e => (e.2, e.1))
      | .tile bs ctl, 1 => put fun k => setTile k b.tile bs ctl
      | _, _ => blockFault s p c 10
def execRecv (x : CoreAt) (s : State) : Out := agentStep s x.p (recvStep s x.p x.c)

/-- REDUCE (R253): word by word into the accumulator. -/
def reduceStep (s : State) (p c : Nat) : State :=
  match blkHere s p c 6 with
  | none => s
  | some b =>
    let k := s.coreAt p c
    match takeEntry k (memberRank k c b.member) with
    | none => s
    | some (.tile _ _, _) => blockFault s p c 10
    | some (.acc ws, rest) =>
      let add (x y : BitVec 32) : BitVec 32 × Flags :=
        if b.mode % 2 = 1 then addIntBlock x y.toInt
        else
          let r := Machine.f32.add .rne x.toNat y.toNat
          (BitVec.ofNat 32 r.1, r.2)
      let rs := ((accWords k b.acc).zip ws).map fun e => add e.1 e.2
      let s := updCore s p c fun k => setAcc k b.acc (rs.zipIdx.map fun e => (e.2, e.1.1))
      finishBlk (updArm s p c fun a => { a with inbox := rest }) p c b (rs.foldl (fun fl r => fl ||| r.2) 0)
def execReduce (x : CoreAt) (s : State) : Out := agentStep s x.p (reduceStep s x.p x.c)

/-- What a member brings to the n-th SYNC of its session (R254): team predicates and VOTE, once it has reached it. -/
def syncAt (s : State) (p c n : Nat) : Option (BitVec 8 × Nat) :=
  let a := (s.coreAt p c).arm
  match a.votes[n]? with
  | some v => some v
  | none =>
    match blkHere s p c 7 with
    | some b => if a.votes.length = n then some (a.tp, b.vote) else none
    | none => none
/-- SYNC (R254): it completes at once for every member that stands at it, when all have reached it. -/
def syncStep (s : State) (p c : Nat) : State :=
  match blkHere s p c 7 with
  | none => s
  | some _ =>
    let k := s.coreAt p c
    let n := k.arm.votes.length
    let t := armTeam k c
    let cores := (List.range t.1).map fun r => if k.arm.team then c - t.2 + r else c
    let vs := cores.map fun d =>
      let m := (s.coreAt p d).arm
      if m.active && m.team == k.arm.team then syncAt s p d n else none
    match vs with
    | some first :: _ =>
      if vs.all (·.isSome) then
        let tps := vs.filterMap fun v => v.map (·.1)
        let new : Option (BitVec 8) :=
          if first.2 = 1 then some (tps.foldl (· &&& ·) 0xFF#8)
          else if first.2 = 2 then some (tps.foldl (· ||| ·) 0#8) else none
        cores.foldl (fun u d =>
          match (s.coreAt p d).arm.votes[n]?, blkHere s p d 7 with
          | none, some b =>
            let u := updArm u p d fun a => { a with
              votes := a.votes ++ [(a.tp, b.vote)], tp := new.getD a.tp }
            finishBlk u p d b 0
          | _, _ => u) s
      else s
    | _ => s
def execSync (x : CoreAt) (s : State) : Out := agentStep s x.p (syncStep s x.p x.c)

/-! ### Control blocks (R248, R240) -/

/-- A block whose only effect is its control transfer. -/
def controlStep (s : State) (p c opc : Nat) : State :=
  match blkHere s p c opc with
  | none => s
  | some b => finishBlk s p c b 0
/-- CALLB (R248). -/
def execCallb (x : CoreAt) (s : State) : Out := agentStep s x.p (controlStep s x.p x.c 8)
/-- RETB (R248). -/
def execRetb (x : CoreAt) (s : State) : Out := agentStep s x.p (controlStep s x.p x.c 9)
/-- BRANCH (R248). -/
def execBranch (x : CoreAt) (s : State) : Out := agentStep s x.p (controlStep s x.p x.c 10)
/-- NOPB (R248). -/
def execNopb (x : CoreAt) (s : State) : Out := agentStep s x.p (controlStep s x.p x.c 11)

/-- EXIT (R240): the operand word goes to the status register, and the slot goes on after its ARMENTER. -/
def exitStep (s : State) (p c : Nat) : State :=
  match blkHere s p c 12 with
  | none => s
  | some b =>
    let a := (s.coreAt p c).arm
    let s := finishBlk s p c b 0
    let s := updCore s p c fun k => leaveArmature { k with arm := { k.arm with block := a.block } }
    updSlot s p c a.slot fun x => goOn { writeReg x a.dst (BitVec.ofNat 64 b.opw) with arm := false } (x.pc + 12)
def execExit (x : CoreAt) (s : State) : Out := agentStep s x.p (exitStep s x.p x.c)

end Sys2Proof.Machine
end

