-- ==== Sys2Proof/Machine/Chisel.lean ====
section
/-! DEFINITION. The chisel unit (spec/10_chisel.md R261 to R277): reading a grammar image, the chisel instructions, and the
unit's step, one command at a time. -/

namespace Sys2Proof.Machine

/-! ### Reading the image (R264 to R269, R277) -/

/-- A chisel fault: FCODE, BADADDR, walk level, window. -/
structure ChFault where
  code : Nat := 4
  bad : Word := 0
  level : Nat := 0xFF
  ncw : Bool := false
  deriving DecidableEq, Repr

/-- What a read or an evaluation gives: a value, a fault, or a wait (an error that rollback repairs). -/
inductive ChRes (α : Type) where
  | ok (a : α) (s : State)
  | fault (f : ChFault) (s : State)
  | wait

def ChRes.andThen {α β : Type} (r : ChRes α) (f : α → State → ChRes β) : ChRes β :=
  match r with
  | .ok a s => f a s
  | .fault e s => .fault e s
  | .wait => .wait

/-- A malformed record. -/
def malformed {α : Type} (at_ : Nat) (s : State) : ChRes α := .fault { code := 4, bad := BitVec.ofNat 64 at_ } s
/-- Image bytes for a core; an address that leaves the virtual form is the fault of the record `src` that formed it. -/
def imgRead (p c at_ n src : Nat) (s : State) : ChRes (List Byte) :=
  if at_ + n > 2 ^ 55 then malformed src s
  else
    match farReadBytes p c n (BitVec.ofNat 64 at_) s with
    | .ok (s, bs) => .ok bs s
    | .fault f s => .fault { code := 3, bad := f.bad, level := f.level, ncw := f.ncw } s
    | .wait => .wait

/-- The header's fields (R264). -/
structure Img where
  base : Nat := 0
  ns : Nat := 1
  v : Nat := 1
  start : Nat := 0
  endTok : Nat := 0
  hbits : Nat := 4
  bottom : Nat := 0
  sto : Nat := 0
  bmo : Nat := 0
  exo : Nat := 0
  tro : Nat := 0
  deriving DecidableEq, Repr

/-- BMSZ (R265). -/
def Img.bmsz (g : Img) : Nat := (g.v + 127) / 128 * 16
/-- The header read and checked (R264, R271): a field outside its limits, or an area that leaves the virtual form. -/
def readImg (p c base : Nat) (s : State) : ChRes Img :=
  (imgRead p c base 64 base s).andThen fun b s =>
    let g : Img := { base := base, ns := fieldAt b 4 4, v := fieldAt b 8 4, start := fieldAt b 12 4, endTok := fieldAt b 16 4,
                     hbits := fieldAt b 20 1, bottom := fieldAt b 22 2, sto := fieldAt b 32 8, bmo := fieldAt b 40 8,
                     exo := fieldAt b 48 8, tro := fieldAt b 56 8 }
    if fieldAt b 0 4 = 1 && 1 ≤ g.ns && g.ns ≤ 65536 && 1 ≤ g.v && g.v ≤ 1048576 && g.start < g.ns && g.endTok < g.v &&
       4 ≤ g.hbits && g.hbits ≤ 24 && fieldAt b 21 1 = 0 && g.bottom ≤ 0xFFFE && fieldAt b 24 8 = 0 && g.sto % 16 = 0 &&
       g.bmo % 16 = 0 && g.exo % 8 = 0 && g.tro % 32 = 0 && [g.sto, g.bmo, g.exo, g.tro].all (base + · < 2 ^ 55)
    then .ok g s else malformed base s

/-- A state record (R265) and its address. -/
structure Rec where
  at_ : Nat := 0
  bmap : Nat := 0
  popb : Nat := 0
  exc : Nat := 0
  ecnt : Nat := 0
  accept : Bool := false
  deriving DecidableEq, Repr
def readRec (p c : Nat) (g : Img) (st : Nat) (s : State) : ChRes Rec :=
  let a := g.base + g.sto + 16 * st
  (imgRead p c a 16 g.base s).andThen fun b s =>
    if fieldAt b 14 1 ≤ 1 && fieldAt b 15 1 = 0 then
      .ok { at_ := a, bmap := g.base + g.bmo + fieldAt b 0 4 * g.bmsz, popb := fieldAt b 4 4,
            exc := g.base + g.exo + 8 * fieldAt b 8 4, ecnt := fieldAt b 12 2, accept := fieldAt b 14 1 == 1 } s
    else malformed a s

/-- An exception entry (R266). -/
structure Exc where
  tok : Nat := 0
  legal : Bool := false
  depth : Nat := 1
  sym0 : Nat := 0
  sym1 : Nat := 0
  deriving DecidableEq, Repr
/-- n entries from an address, each checked, in ascending token order. -/
def readExcs (p c : Nat) (g : Img) (src : Nat) : Nat → Nat → Nat → State → ChRes (List Exc)
  | 0, _, _, s => .ok [] s
  | n + 1, a, prev, s =>
    (imgRead p c a 8 src s).andThen fun b s =>
      let w := leNat b
      let e : Exc := { tok := bitsAt w 0 20, legal := bitsAt w 22 1 == 1, depth := bitsAt w 20 2, sym0 := bitsAt w 32 16,
                       sym1 := bitsAt w 48 16 }
      if bitsAt w 23 9 ≠ 0 || e.depth = 0 || e.depth = 3 || e.tok ≥ g.v || e.tok < prev then malformed a s
      else (readExcs p c g src n (a + 8) e.tok s).andThen fun es s => .ok (e :: es) s
/-- An entry matches the stack, newest first (R266). -/
def Exc.matches (e : Exc) (stack : List (BitVec 16)) : Bool :=
  match stack with
  | [] => false
  | t :: rest => t.toNat == e.sym0 && (e.depth == 1 || (match rest with
    | [] => false
    | u :: _ => u.toNat == e.sym1))
/-- Decided (R267): the entries that match, only the first of each token. -/
def decided (es : List Exc) (stack : List (BitVec 16)) : List Exc :=
  es.foldl (fun r e => if e.matches stack && !r.any (·.tok == e.tok) then r ++ [e] else r) []

/-- POPB and the corrections of Dead (R267). -/
def deadSum (p c : Nat) (r : Rec) : List Exc → Int → State → ChRes Int
  | [], n, s => .ok n s
  | e :: es, n, s =>
    (imgRead p c (r.bmap + e.tok / 8) 1 r.at_ s).andThen fun b s =>
      deadSum p c r es (n + (if e.legal then 1 else 0) - (bitsAt (leNat b) (e.tok % 8) 1 : Nat)) s
/-- DEAD and ACCEPT of a configuration (R267). -/
def evalConf (p c : Nat) (g : Img) (st : Nat) (stack : List (BitVec 16)) (s : State) : ChRes (Bool × Bool) :=
  (readRec p c g st s).andThen fun r s =>
    (readExcs p c g r.at_ r.ecnt r.exc 0 s).andThen fun es s =>
      (deadSum p c r (decided es stack) r.popb s).andThen fun n s => .ok (n == 0, r.accept) s

/-- Top() (R273). -/
def topOf (stack : List (BitVec 16)) : Nat :=
  match stack with
  | [] => 0xFFFF
  | t :: _ => t.toNat
/-- The probes of a lookup (R268): the record found with its address. -/
def probe (p c : Nat) (g : Img) (st x top first : Nat) : Nat → Nat → State → ChRes (Option (List Byte × Nat))
  | 0, _, s => malformed first s
  | n + 1, i, s =>
    let a := g.base + g.tro + 32 * (i % 2 ^ g.hbits)
    (imgRead p c a 32 g.base s).andThen fun b s =>
      let kw := fieldAt b 0 4
      if bitsAt kw 20 1 = 0 then .ok none s
      else if fieldAt b 4 2 = st && bitsAt kw 0 20 = x && (bitsAt kw 21 1 = 1 || fieldAt b 6 2 = top) then .ok (some (b, a)) s
      else probe p c g st x top first n (i + 1) s
def lookup (p c : Nat) (g : Img) (st x top : Nat) (s : State) : ChRes (Option (List Byte × Nat)) :=
  let i := (st * 0x9E3779B1 + x * 0x85EBCA77) % 2 ^ 32 / 2 ^ (32 - g.hbits)
  probe p c g st x top (g.base + g.tro + 32 * i) 64 i s

/-! ### Commands (R273 to R275) -/

/-- CHSTEP (R273): every condition first, and nothing changes on a fault. -/
def chStep (p c : Nat) (k : Ctx) (x : Word) (s : State) : ChRes Ctx :=
  (readImg p c k.image.toNat s).andThen fun g s =>
    if x.toNat ≥ g.v then .ok { k with last := 2 } s
    else
      (lookup p c g k.state x.toNat (topOf k.stack) s).andThen fun hit s =>
        match hit with
        | none => .ok { k with last := 2 } s
        | some (b, a) =>
          let ctl := fieldAt b 10 1
          let pop := bitsAt ctl 0 2
          let npush := bitsAt ctl 2 2
          let pushes := (List.range npush).map fun i => fieldAt b (12 + 2 * i) 2
          let depth := k.stack.length
          let kw := fieldAt b 0 4
          if bitsAt ctl 4 1 = 1 then .ok { k with last := 2 } s
          else if fieldAt b 8 2 ≥ g.ns || bitsAt kw 22 10 ≠ 0 || bitsAt ctl 5 3 ≠ 0 || fieldAt b 11 1 ≠ 0 ||
                  fieldAt b 18 14 ≠ 0 || (bitsAt kw 21 1 = 1 && fieldAt b 6 2 ≠ 0) || pushes.contains 0xFFFF then malformed a s
          else if pop > depth then .fault { code := 2 } s
          else if depth - pop + npush > 1024 then .fault { code := 1 } s
          else
            let stack := (pushes.reverse.map fun n => BitVec.ofNat 16 n) ++ k.stack.drop pop
            (evalConf p c g (fieldAt b 8 2) stack s).andThen fun e s =>
              .ok { k with state := fieldAt b 8 2, stack := stack, steps := k.steps + 1, last := 1, dead := e.1,
                           accept := e.2 } s

/-- Eight bytes of a mask: the legality of tokens t to t + 63 (R267, R274). -/
def maskWord (p c : Nat) (k : Ctx) (g : Img) (r : Rec) (ds : List Exc) (t : Nat) (s : State) : ChRes Nat :=
  if t ≥ g.v then .ok 0 s
  else if k.dead then .ok (if k.accept && t ≤ g.endTok && g.endTok < t + 64 then 2 ^ (g.endTok - t) else 0) s
  else
    let n := min 64 (g.v - t)
    (imgRead p c (r.bmap + t / 8) ((n + 7) / 8) r.at_ s).andThen fun b s =>
      let bit (x : Nat) : Nat := match ds.find? (·.tok == t + x) with
        | some e => if e.legal then 1 else 0
        | none => bitsAt (leNat b) x 1
      .ok (((List.range n).map fun x => bit x * 2 ^ x).sum) s
/-- The mask's 8-byte units in ascending order; those written before a fault stand. -/
def maskWords (p c : Nat) (k : Ctx) (g : Img) (r : Rec) (ds : List Exc) (pl : Place) : Nat → Nat → Nat → State → ChRes Unit
  | 0, _, _, s => .ok () s
  | n + 1, t, off, s =>
    (maskWord p c k g r ds t s).andThen fun v s =>
      if !placeClear (s.part p).live c pl off 8 then .wait else
      maskWords p c k g r ds pl n (t + 64) (off + 8) (placeWrite s p pl off (leBytes 8 v))
/-- CHMASK (R274). -/
def chMask (p c : Nat) (k : Ctx) (pl : Place) (off f n : Nat) (s : State) : ChRes Ctx :=
  (readImg p c k.image.toNat s).andThen fun g s =>
    let go (r : Rec) (ds : List Exc) (s : State) : ChRes Ctx :=
      (maskWords p c k g r ds pl (n / 64) f off s).andThen fun _ s => .ok k s
    if k.dead then go {} [] s
    else
      (readRec p c g k.state s).andThen fun r s =>
        (readExcs p c g r.at_ r.ecnt r.exc 0 s).andThen fun es s => go r (decided es k.stack) s
/-- CHLOAD (R275). -/
def chLoad (p c : Nat) (k : Ctx) (i : Nat) (s : State) : ChRes Ctx :=
  match k.snaps[i]? with
  | none => .fault { code := 5 } s
  | some n =>
    (readImg p c k.image.toNat s).andThen fun g s =>
      (evalConf p c g n.state n.stack s).andThen fun e s =>
        .ok { k with state := n.state, stack := n.stack, steps := n.steps, last := 0, dead := e.1, accept := e.2,
                     fault := false } s
/-- A command's effect on its context (R273 to R277): only CHLOAD acts on a faulted one. -/
def runCtx (p c : Nat) (k : Ctx) (op : ChOp) (s : State) : ChRes Ctx :=
  match op with
  | .step x => if k.fault then .ok k s else chStep p c k x s
  | .mask pl off f n => if k.fault then .ok k s else chMask p c k pl off f n s
  | .save => .ok (if k.fault then k else { k with snaps := (⟨k.state, k.stack, k.steps⟩ :: k.snaps).take 8 }) s
  | .load i => chLoad p c k i s
  | .stat _ _ | .close => .ok k s

/-- CHSTAT's value (R276). -/
def ctxStat (k : Ctx) (sel : Nat) : Word :=
  match sel with
  | 0 => BitVec.ofNat 64 (k.state * 2 ^ 48 + k.stack.length * 2 ^ 32 + k.fcode * 2 ^ 28 + k.snaps.length * 2 ^ 24 +
           k.last * 2 ^ 22 + (if k.fault then 4 else 0) + (if k.dead then 2 else 0) + if k.accept then 1 else 0)
  | 1 => k.steps
  | _ => BitVec.ofNat 64 (topOf k.stack)

/-! ### The unit (R262) -/

/-- A faulting command (R277): FAULT and FCODE, the pending fault when there is none, and the fault record. -/
def ctxFault (s : State) (p n : Nat) (k : Ctx) (cmd : ChCmd) (f : ChFault) : State × Ctx :=
  let k := { k with fault := true, fcode := f.code, pending := k.pending.or (some (cmd.num, f.code, f.bad)) }
  let s := if (f.code = 3 || f.code = 4) && !f.bad.msb then
    postFault s p { addr := f.bad, task := cmd.task, core := cmd.at_.c, code := 0x24, sub := f.code, kind := 7,
                    slot := cmd.at_.n, ncw := f.ncw, level := f.level }
    else s
  (updCtx s p cmd.at_.c n fun _ => k, k)

/-- A command whose result its slot waits for (R262). -/
def ChOp.answers : ChOp → Bool
  | .stat _ _ | .close => true
  | _ => false
/-- The slot still waits for the command's result. -/
def awaitsCmd (x : Slot) (cmd : ChCmd) : Bool :=
  cmd.op.answers && x.act == cmd.act && x.st == .blocked && x.wait == .chisel
/-- The context leaves its number (R272): what may still find it (R313) finds it under the number of its closing, with the slots'
own numbers on it. -/
def shutCtx (s : State) (p cl n ev : Nat) (a : At) (k : Ctx) : State :=
  let s := updCluster s p cl fun x => { x with
    ctxs := mput (mdel x.ctxs n) (64 * ev + n) k, closed := mput x.closed n (ev, a) }
  let slot (x : Slot) : Slot := { x with
    lastChisel := match mfind? x.lastChisel n with
      | some i => mput (mdel x.lastChisel n) (64 * ev + n) i
      | none => x.lastChisel }
  updLive s p fun l => { l with
    cores := l.cores.map fun e => if clusterOf e.1 = cl then
      (e.1, { e.2 with slots := e.2.slots.map fun f => (f.1, slot f.2) }) else e }
/-- What follows a command: its number completes, and with the last one of a closed context the CHCLOSE that follows it; CHSTAT's value
and CHCLOSE's freeing reach the slot. The close of a launch's end (slot 4) leaves nothing to find. -/
def closeCmd (s : State) (p n : Nat) (k : Ctx) (cmd : ChCmd) : State :=
  let a := cmd.at_
  let k := { k with
    completed := if k.shut ≠ 0 && k.queue.tail.isEmpty then k.shut else cmd.num, queue := k.queue.tail }
  let s := updCtx s p a.c n fun _ => k
  let waits := awaitsCmd (s.slotAt p a.c a.n) cmd
  match cmd.op with
  | .stat dst sel =>
    if waits then updSlot s p a.c a.n fun x => goOn (writeDst x dst (ctxStat k sel)) (x.pc + 12) else s
  | .close =>
    if a.n = 4 then updCluster s p (clusterOf a.c) fun x => { x with ctxs := mdel x.ctxs n }
    else
      let ev := (s.part p).live.events + 1
      let s := shutCtx (updLive s p define) p (clusterOf a.c) n ev a { k with shut := cmd.num }
      if waits then advanceAt (acquire s { a with p := p } [ev]) a else s
  | _ => s
/-- Without the queued commands whose instructions count as not issued (R324, R332). -/
def Ctx.without (gone : ChCmd → Bool) (k : Ctx) : Ctx :=
  let q := k.queue.filter (!gone ·)
  if q.length = k.queue.length then k
  else { k with queue := q, assigned := if k.shut ≠ 0 then k.assigned else (q.getLast?.map (·.num)).getD k.completed }
/-- The command of a slot at c and n whose result it is Blocked for, with its context. -/
def halfDone (l : PLive) (c n : Nat) (x : Slot) : Option (Nat × ChCmd) :=
  (mget ({} : Cluster) l.clusters (clusterOf c)).ctxs.findSome? fun k => (k.2.queue.find? fun q =>
    q.at_.c == c && q.at_.n == n && awaitsCmd x q).map fun q => (k.1, q)
/-- A slot's own numbers, without that of the command whose result it is Blocked for. -/
def ownChisel (l : PLive) (c n : Nat) (x : Slot) : NMap Nat :=
  match halfDone l c n x with
  | some (k, q) => mput x.lastChisel k q.prev
  | none => x.lastChisel
/-- The chisel command at which a slot waits has no effect: it is not issued. -/
def unissueChisel (s : State) (a : At) : State :=
  let x := s.slotAt a.p a.c a.n
  let own := ownChisel (s.part a.p).live a.c a.n x
  updSlot (updCluster s a.p (clusterOf a.c) fun cl => { cl with
    ctxs := cl.ctxs.map fun k => (k.1, k.2.without fun q => q.at_.c == a.c && q.at_.n == a.n && awaitsCmd x q) }) a.p a.c a.n
    fun x => { x with lastChisel := own }
/-- The context that the unit visits next: the first from the next number on with a waiting command. -/
def nextCtx (x : Cluster) : Option (Nat × Ctx × ChCmd) :=
  let ns := x.ctxs.map (·.1)
  (ns.filter (x.chPtr ≤ ·) ++ ns.filter (· < x.chPtr)).findSome? fun n =>
    match mfind? x.ctxs n with
    | some k => k.queue.head?.map fun cmd => (n, k, cmd)
    | none => none
/-- The unit goes on with its next command: a cut lets it end the command that it has begun, and begin no other (R331). -/
def chiselMay (s : State) (p : Nat) (cmd : ChCmd) : Bool := if cmd.begun then runs s p else engineMay s p
/-- CHISEL_COMMAND_EXECUTE (R262, R263, R277). -/
def chiselStep (s : State) (p cl : Nat) : State :=
  match nextCtx (s.cluster p cl) with
  | none => s
  | some (n, k, cmd) =>
    if !chiselMay s p cmd then s
    else
      let visited (s : State) : State := updCluster s p cl fun x => { x with chPtr := n + 1 }
      match runCtx p cmd.at_.c k cmd.op s with
      | .ok k s => closeCmd (visited s) p n k cmd
      | .fault f s =>
        let r := ctxFault s p n k cmd f
        closeCmd (visited r.1) p n r.2 cmd
      | .wait => s
/-- The unit writes the next 8-byte unit of the CHMASK that it visits (R263, R274, R287), while more than one is left; what is left is
written as the command completes (log entry 81). -/
def postChisel (s : State) (p cl : Nat) : State :=
  match nextCtx (s.cluster p cl) with
  | none => s
  | some (n, k, cmd) =>
    match cmd.op with
    | .mask pl off f len =>
      if !chiselMay s p cmd || k.fault || len ≤ 64 then s
      else
        match chMask p cmd.at_.c k pl off f 64 s with
        | .ok _ s =>
          let left := { cmd with begun := true, op := .mask pl (off + 8) (f + 64) (len - 64) }
          updCluster (updCtx s p cmd.at_.c n fun k => { k with queue := left :: k.queue.tail }) p cl fun x => { x with chPtr := n }
        | _ => s
    | _ => s
def execChiselCommandExecute (p cluster : Nat) (s : State) : Out := agentStep s p (chiselStep s p cluster)

/-! ### Instructions (R270 to R276) -/

/-- A CHCLOSE of the context waits, or has run. -/
def Ctx.closing (k : Ctx) : Bool := k.shut ≠ 0 || k.queue.any (·.op == .close)
/-- The number that the next command takes: below that of a CHCLOSE that is there already (R272). -/
def Ctx.nextNum (k : Ctx) : Nat := if k.closing then k.assigned else k.assigned + 1
/-- The unit accepts a command under the next number (R262); a CHCLOSE that is there already moves behind it (R272). -/
def Ctx.enter (k : Ctx) (cmd : ChCmd) : Ctx :=
  { k with
    assigned := k.assigned + 1, shut := if k.shut = 0 then 0 else k.assigned + 1,
    completed := if k.closing then min k.completed (k.assigned - 1) else k.completed,
    queue := k.queue.filter (·.op != .close) ++ [cmd] ++
      (k.queue.filter (·.op == .close)).map fun q => { q with num := k.assigned + 1 } }
/-- A chisel instruction issues (R262, R263): the variant, its context, the checks of `body`, then the waits; the unit
accepts it under the next number. A context that a CHCLOSE of another slot has closed, or is about to, is closed to it, or it is
numbered before that CHCLOSE (R272, R313). `result`: the slot stays Blocked until its result returns. -/
def chIssue (c : Ctl) (srcs dsts : List SOp) (result : Bool) (s : State) (body : (Nat → Word) → Except Trap ChOp) : Out :=
  issue c srcs dsts [] s fun v t =>
    if s.variant = .s16 then .trap { cause := 0x03 }
    else
      match anyCtx s (v 0) with
      | none => .trap { cause := 0x02 }
      | some (i, k) =>
        if k.closing && !s.stale then .trap { cause := 0x02 } else
        match body v with
        | .error e => .trap e
        | .ok op =>
          if k.closing && op == .close then .trap { cause := 0x02 }
          else if !quiet s.me || k.queue.length ≥ 8 then .wait .chisel
          else
            let cmd : ChCmd := { num := k.nextNum, at_ := s.cur, act := s.me.act, task := s.me.taskId,
                                 prev := mget 0 s.me.lastChisel i, op := op }
            let t := updCtx t s.cur.p s.cur.c i fun k => k.enter cmd
            let t := updMe t fun x => { x with lastChisel := mput x.lastChisel i cmd.num }
            if result then .to (updMe t fun x => { blockSlot x .chisel with popped := poppedBy srcs v }) else .ok t

/-- CHOPEN (R271): the whole effect at once; the lowest free context. -/
def openStep (s t : State) (d : SOp) (base : Word) : Res :=
  let p := s.cur.p
  let c := s.cur.c
  let conf : ChRes (Img × Bool × Bool) := (readImg p c base.toNat t).andThen fun g t =>
    (evalConf p c g g.start [BitVec.ofNat 16 g.bottom] t).andThen fun e t => .ok (g, e.1, e.2) t
  match conf with
  | .wait => .wait .memory
  | .fault f _ => .trap { cause := 0x24, sub := f.code, bad := f.bad, kind := 7, level := f.level, ncw := f.ncw }
  | .ok (g, dead, acc) t =>
    match (List.range 64).find? fun n => (mfind? (s.cluster p (clusterOf c)).ctxs n).isNone with
    | none => .ok (putS t d 0xFFFFFFFFFFFFFFFF)
    | some n =>
      let ev := s.myPart.live.events + 1
      let k : Ctx := { launch := s.mine.launch, born := ev, by_ := s.cur, image := base,
                       state := g.start, stack := [BitVec.ofNat 16 g.bottom], dead := dead, accept := acc }
      let t := updCluster t p (clusterOf c) fun x => { x with ctxs := mput x.ctxs n k }
      let t := updLive t p fun l => { define l with
        cores := l.cores.map fun e => if clusterOf e.1 = clusterOf c then
          (e.1, { e.2 with slots := e.2.slots.map fun f => (f.1, { f.2 with lastChisel := mdel f.2.lastChisel n }) }) else e }
      .ok (putS (acquire t t.cur [ev]) d (BitVec.ofNat 64 n))
def execChopen (x : DA) (s : State) : Out :=
  issue x.c [x.a] [x.d] [] s fun v t =>
    if s.variant = .s16 then .trap { cause := 0x03 }
    else if !virtualForm (v 0) then .trap { cause := 0x08, bad := v 0, kind := 7 }
    else if (v 0).toNat % 64 ≠ 0 then .trap { cause := 0x06, bad := v 0, kind := 7 }
    else if !quiet s.me then .wait .chisel
    else openStep s t x.d (v 0)
/-- CHCLOSE (R272). -/
def execChclose (x : A1) (s : State) : Out := chIssue x.c [x.a] [] true s fun _ => .ok .close
/-- CHSTEP (R273). -/
def execChstep (x : AB) (s : State) : Out :=
  chIssue x.c [x.a, x.b] [] false s fun v =>
    if (v 1).toNat ≥ 2 ^ 20 then .error { cause := 0x02 } else .ok (.step (v 1))
/-- The destination of a mask (R274): its place and offset. -/
def maskPlace (s : State) (d : Word) (n : Nat) : Except Trap (Place × Nat) :=
  if !isGlobal d then .error { cause := 0x08, bad := d }
  else
    match globalPlace s s.cur.p s.cur.c d 1 n with
    | .error f => .error { cause := f.cause, bad := f.bad }
    | .ok r => if d.toNat % 16 ≠ 0 then .error { cause := 0x06, bad := d } else .ok r
/-- CHMASK (R274): A, D and B are read in that order. -/
def execChmask (x : ChMaskI) (s : State) : Out :=
  chIssue x.c [x.a, x.d, x.b] [] false s fun v =>
    let f := (v 2).toNat
    let n := 128 * x.n.toNat
    if x.n = 0 || x.n.toNat > 1024 then .error { cause := 0x01 }
    else if f % 128 ≠ 0 || f ≥ 2 ^ 20 then .error { cause := 0x02 }
    else match maskPlace s (v 1) (n / 8) with
      | .error e => .error e
      | .ok (pl, off) => .ok (.mask pl off f n)
/-- CHSAVE (R275). -/
def execChsave (x : A1) (s : State) : Out := chIssue x.c [x.a] [] false s fun _ => .ok .save
/-- CHLOAD (R275). -/
def execChload (x : ChLoadI) (s : State) : Out := chIssue x.c [x.a] [] false s fun _ => .ok (.load x.k.toNat)
/-- CHSTAT (R276). -/
def execChstat (x : ChStatI) (s : State) : Out :=
  chIssue x.c [x.a] [x.d] true s fun _ =>
    if x.sel = 3 then .error { cause := 0x01 } else .ok (.stat (dstOf s.me x.d) x.sel.toNat)

/-! ### Posts of stores (R287) -/

/-- POST_A_STORE_BUFFER_ENTRY (R287): the head of a slot's store buffer, or a store of the running command of an engine or of the
cluster's chisel unit. -/
def execPostAStoreBufferEntry (x : PortPart) (s : State) : Out :=
  let a := x.at_
  agentStep s a.p (if a.n = portVector then postVector s a.p a.c x.i true
    else if a.n = portCopy then postCopy s a.p a.c x.i true
    else if a.n = portMatrix then postMatrix s a.p a.c x.i true
    else if a.n = portChisel then postChisel s a.p (clusterOf a.c) else postStore s a)

end Sys2Proof.Machine
end

