-- ==== Sys2Proof/Machine/Privileged.lean ====
section
/-! DEFINITION. The privileged level (spec/17_privileged.md R315 to R330): special registers read and written by MOVC, the
instructions of slot 3, the reports of errors, watchdogs and watchpoints, and window transfers (spec/01_machine.md R43). -/

namespace Sys2Proof.Machine

/-! ### Registers (R316 to R321, R349, R373, R389) -/

/-- Slot states as STATUS gives them (R318). -/
def stateCode : SlotState → Nat
  | .idle => 0
  | .ready => 1
  | .blocked => 2
  | .parked => 3
/-- STATUS (R318). -/
def statusWord (x : Slot) : Word :=
  BitVec.ofNat 64 ((if x.svc then 32 else 0) + (if x.held then 16 else 0) + (if x.intrap then 8 else 0) +
    (if x.arm then 4 else 0) + stateCode x.st)
/-- LATCH (R320). -/
def latchWord (x : Slot) : Word :=
  match x.latch with
  | none => 0
  | some l => BitVec.ofNat 64 (l.fn.toNat * 2 ^ 24 + l.op.toNat * 2 ^ 16 + l.refuse.toNat * 2 ^ 8 + (if l.fetch then 4 else 0) +
      (if l.sent then 2 else 0) + 1)
/-- TPEND (R321). -/
def tpendWord (k : Core) : Word :=
  let svc (n : Nat) : Nat := if (mget ({} : Slot) k.slots n).svc then 2 ^ n else 0
  BitVec.ofNat 64 ((if k.tpWake then 8 else 0) + svc 0 + svc 1 + svc 2)
/-- CKPTCTL (R321). -/
def ckptctl (x : Part) : Word :=
  BitVec.ofNat 64 (x.seq.toNat * 2 ^ 32 + (if x.cut = .none then 0 else 65536) + x.ckptInt.toNat)

/-- Fault records held in the cores of a function's partitions (R350). -/
def heldCount (s : State) (v : Nat) : Nat :=
  (s.parts.map fun e => if e.2.vf = v then (e.2.live.cores.map fun c => c.2.heldRecs.length).sum else 0).sum
/-- Fewest spare clusters left on a die (R389). -/
def fewestSpares (s : State) : Nat := ((List.range (nDie s.variant)).map fun d => mget 16 s.spares (16 * s.chipId + d)).foldl min 16

/-- A register of the window of a function (R349, R373, R389); none for an unassigned number. Write-only fields read 0. -/
def regRead (s : State) (v num : Nat) : Option Word :=
  let f := s.vf v
  let b (x : Bool) (n : Nat) : Nat := if x then n else 0
  if 0x220 ≤ num && num ≤ 0x22F then some (mget 0 f.ncw (num - 0x220))
  else if 0x230 ≤ num && num ≤ 0x233 then some (mget 0 f.tbtask (num - 0x230))
  else if 0x234 ≤ num && num ≤ 0x237 then some (mget 0 f.tbpc (num - 0x234))
  else if 0x238 ≤ num && num ≤ 0x23F then some (mget 0 f.wp (num - 0x238))
  else if 0x240 ≤ num && num ≤ 0x25F then some (mget 0 s.map (num - 0x240))
  else
    match num with
    | 0x204 => some f.ptroot
    | 0x205 => some f.fbbase
    | 0x206 => some (f.fbprod.setWidth 64)
    | 0x207 => some (f.fbcons.setWidth 64)
    | 0x208 => some (BitVec.ofNat 64 (heldCount s v % 65536 * 2 ^ 32 + b f.fbovf 2))
    | 0x209 => some f.dlbase
    | 0x20A => some (f.dlprod.setWidth 64)
    | 0x20B => some (f.dlcons.setWidth 64)
    | 0x20C => some (BitVec.ofNat 64 (b f.dlEn 4 + b f.dlFull 2))
    | 0x20D => some (f.waymask.setWidth 64)
    | 0x20E => some f.migva
    | 0x20F => some f.migpa
    | 0x210 => some (BitVec.ofNat 64 (f.migReason * 256 + f.migState))
    | 0x211 => some f.lqbase
    | 0x212 => some (f.lqprod.setWidth 64)
    | 0x213 => some (f.lqcons.setWidth 64)
    | 0x214 => some f.cqbase
    | 0x215 => some (f.cqprod.setWidth 64)
    | 0x216 => some (f.cqcons.setWidth 64)
    | 0x217 => some (f.ronotify.setWidth 64)
    | 0x218 => some 0
    | 0x219 => some f.ptrace
    | 0x21A => some (BitVec.ofNat 64 (fewestSpares s + b s.replace 65536))
    | 0x21B => some (BitVec.ofNat 64 (s.junction.toNat + b s.alarm 256 + b s.halted 512))
    | _ => none

/-- User registers of slot scope (R15). -/
def slotScope (num : Nat) : Bool := [0x005, 0x006, 0x021, 0x030, 0x048].contains num
/-- A register by MOVC (R316, R317); none is cause 0x02. -/
def privRead (s : State) (a : At) (n num : Nat) : Option Word :=
  let x := s.slotAt a.p a.c n
  let k := s.coreAt a.p a.c
  let pt := s.part a.p
  if num < 0x100 then (if slotScope num || n = 0 then userRead s ⟨a.p, a.c, n⟩ num else none)
  else
    match num with
    | 0x100 => some (statusWord x)
    | 0x101 => some x.cause
    | 0x102 => some x.badaddr
    | 0x103 => some x.epc
    | 0x104 => some (latchWord x)
    | 0x105 => some x.latchv
    | 0x106 => some x.wspill
    | _ =>
      if n ≠ 0 then none
      else match num with
        | 0x110 => some k.tvec
        | 0x111 => some (tpendWord k)
        | 0x112 => some k.wdlim
        | 0x118 => some (pt.live.aflags.setWidth 64)
        | 0x119 => some (ckptctl pt)
        | 0x200 => some (BitVec.ofNat 64 (pt.vf % 128))
        | 0x201 => some (BitVec.ofNat 64 (pt.partId % 65536))
        | 0x202 => some (pt.ckptInt.setWidth 64)
        | 0x203 => some (pt.quantum.setWidth 64)
        | _ => regRead s pt.vf num

/-- The fields of a WSPILL value lie within the scratchpad (R321). -/
def wspillOk (v : Word) : Bool :=
  let base := v.toNat % 2 ^ 14
  let size := v.toNat / 2 ^ 16 % 2 ^ 15
  base % 64 = 0 && size % 64 = 0 && base + size ≤ 0x4000
/-- A write by MOVC (R316, R317, R321): the state after it, or the cause. -/
def privWrite (s : State) (a : At) (n num : Nat) (v : Word) : Except Nat State :=
  let x := s.slotAt a.p a.c n
  let slot (f : Slot → Slot) : Except Nat State :=
    if n < 3 && x.st != .parked && x.st != .idle then .error 0x02 else .ok (updSlot s a.p a.c n f)
  let core (f : Core → Core) : Except Nat State := .ok (updCore s a.p a.c f)
  if 0x200 ≤ num && num < 0x300 then .error 0x04
  else if num < 0x100 then
    if slotScope num || n = 0 then
      match userWrite s ⟨a.p, a.c, n⟩ num v with
      | some s => .ok s
      | none => .error 0x02
    else .error 0x02
  else
    match num with
    | 0x101 => slot fun x => { x with cause := v &&& 0x1FFFF }
    | 0x103 => if v.toNat % 4 = 0 then slot fun x => { x with epc := v } else .error 0x02
    | 0x105 => slot fun x => { x with latchv := v }
    | 0x106 => if wspillOk v then slot fun x => { x with wspill := v &&& 0x7FFF3FFF } else .error 0x02
    | _ =>
      if n ≠ 0 then .error 0x02
      else match num with
        | 0x110 => if v.toNat % 4 = 0 then core fun k => { k with tvec := v } else .error 0x02
        | 0x111 => core fun k => { k with tpWake := k.tpWake && !v.getLsbD 3 }
        | 0x112 => if v.toNat < 2 ^ 32 then core fun k => { k with wdlim := v } else .error 0x02
        | 0x118 => .ok (updLive s a.p fun l => { l with aflags := l.aflags &&& ~~~v.setWidth 5 })
        | _ => .error 0x02

/-- MOVC, reading (R316, R327). -/
def execMovcRead (x : MovcR) (s : State) : Out :=
  issueP x.c [] [x.d] [] s fun _ t =>
    match privRead t t.cur x.n.toNat x.num.toNat with
    | some v => .ok (putS t x.d v)
    | none => .trap { cause := 0x02 }
/-- MOVC, writing (R316, R327). -/
def execMovcWrite (x : MovcW) (s : State) : Out :=
  issueP x.c [x.a] [] [] s fun v t =>
    match privWrite t t.cur x.n.toNat x.num.toNat (v 0) with
    | .ok u => .ok u
    | .error c => .trap { cause := c }

/-! ### Service of a parked slot (R326 to R330) -/

/-- ERET (R327). -/
def execEret (x : C0) (s : State) : Out :=
  issueP x.c [] [] [] s fun _ t =>
    if s.me.intrap then .to (updMe t returnTrap) else .trap { cause := 0x02 }

/-- The record attached to a slot leaves the core's four (R329). -/
def dropRecord (s : State) (a : At) : State :=
  match (s.slotAt a.p a.c a.n).copyRec with
  | none => s
  | some i =>
    updSlot (updCore s a.p a.c fun k => { k with frecs := k.frecs.filter (·.id != i) }) a.p a.c a.n fun x => { x with
      copyRec := none }
/-- Slot n of the issuing core. -/
def serviced (s : State) (n : BitVec 2) : At := ⟨s.cur.p, s.cur.c, n.toNat⟩
/-- RESUME's check of its slot (R326, R327). -/
def resumable (s : State) (a : At) : Bool :=
  let x := s.slotAt a.p a.c a.n
  a.n != 3 && x.st == .parked && x.latch.isNone
/-- A parked slot is Ready at its EPC, and its service ends. -/
def resumeAt (s : State) (a : At) : State := updSlot s a.p a.c a.n fun x => { goOn x x.epc with svc := false }

/-- An IMM field of RESUME with a value that is not allowed is cause 0x02 whatever the guard (R86): a slot 3, or END with
REPLAY. -/
def issueResume (c : Ctl) (n : BitVec 2) (both : Bool) (s : State) (body : State → Res) : Out :=
  if s.cur.n = 3 && (n == 3 || both) then finish s (.trap { cause := 0x02 }) else issueP c [] [] [] s fun _ => body
/-- RESUME (R327). -/
def execResume (x : SlotI) (s : State) : Out :=
  issueResume x.c x.n false s fun t =>
    let a := serviced s x.n
    if resumable s a then .ok (resumeAt (dropRecord t a) a) else .trap { cause := 0x02 }

/-- The launch of a core ends with an error at the next cut (R380): the first activation's CODE and TASKID stand, the code as
the trap gave it, whatever MOVC has written to CAUSE since (R319). -/
def failLaunch (s : State) (a : At) : State :=
  let x := s.slotAt a.p a.c a.n
  match (s.coreAt a.p a.c).launch with
  | none => s
  | some id => updLive s a.p fun l => { l with
      launches := l.launches.map fun j =>
        if j.id = id && j.error.isNone then { j with error := some (x.trapCode, x.taskId) } else j }
/-- RESUME.end (R327, R330, R380). -/
def execResumeEnd (x : ResEndI) (s : State) : Out :=
  issueResume x.c x.n x.replay s fun t =>
    let a := serviced s x.n
    if !resumable s a then .trap { cause := 0x02 } else .ok (endActivation (failLaunch t a) a)

/-- A record's command enters the copy queue again (R329): FAULT leaves its tiles, and the slot waits for its number. It counts as
the last copy command that the slot entered (R149): DESIGN CHOICE, log entry 76. -/
def replayRecord (s : State) (a : At) (f : CopyFault) : State :=
  let num := (s.coreAt a.p a.c).cq.assigned + 1
  let s := updCore s a.p a.c fun k => { k with
    tfault := f.tiles.foldl (fun m n => mset false m n false) k.tfault,
    cq := { k.cq with
      assigned := num, queue := k.cq.queue ++ [{ f.cmd with num := num, guard := none, after := [] }] } }
  updSlot s a.p a.c a.n fun x => { x with lastCopy := num, replayNum := num }
/-- RESUME.replay (R327, R329): slot 3 is Blocked while the copy queue is full. -/
def execResumeReplay (x : SlotI) (s : State) : Out :=
  issueResume x.c x.n false s fun t =>
    let a := serviced s x.n
    match resumable s a, (s.slotAt a.p a.c a.n).copyRec.bind fun i => s.mine.frecs.find? fun f => f.id == i with
    | true, some f =>
      if s.mine.cq.held ≥ depthOf .copy then .wait .engineFull
      else
        let t := resumeAt t a
        .ok (dropRecord (replayRecord t a f) a)
    | _, _ => .trap { cause := 0x02 }

/-- REARM's and DROPL's check of their slot (R327). -/
def latched (s : State) (a : At) : Option Latch :=
  let x := s.slotAt a.p a.c a.n
  if a.n = 3 || x.st == .parked then x.latch else none
/-- REARM (R327): the latched atomic is sent to its home, and slot 3 is Blocked until the answer. -/
def execRearm (x : RearmI) (s : State) : Out :=
  issueP x.c [] [] [x.p] s fun _ t =>
    let a := serviced s x.n
    match latched s a with
    | none => .trap { cause := 0x02 }
    | some l =>
      let t := updSlot t a.p a.c a.n fun y => { y with
        latch := some { l with sent := true }, pend := some { acc := some l.acc, rearm := some x.p } }
      .to (updMe t fun y => blockSlot y .rearm)
/-- DROPL (R327). -/
def execDropl (x : SlotI) (s : State) : Out :=
  issueP x.c [] [] [] s fun _ t =>
    let a := serviced s x.n
    match latched s a with
    | none => .trap { cause := 0x02 }
    | some l =>
      .ok (updSlot t a.p a.c a.n fun y =>
        let z := { (if l.fetch then writeDst y l.acc.dst y.latchv else y) with latch := none, epc := y.epc + 12 }
        if a.n = 3 then z else { goOn z z.epc with svc := false })

/-! ### Slot 3 and its partition (R327) -/

/-- A cached entry maps a byte of a range. -/
def Tlb.inRange (t : Tlb) (start len : Nat) : Bool :=
  let w := 2 ^ levelBits t.level
  t.index * w < start + len && start < (t.index + 1) * w
/-- A virtual access touches a byte of a range; one of the engines and the host is known by the pieces of it that are under way. -/
def Acc.inRange (e : Acc) (start len : Nat) : Bool :=
  match e.place with
  | .home _ | .ncCopy _ => e.ea.toNat < start + len && start < e.ea.toNat + e.kind.bytes
  | _ => false
/-- An access accepted under a translation of the range is not yet performed and answered: a slot's, an engine's or the host's. -/
def rangeBusy (x : Part) (start len : Nat) : Bool :=
  let l := x.live
  (l.cores.any fun c => c.2.slots.any fun f =>
    ((f.2.lq.map (·.acc)) ++ f.2.sb ++ f.2.unacked).any (·.inRange start len)) ||
  (l.chans.map (·.2.2) ++ l.delivered ++ l.resps.map (·.1)).any (·.inRange start len)
/-- Every slice drops its translations of a range. The octets' instruction caches drop its lines, so that no fetch accepted
later is served under a dropped translation (R327, R346, R348). -/
def dropRange (s : State) (p start len : Nat) : State :=
  updPart s p fun x => { x with
    tlb := x.tlb.filter fun t => !t.inRange start len,
    live := { x.live with octets := x.live.octets.map fun o =>
      (o.1, { o.2 with icache := o.2.icache.filter fun l => !(start ≤ 128 * l.1 && 128 * l.1 < start + len) }) } }
/-- XINV (R327): the translations of the range are dropped, and the slot waits for the accesses under them. -/
def execXinv (x : AB) (s : State) : Out :=
  issueP x.c [x.a, x.b] [] [] s fun v t =>
    let start := (v 0).toNat
    let len := (v 1).toNat
    if !virtualForm (v 0) then .trap { cause := 0x08, bad := v 0 }
    else if start % 65536 ≠ 0 || len % 65536 ≠ 0 then .trap { cause := 0x06, bad := v 0 }
    else if start + len > 2 ^ 55 then .trap { cause := 0x02 }
    else if len = 0 then .ok t
    else if !storesDone s.me then .wait .memory
    else
      if rangeBusy s.myPart start len then .to (block (dropRange s s.cur.p start len) .xinv)
      else .ok (dropRange t s.cur.p start len)

/-- A cut begins (R331 stage 1): the partition's engines stop starting commands. -/
def beginCut (s : State) (p : Nat) : State :=
  updPart s p fun x => if x.cut = .none then { x with cut := .stopping } else x
/-- CKPT (R327): it waits for the commit of a cut begun at or after its issue. -/
def execCkpt (x : D1) (s : State) : Out :=
  issueP x.c [] [x.d] [] s fun _ t =>
    let pt := s.myPart
    match s.me.wait with
    | .ckpt n =>
      if committed pt n then .ok (putS t x.d (BitVec.ofNat 64 n)) else .to (block (beginCut s s.cur.p) (.ckpt n))
    | _ =>
      let n := (pt.seq + (if pt.cut = .none then 1 else 2)).toNat
      .to (block (beginCut s s.cur.p) (.ckpt n))

/-- HALT (R327); one that returns because of WAKE is an acquire. -/
def execHalt (x : A1) (s : State) : Out :=
  issueP x.c [x.a] [] [] s fun v t =>
    if v 0 = 0 || (v 0).toNat ≥ 16 then .trap { cause := 0x02 }
    else if tpendWord s.mine &&& v 0 = 0 then .wait .halt
    else .ok (if s.mine.tpWake && (v 0).getLsbD 3 then acquire t t.cur s.mine.wakeKnow else t)
/-- WAKE (R327): a release at the smallest scope that holds both cores. -/
def execWake (x : A1) (s : State) : Out :=
  issueP x.c [x.a] [] [] s fun v t =>
    if headerQueue (v 0) ≠ 0 then .trap { cause := 0x02 }
    else
      match headerCore s (v 0) with
      | .error e => .trap e
      | .ok c =>
        if queuesRoom s.me .wake then
          .to (acceptAcc t t.cur { core := s.cur.c, slot := s.cur.n, act := s.me.act, kind := .wake, place := .queue c,
                                   ord := .rel, scope := scopeOver s.cur.c c })
        else .wait .memory

/-! ### Reports -/

/-- The accesses of a slot that are with the memory system. -/
def inFlight (x : Slot) : List Acc := (x.lq.map (·.acc)) ++ x.sb ++ x.unacked
/-- Accesses leave every queue and channel without effect. -/
def cancelAccs (s : State) (a : At) (ids : List Nat) : State :=
  let s := updSlot s a.p a.c a.n fun x => { x with
    lq := x.lq.filter fun e => !ids.contains e.acc.id, sb := x.sb.filter fun e => !ids.contains e.id,
    unacked := x.unacked.filter fun e => !ids.contains e.id }
  updLive s a.p fun l => { l with
    chans := l.chans.filter fun e => !ids.contains e.2.2.id, delivered := l.delivered.filter fun e => !ids.contains e.id,
    resps := l.resps.filter fun e => !ids.contains e.1.id }
/-- MEMORY_ERROR_REPORT (R323): the line of a physical address has an uncorrectable error. A line written since the latest
cocoon waits for the rollback; else a load, LDP or atomic of the slot to the line has no effect and is reported, and a
report for no access of a live activation is counted. -/
def memoryError (s : State) (a : At) (pa : Word) : State :=
  let line := pa.toNat / 128
  let s := if s.memErrors.contains line then s else { s with memErrors := line :: s.memErrors }
  let x := s.slotAt a.p a.c a.n
  let hit (e : Acc) : Bool := (e.kind.isLoad || e.kind.isAmo) && errorLine s a.p e e.caches && e.leaf.pa / 128 == line
  if logged s a.p line then s
  else
    match (inFlight x).find? hit with
    | none => { s with reliability := s.reliability + 1 }
    | some e =>
      let s := cancelAccs s a [e.id]
      if e.act = x.act then updSlot s a.p a.c a.n fun x => { x with report := some (0x3F, e.ea) }
      else { s with reliability := s.reliability + 1 }
def execMemoryErrorReport (x : At) (addr : Word) (s : State) : Out := agentStep s x.p (memoryError s x addr)

/-- The names of the accesses for whose answers a slot is Blocked at its instruction. -/
def waitingIds (x : Slot) : List Nat := ((inFlight x).filter fun e => e.kind.blocking && e.act == x.act).map (·.id)
/-- The first n responses of a partition return, in order. -/
def returnFirst (p : Nat) : Nat → State → State
  | 0, s => s
  | n + 1, s => returnFirst p n (returnAt s p 0)
/-- A Blocked slot traps, precisely, at its waiting instruction, which has no effect (R324). An instruction that has been performed,
and whose answer is on its way, has had its effect: its answer returns first, and the slot traps at the instruction that follows. A
slot that waits for a window transfer traps at the instruction after the slide, and the transfer goes on. -/
def trapWaiting (s : State) (a : At) (t : Trap) : State :=
  if (s.slotAt a.p a.c a.n).st != .blocked then s
  else
    let ids := waitingIds (s.slotAt a.p a.c a.n)
    let s := match (s.part a.p).live.resps.findIdx? fun e => ids.contains e.1.id with
      | some i => returnFirst a.p (i + 1) s
      | none => s
    let x := s.slotAt a.p a.c a.n
    if x.st == .idle || x.st == .parked then s
    else takeTrap (updSlot (unissueChisel (cancelAccs s a (waitingIds x)) a) a.p a.c a.n unpop) a t
/-- The member cores of a core's team (R17). -/
def teamOf (s : State) (p c : Nat) : List Nat :=
  let n := (s.coreAt p c).teamSize
  (List.range n).map (c - c % n + ·)
/-- TEAM_WATCHDOG_EXPIRY (R324): never while a member is Parked, nor with WDLIM 0. -/
def watchdog (s : State) (p launch c : Nat) : State :=
  let cs := teamOf s p c
  let parked := cs.any fun d => [0, 1, 2].any fun n => (s.slotAt p d n).st == .parked
  if (s.coreAt p c).launch != some launch || (s.coreAt p c).wdlim = 0 || parked then s
  else cs.foldl (fun s d => [0, 1, 2].foldl (fun s n => trapWaiting s ⟨p, d, n⟩ { cause := 0x28 }) s) s
def execTeamWatchdogExpiry (p launch core : Nat) (s : State) : Out := agentStep s p (watchdog s p launch core)

/-- A slot's state as a patina record gives it (R397). -/
def patinaState (x : Slot) : Nat :=
  match x.st with
  | .ready => 0
  | .idle => 3
  | .parked => 2
  | .blocked => match x.wait with
    | .queueEmpty | .queueFull | .message | .barrier | .phase | .halt => 1
    | _ => 2
/-- A patina record appended to the function's ring; a full ring drops it and counts (R397). -/
def patinaPost (s : State) (v : Nat) (task : Word) (who low : Nat) (kind : Nat) : State :=
  let f := s.vf v
  if ringSize f.ptrace = 0 then s
  else if f.ptprod ≥ ringSize f.ptrace then updVf s v fun f => { f with ptDropped := f.ptDropped + 1 }
  else
    let bs := leBytes 8 task.toNat ++ leBytes 4 who ++ leBytes 1 (low % 16 + 16 * kind) ++
      leBytes 3 (Config.freeClks s.fresh).toNat
    let s := hostWrite { s with fresh := s.fresh + 1 } (ringAddr f.ptrace 16 f.ptprod) bs
    updVf s v fun f => { f with ptprod := f.ptprod + 1 }
/-- A slot's record: its state and kind. -/
def patinaSlot (s : State) (a : At) (kind : Nat) : State :=
  let x := s.slotAt a.p a.c a.n
  patinaPost s (s.part a.p).vf x.taskId a.c (a.n % 4 + 4 * patinaState x) kind

/-- WATCHPOINT_REPORT (R398): cause 0x31 at the slot's next instruction; a match by a copy or the host is a patina record of
kind 2. -/
def watchReport (s : State) (p i : Nat) : State :=
  match s.watch[i]? with
  | none => s
  | some h =>
    if h.at_.p ≠ p then s
    else
      let gone : State := { s with watch := s.watch.eraseIdx i }
      match h.note with
      | some (task, who) =>
        let low := if h.at_.n ≥ 4 then h.at_.n - 4
                   else h.at_.n + 4 * patinaState (s.slotAt p h.at_.c h.at_.n)
        patinaPost gone (s.part p).vf task who low 2
      | none =>
        let x := s.slotAt p h.at_.c h.at_.n
        if x.act ≠ h.act then gone
        else if x.report.isSome then s
        else updSlot gone p h.at_.c h.at_.n fun x => { x with report := some (0x31, h.addr) }
def execWatchpointReport (p i : Nat) (s : State) : Out := agentStep s p (watchReport s p i)

/-! ### Window transfers (R43) -/

/-- Spilling registers at positions lo to hi - 1 to the region of WSPILL. -/
def spillRegs (s : State) (a : At) (lo hi : Nat) : State :=
  let x := s.slotAt a.p a.c a.n
  let bs := ((List.range (hi - lo)).map fun i => leBytes 8 (mget 0 x.wregs (lo + i)).toNat).flatten
  updSlot (spadWrite s a.p a.c (wspillBase x + 8 * lo) bs) a.p a.c a.n fun x => { x with wregs := dropWin x.wregs lo hi }
/-- Filling them back. -/
def fillRegs (s : State) (a : At) (lo hi : Nat) : State :=
  let x := s.slotAt a.p a.c a.n
  let v (i : Nat) : Word := BitVec.ofNat 64 (leNat (spadRead s a.p a.c (wspillBase x + 8 * (lo + i)) 8))
  updSlot s a.p a.c a.n fun x => { x with
    wregs := (List.range (hi - lo)).foldl (fun m i => mset 0 m (lo + i) (v i)) x.wregs }
/-- WINDOW_SPILL_FILL_DONE (R43): the transfer, in program order among the slot's own scratchpad accesses. -/
def windowDone (s : State) (a : At) : State :=
  let x := s.slotAt a.p a.c a.n
  match x.fillTo with
  | none => s
  | some n =>
    if (inFlight x).any (·.own) || winBusy x x.spilled n then s
    else
      let s := if x.spilled < n then spillRegs s a x.spilled n else fillRegs s a n x.spilled
      updSlot s a.p a.c a.n fun x => { x with
        spilled := n, fillTo := none, st := if x.st == .blocked then .ready else x.st, wait := .none }
def execWindowSpillFillDone (x : At) (s : State) : Out := agentStep s x.p (windowDone s x)

end Sys2Proof.Machine
end

