-- ==== Sys2Proof/Machine/Coherence.lean ====
section
/-! DEFINITION. Coherence across dies (spec/19_coherence.md R360 to R370): the directory of a home, the snoop filters of the
dies, and the messages between them. PERFORM performs an access on the copy or at the home; these messages move the copies. A
message's step sends it, or, once it heads its channel, lets its receiver take it. -/

namespace Sys2Proof.Machine

/-! ### The directory's word (R362) -/

/-- STATE of a directory entry. -/
def DirState.code : DirState → Nat
  | .i => 0
  | .s => 1
  | .e => 2
  | .o => 3
  | .m => 4
/-- The 32 bits of a directory entry (R362). -/
def DirEntry.word (d : DirEntry) : BitVec 32 :=
  BitVec.ofNat 32 ((if d.lock then 2 ^ 31 else 0) + (if d.txn.isSome then 2 ^ 30 else 0) + (if d.log then 2 ^ 29 else 0) +
    d.st.code * 2 ^ 24 + d.owner % 16 * 2 ^ 16 + ((List.range 16).filter fun n => d.dies.any (· % 16 == n)).foldl (fun m n => m + 2 ^ n) 0)

/-! ### Copies that leave (R364, R365) -/

/-- The copies of some cores of a die leave. -/
def dropCopies (s : State) (p line die : Nat) (cs : List Nat) : State :=
  updCopies s p line die fun c m => if cs.contains c then mdel m line else m
/-- A message enters its channel. -/
def sendSnoop (s : State) (p : Nat) (m : Snoop) : State := updLive s p fun x => { x with snoop := x.snoop ++ [m] }
/-- The requests of caching cores (R366). -/
def CohReq.caching : CohReq → Bool
  | .rds | .rdx | .upg => true
  | .ncrd | .ncwr | .atm => false
/-- The messages from a caching request to the use of its fill (R366). -/
def SnoopKind.asks (k : SnoopKind) : Bool := [.rds, .rdx, .upg, .datas, .datae, .datam, .cmp].contains k
/-- The die has asked for the line, or asks for more of it: a request of one of its cores is under way or at the home, or a fill or
completion under way to it. Its copies stay until then, so that no EvC follows a request that the home serves after it (R361, R363). -/
def dieHeld (x : PLive) (line die : Nat) : Bool :=
  let d := dirOf x line
  (dieCopies x line die).any (fun c => !c.2.usable) ||
  d.txn.any (fun t => t.req.caching && t.die == die) || d.queue.any (fun q => q.1.caching && q.2.1 == die) ||
  x.snoop.any fun m => m.line == line && m.die == die && m.kind.asks
/-- The filter's entry stays until the home acknowledges (R365). -/
def markLeaving (s : State) (p line die : Nat) : State :=
  updLive s p fun x => { x with filters := mput x.filters (filterKey line die) { leaving := true } }
/-- The home acknowledges a WbD or an EvC (R369): the die's filter frees its entry. The acknowledgement is no message of R366's
table; it arrives in the step that gives it. -/
def acknowledge (s : State) (p line die : Nat) : State :=
  updLive s p fun x => if (mget ({} : Filter) x.filters (filterKey line die)).leaving then
    syncFilter { x with filters := mdel x.filters (filterKey line die) } line die else x
/-- A line leaves a die (R365, R366): every copy is invalidated, and WbD goes out with the dirty data, or EvC. -/
def dieEvict (s : State) (p line die : Nat) : State :=
  let cs := dieCopies (s.part p).live line die
  if cs.isEmpty || dieHeld (s.part p).live line die then s
  else
    let t := markLeaving (dropCopies s p line die (cs.map (·.1))) p line die
    match cs.find? (·.2.dirty) with
    | some c => sendSnoop t p { kind := .wbd, line := line, die := die, toHome := true, dirty := true, cut := c.2.cutDirty,
                                data := c.2.data }
    | none => sendSnoop t p { kind := .evc, line := line, die := die, toHome := true }
/-- A core drops a clean copy and tells the filter (R364), which sends EvC when it was the die's last. -/
def coreDrop (s : State) (p line c : Nat) : State :=
  let die := dieOf c
  match mfind? (s.coreAt p c).l1 line with
  | none => s
  | some l =>
    if l.dirty || dieHeld (s.part p).live line die then s
    else
      let t := dropCopies s p line die [c]
      if (dieCopies (t.part p).live line die).isEmpty then
        sendSnoop (markLeaving t p line die) p { kind := .evc, line := line, die := die, toHome := true }
      else t

/-! ### Channels (R366) -/

/-- Two messages travel in one channel: home, die, direction, and the sender of a fill. -/
def sameSnoop (x : Part) (m n : Snoop) : Bool :=
  homeOf x (128 * m.line) == homeOf x (128 * n.line) && m.die == n.die && m.toHome == n.toHome && m.src == n.src
/-- A message of a kind for a line and die that heads its channel, and the state without it. -/
def takeSnoop (s : State) (k : SnoopKind) (m : CohMsg) : Option (Snoop × State) :=
  let x := s.part m.p
  let q := x.live.snoop
  (q.zipIdx.find? fun e => e.1.kind == k && e.1.line == m.line && e.1.die == m.die &&
      !((q.take e.2).any (sameSnoop x e.1))).map fun e =>
    (e.1, updLive s m.p fun l => { l with snoop := q.eraseIdx e.2 })
/-- The same, for a message that names its requester. -/
def takeRequest (s : State) (k : SnoopKind) (m : CohMsg) : Option (Snoop × State) :=
  let x := s.part m.p
  let q := x.live.snoop
  (q.zipIdx.find? fun e => e.1.kind == k && e.1.line == m.line && e.1.die == m.die && e.1.core == m.core &&
      !((q.take e.2).any (sameSnoop x e.1))).map fun e =>
    (e.1, updLive s m.p fun l => { l with snoop := q.eraseIdx e.2 })

/-! ### The home's transactions (R367, R368) -/

/-- A coherent line by the home's walk, with the permission the request needs: none has no effect. -/
def lineWalk (s : State) (p line : Nat) (q : CohReq) : Option Walk :=
  let va := 128 * line
  match checkAccess s p va (if q = .rds || q = .ncrd then .read else .write) (translate s p va) with
  | .ok (w, false) => some w
  | _ => none

/-- The leaf under which the home serves a request: that of the accepted access that the request is for, else the home's walk; a page
that migrates lies where its entry says (R124, R356). None: a request for no access, which has no effect. -/
def lineLeaf (s : State) (p line : Nat) (q : CohReq) (core : Nat) : Option Leaf :=
  let at_ (e : Acc) : Bool := e.core == core && e.off / 128 == line && (match e.place with
    | .home _ => true
    | _ => false)
  let leaf := match (s.part p).live.delivered.find? at_ with
    | some e => some e.leaf
    | none => (lineWalk s p line q).map leafOf
  leaf.map (migLeaf s p (128 * line))
/-- The requester of an Inv or Rcl for a non-caching request: none, so that every copy leaves (R366, R368). -/
def noCore : Nat := 2 ^ 40
/-- The transaction of a request, by the tables of R367 and R368: the messages are sent, and the dies whose answers it
waits for are noted. -/
def beginTxn (s : State) (p line : Nat) (q : CohReq) (die core : Nat) : State :=
  match lineLeaf s p line q core with
  | none => s
  | some w =>
    let x := (s.part p).live
    let d := dirOf x line
    let s := if d.st = .i then updDir s p line fun d => { d with pa := w.pa / 128 * 128 } else s
    let mine := (mfind? (s.coreAt p core).l1 line).any (·.usable)
    let q := if q = .upg && !(d.dies.contains die && mine && (d.st == .s || d.st == .o)) then .rdx else q
    let owned := d.st == .e || d.st == .o || d.st == .m
    let others := d.dies.filter fun e => !(owned && e == d.owner)
    let kept := if q = .ncwr || q = .atm then noCore else core
    let ask (s : State) (k : SnoopKind) (keep : Bool) (e : Nat) : State :=
      sendSnoop s p { kind := k, line := line, die := e, core := kept, keep := keep }
    let open_ (s : State) (waiting : List Nat) (asked : Bool) : State :=
      updDir s p line fun d => { d with
        txn := some { req := q, die := die, core := core, waiting := waiting, asked := asked } }
    let invs (s : State) (es : List Nat) : State := es.foldl (fun s e => ask s .inv false e) s
    match q with
    | .rds => if owned then open_ (ask s .fwds true d.owner) [d.owner] true else open_ s [] false
    | .rdx =>
      if owned then open_ (invs (ask s .fwdx false d.owner) others) (d.owner :: others) true
      else open_ (invs s d.dies) d.dies false
    | .upg =>
      let es := d.dies.filter fun e => e != die || (dieCopies x line die).any (·.1 != core)
      open_ (invs s es) es false
    | .ncrd => if owned then open_ (ask s .rcl true d.owner) [d.owner] true else open_ s [] false
    | .ncwr | .atm =>
      if owned then open_ (invs (ask s .rcl false d.owner) others) (d.owner :: others) true
      else open_ (invs s d.dies) d.dies false

/-- The end of a transaction whose answers are in: the fill from memory unless the owner sent it, the entry, the
acknowledgements that waited for it (R369), and Cmp. -/
def endTxn (s : State) (p line : Nat) (t : Txn) : State :=
  let d := dirOf (s.part p).live line
  let canWrite := (lineWalk s p line .rdx).isSome
  let home := homeOf (s.part p) (128 * line)
  let fill (s : State) (k : SnoopKind) : State :=
    if t.sent then s
    else sendSnoop (l2Take s p home line d.pa .home) p
      { kind := k, line := line, die := t.die, core := t.core, dirty := k == .datam, data := physRead s d.pa 128 }
  let cmp (s : State) (made : Bool) : State :=
    sendSnoop s p { kind := .cmp, line := line, die := t.die, core := t.core, dirty := made, cut := made && t.cut }
  let set (s : State) (st : DirState) (owner : Nat) (dies : List Nat) : State :=
    d.acks.foldl (fun s e => acknowledge s p line e)
      (updDir s p line fun d => { d with st := st, owner := owner, dies := dies, txn := none, acks := [] })
  let more := if d.dies.contains t.die then d.dies else d.dies ++ [t.die]
  match t.req with
  | .rds =>
    if t.sent && t.dirty then cmp (set s .o d.owner more) false
    else if d.st = .i && !t.asked && canWrite then cmp (set (fill s .datae) .e t.die [t.die]) false
    else cmp (set (fill s .datas) .s 0 more) false
  | .rdx => cmp (set (fill s .datam) .m t.die [t.die]) false
  | .upg => cmp (set s .m t.die [t.die]) true
  | .ncrd => if d.dies.isEmpty then set s .i 0 [] else set s .s 0 d.dies
  | .ncwr | .atm => set s .i 0 []

/-- The home goes on with a line: a transaction whose answers are in ends, and the next waiting request starts. -/
def pumpLine (p line : Nat) : Nat → State → State
  | 0, s => s
  | n + 1, s =>
    let d := dirOf (s.part p).live line
    match d.txn with
    | some t => if t.waiting.isEmpty then pumpLine p line n (endTxn s p line t) else s
    | none =>
      match d.queue with
      | [] => s
      | q :: rest => pumpLine p line n (beginTxn (updDir s p line fun d => { d with queue := rest }) p line q.1 q.2.1 q.2.2)
def pump (s : State) (p line : Nat) : State :=
  pumpLine p line (2 * (dirOf (s.part p).live line).queue.length + 2) s

/-- The core has a request for the line under way or at its home, or a fill or completion under way to it. -/
def requested (x : PLive) (line core : Nat) : Bool :=
  let d := dirOf x line
  d.queue.any (·.2.2 == core) || d.txn.any (·.core == core) || x.snoop.any fun m =>
    m.line == line && m.core == core && m.kind.asks
/-- The lines that a core has asked for: those at their homes, and those whose requests and fills are under way. -/
def askedLines (x : PLive) (core : Nat) : List Nat :=
  (x.dir.map (·.1) ++ x.snoop.map (·.line)).filter fun l => requested x l core
/-- Lines that a core's L1 holds or has asked for: at most sixteen (R5: 2 KiB of 128-byte lines). -/
def l1Lines (x : PLive) (core : Nat) : Nat :=
  ((mget ({} : Core) x.cores core).l1.map (·.1) ++ askedLines x core).eraseDups.length
/-- A delivered access of the core at the line's home that a non-caching request serves (R368). -/
def ncAccess (x : Part) (line core : Nat) (q : CohReq) : Option Acc :=
  x.live.delivered.find? fun e => e.core == core && e.off / 128 == line && e.caches.isNone &&
    (match e.place, q with
     | .home _, .ncrd => e.kind.isLoad
     | .home _, .ncwr => !e.kind.isLoad && !e.kind.isAmo
     | .home _, .atm => e.kind.isAmo
     | _, _ => false)
/-- A core may send a request of the line (R360, R367): it is on the home's chip, and holds no copy, and its L1 has room; or
for Upg one in S or O. A non-caching requester has an access at the home. -/
def maySend (s : State) (m : CohMsg) (q : CohReq) : Bool :=
  let x := s.part m.p
  let own := mfind? (s.coreAt m.p m.core).l1 m.line
  x.hasCore m.core && dieOf m.core == m.die && !requested x.live m.line m.core &&
  (match q with
   | .rds | .rdx => chipOf (128 * homeOf x (128 * m.line)) == chipOf m.core && own.isNone && l1Lines x.live m.core < 16
   | .upg => own.any fun l => l.usable && (l.st == .s || l.st == .o)
   | .ncrd | .ncwr | .atm => (ncAccess x m.line m.core q).isSome)
/-- The message of a request. -/
def CohReq.kind : CohReq → SnoopKind
  | .rds => .rds
  | .rdx => .rdx
  | .upg => .upg
  | .ncrd => .ncrd
  | .ncwr => .ncwr
  | .atm => .atm
/-- A request (R366): at the head of its channel, behind what its die sent before it, it reaches the home and waits behind the
line's transaction, or starts one; else a core that may sends it. -/
def arrive (s : State) (m : CohMsg) (q : CohReq) : State :=
  match takeRequest s q.kind m with
  | some (_, t) => pump (updDir t m.p m.line fun d => { d with queue := d.queue ++ [(q, m.die, m.core)] }) m.p m.line
  | none =>
    if maySend s m q then
      sendSnoop s m.p { kind := q.kind, line := m.line, die := m.die, core := m.core, toHome := true,
                        acc := ncAccess (s.part m.p) m.line m.core q }
    else s

/-- RDS (R367). -/
def execRds (m : CohMsg) (s : State) : Out := homeStep s m.p (arrive s m .rds)
/-- RDX (R367). -/
def execRdx (m : CohMsg) (s : State) : Out := homeStep s m.p (arrive s m .rdx)
/-- UPG (R367). -/
def execUpg (m : CohMsg) (s : State) : Out := homeStep s m.p (arrive s m .upg)
/-- NCRD (R368): the home makes memory current; PERFORM then serves the read. -/
def execNcrd (m : CohMsg) (s : State) : Out := homeStep s m.p (arrive s m .ncrd)
/-- NCWR (R368): the home recalls every copy; PERFORM then performs the write. -/
def execNcwr (m : CohMsg) (s : State) : Out := homeStep s m.p (arrive s m .ncwr)
/-- ATM (R368): the home recalls every copy; PERFORM then performs the atomic. -/
def execAtm (m : CohMsg) (s : State) : Out := homeStep s m.p (arrive s m .atm)

/-! ### Lines that leave a die (R365, R367, R369) -/

/-- The die no longer holds the line; `none` dies left make I. -/
def dieGone (d : DirEntry) (die : Nat) (st : DirState) : DirEntry :=
  let dies := d.dies.filter (· != die)
  if dies.isEmpty then { d with st := .i, owner := 0, dies := [] } else { d with st := st, dies := dies }
/-- The home acknowledges a line that left a die (R369): at once, or once BUSY clears. -/
def ackEvict (s : State) (p line die : Nat) : State :=
  if (dirOf (s.part p).live line).txn.isSome then updDir s p line fun d => { d with acks := d.acks ++ [die] }
  else acknowledge s p line die
/-- WBD: the die evicts its dirty line, or its message reaches the home, which logs and writes memory (R367, R370). -/
def wbdStep (s : State) (m : CohMsg) : State :=
  match takeSnoop s .wbd m with
  | some (w, t) =>
    let t := homeWrite t m.p m.line (dirOf (t.part m.p).live m.line).pa w.data w.cut
    ackEvict (updDir t m.p m.line fun d => { dieGone d m.die .s with owner := 0 }) m.p m.line m.die
  | none => if (dieCopies (s.part m.p).live m.line m.die).any (·.2.dirty) then dieEvict s m.p m.line m.die else s
def execWbd (m : CohMsg) (s : State) : Out := homeStep s m.p (wbdStep s m)
/-- EVC: a core drops a clean copy, or the die's EvC reaches the home. -/
def evcStep (s : State) (m : CohMsg) : State :=
  match takeSnoop s .evc m with
  | some (_, t) =>
    ackEvict (updDir t m.p m.line fun d => dieGone d m.die (if d.st == .e && d.owner == m.die then .s else d.st))
      m.p m.line m.die
  | none => coreDrop s m.p m.line m.core
def execEvc (m : CohMsg) (s : State) : Out := homeStep s m.p (evcStep s m)

/-! ### The die's side (R366, R369) -/

/-- The copy of a die in E, O or M. -/
def ownerCopy (x : PLive) (line die : Nat) : Option (Nat × L1Line) :=
  (dieCopies x line die).find? fun c => c.2.st != .s
/-- An answer to the home. -/
def answerHome (s : State) (m : CohMsg) (k : SnoopKind) (dirty cut : Bool) (data : List Byte) : State :=
  sendSnoop s m.p { kind := k, line := m.line, die := m.die, toHome := true, dirty := dirty, cut := cut, data := data }
def updL1 (s : State) (p c line : Nat) (f : L1Line → L1Line) : State :=
  updCopies s p line (dieOf c) fun d m => if d = c then mupd m line f else m

/-- FWDS: the owner sends the line to the requester and keeps S or O; without a copy the die answers Nak. -/
def fwdsStep (s : State) (m : CohMsg) : State :=
  match takeSnoop s .fwds m with
  | none => s
  | some (w, t) =>
    match ownerCopy (t.part m.p).live m.line m.die with
    | none => answerHome t m .nak false false []
    | some (c, l) =>
      let t := updL1 t m.p c m.line fun l => { l with st := if l.dirty then .o else .s }
      let t := sendSnoop t m.p { kind := .datas, line := m.line, die := dieOf w.core, core := w.core, src := some m.die,
                                 data := l.data }
      answerHome t m .fwdack l.dirty false []
def execFwds (m : CohMsg) (s : State) : Out := homeStep s m.p (fwdsStep s m)
/-- FWDX: the owner sends the line to the requester, and the die's copies leave. -/
def fwdxStep (s : State) (m : CohMsg) : State :=
  match takeSnoop s .fwdx m with
  | none => s
  | some (w, t) =>
    match ownerCopy (t.part m.p).live m.line m.die with
    | none => answerHome t m .nak false false []
    | some (_, l) =>
      let cs := (dieCopies (t.part m.p).live m.line m.die).map (·.1)
      let t := dropCopies t m.p m.line m.die cs
      let t := sendSnoop t m.p { kind := .datam, line := m.line, die := dieOf w.core, core := w.core, src := some m.die,
                                 dirty := true, cut := l.cutDirty, data := l.data }
      answerHome t m .fwdack l.dirty false []
def execFwdx (m : CohMsg) (s : State) : Out := homeStep s m.p (fwdxStep s m)
/-- RCL: the line returns to the home; the die keeps it in S, or its copies leave. -/
def rclStep (s : State) (m : CohMsg) : State :=
  match takeSnoop s .rcl m with
  | none => s
  | some (w, t) =>
    match ownerCopy (t.part m.p).live m.line m.die with
    | none => answerHome t m .nak false false []
    | some (c, l) =>
      let t := if w.keep then updL1 t m.p c m.line fun l => { l with st := .s, dirty := false, cutDirty := false }
               else dropCopies t m.p m.line m.die ((dieCopies (t.part m.p).live m.line m.die).map (·.1))
      answerHome t m .rcldata l.dirty l.cutDirty l.data
def execRcl (m : CohMsg) (s : State) : Out := homeStep s m.p (rclStep s m)
/-- INV: every copy of the die leaves, except the requester's. -/
def invStep (s : State) (m : CohMsg) : State :=
  match takeSnoop s .inv m with
  | none => s
  | some (w, t) =>
    let cs := (dieCopies (t.part m.p).live m.line m.die).filter (·.1 != w.core)
    let t := dropCopies t m.p m.line m.die (cs.map (·.1))
    answerHome t m .invack (cs.any (·.2.dirty)) (cs.any (·.2.cutDirty)) []
def execInv (m : CohMsg) (s : State) : Out := homeStep s m.p (invStep s m)

/-- The set of a line in a die's snoop filter: 1,048,576 entries in 16 ways are 65,536 sets (R364). Which lines share a set the spec
leaves open: DESIGN CHOICE, log entry 63. -/
def filterSet (line : Nat) : Nat := line % 65536
/-- A partition's entries in the line's set of a die's filter. -/
def setEntries (x : PLive) (line die : Nat) : List Nat :=
  (x.filters.map (·.1)).filter fun k => k % 32768 == die && filterSet (k / 32768) == filterSet line
/-- The die's snoop filter has an entry for the line, or a way of its set free (R364); the partitions that run share it. -/
def filterRoom (s : State) (p line die : Nat) : Bool :=
  (mfind? (s.part p).live.filters (filterKey line die)).isSome ||
  ((s.parts.filter (·.2.scheduled)).map fun e => (setEntries e.2.live line die).length).sum < 16
/-- A fill reaches its core, which uses it after Cmp. It waits while the filter has no entry for it; then the filter evicts another
line (R364, R365). -/
def fillStep (s : State) (m : CohMsg) (k : SnoopKind) (st : LineState) : State :=
  match takeRequest s k m with
  | none => s
  | some (w, t) =>
    if filterRoom t m.p m.line m.die then
      updCopies t m.p m.line (dieOf w.core) fun c l =>
        if c = w.core then
          mput l m.line { st := st, data := w.data, dirty := st == .m, usable := false, cutDirty := w.cut }
        else l
    else match m.victim with
      | some v => if v = m.line then s else dieEvict s m.p v m.die
      | none => s
/-- DATAS (R366). -/
def execDatas (m : CohMsg) (s : State) : Out := homeStep s m.p (fillStep s m .datas .s)
/-- DATAE (R366). -/
def execDatae (m : CohMsg) (s : State) : Out := homeStep s m.p (fillStep s m .datae .e)
/-- DATAM (R366). -/
def execDatam (m : CohMsg) (s : State) : Out := homeStep s m.p (fillStep s m .datam .m)

/-- CMP: the requester may use its fill; an upgraded copy is in M (R367). It waits for a fill still under way. -/
def cmpStep (s : State) (m : CohMsg) : State :=
  match takeRequest s .cmp m with
  | none => s
  | some (w, t) =>
    match mfind? (s.coreAt m.p w.core).l1 m.line with
    | none => if (t.part m.p).live.snoop.any fun x => x.line == m.line && x.core == w.core && !x.data.isEmpty && !x.toHome
              then s else t
    | some _ =>
      if w.dirty then updL1 t m.p w.core m.line fun l => { l with st := .m, dirty := true, cutDirty := l.cutDirty || w.cut }
      else updL1 t m.p w.core m.line fun l => { l with usable := true }
def execCmpMessage (m : CohMsg) (s : State) : Out := homeStep s m.p (cmpStep s m)

/-! ### Answers at the home -/

/-- An answer of a die reaches the home: the transaction waits for it no longer, and goes on when it was the last. -/
def answered (s : State) (m : CohMsg) (k : SnoopKind) (f : Snoop → State → State) (g : Snoop → Txn → Txn) : State :=
  match takeSnoop s k m with
  | none => s
  | some (w, t) =>
    let t := updDir (f w t) m.p m.line fun d => { d with
      txn := d.txn.map fun x => { g w x with waiting := x.waiting.erase m.die } }
    pump t m.p m.line
/-- INVACK. -/
def execInvack (m : CohMsg) (s : State) : Out :=
  homeStep s m.p (answered s m .invack (fun _ t => t) fun w x => { x with cut := x.cut || w.cut })
/-- FWDACK: the owner has sent the fill. -/
def execFwdack (m : CohMsg) (s : State) : Out :=
  homeStep s m.p (answered s m .fwdack (fun _ t => t) fun w x => { x with sent := true, dirty := x.dirty || w.dirty })
/-- RCLDATA: dirty data is written to memory (R368, R370). -/
def execRcldata (m : CohMsg) (s : State) : Out :=
  homeStep s m.p (answered s m .rcldata
    (fun w t => if w.dirty then homeWrite t m.p m.line (dirOf (t.part m.p).live m.line).pa w.data w.cut else t)
    fun _ x => x)
/-- NAK: the die held no copy; its WbD came before, and memory serves the request (R369). -/
def execNak (m : CohMsg) (s : State) : Out := homeStep s m.p (answered s m .nak (fun _ t => t) fun _ x => x)

end Sys2Proof.Machine
end

