-- ==== Sys2Proof/Machine/Cocoon.lean ====
section
/-! DEFINITION. Cocoons (spec/17_privileged.md R331 to R337): cuts, commits and rollbacks of a partition; what the dispatch
hardware applies at a cut (spec/20_partitions.md R378, R380); completion records (R381); discarding a partition (R386). -/

namespace Sys2Proof.Machine

/-! ### Completion records and other egress (R333, R381) -/

/-- Bytes of a completion record (R381): LAUNCHID, STATUS, CODE, zero, TASK. -/
def completionBytes (r : BitVec 32 × Nat × Nat × Word) : List Byte :=
  leBytes 4 r.1.toNat ++ leBytes 1 r.2.1 ++ leBytes 1 r.2.2.1 ++ [0, 0] ++ leBytes 8 r.2.2.2.toNat
/-- Records that wait for the completion ring are posted in the order they were made, while it has room (R381). -/
def postCompletions (v : Nat) : Nat → State → State
  | 0, s => s
  | n + 1, s =>
    let f := s.vf v
    match f.complQ with
    | [] => s
    | r :: rest =>
      if (f.cqprod - f.cqcons).toNat < ringSize f.cqbase then
        let s := hostWrite s (ringAddr f.cqbase 16 f.cqprod.toNat) (completionBytes r)
        postCompletions v n (updVf s v fun f => { f with
          complQ := rest, cqprod := f.cqprod + 1, interrupts := f.interrupts ++ [.completion] })
      else s
def postCompleted (s : State) (v : Nat) : State := postCompletions v (s.vf v).complQ.length s
/-- A committed completion record. -/
def completeNow (s : State) (v : Nat) (r : BitVec 32 × Nat × Nat × Word) : State :=
  postCompleted (updVf s v fun f => { f with complQ := f.complQ ++ [r] }) v
/-- An effect held until the next commit; after a cut, until the commit of the next one. -/
def holdEgress (s : State) (p : Nat) (e : Egress) : State :=
  updPart s p fun x => if x.cut = .saved then { x with egressNew := x.egressNew ++ [e] } else { x with egress := x.egress ++ [e] }
/-- Held effects go out at a commit. -/
def releaseEgress (v : Nat) (s : State) : Egress → State
  | .completion id st code task _ => completeNow s v (id, st, code, task)
  | .migrationDone => updVf s v fun f => { f with migState := 2, migReason := 0, interrupts := f.interrupts ++ [.migration] }

/-! ### The end of a launch (R379, R380) -/

/-- A chisel context of an ended launch: its accepted commands still complete, and then it closes. The closing command names
a core of the context's cluster, and no slot. -/
def closeCtx (p cl : Nat) (k : Ctx) : Option Ctx :=
  if k.queue.isEmpty then none
  else some { k with
    assigned := k.assigned + 1, queue := k.queue ++ [{ num := k.assigned + 1, at_ := ⟨p, 128 * cl, 4⟩, op := .close }] }
/-- A launch ends (R379): its bindings, routes, contexts, groups and keys are dropped, its cluster stores return zeroed, its
cores are free; its completion record is held (R381). Its cores' barrier results go too: HBAR.WAIT of a core that has seen no phase of
its present launch complete, with no arrival outstanding, gives 0: DESIGN CHOICE, log entry 74. -/
def endLaunch (s : State) (p : Nat) (j : Launch) (status code : Nat) (task : Word) : State :=
  let core (e : Nat × Core) : Nat × Core :=
    if e.2.launch = some j.id then (e.1, { e.2 with launch := none, binds := [], hbar := [] }) else e
  let cluster (e : Nat × Cluster) : Nat × Cluster :=
    (e.1, { e.2 with
      stores := e.2.stores.filter (·.launch != j.id),
      ctxs := e.2.ctxs.filterMap fun c => if c.2.launch = some j.id then (closeCtx p e.1 c.2).map fun k => (c.1, k) else some c,
      closed := e.2.closed.filter fun c => !(mfind? e.2.ctxs (64 * c.2.1 + c.1)).any (·.launch == some j.id) })
  let s := updLive s p fun l =>
    let gone := (l.groups.filter fun g => g.2.launch == j.id).map (·.1)
    { l with
      cores := l.cores.map core, clusters := l.clusters.map cluster,
      groups := l.groups.filter fun g => !gone.contains g.1,
      keys := l.keys.filter fun k => !gone.contains (k.1 / 2 ^ 12),
      dropped := l.dropped.filter fun k => !gone.contains (k.1 / 2 ^ 12),
      floors := l.floors.filter fun f => !gone.contains (f.1 / 2 ^ 40),
      hphases := l.hphases.filter fun h => h.inst / 2 ^ 40 != j.id,
      launches := l.launches.filter fun x => x.id != j.id }
  holdEgress s p (.completion j.launchId status code task [])

/-- A message of a user slot on its way to a core's queue, or held at a full one. Slot 3 belongs to no launch: its messages stay, and
its WAKE is none. -/
def isMsgTo (cs : List Nat) (e : Acc) : Bool :=
  e.slot != 3 && (match e.kind, e.place with
    | .send _ _ _, .queue c | .spawn _, .queue c => cs.contains c
    | _, _ => false)
/-- Messages to the inbound queues of cores leave: those that wait at a full queue too (R26, R380). -/
def dropMessages (cs : List Nat) (l : PLive) : PLive :=
  { l with
    chans := l.chans.filter fun e => !isMsgTo cs e.2.2, delivered := l.delivered.filter fun e => !isMsgTo cs e,
    cores := l.cores.map fun e => (e.1, { e.2 with slots := e.2.slots.map fun f => (f.1, { f.2 with
      sb := f.2.sb.filter fun a => !isMsgTo cs a, unacked := f.2.unacked.filter fun a => !isMsgTo cs a }) }) }
/-- Every activation of a launch ends, and its queues and deques are emptied (R380). -/
def killLaunch (s : State) (p : Nat) (j : Launch) : State :=
  let cs := ((s.part p).live.cores.filter fun e => e.2.launch == some j.id).map (·.1)
  let s := cs.foldl (fun s c => [0, 1, 2].foldl (fun s n =>
    if (s.slotAt p c n).st = .idle then s else endActivation s ⟨p, c, n⟩) s) s
  updLive (cs.foldl (fun s c => updCore s p c fun k => { k with inq := [], deque := [] }) s) p (dropMessages cs)
/-- Launches that RESUME.end failed end at the cut (R380). -/
def endFailed (s : State) (p : Nat) : State :=
  (s.part p).live.launches.foldl (fun s j =>
    match j.error with
    | some (code, task) => endLaunch (killLaunch s p j) p j 1 code task
    | none => s) s

/-! ### Bind records (R377, R378) -/

/-- Bytes of a bind record (R377). -/
def BindRec.bytes (r : BindRec) : List Byte :=
  leBytes 8 r.pc.toNat ++ leBytes 8 r.task.toNat ++ leBytes 4 (coreId r.core + chipOf r.core * 2 ^ 20) ++
  leBytes 2 r.part ++ leBytes 1 r.vf ++ leBytes 1 (r.slot + 4 * r.prio) ++
  leBytes 4 (r.teamId + r.stage * 2 ^ 20 + r.log2Team * 2 ^ 24 + r.csw * 2 ^ 27) ++ leBytes 2 r.argIx ++ leBytes 2 r.htIx

/-- The four words of a block of the argument table. -/
def argBlock (x : Part) (ix : Nat) : List Word := (List.range 4).map fun i => mget 0 x.argTable (4 * ix + i)
/-- The core's engine queues are empty and their timelines complete (R378). -/
def enginesDone (k : Core) : Bool :=
  let done (q : EngQ) : Bool := q.queue.isEmpty && q.run.isNone && q.completed == q.assigned
  done k.vq && done k.cq && done k.mq
/-- The launch's first record on a core: timelines, VT and tile table start again. A copy-fault record of an ended launch that has
not been delivered stays, with its old number: DESIGN CHOICE, log entry 69. -/
def resetTimelines (k : Core) : Core :=
  let zero (q : EngQ) : EngQ := { q with assigned := 0, completed := 0 }
  { k with
    vq := zero k.vq, cq := zero k.cq, mq := zero k.mq, lastQtbl := 0, vt := 0, tstate := [], tfault := [], tfaultBy := [],
    slots := k.slots.map fun e => (e.1, { e.2 with lastCopy := 0, lastMatrix := 0, lastVector := 0 }) }
/-- Handlers of the launch's table, bound as BIND would with transform .regs, untimed. -/
def tableBinds (x : Part) (ix : Nat) : NMap Binding :=
  (List.range 15).filterMap fun q =>
    let pc := mget 0 x.argTable (4 * ix + q)
    if pc = 0 then none else some (q, { pc := pc })
/-- The cluster store of a launch's first record in a cluster: the slice writes back the dirty lines of its ways and drops all
of them, and the store starts zeroed (R352). -/
def reserveStore (s : State) (p cl : Nat) (r : BindRec) : State :=
  match r.launch with
  | none => s
  | some id =>
    if r.csw = 0 || (storeOf s p cl id).isSome then s
    else
      let ways := ((s.part p).live.launches.find? fun j => j.id == id).elim [] (·.ways)
      let lo := mget 0 ways cl
      let taken := (s.cluster p cl).l2.filter fun l => lo ≤ l.way && l.way < lo + r.csw
      updCluster (taken.foldl (fun s l => l2Evict s p cl l) s) p cl fun x => { x with
        stores := x.stores ++ [{ launch := id, way := lo, ways := r.csw }] }
/-- The record may be applied (R378): its slot Idle, its core in the partition and of no other launch, fields in range. -/
def recordOk (s : State) (p : Nat) (r : BindRec) : Bool :=
  let x := s.part p
  x.hasCore r.core && r.slot < 4 && (s.slotAt p r.core r.slot).st == .idle && r.pc.toNat % 4 == 0 && virtualForm r.pc &&
  r.part == x.partId && r.vf == x.vf && r.prio < 8 && r.teamId < 2 ^ 20 && r.stage < 16 && r.log2Team < 8 && r.csw ≤ 8 &&
  (r.slot == 3 || (s.coreAt p r.core).launch.isNone)
/-- A bind record takes effect (R378). -/
def applyRecord (s : State) (p : Nat) (r : BindRec) : State :=
  if !recordOk s p r then updPart s p fun x => { x with refused := x.refused + 1 }
  else
    let x := s.part p
    let s := if r.slot = 3 then s
      else
        let s := updCore s p r.core fun k => { resetTimelines k with
          teamId := r.teamId, teamSize := 2 ^ r.log2Team, stage := r.stage, launch := r.launch,
          binds := if r.htIx = 0 then k.binds else tableBinds x r.htIx }
        reserveStore s p (clusterOf r.core) r
    startActivation s ⟨p, r.core, r.slot⟩ r.pc r.task (argBlock x r.argIx) none none none []
/-- Every core of the record's launch meets the conditions of R378. -/
def launchReady (s : State) (p : Nat) (r : BindRec) : Bool :=
  match r.launch with
  | none => true
  | some id =>
    match (s.part p).live.launches.find? fun j => j.id == id with
    | none => true
    | some j => j.started || j.cores.all fun c => enginesDone (s.coreAt p c)
/-- The pending records in ring order; those of a launch that is not ready stay (R378). -/
def applyRecords (s : State) (p : Nat) : State :=
  let rs := (s.part p).records
  let s := updPart s p fun x => { x with records := [] }
  rs.foldl (fun s r =>
    if launchReady s p r then
      let okay := recordOk s p r
      let s := applyRecord s p r
      let s := updPart s p fun x => { x with newRecords := if r.slot = 3 then x.newRecords else x.newRecords ++ [r] }
      updLive s p fun l => { l with
        launches := l.launches.map fun j => if okay && some j.id = r.launch then { j with started := true } else j }
    else updPart s p fun x => { x with records := x.records ++ [r] }) s

/-! ### Stages of a cut (R331) -/

/-- A step of the partition that does nothing, or that a full log holds (R335). -/
def still (s : State) (p : Nat) (t : State) : Bool := t == s || overfull s t p
/-- The running command of an engine, if any, can go no further: it waits to push its result, for an access that cannot be
performed, for a full log, or for the host. -/
def engineStill (s : State) (p c : Nat) (e : Engine) : Bool :=
  match (getQ (s.coreAt p c) e).run with
  | none => true
  | some r =>
    match e, r.cmd.op with
    | .copy, .copy x =>
      (x.nearUnits ++ List.range (farPieces s p c x).length ++ [0]).all (fun i =>
        still s p (postCopy s p c i false) && still s p (postCopy s p c i true) && still s p (faultCopy s p c i)) &&
      still s p (completeCopy s p c)
    | .copy, _ => still s p (completeCopy s p c)
    | .vector, .samp _ _ _ _ n moff _ =>
      (List.range (n + maskLen n moff)).all (fun i => still s p (postVector s p c i false)) && still s p (completeVector s p c)
    | .vector, _ =>
      still s p (postVector s p c 0 false) && still s p (postVector s p c 0 true) && still s p (completeVector s p c)
    | .matrix, _ => still s p (completeMatrix s p c)
/-- A cluster's chisel unit has begun no command, or can go no further with it. -/
def chiselStill (s : State) (p cl : Nat) : Bool :=
  !(s.cluster p cl).ctxs.any (fun k => k.2.queue.any (·.begun)) ||
  (still s p (chiselStep s p cl) && still s p (postChisel s p cl))
/-- Every engine and chisel unit of the partition is idle (R331 stage 1). -/
def enginesIdle (s : State) (p : Nat) : Bool :=
  ((s.part p).live.cores.all fun e =>
    engineStill s p e.1 .vector && engineStill s p e.1 .copy && engineStill s p e.1 .matrix) &&
  (s.part p).live.clusters.all fun e => chiselStill s p e.1
/-- Issue pauses (R331 stage 2). -/
def issuePaused (s : State) (p : Nat) : Bool := (s.part p).cut == .stopping && enginesIdle s p

/-- The i-th delivered access cannot be performed now: it waits at its place, or for room in the log (R331, R335). -/
def stuckAt (s : State) (p i : Nat) : Bool :=
  let d := (s.part p).live.delivered
  match d[i]? with
  | some e => (d.take i).any (goesFirst s p e) || (performAcc s p e).isNone || overfull s (performAt s p i) p
  | none => true
/-- A slot's accesses can move no further, nor its window. -/
def slotStill (s : State) (a : At) : Bool :=
  let x := s.slotAt a.p a.c a.n
  ((loadNext s a).isNone || overfull s (postLoad s a) a.p) && ((storeNext s a).isNone || overfull s (postStore s a) a.p) &&
  (x.fillTo.isNone || (inFlight x).any (·.own) || overfull s (windowDone s a) a.p)
/-- A line on its way to its home waits there for room in the log (R335, R370). -/
def writeHeld (s : State) (p : Nat) (m : Snoop) : Bool :=
  m.toHome && !m.data.isEmpty &&
  overfull s (homeWrite s p m.line (dirOf (s.part p).live m.line).pa m.data m.cut) p
/-- Stage 3: the accesses and the coherence messages have drained, but for those that the drain cannot end. -/
def drained (s : State) (p : Nat) : Bool :=
  let l := (s.part p).live
  l.chans.isEmpty && l.resps.all (fun r => r.1.eng.isNone && !returnReady (s.slotAt p r.1.core r.1.slot) r.1) &&
  (List.range l.delivered.length).all (stuckAt s p) &&
  l.cores.all (fun e => e.2.slots.all fun f => slotStill s ⟨p, e.1, f.1⟩) &&
  ((l.snoop.isEmpty && l.dir.all fun e => e.2.txn.isNone) || l.snoop.any (writeHeld s p))

/-- The slot is Blocked at a chisel instruction that its unit has accepted. -/
def awaitsChisel (l : PLive) (c n : Nat) (x : Slot) : Bool := (halfDone l c n x).isSome
/-- The contexts as a cocoon records them (R332): without the commands that slots are Blocked at. -/
def recordCtxs (l : PLive) (cl : Cluster) : Cluster :=
  { cl with
    ctxs := cl.ctxs.map fun k =>
      (k.1, k.2.without fun m => awaitsCmd (mget ({} : Slot) (mget ({} : Core) l.cores m.at_.c).slots m.at_.n) m) }
/-- The slot as a cocoon records it (R332): Blocked at an instruction, it stands before that instruction. An armature
session and a window transfer go on as they are. -/
def recordSlot (l : PLive) (c : Nat) (k : Core) (n : Nat) (x : Slot) : Slot :=
  let y := { x with pend := none, latch := x.latch.map fun t => { t with sent := false } }
  if x.st != .blocked || x.wait == .window || (x.wait == .armature && k.arm.active && k.arm.slot == n) then y
  else
    let mine (e : Acc) : Bool := e.kind.blocking && e.act == x.act
    { unpop y with
      st := .ready, wait := .none, delayed := false, ist := none, ild := none, joinRead := none,
      lastChisel := ownChisel l c n x, lq := y.lq.filter fun e => !mine e.acc,
      sb := y.sb.filter fun e => !mine e, unacked := y.unacked.filter fun e => !mine e }
/-- Accesses of instructions that the cocoon records as not issued. -/
def unissued (l : PLive) : List Nat :=
  (l.cores.map fun e => (e.2.slots.map fun f =>
    if f.2.st = .blocked then waitingIds f.2 else []).flatten).flatten
/-- The partition's copies of coherent lines are dropped, and its directory holds I (R370). -/
def dropCopiesAll (l : PLive) : PLive :=
  { l with
    cores := l.cores.map fun e => (e.1, { e.2 with l1 := [] }),
    dir := l.dir.map fun e => (e.1, {}), filters := [], snoop := [] }
/-- A core's session as a cocoon records it (R260): its current block is fetched and checked again. Entries that wait leave with
the instructions that the cocoon records as not issued. -/
def recordArm (k : Core) : Core :=
  { k with armWait := [], arm := { k.arm with fetched := none, reading := [], ahead := [] } }
/-- The logs of scratchpads and cluster stores start again (R333). -/
def freshUnits (l : PLive) : PLive :=
  { l with
    cores := l.cores.map fun e => (e.1, { e.2 with units := [] }),
    clusters := l.clusters.map fun e => (e.1, { e.2 with stores := e.2.stores.map fun t => { t with units := [] } }) }
/-- What a cocoon records (R332, R336). -/
def recordLive (l : PLive) : PLive :=
  let ids := unissued l
  freshUnits <| dropCopiesAll { l with
    cores := l.cores.map fun e => (e.1, { recordArm e.2 with
      slots := e.2.slots.map fun f => (f.1, recordSlot l e.1 e.2 f.1 f.2) }),
    clusters := l.clusters.map fun e => (e.1, recordCtxs l e.2),
    delivered := l.delivered.filter fun e => !ids.contains e.id }
/-- Dirty lines become cut-dirty (R370), those under way too; an Upg may have taken over a line that another core had written. -/
def markCutDirty (l : PLive) : PLive :=
  { l with
    cores := l.cores.map fun e => (e.1, { e.2 with l1 := e.2.l1.map fun f => (f.1, { f.2 with cutDirty := f.2.dirty }) }),
    snoop := l.snoop.map fun m => { m with cut := m.dirty },
    dir := l.dir.map fun e => (e.1, { e.2 with txn := e.2.txn.map fun t => { t with cut := t.dirty || t.req == .upg } }) }

/-- COCOON_CUT (R331): the cut begins; once engines are idle and accesses have drained, failed launches end, bind records
are applied, a commanded P-state takes effect (R396), and the state is recorded. -/
def cutStep (s : State) (p : Nat) : State :=
  match (s.part p).cut with
  | .none => beginCut s p
  | .saved => s
  | .stopping =>
    if enginesIdle s p && drained s p then
      let s := applyRecords (endFailed s p) p
      updPart s p fun x => { x with
        cut := .saved, pstate := x.pstateNext.getD x.pstate, pstateNext := none,
        pending := recordLive x.live, live := freshUnits (markCutDirty x.live) }
    else s
def execCocoonCut (p : Nat) (s : State) : Out := homeStep s p (cutStep s p)

/-- COCOON_COMMIT (R331): once every cut-dirty line has left (R370), the cocoon is the latest, SEQ advances, held egress goes
out, and the logs of the closed interval end. -/
def commitStep (s : State) (p : Nat) : State :=
  let x := s.part p
  if x.cut ≠ .saved || x.live.cores.any (fun e => e.2.l1.any (·.2.cutDirty)) || x.live.snoop.any (·.cut) ||
     x.live.dir.any (fun e => e.2.txn.any (·.cut)) then s
  else
    let s := updPart s p fun x => { x with
      cut := .none, saved := x.pending, pending := {}, seq := x.seq + 1, doubleFaults := 0,
      undo := x.undoNew, undoNew := [], inbound := x.inboundNew, inboundNew := [],
      egress := x.egressNew, egressNew := [], newRecords := [],
      newLaunches := x.newLaunches.filter fun j => !(x.pending.launches.any fun k => k.id == j.id && k.started),
      migWait := false, migReady := x.migReady || x.migWait,
      live := { x.live with dir := x.live.dir.map fun e => (e.1, { e.2 with log := false }) } }
    x.egress.foldl (releaseEgress x.vf) s
def execCocoonCommit (p : Nat) (s : State) : Out := homeStep s p (commitStep s p)

/-! ### Rollback (R336, R337, R334) -/

/-- Logged lines return to memory; then the inbound bytes stand. -/
def undoLines (m : Bytes) (u : NMap (List Byte)) : Bytes := u.foldl (fun m e => putBytes m (128 * e.1) e.2) m
def redoInbound (m b : Bytes) : Bytes := b.foldl (fun m e => mset 0 m e.1 e.2) m
/-- The launch record that a discarded completion came from without having been placed: the plinth handles it again. -/
def unplaced : Egress → Option (List Byte)
  | .completion _ _ _ _ [] | .migrationDone => none
  | .completion _ _ _ _ r => some r
/-- Cores of a partition. -/
def Part.cores (x : Part) : List Nat := (x.clusters.map fun cl => (List.range 128).map (128 * cl + ·)).flatten
/-- Slot 3's bind records (R315, R377): the runtime's entry and arguments, block 0 of the argument table; TEAM and HTIX
zero. -/
def runtimeRecords (x : Part) : List BindRec :=
  x.cores.map fun c => { pc := x.runtime, core := c, part := x.partId, vf := x.vf, slot := 3 }

/-- A rollback record is appended to the patina trace (R336, R397); the spec gives its kind, and neither task nor slot. -/
def noteRollback (s : State) (v : Nat) : State :=
  let w := Config.freeWho s.fresh
  patinaPost { s with fresh := s.fresh + 1 } v (w.extractLsb' 0 64) (w.extractLsb' 64 32).toNat (w.extractLsb' 96 4).toNat 1

/-- The partition's state after a rollback; the host's requests are no state of it and stay on their way (R334, R336). -/
def restorePart (x : Part) : Part :=
  { x with
    stopped := false, cut := .none, pending := {}, undo := [], undoNew := [], inbound := [], inboundNew := [],
    egress := [], egressNew := [], tlb := [], newRecords := [],
    records := runtimeRecords x ++ x.newRecords ++ x.records.filter (·.slot != 3), migWait := false, migReady := false,
    migReq := none, mig := none,
    live := { x.saved with
      chans := x.saved.chans.filter (!·.2.2.byHost) ++ x.live.chans.filter (·.2.2.byHost),
      delivered := x.saved.delivered.filter (!·.byHost) ++ x.live.delivered.filter (·.byHost),
      resps := x.saved.resps.filter (!·.1.byHost) ++ x.live.resps.filter (·.1.byHost),
      launches := x.saved.launches ++ x.newLaunches.filter fun j => !(x.saved.launches.any fun k => k.id == j.id) } }

/-- ROLLBACK (R336, R337): the partition is its latest committed cocoon; memory that it wrote since is undone; a migration
not yet committed ends refused (R358); errors of the restored lines are gone (R323). -/
def rollbackPart (s : State) (p : Nat) : State :=
  let x := s.part p
  let mem := redoInbound (redoInbound (undoLines (undoLines s.mem x.undoNew) x.undo) x.inbound) x.inboundNew
  let fixed := (x.undo ++ x.undoNew).map (·.1)
  let migrating := x.migReq.isSome || x.mig.isSome || (x.egress ++ x.egressNew).contains .migrationDone
  let s := { s with
    mem := mem, memErrors := s.memErrors.filter fun l => !fixed.contains l,
    watch := s.watch.filter fun h => h.at_.p != p }
  let s := updVf s x.vf fun f => if migrating then { f with migState := 3, migReason := 7 } else f
  let s := updVf s x.vf fun f => { f with taken := (x.egress ++ x.egressNew).filterMap unplaced ++ f.taken }
  noteRollback (updPart s p restorePart) x.vf

/-! ### Discarding a partition (R384, R386) -/

/-- Valid entries of a table: the words of its 64 KiB that have a listed byte. -/
def tableEntries (s : State) (t : Nat) : List Word :=
  let ws := (s.mem.filter fun e => t ≤ e.1 && e.1 < t + 65536).foldl (fun (r : List Nat) e =>
    if r.contains (e.1 / 8) then r else e.1 / 8 :: r) []
  (ws.map fun w => physRead64 s (8 * w)).filter fun e => e.getLsbD 0
/-- The physical pages that a table maps: base and size. -/
def mappedPages (s : State) : Nat → Nat → Nat → List (Nat × Nat)
  | 0, _, _ => []
  | fuel + 1, lvl, t => ((tableEntries s t).map fun e =>
      let v := e.toNat
      if v / 2 % 2 = 1 then
        [if lvl = 1 then (v / 2 ^ 29 % 2 ^ 19 * 2 ^ 29, 2 ^ 29) else (v / 2 ^ 16 % 2 ^ 32 * 2 ^ 16, 2 ^ 16)]
      else mappedPages s fuel (lvl + 1) (v / 2 ^ 16 % 2 ^ 32 * 2 ^ 16)).flatten
/-- Every page mapped through a function's tables is zeroed (R386): an inbound write to every other partition. -/
def zeroPages (s : State) (v : Nat) : State :=
  let root := (s.vf v).ptroot.toNat
  if root % 2 = 0 then s
  else
    let pages := mappedPages s 3 0 (root / 2 ^ 16 % 2 ^ 32 * 2 ^ 16)
    let inside (a : Nat) : Bool := pages.any fun g => g.1 ≤ a && a < g.1 + g.2
    let lines (u : NMap (List Byte)) : List Nat := (u.map (·.1)).filter fun l => inside (128 * l)
    let s := { s with mem := s.mem.filter fun e => !inside e.1 }
    { s with parts := s.parts.map fun e =>
        (e.1, (lines (e.2.undo ++ e.2.undoNew)).foldl (fun x l => noteInbound x (128 * l) (List.replicate 128 0)) e.2) }

/-- The host's requests to a partition that goes are answered with completer abort (R386). -/
def abortHost (s : State) (p : Nat) : State :=
  let ids := (s.hostReqs.filter (·.part == p)).map (·.id)
  let gone : Posted → Bool
    | .mem q _ _ => q == p
    | .sent i => ids.contains i
    | _ => false
  if ids.isEmpty && !s.posted.any (gone ·.2) then s
  else { s with hostResp := none, hostReqs := s.hostReqs.filter (·.part != p), posted := s.posted.filter (!gone ·.2) }
/-- A partition is discarded with its egress; each of its launches is completed with STATUS 4 where `record` says so
(R384), and the function's pages are zeroed when no other partition of the function is left. -/
def discardPart (s : State) (p : Nat) (record : Bool) : State :=
  if (mfind? s.parts p).isNone then s
  else
    let s := rollbackPart s p
    let x := s.part p
    let s := abortHost { s with parts := mdel s.parts p } p
    let s := if s.parts.any (fun e => e.2.vf == x.vf) then s else zeroPages s x.vf
    if record then x.live.launches.foldl (fun s j => completeNow s x.vf (j.launchId, 4, 0, j.taskBase)) s else s
/-- A partition rolls back, or, after a second supervisor double fault before a commit, is discarded (R384). -/
def rollbackOrDiscard (s : State) (p : Nat) : State :=
  match mfind? s.parts p with
  | none => s
  | some x => if x.doubleFaults ≥ 2 then discardPart s p true else rollbackPart s p
/-- A node without a tenant left is free (R386). -/
def freeNodes (s : State) : State :=
  { s with nodes := s.nodes.filter fun n => n.retired || (n.tenants ++ n.joining).any fun t => (mfind? s.parts t).isSome }

/-- The nodes of partitions that have gone since a state are free. -/
def freeGone (s t : State) : State := if t.parts.length < s.parts.length then freeNodes t else t
/-- ROLLBACK (R336, R384). -/
def rollbackStep (s : State) (p : Nat) : State := freeGone s (rollbackOrDiscard s p)
def execRollback (p : Nat) (s : State) : Out := .next (rollbackStep s p)

/-! ### Time slicing (R383, R384) -/

def setScheduled (s : State) (p : Nat) (b : Bool) : State :=
  if (mfind? s.parts p).isSome then updPart s p fun x => { x with scheduled := b } else s
/-- The tenant that runs on a node. -/
def Node.tenant (n : Node) : Option Nat := n.tenants[n.running]?
def updNode (s : State) (i : Nat) (f : Node → Node) : State := { s with nodes := s.nodes.modify i f }
/-- The next tenant of the rotation begins; tenants that are gone leave, and tenants that join come in, when the rotation ends
(R383, R386). -/
def nextTenant (s : State) (i : Nat) : State :=
  match s.nodes[i]? with
  | none => s
  | some n =>
    let last := n.running + 1 ≥ n.tenants.length
    let ts := if last then (n.tenants ++ n.joining).filter fun t => (mfind? s.parts t).isSome else n.tenants
    let s := updNode s i fun n => { n with
      tenants := ts, joining := if last then [] else n.joining, running := if last then 0 else n.running + 1, window := false,
      closing := none }
    match ts[if last then 0 else n.running + 1]? with
    | some t => setScheduled s t true
    | none => s

/-- QUANTUM_END (R383): the closing cut begins, after the commit of one whose state is recorded already; then, committed, the
tenant is descheduled, and where the cut cannot commit it rolls back first (R337). The switch window follows. A rotation of one
tenant has no switches, but another may join it. -/
def quantumStep (s : State) (i : Nat) : State :=
  match s.nodes[i]? with
  | none => s
  | some n =>
    let toWindow (s : State) : State := updNode s i fun n => { n with window := true, closing := none }
    if n.window || n.retired || (n.tenants.length ≤ 1 && n.joining.isEmpty) then s
    else
      match n.tenant with
      | none => s
      | some p =>
        match mfind? s.parts p with
        | none => toWindow s
        | some x =>
          match n.closing with
          | none => updNode (beginCut s p) i fun n => { n with closing := some (x.seq + if x.cut = .saved then 2 else 1) }
          | some k =>
            if !committed x k.toNat && x.cut == .none then beginCut s p
            else toWindow (setScheduled (if committed x k.toNat then s else rollbackOrDiscard s p) p false)
def execQuantumEnd (node : Nat) (s : State) : Out := .next (if s.halted then s else quantumStep s node)
/-- SWITCH_WINDOW_END (R383). -/
def execSwitchWindowEnd (node : Nat) (s : State) : Out :=
  .next (match s.nodes[node]? with
    | some n => if n.window && !s.halted then nextTenant s node else s
    | none => s)

/-- Clusters of a chip, as a power of two. -/
def chipLog2 (v : Variant) : Nat := match v with
  | .w8 => 12
  | .w16 | .s16 => 13
/-- The clusters of a buddy node in ascending order: within a chip, or whole chips (R382). -/
def nodeClusters (v : Variant) (first log2 : Nat) : List Nat :=
  let b := chipLog2 v
  if log2 ≤ b then (List.range (2 ^ log2)).map (first + ·)
  else ((List.range (2 ^ (log2 - b))).map fun c =>
    (List.range (2 ^ b)).map fun i => (first / 8192 + c) * 8192 + i).flatten
/-- The node on which a partition is a tenant. -/
def nodeOf (s : State) (p : Nat) : Option Nat :=
  s.nodes.findIdx? fun n => !n.retired && (n.tenants ++ n.joining).contains p
/-- URGENT_PREEMPTION (R384): the running tenant rolls back and is descheduled, and the next begins at once. -/
def preempt (s : State) (p : Nat) : State :=
  match nodeOf s p with
  | none => s
  | some i => freeGone s (nextTenant (setScheduled (rollbackOrDiscard s p) p false) i)
def execUrgentPreemption (p : Nat) (s : State) : Out :=
  .next (match mfind? s.parts p with
    | some x => if x.scheduled && !s.halted then preempt s p else s
    | none => s)

/-! ### Failed clusters (R337, R382, R395) -/

/-- The half of a node that does not hold a cluster: first cluster and size; none for a single cluster. -/
def otherHalf (v : Variant) (n : Node) (cl : Nat) : Option Nat :=
  let b := chipLog2 v
  if n.log2 = 0 then none
  else
    let second := if n.log2 ≤ b then n.first + 2 ^ (n.log2 - 1) else (n.first / 8192 + 2 ^ (n.log2 - 1 - b)) * 8192
    some (if (nodeClusters v n.first (n.log2 - 1)).contains cl then second else n.first)
/-- A partition rolls back and shrinks to some of its clusters (R395, R382): what lay on the others goes. A launch that held a
core there is completed with STATUS 1, CODE 0 and its TASKBASE: DESIGN CHOICE, log entry 61. -/
def shrinkPart (s : State) (p : Nat) (cs : List Nat) : State :=
  let s := rollbackPart s p
  let v := (s.part p).vf
  let stays (c : Nat) : Bool := cs.contains (clusterOf c)
  let lost := (s.part p).live.launches.filter fun j => !j.cores.all stays
  let ids := lost.map (·.id)
  let s := lost.foldl (fun s j => endLaunch (killLaunch s p j) p j 1 0 j.taskBase) s
  let s := updPart s p fun x =>
    let keep (rs : List BindRec) : List BindRec := rs.filter fun r => stays r.core && !(r.launch.any ids.contains)
    let live := { x.live with
      cores := x.live.cores.filter fun e => stays e.1, clusters := x.live.clusters.filter fun e => cs.contains e.1,
      octets := x.live.octets.filter fun e => cs.contains (e.1 / 16) }
    { x with
      clusters := cs, live := live, saved := live, records := keep x.records, newRecords := keep x.newRecords,
      newLaunches := x.newLaunches.filter fun j => !ids.contains j.id, egress := [] }
  lost.foldl (fun s j => completeNow s v (j.launchId, 1, 0, j.taskBase)) s

/-- A lost cluster is a retired node of its own (R382). -/
def retire (s : State) (cl : Nat) : State := { s with nodes := s.nodes ++ [{ first := cl, log2 := 0, retired := true }] }
/-- The tenants of a node without a spare for its cluster: each shrinks to the half that does not hold it, or, on a node of
that cluster alone, or after a second supervisor double fault (R384), is discarded. -/
def shrinkNode (s : State) (i : Nat) (n : Node) (cl : Nat) : State :=
  let ts := (n.tenants ++ n.joining).filter fun t => (mfind? s.parts t).isSome
  match otherHalf s.variant n cl with
  | some first =>
    let cs := nodeClusters s.variant first (n.log2 - 1)
    let t := ts.foldl (fun s t => if (s.part t).doubleFaults ≥ 2 then discardPart s t true else shrinkPart s t cs) s
    retire (freeGone s (updNode t i fun n => { n with first := first, log2 := n.log2 - 1 })) cl
  | none =>
    let s := ts.foldl (fun s t => discardPart s t true) s
    retire { s with nodes := s.nodes.eraseIdx i } cl
/-- Once a die has no spare left, REPLACE is set, with its interrupt (R395). -/
def noteReplace (s : State) : State :=
  if s.spares.any (·.2 == 0) && !s.replace then { s with replace := true, pfInterrupts := s.pfInterrupts ++ [.replace] } else s
/-- CLUSTER_FAILURE (R337, R382, R395): a spare of the die takes the cluster's number, and the partitions that hold the cluster
roll back; without one the node that holds it shrinks, or, in a free node, the cluster is retired. -/
def clusterFails (s : State) (cl : Nat) : State :=
  let die := cl / 512
  let left := mget 16 s.spares die
  if left > 0 then
    let s := noteReplace { s with spares := mput s.spares die (left - 1), spareMap := s.spareMap ++ [(cl, 16 - left)] }
    freeGone s (((s.parts.filter fun e => e.2.clusters.contains cl).map (·.1)).foldl rollbackOrDiscard s)
  else
    match s.nodes.findIdx? fun n => (nodeClusters s.variant n.first n.log2).contains cl with
    | none => retire s cl
    | some i =>
      let n := (s.nodes[i]?).getD {}
      if n.retired then s else shrinkNode s i n cl
def execClusterFailure (_p cluster : Nat) (s : State) : Out :=
  .next (if cluster % 8192 < 2 ^ chipLog2 s.variant then clusterFails s cluster else s)

/-! ### Early cuts (R335) -/

/-- A partition whose log or egress buffer is more than three quarters full begins a cut. -/
def earlyCut (s : State) (p : Nat) : State :=
  let x := s.part p
  if 4 * logUsed x ≥ 3 * x.logCap && logUsed x > 0 || 4 * egressUsed x > 3 * x.egressCap then beginCut s p else s

end Sys2Proof.Machine
end

