-- ==== Sys2Proof/Machine/Fp.lean ====
section
/-! DEFINITION. Scalar floating point (spec/04_isa_scalar.md R107 to R112). -/

namespace Sys2Proof.Machine

/-- f64, or f32 in bits [31:0] (R107). -/
def fpFmt (is64 : Bool) : Fmt := if is64 then Machine.f64 else Machine.f32
/-- The bits an FP source supplies (R107). -/
def fpBits (is64 : Bool) (v : Word) : Nat := if is64 then v.toNat else v.toNat % 2 ^ 32

/-- A result and its flags: FSTAT is ORed and the result written, zero-extended (R56, R107). -/
def putFp (t : State) (d : SOp) (r : Nat × Flags) : State :=
  putS (updMe t fun y => orFlags y r.2) d (BitVec.ofNat 64 r.1)

/-- The mode an instruction rounds by, its code 7 taken from FSTAT.RM at issue (R57). -/
def fpMode (t : State) (r : Rnd) : RMode := modeOf (resolveRnd t.me r) 0

def fp2 (op : Fmt → RMode → Nat → Nat → Nat × Flags) (x : F2) (s : State) : Out :=
  issue x.c [x.a, x.b] [x.d] [] s fun v t =>
    .ok (putFp t x.d (op (fpFmt x.f64) (fpMode t x.rnd) (fpBits x.f64 (v 0)) (fpBits x.f64 (v 1))))
def fp2n (op : Fmt → Nat → Nat → Nat × Flags) (x : F2n) (s : State) : Out :=
  issue x.c [x.a, x.b] [x.d] [] s fun v t =>
    .ok (putFp t x.d (op (fpFmt x.f64) (fpBits x.f64 (v 0)) (fpBits x.f64 (v 1))))
def fp1n (op : Fmt → Nat → Nat × Flags) (x : F1n) (s : State) : Out :=
  issue x.c [x.a] [x.d] [] s fun v t => .ok (putFp t x.d (op (fpFmt x.f64) (fpBits x.f64 (v 0))))
/-- The fused forms (R109): `n` negates the product, `m` the addend. -/
def fp3 (n m : Bool) (x : F3) (s : State) : Out :=
  issue x.c [x.a, x.b, x.cc] [x.d] [] s fun v t =>
    let f := fpFmt x.f64
    let a := f.read (fpBits x.f64 (v 0))
    let c := f.read (fpBits x.f64 (v 2))
    .ok (putFp t x.d (f.fmaV (fpMode t x.rnd) (if n then a.negate else a) (f.read (fpBits x.f64 (v 1)))
      (if m then c.negate else c)))

/-- FADD (R108). -/
def execFadd (x : F2) (s : State) : Out := fp2 Fmt.add x s
/-- FSUB (R108). -/
def execFsub (x : F2) (s : State) : Out := fp2 Fmt.sub x s
/-- FMUL (R108). -/
def execFmul (x : F2) (s : State) : Out := fp2 Fmt.mul x s
/-- FDIV (R108). -/
def execFdiv (x : F2) (s : State) : Out := fp2 Fmt.div x s
/-- FSQRT (R108). -/
def execFsqrt (x : F1) (s : State) : Out :=
  issue x.c [x.a] [x.d] [] s fun v t =>
    .ok (putFp t x.d ((fpFmt x.f64).sqrt (fpMode t x.rnd) (fpBits x.f64 (v 0))))
/-- FMIN (R53, R108). -/
def execFmin (x : F2n) (s : State) : Out := fp2n (fun f => f.minMax false) x s
/-- FMAX (R53, R108). -/
def execFmax (x : F2n) (s : State) : Out := fp2n (fun f => f.minMax true) x s
/-- FABS (R108). -/
def execFabs (x : F1n) (s : State) : Out := fp1n (fun f a => f.withSign a false) x s
/-- FNEG (R108). -/
def execFneg (x : F1n) (s : State) : Out := fp1n (fun f a => f.withSign a (!f.signOf a)) x s
/-- FCOPYSIGN (R108). -/
def execFcopysign (x : F2n) (s : State) : Out := fp2n (fun f a b => f.withSign a (f.signOf b)) x s
/-- FFMA (R109). -/
def execFfma (x : F3) (s : State) : Out := fp3 false false x s
/-- FFMS (R109). -/
def execFfms (x : F3) (s : State) : Out := fp3 false true x s
/-- FNMA (R109). -/
def execFnma (x : F3) (s : State) : Out := fp3 true false x s
/-- FCMP (R110). -/
def execFcmp (x : FCmp) (s : State) : Out :=
  issue x.c [x.a, x.b] [] [x.p] s fun v t =>
    let r := (fpFmt x.f64).cmp x.cond (fpBits x.f64 (v 0)) (fpBits x.f64 (v 1))
    .ok (putP (updMe t fun y => orFlags y r.2) x.p r.1)

/-- A converted value as a register holds it (R111): sign-extended for a signed integer target. -/
def extendTo (ty : Ty) (bits : Nat) : Word :=
  if ty.isInt && ty.signed then sext64 ty.bits bits else BitVec.ofNat 64 (bits % 2 ^ ty.bits)

/-- FCVT (R111): with code 5 the draw is that of R76 for the seed in B and the index in C. -/
def execFcvt (x : FCvt) (s : State) : Out :=
  issue x.c [x.a, x.b, x.cc] [x.d] [] s fun v t =>
    let mode := modeOf (resolveRnd t.me x.rnd) (srBits (v 1) (v 2))
    let r := tyConvert x.src x.dst mode (v 0).toNat
    .ok (putS (updMe t fun y => orFlags y r.2) x.d (extendTo x.dst r.1))

/-- FCLASS (R112): no flag. -/
def execFclass (x : F1n) (s : State) : Out :=
  issue x.c [x.a] [x.d] [] s fun v t =>
    .ok (putS t x.d (BitVec.ofNat 64 ((fpFmt x.f64).classify (fpBits x.f64 (v 0)))))

end Sys2Proof.Machine
end

