-- ==== Sys2Proof/Machine/Plinth.lean ====
section
/-! DEFINITION. The plinth firmware's rules (spec/20_partitions.md R373 to R382): launch records, placement, the end of a
launch; page migration (spec/18_memory_system.md R356 to R358); creating a partition. -/

namespace Sys2Proof.Machine

/-! ### Launch records (R374) -/

/-- A stage: KIND, log2 of the team size, teams. -/
structure Stage where
  kind : Nat := 0
  log2 : Nat := 0
  teams : Nat := 0
  deriving DecidableEq, Repr

/-- The fields of a launch record. -/
structure LaunchRec where
  entry : Word := 0
  args : List Word := []
  taskBase : Word := 0
  launchId : BitVec 32 := 0
  csw : Nat := 0
  prio : Nat := 0
  htab : Word := 0
  stages : List Stage := []
  ok : Bool := true
  deriving DecidableEq, Repr

/-- Cores that the stages ask for. -/
def stageCores (ss : List Stage) : Nat := (ss.map fun t => t.teams * 2 ^ t.log2).sum
/-- The record of 128 bytes, and whether it keeps the limits of R374. -/
def readLaunch (bs : List Byte) : LaunchRec :=
  let n := fieldAt bs 53 1
  let w (i : Nat) : Nat := fieldAt bs (64 + 4 * i) 4
  let ss := (List.range (min n 16)).map fun i => ({ kind := w i / 2 ^ 23 % 4, log2 := w i / 2 ^ 20 % 8, teams := w i % 2 ^ 20 } : Stage)
  let f (i : Nat) : Nat := fieldAt bs i 8
  { entry := BitVec.ofNat 64 (f 0), args := (List.range 4).map fun i => BitVec.ofNat 64 (f (8 + 8 * i)),
    taskBase := BitVec.ofNat 64 (f 40), launchId := BitVec.ofNat 32 (fieldAt bs 48 4), csw := fieldAt bs 52 1 % 16,
    prio := fieldAt bs 54 1 % 8, htab := BitVec.ofNat 64 (f 56), stages := ss,
    ok := f 0 % 4 == 0 && f 0 < 2 ^ 55 && fieldAt bs 52 1 / 16 == 0 && fieldAt bs 52 1 % 16 ≤ 8 && 1 ≤ n && n ≤ 16 &&
      fieldAt bs 54 1 / 8 == 0 && fieldAt bs 55 1 == 0 && f 56 % 8 == 0 && f 56 < 2 ^ 55 &&
      ss.all (fun t => t.kind != 3 && 1 ≤ t.teams) &&
      (List.range 16).all (fun i => if i < n then w i / 2 ^ 25 == 0 else w i == 0) &&
      f 40 + stageCores ss ≤ 2 ^ 64 }

/-! ### Placement (R375, R376) -/

/-- The placed launches, with those that a rollback restores: their cluster stores stand, or may stand again (R336, R375). -/
def storeLaunches (x : Part) : List Launch :=
  let add (js ks : List Launch) : List Launch := js ++ ks.filter fun k => !js.any (·.id == k.id)
  add (add x.live.launches x.pending.launches) x.saved.launches
/-- Ways that the cluster stores of a cluster hold: lowest way and count. -/
def heldWays (x : Part) (cl : Nat) : List (Nat × Nat) :=
  (storeLaunches x).filterMap fun j => (mfind? j.ways cl).map fun w => (w, j.csw)
/-- The highest run of w free ways (R352), when the stores stay within 15 ways and the function keeps an allocatable way
under its mask, before and after a change of the mask. -/
def freeWays (f : VF) (held : List (Nat × Nat)) (w : Nat) : Option Nat :=
  let used (held : List (Nat × Nat)) (i : Nat) : Bool := held.any fun h => h.1 ≤ i && i < h.1 + h.2
  if (held.map (·.2)).sum + w > 15 then none
  else
    match ((List.range (17 - w)).reverse).find? fun lo => (List.range w).all fun j => !used held (lo + j) with
    | none => none
    | some lo =>
      let free (m : BitVec 16) : Bool := (List.range 16).any fun i => m.getLsbD i && !used ((lo, w) :: held) i
      if free f.waymask && free f.wayEffect then some lo else none
/-- Its three user slots are Idle, and it holds no launch. -/
def coreIdle (l : PLive) (c : Nat) : Bool :=
  let k := mget ({} : Core) l.cores c
  k.launch.isNone && [0, 1, 2].all fun n => (mget ({} : Slot) k.slots n).st == .idle
/-- A core that a placement may take (R375), and whose slots were Idle at the latest cut (R378), and in the cocoon that a
rollback restores. `fresh`: every core is taken as free (R376). -/
def freeCore (x : Part) (fresh : Bool) (c : Nat) : Bool :=
  fresh || (coreIdle x.live c && coreIdle x.saved c && (x.cut != .saved || coreIdle x.pending c) &&
    !(x.live.launches.any fun j => j.cores.contains c))

/-- A placement under way: cores taken, ways of the clusters used, teams (first core, stage, log2 size). -/
structure Fit where
  taken : List Nat := []
  ways : List (Nat × Nat) := []
  teams : List (Nat × Nat × Nat) := []
  deriving DecidableEq, Repr

/-- The kind of a cluster matches a stage's (R374, R13). -/
def kindFits (kind cl : Nat) : Bool :=
  match kind with
  | 0 => true
  | 1 => cl % 8 != 7
  | _ => cl % 8 == 7
/-- One team in the lowest cluster that has room, at the lowest run (R375). -/
def fitTeam (x : Part) (f : VF) (fresh : Bool) (csw : Nat) (stage : Nat) (t : Stage) (g : Fit) : Option Fit :=
  let size := 2 ^ t.log2
  let try_ (cl : Nat) : Option Fit :=
    if !kindFits t.kind cl then none
    else
      match (mfind? g.ways cl).orElse fun _ => freeWays f (if fresh then [] else heldWays x cl) csw with
      | none => none
      | some lo =>
        (((List.range (128 / size)).map fun i => 128 * cl + size * i).find? fun c =>
          (List.range size).all fun j => freeCore x fresh (c + j) && !g.taken.contains (c + j)).map fun c =>
        { taken := g.taken ++ (List.range size).map (c + ·), ways := mput g.ways cl lo,
          teams := g.teams ++ [(c, stage, t.log2)] }
  x.clusters.findSome? try_
/-- Every team, stage by stage (R375). -/
def fitAll (x : Part) (f : VF) (fresh : Bool) (r : LaunchRec) : Option Fit :=
  if stageCores r.stages > 128 * x.clusters.length then none
  else
    (r.stages.zipIdx.map fun t => List.replicate t.1.teams t).flatten.foldl
      (fun g t => g.bind (fitTeam x f fresh r.csw t.2 t.1)) (some {})

/-- The handler table read through the tenant's page tables (R374): none to wait, else its 15 entries where it keeps the
limits. -/
def readTable (s : State) (p c : Nat) (va : Word) : Option (Option (List Word)) :=
  if va = 0 then some (some [])
  else
    match farReadBytes p c 128 va s with
    | .wait => none
    | .fault _ _ => some none
    | .ok (_, bs) =>
      let ws := (List.range 15).map fun i => fieldAt bs (8 * i) 8
      if fieldAt bs 120 8 = 0 && ws.all (fun w => w % 4 == 0 && w < 2 ^ 55) then some (some (ws.map (BitVec.ofNat 64))) else some none

/-- A block of the argument table that a record not yet applied for good still names (R377). Block 0 is slot 3's. -/
def blockUsed (x : Part) (ix : Nat) : Bool :=
  ix = 0 || (x.records ++ x.newRecords).any fun r => r.argIx == ix || (r.htIx != 0 && r.htIx ≤ ix && ix < r.htIx + 4)
/-- The lowest run of n free blocks from `lo`, of at most `fuel` candidates. -/
def findBlocks (x : Part) (n : Nat) : Nat → Nat → Option Nat
  | 0, _ => none
  | fuel + 1, lo => if (List.range n).all fun i => !blockUsed x (lo + i) then some lo else findBlocks x n fuel (lo + 1)
/-- Words stored as consecutive free blocks of the argument table (R377), whose indices have 16 bits; the index of the first,
none where no run is free. -/
def storeArgs (x : Part) (ws : List Word) (busy : Option BindRec) : Option (Nat × Part) :=
  let n := (ws.length + 3) / 4
  (findBlocks { x with records := x.records ++ busy.toList } n (65536 - n) 1).map fun ix =>
    (ix, { x with argTable := (ws.zipIdx).foldl (fun m e => mput m (4 * ix + e.2) e.1) x.argTable })

/-- The blocks of a launch (R377): arguments, and its handler table where it has one; none while no run is free. -/
def launchBlocks (x : Part) (r : LaunchRec) (table : List Word) : Option (Nat × Nat × Part) :=
  (storeArgs x r.args none).bind fun a =>
    if table.isEmpty then some (a.1, 0, a.2)
    else (storeArgs a.2 (table ++ [0]) (some { argIx := a.1 })).map fun h => (a.1, h.1, h.2)
/-- A launch placed whole (R375, R377): its blocks and bind records, TEAMID and TASKID by position. -/
def placeLaunch (s : State) (p : Nat) (r : LaunchRec) (g : Fit) (ax hx : Nat) (y : Part) : State :=
  let id := s.nextId + 1
  let x := s.part p
  let j : Launch := { id := id, launchId := r.launchId, taskBase := r.taskBase, csw := r.csw, prio := r.prio, cores := g.taken,
                      ways := if r.csw = 0 then [] else g.ways }
  let rec_ (t : Nat × Nat × Nat) (c : Nat) : BindRec :=
    { pc := r.entry, task := r.taskBase + BitVec.ofNat 64 (g.taken.countP (· < c)), core := c, part := x.partId, vf := x.vf,
      slot := 0, prio := r.prio, teamId := g.teams.countP (·.1 < t.1), stage := t.2.1, log2Team := t.2.2, csw := r.csw,
      argIx := ax, htIx := hx, launch := some id }
  let recs := (g.teams.map fun t => (List.range (2 ^ t.2.2)).map fun i => rec_ t (t.1 + i)).flatten
  updPart { s with nextId := id } p fun _ => { y with
    records := y.records ++ recs, newLaunches := y.newLaunches ++ [j],
    live := { y.live with launches := y.live.launches ++ [j] } }

/-- The plinth reads the records that LQPROD covers (R373); a malformed one completes with STATUS 2 (R374). -/
def takeRecords (v p : Nat) : Nat → State → State
  | 0, s => s
  | n + 1, s =>
    let f := s.vf v
    if f.lqcons = f.lqprod || ringSize f.lqbase = 0 then s
    else
      let bs := bytesAt s.hostMem (ringAddr f.lqbase 128 f.lqcons.toNat) 128
      let r := readLaunch bs
      let s := updVf s v fun f => { f with lqcons := f.lqcons + 1, taken := if r.ok then f.taken ++ [bs] else f.taken }
      takeRecords v p n (if r.ok then s else holdEgress s p (.completion r.launchId 2 0 r.taskBase bs))
/-- The launch that goes next (R376): highest PRIO, then ring order; its position and record. -/
def nextLaunch (f : VF) : Option (Nat × List Byte) :=
  (f.taken.zipIdx).foldl (fun (b : Option (Nat × List Byte)) e =>
    match b with
    | none => some (e.2, e.1)
    | some (i, q) => if (readLaunch e.1).prio > (readLaunch q).prio then some (e.2, e.1) else some (i, q)) none
/-- LAUNCH_PLACEMENT (R375, R376): the posted records are taken; the launch that goes next is placed, or completes with
STATUS 2 for its handler table or 3 where it never fits, or holds the others back. -/
def placementStep (s : State) (p : Nat) : State :=
  let v := (s.part p).vf
  let s := takeRecords v p ((s.vf v).lqprod - (s.vf v).lqcons).toNat s
  let f := s.vf v
  let x := s.part p
  match nextLaunch f with
  | none => s
  | some (i, bs) =>
    let r := readLaunch bs
    let taken (s : State) : State := updVf s v fun f => { f with taken := f.taken.eraseIdx i }
    let complete (st : Nat) : State := holdEgress (taken s) p (.completion r.launchId st 0 r.taskBase bs)
    if !r.ok then complete 2 else
    match fitAll x f false r with
    | some g =>
      (match readTable s p (g.taken.headD 0) r.htab with
       | none => s
       | some none => complete 2
       | some (some ws) =>
         match launchBlocks x r ws with
         | some (ax, hx, y) => placeLaunch (taken s) p r g ax hx y
         | none => s)
    | none => if (fitAll x f true r).isNone then complete 3 else s
def execLaunchPlacement (p : Nat) (s : State) : Out := agentStep s p (placementStep s p)

/-- LAUNCH_END (R379): every user slot of its cores is Idle, and every inbound queue, task queue and deque empty. -/
def launchEndStep (s : State) (p id : Nat) : State :=
  match (s.part p).live.launches.find? fun j => j.id == id with
  | none => s
  | some j =>
    let quietCore (c : Nat) : Bool :=
      let k := s.coreAt p c
      [0, 1, 2].all (fun n => (s.slotAt p c n).st == .idle) && k.inq.all (·.2.isEmpty) && k.deque.isEmpty
    if j.started && j.error.isNone && j.cores.all quietCore then endLaunch s p j 0 0 j.taskBase else s
def execLaunchEnd (p launch : Nat) (s : State) : Out := agentStep s p (launchEndStep s p launch)

/-! ### Migration (R356 to R358) -/

/-- The page of MIGVA and the destination of MIGPA. -/
def migPage (f : VF) : Nat := f.migva.toNat / 65536 % 2 ^ 39
def migDest (f : VF) : Nat := f.migpa.toNat / 65536 % 2 ^ 32 * 65536
/-- A usable page: no hole, no reserved range (R340). -/
def pageUsable (s : State) (a : Nat) : Bool :=
  paPresent s a && paPresent s (a + 65535) && !(s.reserved.any fun r => r.1 < a + 65536 && a < r.1 + r.2)
/-- A migration of the function is busy: taken, running, or done and not yet committed. -/
def migBusy (s : State) (v : Nat) : Bool :=
  s.parts.any fun e => e.2.vf == v && (e.2.migReq.isSome || e.2.mig.isSome || (e.2.egress ++ e.2.egressNew).contains .migrationDone)
/-- Why a migration is refused (R356), in the order of its table; `p` the function's scheduled partition. -/
def migRefusal (s : State) (v : Nat) (p : Option Nat) : Option Nat :=
  let f := s.vf v
  let va := migPage f * 65536
  match p with
  | none => some 1
  | some p =>
    match translate s p va with
    | .error _ => some 1
    | .ok w =>
      if w.level = 1 then some 2
      else if !pageUsable s (migDest f) then some 3
      else if w.pa / 65536 * 65536 = migDest f then some 4
      else if migBusy s v then some 5
      else if inWindow f va || w.entry.getLsbD 9 || w.entry.getLsbD 10 then some 6
      else none
/-- An accepted access lies in some of a page's lines; a range operation in all that it covers. -/
def Acc.inPage (e : Acc) (page : Nat) : Bool :=
  match e.kind, e.place with
  | .range _ n, _ => e.ea.toNat / 65536 ≤ page && page ≤ (e.ea.toNat + n - 1) / 65536
  | _, .home _ => e.ea.toNat / 65536 == page
  | _, _ => false
/-- The physical address of an accepted access to a line that has moved (R356). -/
def moveAcc (g : Mig) (line : Nat) (e : Acc) : Acc :=
  if e.inPage g.page && e.off / 128 = line && e.leaf.pa / 65536 * 65536 = g.opa
  then { e with leaf := { e.leaf with pa := g.npa + e.leaf.pa % 65536 } } else e
/-- Every access that the partition holds. -/
def mapAccs (f : Acc → Acc) (l : PLive) : PLive :=
  let slot (x : Slot) : Slot := { x with
    lq := x.lq.map fun e => { e with acc := f e.acc }, sb := x.sb.map f, unacked := x.unacked.map f }
  { l with
    cores := l.cores.map fun e => (e.1, { e.2 with slots := e.2.slots.map fun x => (x.1, slot x.2) }),
    chans := l.chans.map fun e => (e.1, e.2.1, f e.2.2), delivered := l.delivered.map f,
    resps := l.resps.map fun e => (f e.1, e.2) }
def updMig (s : State) (p : Nat) (f : Mig → Mig) : State := updPart s p fun x => { x with mig := x.mig.map f }
/-- A migration that cannot begin: its leaf has changed since GO. -/
def migFails (s : State) (p reason : Nat) : State :=
  updVf (updPart s p fun x => { x with migReady := false, migReq := none }) (s.part p).vf fun f => { f with
    migState := 3, migReason := reason }
/-- The next action of a migration on its lines (R356, R357): LOCK, or, with the line free, the recall, the copy, MOVED and the
lock's end. -/
def migLine (s : State) (p : Nat) (g : Mig) : State :=
  let line := 512 * g.page + g.moved
  if !g.locked then updMig (updDir s p line fun d => { d with lock := true }) p fun g => { g with locked := true }
  else if lineBusy s p line then s
  else
    let s := recallLine s p line
    let s := homeWrite s p line (g.npa + 128 * g.moved) (physRead s (g.opa + 128 * g.moved) 128) false
    let s := updDir s p line fun d => { d with lock := false, pa := g.npa + 128 * g.moved }
    updMig (updLive s p (mapAccs (moveAcc g line))) p fun g => { g with locked := false, moved := g.moved + 1 }
/-- The leaf is written with the new page, its other bits as they are now, and cached translations of the page go (R356). -/
def migSwitch (s : State) (p : Nat) (g : Mig) : State :=
  let leaf := (physRead64 s g.at_ &&& ~~~(BitVec.ofNat 64 (0xFFFFFFFF * 65536))) ||| BitVec.ofNat 64 g.npa
  let s := physWrite s p g.at_ (leBytes 8 leaf.toNat)
  updMig (updPart s p fun x => { x with tlb := x.tlb.filter fun t => !t.inRange (65536 * g.page) 65536 }) p fun g =>
    { g with mark := some s.nextId }
/-- An access to the page that was accepted under the old translation is still under way. -/
def migBehind (l : PLive) (g : Mig) (mark : Nat) : Bool :=
  let old (e : Acc) : Bool := e.id < mark && e.inPage g.page
  (l.cores.any fun c => c.2.slots.any fun f => ((f.2.lq.map (·.acc)) ++ f.2.sb ++ f.2.unacked).any old) ||
    (l.chans.map (·.2.2) ++ l.delivered).any old
/-- MIGRATION_RUN (R356): the next action of the migration: it begins, goes on with its lines, switches the leaf, and ends once
every access accepted under the old translation is performed. Its done state is held until the next commit. -/
def migrationStep (s : State) (p : Nat) : State :=
  let x := s.part p
  match x.mig, x.migReq with
  | none, some (page, npa) =>
    if !x.migReady then s
    else
      (match translate s p (65536 * page) with
       | .error r => if r.wait then s else migFails s p 1
       | .ok w => updPart s p fun x => { x with
           migReady := false,
           mig := some { page := page, opa := w.pa / 65536 * 65536, npa := npa, at_ := w.at_ } })
  | some g, _ =>
    if g.moved < 512 then migLine s p g
    else
      (match g.mark with
       | none => migSwitch s p g
       | some m =>
         if migBehind x.live g m then s
         else holdEgress (updPart s p fun x => { x with mig := none, migReq := none }) p .migrationDone)
  | none, none => s
def execMigrationRun (p : Nat) (s : State) : Out := agentStep s p (migrationStep s p)

/-! ### Partitions and nodes (R382, R383) -/

/-- The first cluster of a node is a multiple of its size; above one chip, its first chip a multiple of its chips (R382). -/
def nodeAligned (v : Variant) (first log2 : Nat) : Bool :=
  let b := chipLog2 v
  if log2 ≤ b then first % 8192 < 2 ^ b && first % 8192 % 2 ^ log2 == 0 && first / 8192 < 2048
  else log2 ≤ b + 11 && first % 8192 == 0 && first / 8192 % 2 ^ (log2 - b) == 0 && first / 8192 + 2 ^ (log2 - b) ≤ 2048
/-- Two nodes share a cluster. -/
def nodesMeet (v : Variant) (n : Node) (first log2 : Nat) : Bool :=
  (nodeClusters v n.first n.log2).any (nodeClusters v first log2).contains

/-- A new partition (R343, R382, R315): its clusters, the interval and quantum that the configuration records gave, the
runtime's arguments in block 0, and the bind records of slot 3. -/
def newPart (s : State) (w : PartSpec) (run : Bool) : Part :=
  let x : Part := { vf := w.vf, partId := w.partId, clusters := nodeClusters s.variant w.first w.log2, scheduled := run,
                    runtime := w.runtime, ckptInt := s.boot.ckptInt, quantum := s.boot.quantum, logCap := w.logCap,
                    egressCap := w.egressCap,
                    argTable := (w.args.take 4).zipIdx.foldl (fun m e => mput m e.2 e.1) [] }
  { x with records := runtimeRecords x }
/-- The plinth creates a partition on a free node, or as a tenant that joins a node's rotation when it ends (R382, R383). A
cluster that the host has gated is not used (R396). -/
def createPartition (s : State) (p : Nat) (w : PartSpec) : State :=
  let used := (mfind? s.parts p).isSome || s.nodes.any fun n => n.tenants.contains p || n.joining.contains p
  if used || !nodeAligned s.variant w.first w.log2 || !s.boot.passed || w.vf > 64 || w.partId ≥ 65536 ||
     w.runtime.toNat % 4 ≠ 0 || !virtualForm w.runtime ||
     (nodeClusters s.variant w.first w.log2).any s.gated.contains then s
  else
    let add (run : Bool) : State := { s with parts := mput s.parts p (newPart s w run) }
    match s.nodes.findIdx? fun n => n.first == w.first && n.log2 == w.log2 && !n.retired with
    | some i =>
      let n := (s.nodes[i]?).getD {}
      if n.tenants.length + n.joining.length ≥ 16 then s
      else updNode (add false) i fun n => { n with joining := n.joining ++ [p] }
    | none =>
      if s.nodes.any fun n => nodesMeet s.variant n w.first w.log2 then s
      else { add true with nodes := s.nodes ++ [{ first := w.first, log2 := w.log2, tenants := [p] }] }
/-- The plinth sets a partition's cocoon interval, 25 to 800 µs, and its quantum in intervals (R7, R315). -/
def configure (s : State) (p ckptInt quantum : Nat) : State :=
  if (mfind? s.parts p).isSome && 25 ≤ ckptInt && ckptInt ≤ 800 && 1 ≤ quantum && quantum < 256 then
    updPart s p fun x => { x with ckptInt := BitVec.ofNat 16 ckptInt, quantum := BitVec.ofNat 8 quantum }
  else s
/-- The host commands a P-state, P0 to P4 (R4); it takes effect at the partition's next cut (R396). -/
def commandPstate (s : State) (p n : Nat) : State :=
  if (mfind? s.parts p).isSome && n ≤ 4 then updPart s p fun x => { x with pstateNext := some n } else s
/-- The host gates a cluster that holds no partition, or ends that (R396). -/
def gateCluster (s : State) (cl : Nat) (off : Bool) : State :=
  if !off then { s with gated := s.gated.filter (· != cl) }
  else if s.parts.any (fun e => e.2.clusters.contains cl) || s.gated.contains cl then s
  else { s with gated := s.gated ++ [cl] }
/-- A partition maps memory of an HBM stack: through a page of its function's tables, or the tables themselves. -/
def stackMapped (s : State) (n : Nat) : Bool :=
  s.parts.any fun e =>
    let root := (s.vf e.2.vf).ptroot.toNat
    let t := root / 2 ^ 16 % 2 ^ 32 * 2 ^ 16
    root % 2 == 1 && ((t, 65536) :: mappedPages s 3 0 t).any fun g => g.1 / 0x2000000000 == n
/-- The usable ranges of present memory (R340): each stack and second-tier device without the reserved ranges, in order. -/
def usableRanges (s : State) : List (Nat × Nat) :=
  let whole := ((List.range (nHbm s.variant)).map fun i => (i * 0x2000000000, 95999950848)) ++
    s.tierSize.map fun e => (0x800000000000 + e.1 * 0xC000000000, min e.2 0xC000000000)
  let cut (r : Nat × Nat) (g : Nat × Nat) : List (Nat × Nat) :=
    if r.1 + r.2 ≤ g.1 || g.1 + g.2 ≤ r.1 then [g]
    else [(g.1, r.1 - g.1), (r.1 + r.2, g.1 + g.2 - (r.1 + r.2))].filter (·.2 > 0)
  s.reserved.foldl (fun gs r => gs.flatMap (cut r)) (whole.filter (·.2 > 0))
/-- The memory map that the plinth publishes: base and length of each usable range, MAP0 onward (R340, R389). -/
def publishMap (s : State) : State :=
  { s with map := ((usableRanges s).take 16).zipIdx.flatMap fun e =>
      [(2 * e.2, BitVec.ofNat 64 e.1.1), (2 * e.2 + 1, BitVec.ofNat 64 e.1.2)] }
/-- The plinth reserves a range of HBM for its own structures (R340). -/
def reserveRange (s : State) (base len : Nat) : State :=
  if base + len ≤ 0x20000000000 && len > 0 then publishMap { s with reserved := s.reserved ++ [(base, len)] } else s
/-- A second-tier device reports its capacity (R340). -/
def setTier (s : State) (port size : Nat) : State :=
  if port < 8 then publishMap { s with tierSize := mset 0 s.tierSize port size } else s
/-- A memory error that ECC, the link or the device corrects is counted in the reliability log (R339). -/
def correctedError (s : State) (pa : Nat) : State :=
  if paPresent s pa then { s with reliability := s.reliability + 1 } else s
/-- An uncorrectable error in a slice or a cluster store (R339): a clean cached line is dropped, to be read again, and any other rolls
the partition back. `line`: a line of the slice, none for a cluster store's. Lines that the slice is home to are clean, for memory
holds what is written to them: log entry 83. -/
def sliceError (s : State) (p cl : Nat) (line : Option Nat) : State :=
  let back := freeGone s (rollbackOrDiscard s p)
  if !alive s p then s
  else
    match line with
    | none => if (s.cluster p cl).stores.isEmpty then s else back
    | some l =>
      match (s.cluster p cl).l2.find? (·.line == l) with
      | none => s
      | some w =>
        if w.cls != .nc then dropWays s p l (· == cl)
        else if (List.range 128).any fun i => mget false (s.cluster p cl).ncDirty (128 * l + i) then back
        else ncDrop s p cl (128 * l)
/-- The host puts an HBM stack into self-refresh, which it enters only while no partition maps memory on it, or ends that
(R396). -/
def refreshStack (s : State) (n : Nat) (on : Bool) : State :=
  if !on then { s with refresh := s.refresh.filter (· != n) }
  else if n ≥ nHbm s.variant || stackMapped s n || s.refresh.contains n then s
  else { s with refresh := s.refresh ++ [n] }

end Sys2Proof.Machine
end

