-- ==== Sys2Proof/Machine/Platform.lean ====
section
/-! DEFINITION. The host and the platform (spec/21_platform.md R388 to R396, spec/18_memory_system.md R343, R349, R350,
spec/20_partitions.md R386): host writes of registers, the memory window, teardown, links, bring-up, recovery, care. -/

namespace Sys2Proof.Machine

/-! ### Notify writes (R390) -/

/-- The host may reach a function's windows (R386, R392): the physical function's, and those of an enabled one. -/
def reachable (s : State) (v : Nat) : Bool := s.boot.passed && (v == 0 || (s.vf v).enabled)
/-- Requests to a function's windows are answered; those to a function that is not enabled complete with completer abort
(R386). The physical function's register window is there during bring-up too (R392). -/
def answers (s : State) (v : Nat) : Bool := v == 0 || reachable s v
/-- A consumer or producer index that keeps the difference within the ring (R350, R373). -/
def withinRing (base : Word) (prod cons : BitVec 32) : Bool := (prod - cons).toNat ≤ ringSize base
/-- The oldest record held in a core of a function's partitions (R354): partition, core, record. -/
def oldestHeld (s : State) (v : Nat) : Option (Nat × Nat × FaultRec) :=
  let all := ((s.parts.filter fun e => e.2.vf == v).map fun e =>
    (e.2.live.cores.map fun c => c.2.heldRecs.map fun r => (e.1, c.1, r)).flatten).flatten
  all.foldl (fun (b : Option (Nat × Nat × FaultRec)) e =>
    match b with
    | none => some e
    | some m => if e.2.2.order < m.2.2.order then some e else some m) none
/-- Held records go out with REPOST set, oldest first, as long as room lasts (R354). -/
def repost (v : Nat) : Nat → State → State
  | 0, s => s
  | n + 1, s =>
    if !faultRoom (s.vf v) then s
    else
      match oldestHeld s v with
      | none => s
      | some (p, c, r) =>
        let s := writeRecord s p { r with repost := true }
        let s := updCore s p c fun k => { k with heldRecs := k.heldRecs.filter (·.order != r.order) }
        repost v n (updSlot s p c r.slot fun x => { x with
          held := (s.coreAt p c).heldRecs.any (·.slot == r.slot) })
/-- The partitions of a function. -/
def partsOf (s : State) (v : Nat) : List Nat := (s.parts.map (·.1)).filter fun p => (s.part p).vf == v
/-- TPEND.WAKE at a core of a function's partitions (R389). -/
def wakeCore (s : State) (v : Nat) (w : Word) : State :=
  let c := w.toNat % 2 ^ 20 + w.toNat / 2 ^ 20 % 2048 * 2 ^ 20
  ((partsOf s v).filter fun p => (s.part p).hasCore c).foldl (fun s p => updCore s p c fun k => { k with tpWake := true }) s
/-- A notify write takes effect: LQPROD (R373), FBCONS (R350, R354), DLCONS (R350, R355), CQCONS (R381), WAKEDB (R389). -/
def notified (s : State) (v num : Nat) (w : Word) : State :=
  let i : BitVec 32 := w.setWidth 32
  match num with
  | 0x212 => updVf s v fun f => if withinRing f.lqbase i f.lqcons then { f with lqprod := i } else f
  | 0x207 =>
    repost v (heldCount s v) (updVf s v fun f => if withinRing f.fbbase f.fbprod i then { f with fbcons := i } else f)
  | 0x20B => updVf s v fun f => if withinRing f.dlbase f.dlprod i then { f with dlcons := i } else f
  | 0x216 => postCompleted (updVf s v fun f => { f with cqcons := i }) v
  | 0x218 => wakeCore s v w
  | _ => s
/-- Posted writes of the function wait to be sent. -/
def unsent (s : State) (v : Nat) : Bool := s.posted.any fun e => e.1 == v && !e.2.isSent
/-- Posted writes of the function wait to be performed. -/
def postedBy (s : State) (v : Nat) : Bool := s.posted.any (·.1 == v)
/-- A notify write reaches the device (R390): with the relaxed attribute it adds 1 to RONOTIFY and may pass earlier posted
writes; without it, it stays behind them. One to a function that is not enabled is answered with completer abort (R386). -/
def notify (s : State) (v num : Nat) (relaxed : Bool) (w : Word) : State :=
  if !answers s v then { s with hostResp := none }
  else if !reachable s v then s
  else if relaxed then notified (updVf s v fun f => { f with ronotify := f.ronotify + 1 }) v num w
  else if postedBy s v then { s with posted := s.posted ++ [(v, .notify num w)] }
  else notified s v num w

/-- LQPROD (R373). -/
def execLqprod (v : Nat) (w : Word) (relaxed : Bool) (s : State) : Out := .next (notify s v 0x212 relaxed w)
/-- FBCONS (R350, R354). -/
def execFbcons (v : Nat) (w : Word) (relaxed : Bool) (s : State) : Out := .next (notify s v 0x207 relaxed w)
/-- DLCONS (R350, R355): an access that waits for the ring can go on. -/
def execDlcons (v : Nat) (w : Word) (relaxed : Bool) (s : State) : Out := .next (notify s v 0x20B relaxed w)
/-- CQCONS (R381): waiting records are posted. -/
def execCqcons (v : Nat) (w : Word) (relaxed : Bool) (s : State) : Out := .next (notify s v 0x216 relaxed w)
/-- WAKEDB (R389). -/
def execWakedb (v : Nat) (w : Word) (relaxed : Bool) (s : State) : Out := .next (notify s v 0x218 relaxed w)

/-! ### Registers (R349, R350, R373, R389) -/

/-- A ring base: LOG2N outside its limits is written as 4. -/
def ringBase (w : Word) (hi : Nat) : Word :=
  let n := w.toNat % 32
  BitVec.ofNat 64 (w.toNat / 64 * 64 + if 4 ≤ n && n ≤ hi then n else 4)
/-- NCWn as it is stored. -/
def windowWord (w : Word) : Word :=
  let v := w &&& 0x80003F7FFFFFFFFF
  let lg := v.toNat / 2 ^ 40 % 64
  let okay := 16 ≤ lg && lg ≤ 55 && v.toNat % 2 ^ 39 % 2 ^ (lg - 16) == 0
  if okay then v else v &&& 0x7FFFFFFFFFFFFFFF
/-- WPn as it is stored: KIND 3 as 2. -/
def watchWord (w : Word) : Word := if w.toNat / 2 ^ 61 % 4 = 3 then w &&& ~~~(1#64 <<< 61) else w
/-- A host write of a register of a function's window; read-only numbers and numbers with a step of their own stay. -/
def regWrite (f : VF) (num : Nat) (w : Word) : VF :=
  if 0x220 ≤ num && num ≤ 0x22F then { f with ncw := mset 0 f.ncw (num - 0x220) (windowWord w) }
  else if 0x230 ≤ num && num ≤ 0x233 then { f with tbtask := mset 0 f.tbtask (num - 0x230) w }
  else if 0x234 ≤ num && num ≤ 0x237 then { f with tbpc := mset 0 f.tbpc (num - 0x234) (w &&& ~~~2) }
  else if 0x238 ≤ num && num ≤ 0x23F then { f with wp := mset 0 f.wp (num - 0x238) (watchWord w) }
  else
    match num with
    | 0x204 => { f with ptroot := w &&& 0x0000FFFFFFFF0001 }
    | 0x205 => { f with fbbase := ringBase w 16 }
    | 0x208 => { f with fbovf := f.fbovf && !w.getLsbD 1 }
    | 0x209 => { f with dlbase := ringBase w 16 }
    | 0x20C => { f with dlEn := w.getLsbD 2, dlFull := f.dlFull && !w.getLsbD 1 }
    | 0x20D => if w.setWidth 16 = 0#16 then f else { f with waymask := w.setWidth 16 }
    | 0x20E => { f with migva := w &&& 0x007FFFFFFFFF0000 }
    | 0x20F => if w.getLsbD 0 then f else { f with migpa := w &&& 0x0000FFFFFFFF0000 }
    | 0x211 => { f with lqbase := ringBase w 12 }
    | 0x214 => { f with cqbase := ringBase w 12 }
    | 0x217 => { f with ronotify := w.setWidth 32 }
    | 0x219 => { f with ptrace := ringBase w 20, ptprod := 0, ptDropped := 0 }
    | _ => f
/-- Bring-up is stopped at a refusal, and the mailbox operates (R394). -/
def mailboxOpen (b : Boot) : Bool := !b.passed && b.stage != 0
/-- REGISTER_WRITE (R388): a function's register, its AFLAGS bits cleared in its partitions (R317); ALARM of THERM by the physical
function; RADDR and RLEN of the mailbox. A write to a function that is not enabled is answered with completer abort and ignored
(R386). -/
def writeRegister (s : State) (v num : Nat) (w : Word) : State :=
  if !answers s v then { s with hostResp := none }
  else if num ≥ 0x1000 then
    if v = 0 && mailboxOpen s.boot then
      match num with
      | 0x1002 => { s with boot := { s.boot with raddr := w } }
      | 0x1003 => { s with boot := { s.boot with rlen := w &&& 0xFFFFFFFF } }
      | _ => s
    else s
  else if !reachable s v then s
  else if num = 0x21B then (if v = 0 && w.getLsbD 8 then { s with alarm := false } else s)
  else if num = 0x118 then
    (partsOf s v).foldl (fun s p => updLive s p fun l => { l with aflags := l.aflags &&& ~~~w.setWidth 5 }) s
  else updVf s v fun f => regWrite f num w
def execRegisterWrite (v num : Nat) (w : Word) (s : State) : Out := .next (writeRegister s v num w)

/-- What the host reads of a register through a function's window (R388, R392, R394): module registers only by the physical
function; the mailbox only while it operates; registers of partition scope, WO fields and every other number as zero. -/
def hostRegRead (s : State) (v num : Nat) : Word :=
  let b := s.boot
  if num ≥ 0x1000 then
    if v = 0 && mailboxOpen b then
      match num with
      | 0x1001 => BitVec.ofNat 64 (b.rreason * 256 + b.rstat)
      | 0x1002 => b.raddr
      | 0x1003 => b.rlen
      | 0x1004 => BitVec.ofNat 64 (b.index * 2 ^ 32 + b.reason * 256 + b.stage)
      | _ => 0
    else 0
  else if !reachable s v then 0
  else if num = 0x200 then BitVec.ofNat 64 v
  else if num = 0x010 then (if v = 0 then caps s.variant else 0)
  else if num = 0x118 then (((partsOf s v).map fun p => (s.part p).live.aflags).foldl (· ||| ·) 0).setWidth 64
  else if (num = 0x21A || num = 0x21B || (0x240 ≤ num && num ≤ 0x25F)) && v ≠ 0 then 0
  else (regRead s v num).getD 0

/-- A read of the register window (R388): an aligned 8-byte one reads a register; any other reads zero. -/
def barRead (s : State) (v off len : Nat) : State :=
  if !answers s v || off + len > 0x10000 then { s with hostResp := none }
  else if off % 8 = 0 && len = 8 then { s with hostResp := some (leBytes 8 (hostRegRead s v (off / 8)).toNat) }
  else { s with hostResp := some (List.replicate len 0) }

/-- MIGRATION_GO (R356): MIGPA written with GO: refused with its REASON, or busy until the next commit. Of several partitions of the
function that run at once, it migrates the page of the first: DESIGN CHOICE, log entry 79. -/
def migrationGo (s : State) (v : Nat) (w : Word) : State :=
  if !answers s v then { s with hostResp := none }
  else if !reachable s v || !w.getLsbD 0 then s
  else
    let s := updVf s v fun f => { f with migpa := w &&& 0x0000FFFFFFFF0000 }
    let p := (s.parts.find? fun e => e.2.vf == v && e.2.scheduled).map (·.1)
    match migRefusal s v p, p with
    | none, some p =>
      updPart (updVf s v fun f => { f with migState := 1, migReason := 0 }) p fun x => { x with
        migWait := true, migReq := some (migPage (s.vf v), migDest (s.vf v)) }
    | some r, _ => updVf s v fun f => { f with migState := 3, migReason := r }
    | none, none => s
def execMigrationGo (v : Nat) (w : Word) (s : State) : Out := .next (migrationGo s v w)
/-- WAYMASK_CHANGE_EFFECT (R352). -/
def execWaymaskChangeEffect (v : Nat) (s : State) : Out := .next (updVf s v fun f => { f with wayEffect := f.waymask })

/-! ### The memory window (R343, R388) -/

/-- The pieces of a host access (R285): the parts of aligned 8-byte units, each with the leaf that its page gives, or the
refusal of the lowest one. The walk is at the piece's home (R343). -/
def hostPieces (s : State) (p va len : Nat) (k : Perm) : CRes (List (Piece × Leaf)) :=
  (splitRun (BitVec.ofNat 64 va) 0 len).foldr (fun x r =>
    let a := x.at_.toNat
    match checkAccess s p a k (translate s p a), r with
    | .error e, _ => if e.wait then .wait else .fault { sub := e.cause, level := e.level } s
    | .ok (w, _), .ok ls => .ok ((x, migLeaf s p a (leafOf w)) :: ls)
    | .ok _, r => r) (.ok [])
/-- The access of a piece, as its function's (R285): it enters the function's channel to the line's home. -/
def hostPost (s : State) (p v id : Nat) (bs : Option (List Byte)) (e : Piece × Leaf) : State :=
  let a := e.1.at_
  let acc : Acc :=
    { id := s.nextId, core := hostCore v, act := id, ea := a, place := .home (homeOf (s.part p) a.toNat), leaf := e.2,
      piece := e.1.pos,
      kind := match bs with
        | some bs => .store ((bs.drop e.1.pos).take e.1.len)
        | none => .load e.1.len false }
  updLive { s with nextId := s.nextId + 1 } p fun x => { x with chans := x.chans ++ [(clusterOf acc.core, .request, acc)] }
/-- A host access that its checks accept is under way; `bs` are the bytes of a write. -/
def hostBegin (s : State) (p v va len : Nat) (bs : Option (List Byte)) (ps : List (Piece × Leaf)) : State :=
  let q : HostReq := { id := s.nextId, vf := v, part := p, read := bs.isNone, va := va, len := len, left := ps.length }
  ps.foldl (fun s e => hostPost s p v q.id bs e) { s with nextId := s.nextId + 1, hostReqs := s.hostReqs ++ [q] }
/-- A virtual range that the memory window reaches. -/
def hostRange (va len : Nat) : Bool := 0 < len && va + len ≤ 2 ^ 55
/-- A posted write to the memory window is sent (R343, R390): its accesses enter their channels, and it stays posted until they
are performed. One refused by translation has no effect and is answered with completer abort. None while a walk meets an error
that rollback repairs (R323). `rest` are the posted writes without it. -/
def sendWrite (s : State) (p v va : Nat) (bs : List Byte) (rest : List (Nat × Posted)) : Option State :=
  match hostPieces s p va bs.length .write with
  | .ok ps => some (hostBegin { s with posted := (v, .sent s.nextId) :: rest } p v va bs.length (some bs) ps)
  | .fault _ _ => some { s with hostResp := none, posted := rest }
  | .wait => none
/-- HOST_MEMORY_ACCESS (R285, R343): the access is sent to the partition's homes behind what the function posted before it; a
write is posted and answered at once, a read when its bytes have come. One refused by translation, or to a function that is not
enabled, is answered with completer abort and has no effect (R386). -/
def hostAccess (s : State) (p : Nat) (x : HostAcc) : State :=
  let v := (s.part p).vf
  if (mfind? s.parts p).isNone || !reachable s v then { s with hostResp := none }
  else
    match x with
    | .read va len =>
      if !hostRange va len then { s with hostResp := none }
      else if unsent s v then s
      else
        match hostPieces s p va len .read with
        | .ok ps => hostBegin s p v va len none ps
        | .fault _ _ => { s with hostResp := none }
        | .wait => s
    | .write va bs =>
      if !hostRange va bs.length then { s with hostResp := none }
      else
        let s := { s with hostResp := some [] }
        match (if unsent s v then none else sendWrite s p v va bs s.posted) with
        | some t => t
        | none => { s with posted := s.posted ++ [(v, .mem p va bs)] }
/-- The oldest posted write of a function that is not on its way goes (R390): to its home, to host memory, or, once every write
before it has been performed, to its register. -/
def drainPosted (s : State) (v : Nat) : State :=
  match takeFirst (fun e : Nat × Posted => e.1 == v && !e.2.isSent) s.posted with
  | none => s
  | some ((_, w), rest) =>
    match w with
    | .mem p va bs =>
      if (mfind? s.parts p).isNone || !reachable s v then { s with posted := rest, hostResp := none }
      else (sendWrite s p v va bs rest).getD s
    | .host a bs => hostWrite { s with posted := rest } a bs
    | .notify num w =>
      if rest.any fun e => e.1 == v && e.2.isSent then s
      else if reachable s v then notified { s with posted := rest } v num w
      else { s with posted := rest, hostResp := none }
    | .sent _ => s
def execHostMemoryAccess (p : Nat) (x : HostAcc) (s : State) : Out := .next (hostAccess s p x)

/-- VF_TEARDOWN (R386): every partition of the function is discarded without completion records, every page mapped through its
tables is zeroed, its rings and registers are as at reset, and its nodes become free. -/
def teardown (s : State) (v : Nat) : State :=
  if v = 0 then s
  else
    let s := (partsOf s v).foldl (fun s p => discardPart s p false) (zeroPages s v)
    freeNodes { zeroPages s v with vfs := mdel s.vfs v }
/-- The host sets VF Enable (R386): a virtual function's windows answer. -/
def enableVf (s : State) (v : Nat) : State :=
  if 1 ≤ v && v ≤ 64 then updVf s v fun f => { f with enabled := true } else s
def execVfTeardown (v : Nat) (s : State) : Out := .next (teardown s v)

/-! ### Amisin (R391) -/

/-- One byte of CRC-64 (ECMA-182): polynomial 0x42F0E1EBA9EA3693, most significant bit first. -/
def crc64Byte (r : BitVec 64) (b : Byte) : BitVec 64 :=
  (List.range 8).foldl (fun (r : BitVec 64) (_ : Nat) => if r.msb then (r <<< 1) ^^^ 0x42F0E1EBA9EA3693 else r <<< 1)
    (r ^^^ (b.setWidth 64 <<< 56))
def crc64 (bs : List Byte) : BitVec 64 := bs.foldl crc64Byte 0
/-- Bytes 0 to 247 of a flit (R391): destination and source chip, class, sequence number, and the acknowledgement field of
bytes 8 to 15 as given; then its CRC. -/
def flitBytes (dst src cls seq : Nat) (ack payload : List Byte) : List Byte :=
  let pad (n : Nat) (bs : List Byte) : List Byte := (bs ++ List.replicate n 0).take n
  let bs := leBytes 2 dst ++ leBytes 2 src ++ leBytes 1 cls ++ leBytes 3 seq ++ pad 8 ack ++ pad 232 payload
  bs ++ leBytes 8 (crc64 bs).toNat
/-- Bytes 8 to 15 of a flit that leaves (R391): the number of the flit received last, in 24 bits, then a byte of returned credits for
each class. The places and widths are the model's: DESIGN CHOICE, log entry 82. -/
def Port.ackField (x : Port) : List Byte :=
  leBytes 3 ((x.expect + (2 ^ 24 - 1)) % 2 ^ 24) ++ ((List.range 4).map fun c => leBytes 1 (min 255 (mget 0 x.owed c))).flatten ++ [0]
/-- The credits that a flit has returned are owed no longer. -/
def Port.returned (x : Port) : NMap Nat :=
  (List.range 4).foldl (fun m c => mset 0 m c (mget 0 x.owed c - min 255 (mget 0 x.owed c))) []
/-- Flits that wait leave a port in order as long as their class has a credit (R391): each takes the next sequence number, returns
credits, and stays in the replay buffer until it is acknowledged. The first one without a credit holds its class. -/
def pumpPort (src : Nat) : Nat → Port → Port
  | 0, x => x
  | n + 1, x =>
    match takeFirst (fun e : Nat × Nat × List Byte => mget 0 x.credits e.2.1 != 0) x.waiting with
    | none => x
    | some ((dst, cls, pay), rest) =>
      pumpPort src n { x with
        waiting := rest, seq := x.seq + 1, credits := mset 0 x.credits cls (mget 0 x.credits cls - 1), owed := x.returned,
        replay := x.replay ++ [(x.seq, flitBytes dst src cls (x.seq % 2 ^ 24) x.ackField pay)] }
/-- A flit is sent (R391): it goes to the port that the routing table gives for its chip, and waits there without a credit. -/
def sendFlit (s : State) (chip cls : Nat) (payload : List Byte) : State :=
  match mfind? s.boot.routes chip with
  | some port =>
    if cls ≤ 3 && chip < 2048 && port < 16 && payload.length ≤ 232 then
      let x := mget ({} : Port) s.ports port
      { s with ports := mput s.ports port (pumpPort s.chipId (x.waiting.length + 1) { x with waiting := x.waiting ++ [(chip, cls, payload)] }) }
    else s
  | none => s
/-- The receiver acknowledges flits up to a sequence number (R391): the replay buffer lets them go. -/
def Port.acked (x : Port) (upTo : Nat) : Port := { x with replay := x.replay.filter (·.1 > upTo) }
/-- The receiver returns credits (R391). -/
def Port.credited (x : Port) (credits : NMap Nat) : Port :=
  { x with credits := credits.foldl (fun m e => mset 0 m e.1 (mget 0 m e.1 + e.2)) x.credits }
/-- What the receiver has told: the replay buffer lets flits go, and flits that waited leave. -/
def ackFlits (s : State) (port upTo : Nat) (credits : NMap Nat) : State :=
  if port < 16 then
    let x := ((mget ({} : Port) s.ports port).acked upTo).credited credits
    { s with ports := mput s.ports port (pumpPort s.chipId x.waiting.length x) }
  else s
/-- The latest sent flit whose number has the 24 bits of an acknowledgement. -/
def Port.ackOf (x : Port) (a : Nat) : Option Nat :=
  let last := x.seq - 1
  let back := (last + 2 ^ 24 - a % 2 ^ 24) % 2 ^ 24
  if x.seq = 0 || back > last then none else some (last - back)
/-- A flit whose CRC holds reaches a port (R391): it acknowledges; the one whose number comes next is taken, returns credits, and is
delivered, or, of a class above 3, dropped and counted; another is a repeat, or follows one that the sender has to replay. -/
def Port.receive (x : Port) (bs : List Byte) : Port :=
  let cls := fieldAt bs 4 1
  let x := match x.ackOf (fieldAt bs 8 3) with
    | some n => x.acked n
    | none => x
  if fieldAt bs 5 3 ≠ x.expect % 2 ^ 24 then x
  else
    let x := { x with expect := x.expect + 1 }.credited ((List.range 4).map fun c => (c, fieldAt bs (11 + c) 1))
    if cls > 3 then { x with dropped := x.dropped + 1 }
    else { x with flits := x.flits ++ [bs], owed := mset 0 x.owed cls (mget 0 x.owed cls + 1) }
/-- AMISIN_FLIT: a flit whose CRC fails is dropped, and its sender replays it. -/
def flitStep (s : State) (port : Nat) (bs : List Byte) : State :=
  let x := mget ({} : Port) s.ports port
  let y : Port :=
    if (crc64 (bs.take 248)).toNat ≠ fieldAt bs 248 8 then { x with crcDropped := x.crcDropped + 1 } else x.receive bs
  if port < 16 && bs.length = 256 then { s with ports := mput s.ports port (pumpPort s.chipId y.waiting.length y) } else s
def execAmisinFlit (port : Nat) (bytes : List Byte) (s : State) : Out := .next (flitStep s port bytes)

/-! ### Bring-up and recovery (R392 to R394) -/

/-- A field of a configuration record lies within its limits. -/
def recOk : RecField → Bool
  | .chip n => n < 2048
  | .route chip port => chip < 2048 && port < 16
  | .spares _ n | .spareFor _ n => n ≤ 16
  | .ckptInt us => 25 ≤ us && us ≤ 800
  | .quantum n => 1 ≤ n && n < 256
  | .identity key chain => chain.getLast? == some key
  | .variant _ | .floor _ | .debugEnable => true
/-- Why an image is refused: the reason codes of RWHY. -/
def imageReason (floor : Nat) (i : Image) : Option Nat :=
  if !i.formOk then some 4
  else if !i.ecdsaOk then some 1
  else if !i.lmsOk then some 2
  else if i.version < floor then some 3
  else if !(i.fieldOk && i.fields.all recOk) then some 5
  else none
/-- The images in order: stage, index, image. -/
def bootImages (b : Boot) : List (Nat × Nat × Image) :=
  let sub (e : Nat × Nat × Image) : Nat × Nat × Image :=
    match b.substitute.find? fun r => r.1 == e.1 && r.2.1 == e.2.1 with
    | some r => r
    | none => e
  (([(1, 0, b.firmware), (2, 0, b.runtime)] : List (Nat × Nat × Image)) ++ b.recs.zipIdx.map fun (e : Image × Nat) => (3, e.2, e.1)).map sub
/-- The version floor (R392): that of the platform record whose signatures hold, else the one in force. -/
def floorOfRecords (b : Boot) : Nat :=
  let fs := (bootImages b).flatMap fun e =>
    if e.1 = 3 && e.2.2.formOk && e.2.2.ecdsaOk && e.2.2.lmsOk then e.2.2.fields.filterMap fun f => match f with
      | .floor n => some n
      | _ => none
    else []
  fs.getLast?.getD b.floor
/-- What the accepted configuration records say, in order (R392). -/
def recFields (b : Boot) : List RecField := ((bootImages b).filter fun e => e.1 == 3).flatMap fun e => e.2.2.fields
/-- The default CKPTINT and QUANTUM, the version floor, the routing table, and the identity that records carry. -/
def recBoot (b : Boot) : RecField → Boot
  | .ckptInt n => { b with ckptInt := BitVec.ofNat 16 n }
  | .quantum n => { b with quantum := BitVec.ofNat 8 n }
  | .floor n => { b with floor := n }
  | .route chip port => { b with routes := mput b.routes chip port }
  | .identity key chain => { b with identity := key, chain := chain }
  | .variant _ | .chip _ | .spares _ _ | .spareFor _ _ | .debugEnable => b
/-- The variant, the chip number and the spare map that records carry. -/
def recState (s : State) : RecField → State
  | .variant v => { s with variant := v, map := stackMap (nHbm v) }
  | .chip n => { s with chipId := n }
  | .spares die n => { s with spares := mput s.spares die n }
  | .spareFor cl n => { s with spareMap := s.spareMap ++ [(cl, n)] }
  | .ckptInt _ | .quantum _ | .floor _ | .route _ _ | .identity _ _ | .debugEnable => s
/-- Bring-up runs to the first image that is refused, or passes (R392). -/
def bringUp (b : Boot) : Boot :=
  match (bootImages b).findSome? fun e => (imageReason (floorOfRecords b) e.2.2).map fun r => (e.1, e.2.1, r) with
  | none => (recFields b).foldl recBoot { b with passed := true, stage := 0, reason := 0, index := 0, rstat := 0, rreason := 0 }
  | some (st, i, r) => { b with passed := false, stage := st, reason := r, index := i }
/-- What passed bring-up configures (R392). -/
def configured (s : State) : State := if s.boot.passed then noteReplace ((recFields s.boot).foldl recState s) else s
/-- BRING_UP (R392): the machine as after reset, what no record gives as it is, and bring-up. -/
def bootStep (s : State) (fw rt : Image) (recs : List Image) : State :=
  configured { State.reset with
    variant := s.variant, chipId := s.chipId, map := s.map, tierSize := s.tierSize, reserved := s.reserved, spares := s.spares,
    spareMap := s.spareMap, hostMem := s.hostMem, moves := s.moves, fresh := s.fresh, nextId := s.nextId,
    boot := bringUp { floor := s.boot.floor, firmware := fw, runtime := rt, recs := recs } }
def execBringUp (fw rt : Image) (recs : List Image) (s : State) : Out := .next (bootStep s fw rt recs)

/-- LOAD (R394): the ROM starts to read the image, or refuses RADDR or RLEN with REASON 4. -/
def loadStep (s : State) : State :=
  let b := s.boot
  if !mailboxOpen b || b.loading then s
  else if b.raddr.toNat % 4096 ≠ 0 || b.rlen.toNat = 0 || b.rlen.toNat > 0x4000000 then
    { s with boot := { b with rstat := 3, rreason := 4 } }
  else { s with boot := { b with rstat := 1, loading := true } }
def execLoad (s : State) : Out := .next (loadStep s)
/-- RECOVERY_LOAD_DONE (R394): the image read at RADDR, with the outcome of its checks in `img`: accepted, it takes the refused
one's place and bring-up resumes there; refused, the mailbox awaits another command. -/
def loadDone (s : State) (img : Image) : State :=
  let b := s.boot
  if !b.loading then s
  else
    let i := { img with bytes := bytesAt s.hostMem b.raddr.toNat b.rlen.toNat }
    match imageReason (floorOfRecords b) i with
    | some r => { s with boot := { b with loading := false, rstat := 3, rreason := r } }
    | none => configured { s with boot := bringUp { b with
        loading := false, rstat := 2,
        substitute := (b.stage, b.index, i) :: b.substitute.filter fun e => !(e.1 == b.stage && e.2.1 == b.index) } }
def execRecoveryLoadDone (img : Image) (s : State) : Out := .next (loadDone s img)
/-- RESTART (R394): bring-up starts again with the stored images. -/
def restartStep (s : State) : State :=
  if mailboxOpen s.boot && !s.boot.loading then
    configured { s with boot := bringUp { s.boot with substitute := [], rstat := 0, rreason := 0 } }
  else s
def execRestart (s : State) : Out := .next (restartStep s)

/-- The bytes that a measurement covers (R393): 2 the plinth firmware, 3 the runtime, 4 the configuration records, 5 the spare
map in force. -/
def measured (s : State) (i : Nat) : List Byte :=
  let b := s.boot
  let of (st : Nat) : List Byte := ((bootImages b).filter fun e => e.1 == st).flatMap fun e => e.2.2.bytes
  match i with
  | 2 => of 1
  | 3 => of 2
  | 4 => of 3
  | 5 => ((List.range (nDie s.variant)).map fun d => BitVec.ofNat 8 (mget 16 s.spares (16 * s.chipId + d))) ++
      (s.spareMap.map fun e => leBytes 4 e.1 ++ leBytes 1 e.2).flatten
  | _ => []
/-- SPDM_REQUEST (R393): the measurement of an index; its digest is a free value of the index and what is measured. -/
def spdmStep (s : State) (i : Nat) : State :=
  if 1 ≤ i && i ≤ 5 then { s with spdm := s.spdm ++ [Config.freeDigest (8 * leNat (measured s i) + i)] } else s
def execSpdmRequest (index : Nat) (s : State) : Out := .next (spdmStep s index)
/-- JTAG_ACCESS (R393): it reaches the plinth core only under a debug-enable record whose signatures and version hold. -/
def execJtagAccess (rec : Image) (s : State) : Out :=
  .next (if (imageReason s.boot.floor rec).isNone && rec.fields.contains .debugEnable then { s with jtag := s.jtag + 1 } else s)

/-! ### Temperature (R396) -/

/-- THERMAL_ALARM: at 105 °C. -/
def execThermalAlarm (temp : BitVec 8) (s : State) : Out :=
  .next (if temp.toNat ≥ 105 then { s with junction := temp, alarm := true, pfInterrupts := s.pfInterrupts ++ [.alarm] }
         else { s with junction := temp })
/-- PROTECTIVE_HALT: at 115 °C every partition rolls back, the compute clocks stop, HALTED is set. -/
def haltStep (s : State) (temp : BitVec 8) : State :=
  if temp.toNat ≥ 115 then
    { freeGone s ((s.parts.map (·.1)).foldl rollbackOrDiscard s) with junction := temp, halted := true }
  else { s with junction := temp }
def execProtectiveHalt (temp : BitVec 8) (s : State) : Out := .next (haltStep s temp)
/-- The host clears HALTED: the clocks restart only below 100 °C. -/
def clearHalted (s : State) : State := { s with halted := s.halted && s.junction.toNat ≥ 100 }
/-- THERM_HALTED_CLEAR, at a junction temperature. -/
def execThermHaltedClear (temp : BitVec 8) (s : State) : Out := .next (clearHalted { s with junction := temp })

/-! ### Writes of the register window (R388) -/

/-- What an aligned 8-byte write of register N does: the notify writes, MIGPA with GO, RCMD and HALTED have steps of their own. -/
def registerWrite (s : State) (v num : Nat) (w : Word) : State :=
  match num with
  | 0x207 | 0x20B | 0x212 | 0x216 | 0x218 => notify s v num false w
  | 0x20F => if w.getLsbD 0 then migrationGo s v w else writeRegister s v num w
  | 0x21B =>
    let t := writeRegister s v num w
    if v = 0 && reachable s v && w.getLsbD 9 then clearHalted t else t
  | 0x1000 =>
    if v ≠ 0 then s
    else if w.toNat % 256 = 1 then loadStep s
    else if w.toNat % 256 = 2 then restartStep s
    else s
  | _ => writeRegister s v num w
/-- A write of the register window (R388): an aligned 8-byte one writes a register; any other is ignored. -/
def barWrite (s : State) (v off : Nat) (bs : List Byte) : State :=
  if !answers s v || off + bs.length > 0x10000 then { s with hostResp := none }
  else if off % 8 = 0 && bs.length = 8 then
    { registerWrite s v (off / 8) (BitVec.ofNat 64 (leNat bs)) with hostResp := some [] }
  else { s with hostResp := some [] }

end Sys2Proof.Machine
end

