-- ==== Sys2Proof/Machine/Dispatch.lean ====
section
/-! DEFINITION. What each instruction and each agent's step does: one arm per constructor, one meaning per arm. -/

namespace Sys2Proof.Machine

def exec (i : Instr) (s : State) : Host.Outcome State Fault Refusal :=
  match i with
  | .add x => Sys2Proof.Machine.execAdd x s
  | .addImm x => Sys2Proof.Machine.execAddImm x s
  | .sub x => Sys2Proof.Machine.execSub x s
  | .subImm x => Sys2Proof.Machine.execSubImm x s
  | .mul x => Sys2Proof.Machine.execMul x s
  | .mulImm x => Sys2Proof.Machine.execMulImm x s
  | .mulhi x => Sys2Proof.Machine.execMulhi x s
  | .mulhiImm x => Sys2Proof.Machine.execMulhiImm x s
  | .mulhn x => Sys2Proof.Machine.execMulhn x s
  | .mulhnImm x => Sys2Proof.Machine.execMulhnImm x s
  | .div x => Sys2Proof.Machine.execDiv x s
  | .divImm x => Sys2Proof.Machine.execDivImm x s
  | .divn x => Sys2Proof.Machine.execDivn x s
  | .divnImm x => Sys2Proof.Machine.execDivnImm x s
  | .rem x => Sys2Proof.Machine.execRem x s
  | .remImm x => Sys2Proof.Machine.execRemImm x s
  | .remn x => Sys2Proof.Machine.execRemn x s
  | .remnImm x => Sys2Proof.Machine.execRemnImm x s
  | .and x => Sys2Proof.Machine.execAnd x s
  | .andImm x => Sys2Proof.Machine.execAndImm x s
  | .or x => Sys2Proof.Machine.execOr x s
  | .orImm x => Sys2Proof.Machine.execOrImm x s
  | .xor x => Sys2Proof.Machine.execXor x s
  | .xorImm x => Sys2Proof.Machine.execXorImm x s
  | .andn x => Sys2Proof.Machine.execAndn x s
  | .andnImm x => Sys2Proof.Machine.execAndnImm x s
  | .orn x => Sys2Proof.Machine.execOrn x s
  | .ornImm x => Sys2Proof.Machine.execOrnImm x s
  | .shl x => Sys2Proof.Machine.execShl x s
  | .shlImm x => Sys2Proof.Machine.execShlImm x s
  | .shr x => Sys2Proof.Machine.execShr x s
  | .shrImm x => Sys2Proof.Machine.execShrImm x s
  | .sar x => Sys2Proof.Machine.execSar x s
  | .sarImm x => Sys2Proof.Machine.execSarImm x s
  | .rol x => Sys2Proof.Machine.execRol x s
  | .rolImm x => Sys2Proof.Machine.execRolImm x s
  | .ror x => Sys2Proof.Machine.execRor x s
  | .rorImm x => Sys2Proof.Machine.execRorImm x s
  | .min x => Sys2Proof.Machine.execMin x s
  | .minImm x => Sys2Proof.Machine.execMinImm x s
  | .minn x => Sys2Proof.Machine.execMinn x s
  | .minnImm x => Sys2Proof.Machine.execMinnImm x s
  | .max x => Sys2Proof.Machine.execMax x s
  | .maxImm x => Sys2Proof.Machine.execMaxImm x s
  | .maxn x => Sys2Proof.Machine.execMaxn x s
  | .maxnImm x => Sys2Proof.Machine.execMaxnImm x s
  | .clz x => Sys2Proof.Machine.execClz x s
  | .ctz x => Sys2Proof.Machine.execCtz x s
  | .popc x => Sys2Proof.Machine.execPopc x s
  | .brev x => Sys2Proof.Machine.execBrev x s
  | .bswap x => Sys2Proof.Machine.execBswap x s
  | .abs x => Sys2Proof.Machine.execAbs x s
  | .neg x => Sys2Proof.Machine.execNeg x s
  | .sextI8 x => Sys2Proof.Machine.execSextI8 x s
  | .sextI16 x => Sys2Proof.Machine.execSextI16 x s
  | .sextI32 x => Sys2Proof.Machine.execSextI32 x s
  | .zextN8 x => Sys2Proof.Machine.execZextN8 x s
  | .zextN16 x => Sys2Proof.Machine.execZextN16 x s
  | .zextN32 x => Sys2Proof.Machine.execZextN32 x s
  | .mov x => Sys2Proof.Machine.execMov x s
  | .movi x => Sys2Proof.Machine.execMovi x s
  | .movhi x => Sys2Proof.Machine.execMovhi x s
  | .lea x => Sys2Proof.Machine.execLea x s
  | .cmp x => Sys2Proof.Machine.execCmp x s
  | .cmpImm x => Sys2Proof.Machine.execCmpImm x s
  | .pand x => Sys2Proof.Machine.execPand x s
  | .por x => Sys2Proof.Machine.execPor x s
  | .pxor x => Sys2Proof.Machine.execPxor x s
  | .pandn x => Sys2Proof.Machine.execPandn x s
  | .pnot x => Sys2Proof.Machine.execPnot x s
  | .pmov x => Sys2Proof.Machine.execPmov x s
  | .pget x => Sys2Proof.Machine.execPget x s
  | .pset x => Sys2Proof.Machine.execPset x s
  | .sel x => Sys2Proof.Machine.execSel x s
  | .qcnt x => Sys2Proof.Machine.execQcnt x s
  | .gete x => Sys2Proof.Machine.execGete x s
  | .fadd x => Sys2Proof.Machine.execFadd x s
  | .fsub x => Sys2Proof.Machine.execFsub x s
  | .fmul x => Sys2Proof.Machine.execFmul x s
  | .fdiv x => Sys2Proof.Machine.execFdiv x s
  | .fsqrt x => Sys2Proof.Machine.execFsqrt x s
  | .fmin x => Sys2Proof.Machine.execFmin x s
  | .fmax x => Sys2Proof.Machine.execFmax x s
  | .fabs x => Sys2Proof.Machine.execFabs x s
  | .fneg x => Sys2Proof.Machine.execFneg x s
  | .fcopysign x => Sys2Proof.Machine.execFcopysign x s
  | .ffma x => Sys2Proof.Machine.execFfma x s
  | .ffms x => Sys2Proof.Machine.execFfms x s
  | .fnma x => Sys2Proof.Machine.execFnma x s
  | .fcmp x => Sys2Proof.Machine.execFcmp x s
  | .fcvt x => Sys2Proof.Machine.execFcvt x s
  | .fclass x => Sys2Proof.Machine.execFclass x s
  | .br x => Sys2Proof.Machine.execBr x s
  | .jmp x => Sys2Proof.Machine.execJmp x s
  | .call x => Sys2Proof.Machine.execCall x s
  | .callr x => Sys2Proof.Machine.execCallr x s
  | .ret x => Sys2Proof.Machine.execRet x s
  | .frame x => Sys2Proof.Machine.execFrame x s
  | .movs x => Sys2Proof.Machine.execMovs x s
  | .movsw x => Sys2Proof.Machine.execMovsw x s
  | .trap x => Sys2Proof.Machine.execTrap x s
  | .brk x => Sys2Proof.Machine.execBrk x s
  | .synci x => Sys2Proof.Machine.execSynci x s
  | .ld x => Sys2Proof.Machine.execLd x s
  | .st x => Sys2Proof.Machine.execSt x s
  | .ldp x => Sys2Proof.Machine.execLdp x s
  | .stp x => Sys2Proof.Machine.execStp x s
  | .pf x => Sys2Proof.Machine.execPf x s
  | .cflush x => Sys2Proof.Machine.execCflush x s
  | .cclean x => Sys2Proof.Machine.execCclean x s
  | .cinv x => Sys2Proof.Machine.execCinv x s
  | .czero x => Sys2Proof.Machine.execCzero x s
  | .amoAdd x => Sys2Proof.Machine.execAmoAdd x s
  | .amoAnd x => Sys2Proof.Machine.execAmoAnd x s
  | .amoOr x => Sys2Proof.Machine.execAmoOr x s
  | .amoXor x => Sys2Proof.Machine.execAmoXor x s
  | .amoMin x => Sys2Proof.Machine.execAmoMin x s
  | .amoMinn x => Sys2Proof.Machine.execAmoMinn x s
  | .amoMax x => Sys2Proof.Machine.execAmoMax x s
  | .amoMaxn x => Sys2Proof.Machine.execAmoMaxn x s
  | .amoSwap x => Sys2Proof.Machine.execAmoSwap x s
  | .amoCas x => Sys2Proof.Machine.execAmoCas x s
  | .amoAddNf x => Sys2Proof.Machine.execAmoAddNf x s
  | .amoAndNf x => Sys2Proof.Machine.execAmoAndNf x s
  | .amoOrNf x => Sys2Proof.Machine.execAmoOrNf x s
  | .amoXorNf x => Sys2Proof.Machine.execAmoXorNf x s
  | .amoMinNf x => Sys2Proof.Machine.execAmoMinNf x s
  | .amoMinnNf x => Sys2Proof.Machine.execAmoMinnNf x s
  | .amoMaxNf x => Sys2Proof.Machine.execAmoMaxNf x s
  | .amoMaxnNf x => Sys2Proof.Machine.execAmoMaxnNf x s
  | .famoFaddF32 x => Sys2Proof.Machine.execFamoFaddF32 x s
  | .famoFaddF64 x => Sys2Proof.Machine.execFamoFaddF64 x s
  | .famoFaddBf16x2 x => Sys2Proof.Machine.execFamoFaddBf16x2 x s
  | .famoFminF32 x => Sys2Proof.Machine.execFamoFminF32 x s
  | .famoFmaxF32 x => Sys2Proof.Machine.execFamoFmaxF32 x s
  | .famoFaddF32Nf x => Sys2Proof.Machine.execFamoFaddF32Nf x s
  | .famoFaddF64Nf x => Sys2Proof.Machine.execFamoFaddF64Nf x s
  | .famoFaddBf16x2Nf x => Sys2Proof.Machine.execFamoFaddBf16x2Nf x s
  | .famoFminF32Nf x => Sys2Proof.Machine.execFamoFminF32Nf x s
  | .famoFmaxF32Nf x => Sys2Proof.Machine.execFamoFmaxF32Nf x s
  | .fence x => Sys2Proof.Machine.execFence x s
  | .barInit x => Sys2Proof.Machine.execBarInit x s
  | .barArrive x => Sys2Proof.Machine.execBarArrive x s
  | .barArrivex x => Sys2Proof.Machine.execBarArrivex x s
  | .barExpect x => Sys2Proof.Machine.execBarExpect x s
  | .barWait x => Sys2Proof.Machine.execBarWait x s
  | .barTest x => Sys2Proof.Machine.execBarTest x s
  | .hbarArrive x => Sys2Proof.Machine.execHbarArrive x s
  | .hbarWait x => Sys2Proof.Machine.execHbarWait x s
  | .hbarPhaseComplete p level grp => Sys2Proof.Machine.execHbarPhaseComplete p level grp s
  | .tlwait x => Sys2Proof.Machine.execTlwait x s
  | .tlget x => Sys2Proof.Machine.execTlget x s
  | .send x => Sys2Proof.Machine.execSend x s
  | .bind x => Sys2Proof.Machine.execBind x s
  | .unbind x => Sys2Proof.Machine.execUnbind x s
  | .done x => Sys2Proof.Machine.execDone x s
  | .doneTask x => Sys2Proof.Machine.execDoneTask x s
  | .yield x => Sys2Proof.Machine.execYield x s
  | .yieldExpiry x => Sys2Proof.Machine.execYieldExpiry x s
  | .spawn x => Sys2Proof.Machine.execSpawn x s
  | .callat x => Sys2Proof.Machine.execCallat x s
  | .reply x => Sys2Proof.Machine.execReply x s
  | .fork x => Sys2Proof.Machine.execFork x s
  | .join x => Sys2Proof.Machine.execJoin x s
  | .messageActivationStart x => Sys2Proof.Machine.execMessageActivationStart x s
  | .timedQueueActivation x q => Sys2Proof.Machine.execTimedQueueActivation x q s
  | .taskSteal x => Sys2Proof.Machine.execTaskSteal x s
  | .vtset x => Sys2Proof.Machine.execVtset x s
  | .vtadv x => Sys2Proof.Machine.execVtadv x s
  | .igrp x => Sys2Proof.Machine.execIgrp x s
  | .ijoin x => Sys2Proof.Machine.execIjoin x s
  | .ileave x => Sys2Proof.Machine.execIleave x s
  | .ireg x => Sys2Proof.Machine.execIreg x s
  | .idrop x => Sys2Proof.Machine.execIdrop x s
  | .ist x => Sys2Proof.Machine.execIst x s
  | .ildS x => Sys2Proof.Machine.execIldS x s
  | .ildU x => Sys2Proof.Machine.execIldU x s
  | .instarReadComplete x => Sys2Proof.Machine.execInstarReadComplete x s
  | .iqry x => Sys2Proof.Machine.execIqry x s
  | .floorUpdate p g place => Sys2Proof.Machine.execFloorUpdate p g place s
  | .vld x => Sys2Proof.Machine.execVld x s
  | .vst x => Sys2Proof.Machine.execVst x s
  | .vldT x => Sys2Proof.Machine.execVldT x s
  | .vstT x => Sys2Proof.Machine.execVstT x s
  | .vmov x => Sys2Proof.Machine.execVmov x s
  | .vdup x => Sys2Proof.Machine.execVdup x s
  | .vins x => Sys2Proof.Machine.execVins x s
  | .vext x => Sys2Proof.Machine.execVext x s
  | .vadd x => Sys2Proof.Machine.execVadd x s
  | .vsub x => Sys2Proof.Machine.execVsub x s
  | .vmul x => Sys2Proof.Machine.execVmul x s
  | .vdiv x => Sys2Proof.Machine.execVdiv x s
  | .vsqrt x => Sys2Proof.Machine.execVsqrt x s
  | .vmin x => Sys2Proof.Machine.execVmin x s
  | .vmax x => Sys2Proof.Machine.execVmax x s
  | .vabs x => Sys2Proof.Machine.execVabs x s
  | .vneg x => Sys2Proof.Machine.execVneg x s
  | .vfma x => Sys2Proof.Machine.execVfma x s
  | .vfms x => Sys2Proof.Machine.execVfms x s
  | .vnma x => Sys2Proof.Machine.execVnma x s
  | .viadd x => Sys2Proof.Machine.execViadd x s
  | .visub x => Sys2Proof.Machine.execVisub x s
  | .vimul x => Sys2Proof.Machine.execVimul x s
  | .vishl x => Sys2Proof.Machine.execVishl x s
  | .vishr x => Sys2Proof.Machine.execVishr x s
  | .visar x => Sys2Proof.Machine.execVisar x s
  | .viand x => Sys2Proof.Machine.execViand x s
  | .vior x => Sys2Proof.Machine.execVior x s
  | .vixor x => Sys2Proof.Machine.execVixor x s
  | .vimin x => Sys2Proof.Machine.execVimin x s
  | .vimax x => Sys2Proof.Machine.execVimax x s
  | .vcmp x => Sys2Proof.Machine.execVcmp x s
  | .vsel x => Sys2Proof.Machine.execVsel x s
  | .vperm x => Sys2Proof.Machine.execVperm x s
  | .vred x => Sys2Proof.Machine.execVred x s
  | .vcvt x => Sys2Proof.Machine.execVcvt x s
  | .vexp2 x => Sys2Proof.Machine.execVexp2 x s
  | .vlog2 x => Sys2Proof.Machine.execVlog2 x s
  | .vrcp x => Sys2Proof.Machine.execVrcp x s
  | .vrsq x => Sys2Proof.Machine.execVrsq x s
  | .vqtbl x => Sys2Proof.Machine.execVqtbl x s
  | .vdot4 x => Sys2Proof.Machine.execVdot4 x s
  | .luf x => Sys2Proof.Machine.execLuf x s
  | .lus x => Sys2Proof.Machine.execLus x s
  | .vectorCommandStart x => Sys2Proof.Machine.execVectorCommandStart x s
  | .vectorCommandComplete x => Sys2Proof.Machine.execVectorCommandComplete x s
  | .guardedCommandDiscard x e => Sys2Proof.Machine.execGuardedCommandDiscard x e s
  | .cpy x => Sys2Proof.Machine.execCpy x s
  | .cpy2 x => Sys2Proof.Machine.execCpy2 x s
  | .cpyg x => Sys2Proof.Machine.execCpyg x s
  | .cpys x => Sys2Proof.Machine.execCpys x s
  | .cpypf x => Sys2Proof.Machine.execCpypf x s
  | .ttget x => Sys2Proof.Machine.execTtget x s
  | .ttset x => Sys2Proof.Machine.execTtset x s
  | .copyCommandStart x => Sys2Proof.Machine.execCopyCommandStart x s
  | .copyCommandComplete x => Sys2Proof.Machine.execCopyCommandComplete x s
  | .copyFault x => Sys2Proof.Machine.execCopyFault x s
  | .tcfg x => Sys2Proof.Machine.execTcfg x s
  | .tcfgr x => Sys2Proof.Machine.execTcfgr x s
  | .tld x => Sys2Proof.Machine.execTld x s
  | .tst x => Sys2Proof.Machine.execTst x s
  | .tzero x => Sys2Proof.Machine.execTzero x s
  | .mma x => Sys2Proof.Machine.execMma x s
  | .mzero x => Sys2Proof.Machine.execMzero x s
  | .msta x => Sys2Proof.Machine.execMsta x s
  | .mlda x => Sys2Proof.Machine.execMlda x s
  | .matrixGrant p octet => Sys2Proof.Machine.execMatrixGrant p octet s
  | .matrixCommandComplete x => Sys2Proof.Machine.execMatrixCommandComplete x s
  | .armenter x => Sys2Proof.Machine.execArmenter x s
  | .armatureSessionStart x => Sys2Proof.Machine.execArmatureSessionStart x s
  | .armstat x => Sys2Proof.Machine.execArmstat x s
  | .armatureBlockFetch x => Sys2Proof.Machine.execArmatureBlockFetch x s
  | .armatureFetchFault x => Sys2Proof.Machine.execArmatureFetchFault x s
  | .mmaT x => Sys2Proof.Machine.execMmaT x s
  | .scale x => Sys2Proof.Machine.execScale x s
  | .act x => Sys2Proof.Machine.execAct x s
  | .route x => Sys2Proof.Machine.execRoute x s
  | .recv x => Sys2Proof.Machine.execRecv x s
  | .reduce x => Sys2Proof.Machine.execReduce x s
  | .sync x => Sys2Proof.Machine.execSync x s
  | .callb x => Sys2Proof.Machine.execCallb x s
  | .retb x => Sys2Proof.Machine.execRetb x s
  | .branch x => Sys2Proof.Machine.execBranch x s
  | .nopb x => Sys2Proof.Machine.execNopb x s
  | .exit x => Sys2Proof.Machine.execExit x s
  | .chopen x => Sys2Proof.Machine.execChopen x s
  | .chclose x => Sys2Proof.Machine.execChclose x s
  | .chstep x => Sys2Proof.Machine.execChstep x s
  | .chmask x => Sys2Proof.Machine.execChmask x s
  | .chsave x => Sys2Proof.Machine.execChsave x s
  | .chload x => Sys2Proof.Machine.execChload x s
  | .chstat x => Sys2Proof.Machine.execChstat x s
  | .chiselCommandExecute p cluster => Sys2Proof.Machine.execChiselCommandExecute p cluster s
  | .smaxl x => Sys2Proof.Machine.execSmaxl x s
  | .swsum x => Sys2Proof.Machine.execSwsum x s
  | .sdraw x => Sys2Proof.Machine.execSdraw x s
  | .spick x => Sys2Proof.Machine.execSpick x s
  | .sgreedy x => Sys2Proof.Machine.execSgreedy x s
  | .movcRead x => Sys2Proof.Machine.execMovcRead x s
  | .movcWrite x => Sys2Proof.Machine.execMovcWrite x s
  | .eret x => Sys2Proof.Machine.execEret x s
  | .resume x => Sys2Proof.Machine.execResume x s
  | .resumeEnd x => Sys2Proof.Machine.execResumeEnd x s
  | .resumeReplay x => Sys2Proof.Machine.execResumeReplay x s
  | .rearm x => Sys2Proof.Machine.execRearm x s
  | .dropl x => Sys2Proof.Machine.execDropl x s
  | .xinv x => Sys2Proof.Machine.execXinv x s
  | .ckpt x => Sys2Proof.Machine.execCkpt x s
  | .halt x => Sys2Proof.Machine.execHalt x s
  | .wake x => Sys2Proof.Machine.execWake x s
  | .memoryErrorReport x addr => Sys2Proof.Machine.execMemoryErrorReport x addr s
  | .teamWatchdogExpiry p launch core => Sys2Proof.Machine.execTeamWatchdogExpiry p launch core s
  | .watchpointReport p n => Sys2Proof.Machine.execWatchpointReport p n s
  | .windowSpillFillDone x => Sys2Proof.Machine.execWindowSpillFillDone x s
  | .accessAccept x cached => Sys2Proof.Machine.execAccessAccept x cached s
  | .forward x id => Sys2Proof.Machine.execForward x id s
  | .postALoad x => Sys2Proof.Machine.execPostALoad x s
  | .postAStoreBufferEntry x => Sys2Proof.Machine.execPostAStoreBufferEntry x s
  | .deliver p n => Sys2Proof.Machine.execDeliver p n s
  | .perform p n => Sys2Proof.Machine.execPerform p n s
  | .respReturn p n => Sys2Proof.Machine.execRespReturn p n s
  | .remoteScratchpadRequest p n => Sys2Proof.Machine.execRemoteScratchpadRequest p n s
  | .rds m => Sys2Proof.Machine.execRds m s
  | .rdx m => Sys2Proof.Machine.execRdx m s
  | .upg m => Sys2Proof.Machine.execUpg m s
  | .wbd m => Sys2Proof.Machine.execWbd m s
  | .evc m => Sys2Proof.Machine.execEvc m s
  | .ncrd m => Sys2Proof.Machine.execNcrd m s
  | .ncwr m => Sys2Proof.Machine.execNcwr m s
  | .atm m => Sys2Proof.Machine.execAtm m s
  | .fwds m => Sys2Proof.Machine.execFwds m s
  | .fwdx m => Sys2Proof.Machine.execFwdx m s
  | .rcl m => Sys2Proof.Machine.execRcl m s
  | .inv m => Sys2Proof.Machine.execInv m s
  | .datas m => Sys2Proof.Machine.execDatas m s
  | .datae m => Sys2Proof.Machine.execDatae m s
  | .datam m => Sys2Proof.Machine.execDatam m s
  | .invack m => Sys2Proof.Machine.execInvack m s
  | .fwdack m => Sys2Proof.Machine.execFwdack m s
  | .rcldata m => Sys2Proof.Machine.execRcldata m s
  | .nak m => Sys2Proof.Machine.execNak m s
  | .cmpMessage m => Sys2Proof.Machine.execCmpMessage m s
  | .cocoonCut p => Sys2Proof.Machine.execCocoonCut p s
  | .cocoonCommit p => Sys2Proof.Machine.execCocoonCommit p s
  | .rollback p => Sys2Proof.Machine.execRollback p s
  | .urgentPreemption p => Sys2Proof.Machine.execUrgentPreemption p s
  | .quantumEnd node => Sys2Proof.Machine.execQuantumEnd node s
  | .switchWindowEnd node => Sys2Proof.Machine.execSwitchWindowEnd node s
  | .clusterFailure p cluster => Sys2Proof.Machine.execClusterFailure p cluster s
  | .launchPlacement p => Sys2Proof.Machine.execLaunchPlacement p s
  | .launchEnd p launch => Sys2Proof.Machine.execLaunchEnd p launch s
  | .migrationRun p => Sys2Proof.Machine.execMigrationRun p s
  | .lqprod vf v relaxed => Sys2Proof.Machine.execLqprod vf v relaxed s
  | .fbcons vf v relaxed => Sys2Proof.Machine.execFbcons vf v relaxed s
  | .dlcons vf v relaxed => Sys2Proof.Machine.execDlcons vf v relaxed s
  | .cqcons vf v relaxed => Sys2Proof.Machine.execCqcons vf v relaxed s
  | .wakedb vf v relaxed => Sys2Proof.Machine.execWakedb vf v relaxed s
  | .migrationGo vf v => Sys2Proof.Machine.execMigrationGo vf v s
  | .thermHaltedClear temp => Sys2Proof.Machine.execThermHaltedClear temp s
  | .load  => Sys2Proof.Machine.execLoad  s
  | .restart  => Sys2Proof.Machine.execRestart  s
  | .registerWrite vf num v => Sys2Proof.Machine.execRegisterWrite vf num v s
  | .hostMemoryAccess p x => Sys2Proof.Machine.execHostMemoryAccess p x s
  | .vfTeardown vf => Sys2Proof.Machine.execVfTeardown vf s
  | .amisinFlit port bytes => Sys2Proof.Machine.execAmisinFlit port bytes s
  | .bringUp fw rt recs => Sys2Proof.Machine.execBringUp fw rt recs s
  | .spdmRequest index => Sys2Proof.Machine.execSpdmRequest index s
  | .thermalAlarm temp => Sys2Proof.Machine.execThermalAlarm temp s
  | .protectiveHalt temp => Sys2Proof.Machine.execProtectiveHalt temp s
  | .waymaskChangeEffect vf => Sys2Proof.Machine.execWaymaskChangeEffect vf s
  | .recoveryLoadDone img => Sys2Proof.Machine.execRecoveryLoadDone img s
  | .jtagAccess rec => Sys2Proof.Machine.execJtagAccess rec s

end Sys2Proof.Machine
end

