-- ==== Sys2Proof/Machine/Issue.lean ====
section
/-! DEFINITION. Issuing (spec/01_machine.md R19 to R22, R37, spec/03_encoding.md R77, R82, R86): which slots may issue, the
fetch of an instruction's bytes, the checks in R86's order, and the instruction's meaning. -/

namespace Sys2Proof.Machine

/-! ### Which slot may issue (R19, R20) -/

/-- A Blocked slot whose instruction has not issued: nothing of it is with an agent that will answer. -/
def retries (l : PLive) (c n : Nat) (x : Slot) : Bool :=
  match x.wait with
  | .barrier | .message | .spawnReply | .store | .window | .yield _ | .rearm | .accept | .order => false
  | .armature => !x.arm && !(mget ({} : Core) l.cores c).armWait.any (·.slot == n)
  | .instar => x.ild.isNone
  | .chisel => !awaitsChisel l c n x
  | .none | .queueEmpty | .queueFull | .guard | .engineFull | .timeline | .phase | .memory | .ckpt _ | .halt | .xinv | .log
  | .synci | .replay => true
/-! ### Fetch (R77, R37, R122) -/

/-- What a fetch answers. -/
inductive Fetched (α : Type) where
  | ok (a : α) (s : State)
  | trap (t : Trap) (s : State)
  | wait

/-- A trap of a fetch. -/
def fetchTrap (cause bad : Nat) (level : Nat) (ncw : Bool) : Trap :=
  { cause := cause, bad := BitVec.ofNat 64 bad, kind := 3, level := level, ncw := ncw }
/-- A full instruction cache, 16 KiB of 128-byte lines (R5), gives up a line for a new one; which one the spec leaves open, and
the model takes the lowest: DESIGN CHOICE, log entry 63. -/
def icacheRoom (m : NMap (List Byte)) : NMap (List Byte) := if m.length < 128 then m else m.drop 1
/-- One line of instructions for a core: from the octet's cache, or read and cached. `low` is the lowest byte of the
instruction in the line. -/
def fetchLine (s : State) (p c line low : Nat) : Fetched (List Byte) :=
  match mfind? (s.octet p (octetOf c)).icache line with
  | some bs => .ok bs s
  | none =>
    let va := 128 * line
    match acceptVa s p c va .exec true with
    | (s, .error r) =>
      if r.wait then .wait else .trap (fetchTrap r.cause low r.level (inWindow (s.vf (s.part p).vf) va)) s
    | (s, .ok (l, win)) =>
      let e : Acc := { core := c, kind := .load 128 false, ea := BitVec.ofNat 64 va, leaf := l, place := virtualPlace s p c va win }
      if homeWaits s p e none || behindLock s p e.place line then .wait
      else if errorLine s p e none then
        if logged s p (l.pa / 128) then .wait else .trap (fetchTrap 0x3F low 0xFF false) s
      else
        let r := readAcc s p e none 128
        .ok r.2 (updOctet r.1 p (octetOf c) fun o => { o with icache := mput (icacheRoom o.icache) line r.2 })
/-- The twelve bytes of the instruction at a PC. -/
def fetchBytes (s : State) (p c : Nat) (pc : Word) : Fetched (List Byte) :=
  let a := pc.toNat
  if a % 4 ≠ 0 then .trap (badTarget pc) s
  else if a ≥ 2 ^ 55 then .trap (fetchTrap 0x08 a 0xFF false) s
  else
    match fetchLine s p c (a / 128) a with
    | .trap t s => .trap t s
    | .wait => .wait
    | .ok bs s =>
      let got := (bs.drop (a % 128)).take 12
      if a % 128 ≤ 116 then .ok got s
      else
        let next := a / 128 + 1
        if 128 * next ≥ 2 ^ 55 then .trap (fetchTrap 0x08 (128 * next) 0xFF false) s
        else
          match fetchLine s p c next (128 * next) with
          | .trap t s => .trap t s
          | .wait => .wait
          | .ok bs s => .ok (got ++ bs.take (12 - got.length)) s
/-- The bytes of the slot's next instruction, or the trap of its fetch, are there. -/
def fetchable (s : State) (a : At) : Bool :=
  match fetchBytes s a.p a.c (s.slotAt a.p a.c a.n).pc with
  | .wait => false
  | _ => true
/-- The slot is Ready, and nothing outside it holds its next instruction. -/
def slotMay (s : State) (a : At) : Bool :=
  let x := s.slotAt a.p a.c a.n
  x.st == .ready && x.pend.isNone && x.fillTo.isNone && !orderHold x && (x.report.isSome || fetchable s a)
/-- The slots of a core in the order of round robin; a slot under a delay, or with an extra turn to pass, comes last (R21, R82). -/
def issueOrder (k : Core) : List Nat :=
  let ns := (List.range 4).map fun i => (k.rr + i) % 4
  let late (n : Nat) : Bool := (mget ({} : Slot) k.slots n).hold != 0 || (mget ({} : Slot) k.slots n).skip
  ns.filter (fun n => !late n) ++ ns.filter late
/-- Instructions of other slots that may still issue before a Ready slot's own: five clks hold four of them (R21). -/
def slack (k : Core) (n : Nat) : Nat := 4 - (mget ({} : Slot) k.slots n).waited
/-- The slot that issues among the Ready ones, given in the order of round robin with the hints: the first, unless another would then
miss its bound; then the one with the least time left, so that no hint lets a slot miss it (R21, R82; log entry 85). -/
def pickSlot (k : Core) : List Nat → Option Nat
  | [] => none
  | n :: ns =>
    if [0, 1, 2, 3].all fun b => ns.countP (slack k · ≤ b) ≤ b then some n
    else some (ns.foldl (fun m i => if slack k i < slack k m then i else m) n)
/-- The slot is the one that its core issues from (R21). -/
def mayIssue (s : State) (a : At) : Bool :=
  let k := s.coreAt a.p a.c
  runs s a.p && (s.part a.p).hasCore a.c && !issuePaused s a.p &&
  pickSlot k ((issueOrder k).filter fun n => slotMay s { a with n := n }) == some a.n
/-- The lines of the instruction leave the octet's cache (R37, R122). -/
def dropInstr (s : State) (p c : Nat) (pc : Word) : State :=
  updOctet s p (octetOf c) fun o => { o with icache := mdel (mdel o.icache (pc.toNat / 128)) (pc.toNat / 128 + 1) }

/-! ### The checks and the instruction (R86, R398) -/

/-- A breakpoint stops the slot (R398, R389). -/
def breakpoint (f : VF) (x : Slot) : Bool :=
  (List.range 4).any fun n =>
    let b := mget 0 f.tbpc n
    b.getLsbD 0 && b.toNat / 4 == x.pc.toNat / 4 && mget 0 f.tbtask n == x.taskId

/-- H.DELAY and H.YIELD of a word (R82). -/
def wordHints (w : IWord) : Nat × Bool := ((fields w).delay.toNat, (fields w).yield == 1)
/-- The core's pointer, delays and passes after a slot's instruction has issued (R21, R82): a slot that the pointer has passed has had
its extra turn; the other Ready ones have waited for one more. -/
def countIssue (s : State) (a : At) (w : IWord) : State :=
  let h := wordHints w
  updCore s a.p a.c fun k => { k with
    rr := (a.n + 1) % 4,
    slots := k.slots.map fun e =>
      let turn (n : Nat) : Nat := (n + 4 - k.rr % 4) % 4
      if e.1 = a.n then (e.1, { e.2 with hold := h.1, skip := h.2, waited := 0 })
      else (e.1, { e.2 with
        hold := e.2.hold - 1, skip := e.2.skip && turn a.n < turn e.1,
        waited := if slotMay s { a with n := e.1 } then e.2.waited + 1 else 0 }) }

/-- The instruction of a word for a slot: checks 3 to 6 of R86 in order, breakpoints, the meaning. RESUME's check of its IMM field is
made in its meaning, so a breakpoint there comes first: DESIGN CHOICE, log entry 8. -/
noncomputable def runWord (s : State) (w : IWord) : Host.Outcome State Fault Refusal :=
  let r := decode w
  let trap (c : Nat) (bad : Word) : Host.Outcome State Fault Refusal := .next (takeTrap s s.cur { cause := c, bad := bad })
  match r with
  | .error .c01 => trap 0x01 0
  | _ =>
    if namesChisel w && s.variant == .s16 then trap 0x03 0
    else if isPrivileged w && s.cur.n != 3 then trap 0x04 0
    else
      match r with
      | .error _ => trap 0x02 0
      | .ok i => if breakpoint (s.vf s.myPart.vf) s.me then trap 0x30 (BitVec.allOnes 64) else exec i s
/-- Once an instruction has issued, the core's pointer moves; one that the slot is Blocked at has not issued. An instruction
that traps counts as issued; a trap of its fetch, or of a report that waits for it, does not. DESIGN CHOICE, log entry 66. -/
def afterIssue (a : At) (w : IWord) : Host.Outcome State Fault Refusal → Host.Outcome State Fault Refusal
  | .next t =>
    let x := t.slotAt a.p a.c a.n
    if x.st == .blocked && retries (t.part a.p).live a.c a.n x then .next t else .next (countIssue t a w)
  | o => o

/-- The slot's next instruction at the issue point. A report that waits for it traps there first (R322, R323). -/
noncomputable def tryIssue (s : State) (a : At) (refetch : Bool) : Host.Outcome State Fault Refusal :=
  let s := { s with cur := a }
  let x := s.me
  match x.report with
  | some (c, bad) => .next (takeTrap (updMe s fun x => { x with report := none }) a { cause := c, bad := bad, impr := true })
  | none =>
    match fetchBytes (if refetch then dropInstr s a.p a.c x.pc else s) a.p a.c x.pc with
    | .wait => .next s
    | .trap t s => .next (takeTrap s a t)
    | .ok bs s =>
      let w := wordOfBytes bs
      afterIssue a w (runWord s w)
/-- A slot issues its next instruction; with `stale` it still finds definitions as they were (R308, R313). -/
noncomputable def issueSlot (s : State) (a : At) (refetch stale : Bool) : Host.Outcome State Fault Refusal :=
  if !mayIssue s a then .next s
  else
    match tryIssue { s with stale := stale } a refetch with
    | .next t => .next { t with stale := false }
    | o => o

/-! ### Ready and Blocked (R19, R20) -/

/-- The slot that an attempt of its instruction leaves is Blocked at it as before, but for what it waits for: the attempt would do
nothing (a CKPT that has still to begin its cut, and an XINV its drop, would). -/
def sameBlock (x y : Slot) : Bool :=
  { y with wait := x.wait, delayed := x.delayed } == x &&
  (x.wait == y.wait || (match y.wait with
    | .ckpt _ | .xinv => false
    | _ => true))
/-- What an instruction that the slot is Blocked at waits for now, while it does not issue: its slot with that wait, and with a delay
that it counts (R36). None once it would issue. -/
noncomputable def stillBlocked (s : State) (a : At) : Option Slot :=
  let x := s.slotAt a.p a.c a.n
  match tryIssue s a false with
  | .next t =>
    let y := t.slotAt a.p a.c a.n
    if y.st == .blocked && retries (t.part a.p).live a.c a.n y && sameBlock x y then some { x with wait := y.wait, delayed := y.delayed }
    else none
  | _ => none
/-- A slot's state follows its condition (R20): Blocked while an access of its own holds issue (R289) or a window transfer of it is in
progress (R43), Ready again, with no further action, once what it waits for has come. -/
noncomputable def settleSlot (s : State) (a : At) : State :=
  let x := s.slotAt a.p a.c a.n
  let set (st : SlotState) (w : Wait) : State := updSlot s a.p a.c a.n fun x => { x with st := st, wait := w }
  match x.st with
  | .ready => if orderHold x then set .blocked .order else if x.fillTo.isSome then set .blocked .window else s
  | .blocked =>
    if orderHold x || x.pend.isSome || x.fillTo.isSome then s
    else if x.wait == .order then set .ready .none
    else if retries (s.part a.p).live a.c a.n x then
      match stillBlocked s a with
      | some y => updSlot s a.p a.c a.n fun _ => y
      | none => set .ready .none
    else s
  | .idle | .parked => s
/-- Every slot's state after a step. -/
noncomputable def settle (s : State) : State :=
  s.parts.foldl (fun s e => e.2.live.cores.foldl (fun s k => k.2.slots.foldl (fun s x => settleSlot s ⟨e.1, k.1, x.1⟩) s) s) s

end Sys2Proof.Machine
end

