-- ==== Sys2Proof/Machine/Auto.lean ====
section
/-! DEFINITION. What the machine does where the schedule `moves` names nothing: the first step, in a fixed order, that changes
the state. Every order of steps is some schedule; this one only lets a machine left alone go on. -/

namespace Sys2Proof.Machine

/-- One move of the schedule. -/
noncomputable def doMove (s : State) : Move → Host.Outcome State Fault Refusal
  | .issue p c n refetch stale => issueSlot s ⟨p, c, n⟩ refetch stale
  | .agent i => if i.isAgent then exec i s else .fault .notAnAgentStep
  | .create p x => .next (createPartition s p x)
  | .configure p ckptInt quantum => .next (configure s p ckptInt quantum)
  | .pstate p n => .next (commandPstate s p n)
  | .reserve base len => .next (reserveRange s base len)
  | .tier port size => .next (setTier s port size)
  | .corrected pa => .next (correctedError s pa)
  | .sliceError p cl line => .next (sliceError s p cl line)
  | .gate cl off => .next (gateCluster s cl off)
  | .refresh n on => .next (refreshStack s n on)
  | .enable v => .next (enableVf s v)
  | .post v w => .next { s with posted := s.posted ++ [(v, w)] }
  | .drain v => .next (drainPosted s v)
  | .barRead v off len => .next (barRead s v off len)
  | .barWrite v off bs => .next (barWrite s v off bs)
  | .sendFlit chip cls pay => .next (sendFlit s chip cls pay)
  | .ackFlits port upTo credits => .next (ackFlits s port upTo credits)

/-- Steps of a slot's accesses and window. -/
noncomputable def slotAgents (p c n : Nat) : List Instr :=
  let a : At := ⟨p, c, n⟩
  [.windowSpillFillDone a, .accessAccept a false, .postALoad ⟨a, 0⟩, .postAStoreBufferEntry ⟨a, 0⟩, .instarReadComplete a]
/-- The numbers of the pieces that an engine's running command may post. -/
def pieceNumbers (k : Core) (e : Engine) : List Nat :=
  match (getQ k e).run with
  | none => []
  | some r => match r.cmd.op with
    | .copy x => x.nearUnits ++ List.range (x.srcLen + x.dstLen + 2 * x.elems + 2)
    | .samp _ _ _ _ n moff _ => List.range (n + maskLen n moff)
    | .tld _ _ | .tst _ _ => List.range 64
    | .mlda _ _ | .msta _ _ => List.range 128
    | _ => [0]
/-- Posts of a core's engines, and of its cluster's chisel unit. -/
noncomputable def engineAgents (p c : Nat) (k : Core) : List Instr :=
  ([(Engine.vector, portVector), (Engine.copy, portCopy), (Engine.matrix, portMatrix)].map fun e =>
    ((pieceNumbers k e.1).map fun i =>
      [Instr.postALoad ⟨⟨p, c, e.2⟩, i⟩, Instr.postAStoreBufferEntry ⟨⟨p, c, e.2⟩, i⟩]).flatten).flatten ++
  [.postAStoreBufferEntry ⟨⟨p, c, portChisel⟩, 0⟩]
/-- Steps of a core's engines and sequencer. -/
noncomputable def coreAgents (p c : Nat) (k : Core) : List Instr :=
  let a : CoreAt := ⟨p, c⟩
  engineAgents p c k ++
  [.vectorCommandComplete a, .copyCommandComplete a, .matrixCommandComplete a,
   .guardedCommandDiscard a .vector, .guardedCommandDiscard a .copy, .guardedCommandDiscard a .matrix,
   .vectorCommandStart a, .copyCommandStart a, .matrixGrant p (octetOf c),
   .armatureSessionStart a, .armatureBlockFetch ⟨a, nextUnit (if k.arm.fetched.isSome then k.arm.ahead else k.arm.reading)⟩,
   .armatureFetchFault a, .mmaT a, .scale a, .act a, .route a, .recv a,
   .reduce a, .sync a, .callb a, .retb a, .branch a, .nopb a, .exit a, .chiselCommandExecute p (clusterOf c)] ++
  (pieceNumbers k .copy).map fun i => .copyFault ⟨a, i⟩
/-- The line that a die's filter evicts for another (R365): the first of its set that may leave. -/
noncomputable def victimOf (s : State) (p line die : Nat) : Option Nat :=
  if filterRoom s p line die then none
  else
    let l := (s.part p).live
    ((setEntries l line die).map (· / 32768)).find? fun v =>
      v != line && !(dieCopies l v die).isEmpty && !dieHeld l v die
/-- The step of a coherence message's receiver. -/
noncomputable def snoopAgent (m : CohMsg) : SnoopKind → Instr
  | .rds => .rds m
  | .rdx => .rdx m
  | .upg => .upg m
  | .ncrd => .ncrd m
  | .ncwr => .ncwr m
  | .atm => .atm m
  | .wbd => .wbd m
  | .evc => .evc m
  | .fwds => .fwds m
  | .fwdx => .fwdx m
  | .rcl => .rcl m
  | .inv => .inv m
  | .datas => .datas m
  | .datae => .datae m
  | .datam => .datam m
  | .invack => .invack m
  | .fwdack => .fwdack m
  | .rcldata => .rcldata m
  | .nak => .nak m
  | .cmp => .cmpMessage m
/-- The request that a delivered access of a caching core needs (R367), after a line that its full L1 gives up. -/
noncomputable def wantsLine (p : Nat) (l : PLive) (e : Acc) : List Instr :=
  match e.caches with
  | none => []
  | some c =>
    let line := e.off / 128
    let k := mget ({} : Core) l.cores c
    let m : CohMsg := { p := p, line := line, die := dieOf c, core := c }
    match mfind? k.l1 line with
    | some x => if e.kind.isLoad || x.st == .e || x.st == .m then [] else [.upg m]
    | none =>
      (if l1Lines l c < 16 then []
       else k.l1.map fun f => if f.2.dirty then .wbd { m with line := f.1 } else .evc { m with line := f.1 }) ++
      [if e.kind.isLoad then .rds m else .rdx m]
/-- Steps of the coherence machinery: messages under way, requests of delivered accesses, cut-dirty lines (R370). -/
noncomputable def cohAgents (s : State) (p : Nat) (l : PLive) : List Instr :=
  l.snoop.map (fun m => snoopAgent
    { p := p, line := m.line, die := m.die, core := m.core, victim := victimOf s p m.line m.die } m.kind) ++
  (l.delivered.map (wantsLine p l)).flatten ++
  (l.cores.map fun e => (e.2.l1.filter fun f => f.2.cutDirty).map fun f =>
    Instr.wbd { p := p, line := f.1, die := dieOf e.1, core := e.1 }).flatten
/-- Steps of the memory system, of barriers, of the floor and of launches. -/
noncomputable def partAgents (s : State) (p : Nat) (clusters : List Nat) (l : PLive) : List Instr :=
  let up (n : Nat) : List Nat := List.range n
  (up l.chans.length).map (.deliver p ·) ++ (up l.delivered.length).map (.remoteScratchpadRequest p ·) ++
  (up l.delivered.length).map (.perform p ·) ++ cohAgents s p l ++ (up l.resps.length).map (.respReturn p ·) ++
  l.hphases.map (fun h => .hbarPhaseComplete p h.level h.inst) ++
  (l.groups.map fun g => (g.2.members.map fun m => Instr.floorUpdate p g.1 (coreView m.core)) ++
    clusters.map fun cl => Instr.floorUpdate p g.1 (homeView cl)).flatten ++
  l.launches.map (fun j => .launchEnd p j.id)
/-- Starts of activations. -/
noncomputable def startAgents (p c : Nat) : List Instr :=
  ([0, 1, 2].map fun n =>
    let a : At := ⟨p, c, n⟩
    Instr.messageActivationStart a :: (List.range 15).map (Instr.timedQueueActivation a ·) ++ [Instr.taskSteal a]).flatten
/-- A cut has something to do: records to apply, effects to release, launches to end. -/
def wantsCut (s : State) (p : Nat) : Bool :=
  let x := s.part p
  x.cut != .none || !x.egress.isEmpty || x.migWait || x.pstateNext.isSome || x.live.launches.any (·.error.isSome) ||
  x.records.any (launchReady s p)
/-- The moves that a partition may make, in order. -/
noncomputable def partMoves (s : State) (p : Nat) : List Move :=
  let l := (s.part p).live
  let cs := l.cores.map (·.1)
  let agents : List Instr :=
    (l.cores.map fun e => ((List.range 4).map (slotAgents p e.1)).flatten ++ coreAgents p e.1 e.2).flatten ++
    partAgents s p (s.part p).clusters l ++
    (cs.map (startAgents p)).flatten ++ [.watchpointReport p 0, .launchPlacement p, .migrationRun p] ++
    (if wantsCut s p then [.cocoonCut p, .cocoonCommit p] else [])
  agents.map .agent ++
  (l.cores.map fun e => (issueOrder e.2).map fun n => Move.issue p e.1 n false false).flatten ++
  (cs.map fun c => (List.range 4).map fun n => Move.agent (.yieldExpiry ⟨p, c, n⟩)).flatten
/-- The first move that changes the machine: more than which slot `cur` names. -/
noncomputable def firstMove (s : State) : List Move → Host.Outcome State Fault Refusal
  | [] => .next s
  | m :: ms =>
    match doMove s m with
    | .next t => if { t with cur := s.cur } = s then firstMove s ms else .next t
    | o => o
/-- The step of a machine whose schedule is empty. -/
noncomputable def autoMove (s : State) : Host.Outcome State Fault Refusal :=
  firstMove s (s.posted.map (fun e => .drain e.1) ++ (s.parts.map fun e => partMoves s e.1).flatten)

/-! ### The patina trace (R397) -/

/-- A record for each user slot whose state (R19) changed in a partition that both states have. -/
def patinaCore (s t : State) (p c : Nat) (u : State) : State :=
  [0, 1, 2].foldl (fun u n =>
    if (s.slotAt p c n).st = (t.slotAt p c n).st then u else patinaSlot u ⟨p, c, n⟩ 0) u
def patinaTrace (s t : State) : State :=
  t.parts.foldl (fun u e =>
    if (mfind? s.parts e.1).isSome && ringSize (t.vf e.2.vf).ptrace ≠ 0 then
      e.2.live.cores.foldl (fun u k => patinaCore s t e.1 k.1 u) u
    else u) t

/-! ### Laying an instruction where the next step fetches it -/

/-- The page tables that map page 0 of a function to physical page 4, with R, W, X, A and D (R344, R345). -/
def fetchTables (m : Bytes) : Bytes :=
  putBytes (putBytes (putBytes m 0x10000 (leBytes 8 0x20001)) 0x20000 (leBytes 8 0x30001)) 0x30000 (leBytes 8 0x401F3)
/-- The slot that runs a placed word: slot 3 for a privileged one, else slot 0. -/
def fetchSlot (w : IWord) : Nat := if isPrivileged w then 3 else 0
/-- The machine with a word at address 0 of partition 0, whose core 0 issues it next. -/
def placeWord (s : State) (w : IWord) : State :=
  let n := fetchSlot w
  let x := s.part 0
  let k := s.coreAt 0 0
  let slot : Slot := { s.slotAt 0 0 n with
    st := .ready, pc := 0, wait := .none, pend := none, fillTo := none, report := none, lq := [], sb := [], unacked := [],
    hold := 0, skip := false }
  let x : Part := { x with
    clusters := if x.clusters.contains 0 then x.clusters else 0 :: x.clusters, scheduled := true, stopped := false,
    cut := .none, tlb := [],
    live := { x.live with
      cores := mput x.live.cores 0 { k with
        rr := n, slots := mput (k.slots.map fun e => (e.1, { e.2 with waited := 0 })) n { slot with waited := 0 } },
      octets := mput x.live.octets 0 { s.octet 0 0 with icache := mdel (s.octet 0 0).icache 0 } } }
  { s with
    halted := false,
    parts := mput s.parts 0 x,
    vfs := mput s.vfs x.vf { s.vf x.vf with ptroot := 0x10001 },
    mem := putBytes (fetchTables s.mem) 0x40000 (bytesOfWord w),
    moves := .issue 0 0 n false false :: s.moves }

end Sys2Proof.Machine
end

