-- ==== Sys2Proof/Machine/Step.lean ====
section
/-! DEFINITION. The step: the next move of the schedule, or where it is empty the machine's own next step; and the records of
the patina trace. -/

namespace Sys2Proof.Machine

/-- What the schedule says next. -/
noncomputable def nextMove (s : State) : Host.Outcome State Fault Refusal :=
  match s.moves with
  | m :: rest => doMove { s with moves := rest } m
  | [] => autoMove s
/-- One step of the machine; then partitions whose log or egress buffer is full enough begin their cuts (R335), and slots are
Ready or Blocked as their conditions are (R20). -/
noncomputable def step (s : State) : Host.Outcome State Fault Refusal :=
  match nextMove s with
  | .next t => .next (patinaTrace s (settle (t.parts.foldl (fun t e => earlyCut t e.1) t)))
  | o => o

/-- The host's entry: the instruction of the table's row whose bits are w, laid where the next step fetches. -/
def State.withFetchWord (s : State) (_nbits w : Nat) : State := placeWord s (BitVec.ofNat 96 w)

end Sys2Proof.Machine
end

