-- ==== Sys2Proof/Safety.lean ====
section
/-! DEFINITION. The terms in which claims are stated: the invariant that every step keeps, when an instruction issues, and
what it may change. Each structure says what a state holds through the machine's reads, not through its updates. -/

namespace Sys2Proof.Safety

open Sys2Proof.Machine

/-! ### The invariant -/

/-- Memory and host memory keep their canonical form: addresses rising, no listed byte equal to what an unlisted one reads
as. -/
def memoryWf (s : State) : Prop := Memory.wf s.mem = true ∧ Memory.wf s.hostMem = true

/-- A step that goes on from a state keeps a property of states. -/
def keeps (inv : State → Prop) : Prop := ∀ s t, inv s → step s = .next t → inv t

/-! ### When an instruction issues -/

/-- The issuing slot stands in a partition. -/
def Here (s : State) : Prop := (mfind? s.parts s.cur.p).isSome = true

/-- An instruction issues (R20, R32, R81): its guard is true, no register it names awaits a memory response, every queue
register it reads has its entries and every one it writes has room. -/
def Ready (s : State) (c : Ctl) (srcs dsts : List SOp) (ps : List PReg) : Prop :=
  Here s ∧ guardNow s.me c = some true ∧ hazard s.me srcs dsts ps = none

/-- The value of source i (R32, R88): a register, or the next entry of a queue register that earlier sources have not
taken. -/
def sourceValue (x : Slot) (srcs : List SOp) (i : Nat) : Word :=
  match srcs[i]? with
  | some (.s n) => readReg x n.toNat
  | some (.q n) => (queueOf x n.toNat).getD ((srcs.take i).count (.q n)) 0
  | none => 0

/-- The state in which an instruction's sources are taken. -/
def taken (s : State) (srcs : List SOp) : State := updMe s fun _ => (takeSources s.me srcs).2

/-! ### What an instruction changes -/

/-- Nothing changes but the issuing slot: no byte of memory or of a scratchpad, no other slot, no register of core scope. -/
structure OnlySlot (s t : State) : Prop where
  only : t = updMe s fun _ => t.me
  memory : ∀ a, physRead t a 1 = physRead s a 1
  scratchpad : ∀ p c off, spadRead t p c off 1 = spadRead s p c off 1

/-- The slot is Ready at `pc`, its instruction done (R77, R36, R32): its queue-register sources have been popped in order,
`pushed` has been pushed, and one loss of decoupling has been counted if the instruction was delayed. -/
structure WentTo (x y : Slot) (pc : Word) (srcs : List SOp) (pushed : SOp → List Word) : Prop where
  pc : y.pc = pc
  st : y.st = .ready
  wait : y.wait = .none
  lodcnt : y.lodcnt = x.lodcnt + if x.delayed then 1 else 0
  queues : ∀ q : QReg, queueOf y q.toNat = (queueOf x q.toNat).drop (srcs.count (.q q)) ++ pushed (.q q)

/-- Beyond what WentTo says, a scalar instruction may change registers, predicates and FSTAT, and nothing else of its slot. -/
def KeepsRest (x y : Slot) : Prop :=
  y = { x with
    pc := y.pc, st := y.st, wait := y.wait, delayed := y.delayed, popped := y.popped, ist := y.ist, ild := y.ild,
    joinRead := y.joinRead, replayNum := y.replayNum, lodcnt := y.lodcnt, queues := y.queues, regs := y.regs,
    wregs := y.wregs, preds := y.preds, fstat := y.fstat }

/-- Register n of the slot is a register that a write reaches: not s0, and inside the frame (R39, R40). -/
def writable (x : Slot) (n : Nat) : Bool := n != 0 && n < 16 + x.frame

/-- An instruction took its sources, wrote v to a scalar destination and ORed flags into FSTAT, and did nothing else (R32,
R39, R40, R56, R88). -/
structure Wrote (s t : State) (srcs : List SOp) (d : SOp) (v : Word) (fl : Flags) : Prop extends OnlySlot s t where
  on : WentTo s.me t.me (s.me.pc + 12) srcs fun o => if o = d then [v] else []
  rest : KeepsRest s.me t.me
  registers : ∀ n : BitVec 6, readReg t.me n.toNat = if d = .s n ∧ writable s.me n.toNat then v else readReg s.me n.toNat
  callers : ∀ pos, pos < s.me.wbase ∨ s.me.wbase + s.me.frame ≤ pos → mget 0 t.me.wregs pos = mget 0 s.me.wregs pos
  predicates : t.me.preds = s.me.preds
  fstat : t.me.fstat = s.me.fstat ||| fl.setWidth 64

/-- An instruction took its sources, gave predicates the values `f` (p7 reads true, R79) and ORed flags into FSTAT, and did
nothing else. -/
structure WrotePreds (s t : State) (srcs : List SOp) (f : PReg → Bool) (fl : Flags) : Prop extends OnlySlot s t where
  on : WentTo s.me t.me (s.me.pc + 12) srcs fun _ => []
  rest : KeepsRest s.me t.me
  registers : t.me.regs = s.me.regs ∧ t.me.wregs = s.me.wregs
  predicates : ∀ q, readP t.me q = if q = 7 then true else f q
  fstat : t.me.fstat = s.me.fstat ||| fl.setWidth 64

/-- An instruction took its sources and control went to a target: nothing else changed (R87). -/
structure Jumped (s t : State) (srcs : List SOp) (target : Word) : Prop extends OnlySlot s t where
  on : WentTo s.me t.me target srcs fun _ => []
  rest : KeepsRest s.me t.me
  registers : t.me.regs = s.me.regs ∧ t.me.wregs = s.me.wregs
  predicates : t.me.preds = s.me.preds
  fstat : t.me.fstat = s.me.fstat

/-- A trap is taken at the issuing slot (R322, R22, R325): CAUSE, BADADDR and EPC are recorded. A user slot is Parked and awaits
service. Slot 3 goes to TVEC with INTRAP set; had INTRAP been set, it is Parked and its partition stops. Registers,
predicates and queues stay as they were. -/
structure Trapped (s t : State) (cause : Nat) (bad : Word) : Prop where
  cause : t.me.cause = BitVec.ofNat 64 cause
  badaddr : t.me.badaddr = bad
  epc : t.me.epc = s.me.pc
  user : s.cur.n ≠ 3 → t.me.st = .parked ∧ t.me.svc = true ∧ t.me.pc = s.me.pc ∧ t.me.intrap = s.me.intrap
  first : s.cur.n = 3 → s.me.intrap = false → t.me.st = .ready ∧ t.me.intrap = true ∧ t.me.pc = s.mine.tvec
  second : s.cur.n = 3 → s.me.intrap = true → t.me.st = .parked ∧ t.myPart.stopped = true ∧
    t.myPart.doubleFaults = s.myPart.doubleFaults + 1
  running : ¬(s.cur.n = 3 ∧ s.me.intrap = true) → t.myPart.stopped = s.myPart.stopped
  registers : (∀ n, readReg t.me n = readReg s.me n) ∧ t.me.preds = s.me.preds ∧ t.me.queues = s.me.queues ∧
    t.me.fstat = s.me.fstat
  memory : ∀ a, physRead t a 1 = physRead s a 1

/-- One predicate changes. -/
def onePred (x : Slot) (p : PReg) (b : Bool) : PReg → Bool := fun q => if q = p then b else readP x q

end Sys2Proof.Safety
end

