-- ==== Sys2Proof/Certificates/Slice0/Obligations.lean ====
section
/-! DEFINITION. The statements about the machine that the provers prove, and the terms they are stated in: the operations of
the spec's tables, written from the tables' words and not from the meanings. -/

namespace Sys2Proof.Claims

open Sys2Proof Sys2Proof.Machine Sys2Proof.Safety

/-! ### Integer instructions (R95 to R98) -/

/-- The mnemonics of R96. -/
inductive IntName where
  | add | sub | mul | mulhi | mulhn | div | divn | rem | remn | and | or | xor | andn | orn | shl | shr | sar | rol | ror
  | min | minn | max | maxn
  deriving DecidableEq, Repr

/-- The register form. -/
def IntName.reg : IntName → Alu3 → Instr
  | .add => .add | .sub => .sub | .mul => .mul | .mulhi => .mulhi | .mulhn => .mulhn | .div => .div | .divn => .divn
  | .rem => .rem | .remn => .remn | .and => .and | .or => .or | .xor => .xor | .andn => .andn | .orn => .orn
  | .shl => .shl | .shr => .shr | .sar => .sar | .rol => .rol | .ror => .ror | .min => .min | .minn => .minn
  | .max => .max | .maxn => .maxn
/-- The immediate form. -/
def IntName.imm : IntName → AluI → Instr
  | .add => .addImm | .sub => .subImm | .mul => .mulImm | .mulhi => .mulhiImm | .mulhn => .mulhnImm | .div => .divImm
  | .divn => .divnImm | .rem => .remImm | .remn => .remnImm | .and => .andImm | .or => .orImm | .xor => .xorImm
  | .andn => .andnImm | .orn => .ornImm | .shl => .shlImm | .shr => .shrImm | .sar => .sarImm | .rol => .rolImm
  | .ror => .rorImm | .min => .minImm | .minn => .minnImm | .max => .maxImm | .maxn => .maxnImm
/-- ExtImm is Zext64 for MULHN, DIVN, REMN, MINN and MAXN (R96). -/
def IntName.zeroExtends : IntName → Bool
  | .mulhn | .divn | .remn | .minn | .maxn => true
  | _ => false
/-- The immediate as an operand. -/
def IntName.operand (k : IntName) (imm : BitVec 32) : Word := if k.zeroExtends then imm.setWidth 64 else imm.signExtend 64

/-- v is the result of R96 at width w (with R50's division corners). -/
def IntName.gives (k : IntName) {w : Nat} (a b v : BitVec w) : Prop :=
  match k with
  | .add => v.toNat = (a.toNat + b.toNat) % 2 ^ w
  | .sub => (v.toNat : Int) = ((a.toNat : Int) - b.toNat) % (2 ^ w : Nat)
  | .mul => v.toNat = a.toNat * b.toNat % 2 ^ w
  | .mulhi => v.toInt = a.toInt * b.toInt / (2 ^ w : Nat)
  | .mulhn => v.toNat = a.toNat * b.toNat / 2 ^ w
  | .div =>
    if b.toNat = 0 then v = BitVec.allOnes w
    else if a = BitVec.intMin w ∧ b = BitVec.allOnes w then v = a else v.toInt = a.toInt.tdiv b.toInt
  | .divn => if b.toNat = 0 then v = BitVec.allOnes w else v.toNat = a.toNat / b.toNat
  | .rem => if b.toNat = 0 then v = a else v.toInt = a.toInt.tmod b.toInt
  | .remn => if b.toNat = 0 then v = a else v.toNat = a.toNat % b.toNat
  | .and => ∀ i < w, v.getLsbD i = (a.getLsbD i && b.getLsbD i)
  | .or => ∀ i < w, v.getLsbD i = (a.getLsbD i || b.getLsbD i)
  | .xor => ∀ i < w, v.getLsbD i = (a.getLsbD i != b.getLsbD i)
  | .andn => ∀ i < w, v.getLsbD i = (a.getLsbD i && !b.getLsbD i)
  | .orn => ∀ i < w, v.getLsbD i = (a.getLsbD i || !b.getLsbD i)
  | .shl => v.toNat = a.toNat * 2 ^ (b.toNat % w) % 2 ^ w
  | .shr => v.toNat = a.toNat / 2 ^ (b.toNat % w)
  | .sar => v.toInt = a.toInt / (2 ^ (b.toNat % w) : Nat)
  | .rol => ∀ i < w, v.getLsbD ((i + b.toNat % w) % w) = a.getLsbD i
  | .ror => ∀ i < w, v.getLsbD i = a.getLsbD ((i + b.toNat % w) % w)
  | .min => v.toInt = Min.min a.toInt b.toInt
  | .minn => v.toNat = Min.min a.toNat b.toNat
  | .max => v.toInt = Max.max a.toInt b.toInt
  | .maxn => v.toNat = Max.max a.toNat b.toNat

/-- The 64-bit form, or R97's 32-bit form: bits [31:0] of each operand, a 32-bit result, sign-extended. -/
def atWidth (w32 : Bool) (gives : {w : Nat} → BitVec w → BitVec w → BitVec w → Prop) (a b r : Word) : Prop :=
  if w32 then ∃ v : BitVec 32, gives (a.setWidth 32) (b.setWidth 32) v ∧ r = v.signExtend 64 else gives a b r

/-- The unary mnemonics of R98 with two widths. -/
inductive UnName where
  | clz | ctz | popc | brev | bswap | abs | neg
  deriving DecidableEq, Repr
def UnName.instr : UnName → Un → Instr
  | .clz => .clz | .ctz => .ctz | .popc => .popc | .brev => .brev | .bswap => .bswap | .abs => .abs | .neg => .neg
/-- v is the result of R98 at width w. -/
def UnName.gives (k : UnName) {w : Nat} (a _b v : BitVec w) : Prop :=
  match k with
  | .clz => v.toNat ≤ w ∧ (∀ i < w, w ≤ i + v.toNat → a.getLsbD i = false) ∧
      (v.toNat < w → a.getLsbD (w - 1 - v.toNat) = true)
  | .ctz => v.toNat ≤ w ∧ (∀ i < v.toNat, a.getLsbD i = false) ∧ (v.toNat < w → a.getLsbD v.toNat = true)
  | .popc => v.toNat = ((List.range w).filter a.getLsbD).length
  | .brev => ∀ i < w, v.getLsbD i = a.getLsbD (w - 1 - i)
  | .bswap => ∀ i < w / 8, v.extractLsb' (8 * i) 8 = a.extractLsb' (8 * (w / 8 - 1 - i)) 8
  | .abs => if a = BitVec.intMin w then v = a else v.toInt = |a.toInt|
  | .neg => (v.toNat : Int) = (0 - (a.toNat : Int)) % (2 ^ w : Nat)

/-- SEXT and ZEXT of R98: the mnemonic, the bits taken, and whether they are sign-extended. -/
def extensions : List ((DA → Instr) × Nat × Bool) :=
  [(.sextI8, 8, true), (.sextI16, 16, true), (.sextI32, 32, true), (.zextN8, 8, false), (.zextN16, 16, false),
   (.zextN32, 32, false)]

/-- The conditions of R101 and their codes' orders; true for an unsigned one. -/
def ICond.unsigned : ICond → Bool
  | .ltn | .len | .gtn | .gen => true
  | _ => false
/-- The condition holds of a and b at width w. -/
def condHolds (c : ICond) {w : Nat} (a b : BitVec w) : Prop :=
  match c with
  | .eq => a = b
  | .ne => a ≠ b
  | .lt => a.toInt < b.toInt
  | .le => a.toInt ≤ b.toInt
  | .gt => a.toInt > b.toInt
  | .ge => a.toInt ≥ b.toInt
  | .ltn => a.toNat < b.toNat
  | .len => a.toNat ≤ b.toNat
  | .gtn => a.toNat > b.toNat
  | .gen => a.toNat ≥ b.toNat
def condAt (w32 : Bool) (c : ICond) (a b : Word) : Prop :=
  if w32 then condHolds c (a.setWidth 32) (b.setWidth 32) else condHolds c a b

/-- The predicate logic of R102: two sources, and one. -/
def logic3 : List ((P3 → Instr) × (Bool → Bool → Bool)) :=
  [(.pand, and), (.por, or), (.pxor, xor), (.pandn, fun a b => a && !b)]
def logic2 : List ((P2 → Instr) × (Bool → Bool)) := [(.pnot, not), (.pmov, id)]

/-! ### Floating point (R107 to R112) -/

/-- The rounded two-operand forms of R108, with the operation of "Numbers" each performs. -/
def fp2Forms : List ((F2 → Instr) × (Fmt → RMode → Nat → Nat → Nat × Flags)) :=
  [(.fadd, Fmt.add), (.fsub, Fmt.sub), (.fmul, Fmt.mul), (.fdiv, Fmt.div)]
/-- The fused forms of R109: the sign of the product and of the addend. -/
def fp3Forms : List ((F3 → Instr) × Bool × Bool) := [(.ffma, false, false), (.ffms, false, true), (.fnma, true, false)]
def signed (neg : Bool) (v : FV) : FV := if neg then v.negate else v
/-- The format's bits of a register (R107). -/
def operandBits (is64 : Bool) (v : Word) : Nat := v.toNat % 2 ^ (if is64 then 64 else 32)
def formatOf (is64 : Bool) : Fmt := if is64 then Machine.f64 else Machine.f32
/-- The rounding mode of a code, code 7 taken from FSTAT.RM at issue (R54, R57). -/
def roundingOf (x : Slot) (r : Rnd) : RMode :=
  let dyn : RMode := ([RMode.rne, .rz, .ru, .rd][x.fstat.toNat / 2 ^ 8 % 8]?).getD .rna
  match r with
  | .rne => .rne
  | .rz => .rz
  | .ru => .ru
  | .rd => .rd
  | .rna => .rna
  | .sr => .sr 0
  | .dyn => dyn

/-- An encoding is a NaN, and a signalling one. -/
abbrev isNaN (f : Fmt) (a : Nat) : Prop := (f.read a).isNan = true
abbrev isSignalling (f : Fmt) (a : Nat) : Prop := f.read a = .nan true
/-- A result that follows R52 for the sign operations of R108: a NaN operand gives the canonical NaN, with NV where it is
signalling; else only the sign bit is that of `neg`. -/
def signResult (f : Fmt) (a : Nat) (neg : Bool) (r : Nat × Flags) : Prop :=
  (isNaN f a → r.1 = f.nan ∧ (r.2 = if f.read a = .nan true then fNV else 0)) ∧
  (¬isNaN f a → r.2 = 0 ∧ r.1 % 2 ^ (f.e + f.m) = a % 2 ^ (f.e + f.m) ∧ r.1 / 2 ^ (f.e + f.m) = if neg then 1 else 0)
/-- The sign bit of an encoding. -/
def signBit (f : Fmt) (a : Nat) : Bool := a.testBit (f.e + f.m)
/-- minimumNumber and maximumNumber (R53): a NaN is passed over, and −0 is below +0. -/
def extremum (f : Fmt) (isMax : Bool) (a b : Nat) (r : Nat × Flags) : Prop :=
  (r.2 = if f.read a = .nan true ∨ f.read b = .nan true then fNV else 0) ∧
  (isNaN f a → isNaN f b → r.1 = f.nan) ∧ (isNaN f a → ¬isNaN f b → r.1 = b) ∧ (¬isNaN f a → isNaN f b → r.1 = a) ∧
  (¬isNaN f a → ¬isNaN f b → (r.1 = a ∨ r.1 = b) ∧
    ((f.read a).lt (f.read b) = true → r.1 = if isMax then b else a) ∧
    ((f.read b).lt (f.read a) = true → r.1 = if isMax then a else b) ∧
    (∀ e e', f.read a = .fin true 0 e → f.read b = .fin false 0 e' → r.1 = if isMax then b else a) ∧
    (∀ e e', f.read a = .fin false 0 e → f.read b = .fin true 0 e' → r.1 = if isMax then a else b))

/-! ### Control (R87, R113 to R118) -/

/-- PC + 12 × Sext64(IMM), modulo 2^64 (R87). -/
def codeTarget (pc : Word) (off : BitVec 32) : Word := BitVec.ofInt 64 (pc.toNat + 12 * off.toInt)
/-- ReadS(A) + Sext64(IMM), modulo 2^64 (R114). -/
def baseTarget (a : Word) (off : BitVec 32) : Word := BitVec.ofInt 64 (a.toNat + off.toInt)

/-- Frames are of the sizes of R40. -/
def frameOk (n : Nat) : Prop := n = 16 ∨ n = 24 ∨ n = 32 ∨ n = 40 ∨ n = 48

/-- Nothing that a window move writes or drops, at positions lo to hi - 1, awaits a memory response (R20). -/
def windowFree (x : Slot) (lo hi : Nat) : Prop := winBusy x lo hi = false

/-- The slot goes on at once, or is Blocked until its window transfer is done (R43). -/
def settled (y : Slot) : Prop :=
  match y.fillTo with
  | none => y.st = .ready ∧ y.wait = .none
  | some _ => y.st = .blocked ∧ y.wait = .window

/-- Control entered a function by the four steps of R41, with a return address. -/
structure Called (s t : State) (srcs : List SOp) (target ret : Word) : Prop extends OnlySlot s t where
  pc : t.me.pc = target
  settled : settled t.me
  base : t.me.wbase = s.me.wbase + (s.me.frame - 8)
  frame : t.me.frame = 16
  depth : t.me.frames = ⟨s.me.frame, none⟩ :: s.me.frames
  arguments : ∀ i < 7, readReg t.me (16 + i) = readReg s.me (8 + s.me.frame + i)
  returnAddress : readReg t.me 23 = ret
  fresh : ∀ i < 8, readReg t.me (24 + i) = 0
  globals : ∀ n < 16, readReg t.me n = readReg s.me n
  callers : ∀ pos < t.me.wbase, mget 0 t.me.wregs pos = mget 0 s.me.wregs pos
  spilled : t.me.spilled = s.me.spilled ∧ t.me.fillTo =
    if spillNeed s.me (t.me.wbase + 16) = s.me.spilled then none else some (spillNeed s.me (t.me.wbase + 16))
  queues : ∀ q : QReg, queueOf t.me q.toNat = (queueOf s.me q.toNat).drop (srcs.count (.q q))
  others : t.me.preds = s.me.preds ∧ t.me.fstat = s.me.fstat ∧ t.me.vregs = s.me.vregs

/-- Control returned to the caller of the newest frame (R42). -/
structure Returned (s t : State) (f : Frame) : Prop extends OnlySlot s t where
  pc : t.me.pc = readReg s.me 23
  settled : settled t.me
  base : t.me.wbase = s.me.wbase - (f.f - 8)
  frame : t.me.frame = f.f
  depth : s.me.frames = f :: t.me.frames
  outs : ∀ i < 8, readReg t.me (8 + f.f + i) = readReg s.me (16 + i)
  globals : ∀ n < 16, readReg t.me n = readReg s.me n
  below : ∀ pos < s.me.wbase, mget 0 t.me.wregs pos = mget 0 s.me.wregs pos
  discarded : ∀ pos, s.me.wbase + 8 ≤ pos → pos < s.me.wbase + s.me.frame → mget 0 t.me.wregs pos = 0
  fill : t.me.fillTo = if t.me.wbase < s.me.spilled then some t.me.wbase else none
  others : t.me.preds = s.me.preds ∧ t.me.fstat = s.me.fstat ∧ t.me.queues = s.me.queues ∧ t.me.vregs = s.me.vregs

/-- The user special registers of R15 that hold a value of the slot or its core, with their numbers. -/
def specials : List (Nat × (State → Word)) :=
  [(0x000, fun s => BitVec.ofNat 64 (s.cur.c % 2 ^ 20)), (0x001, fun s => BitVec.ofNat 64 (s.cur.c / 2 ^ 20)),
   (0x002, fun s => BitVec.ofNat 64 s.mine.teamId), (0x003, fun s => BitVec.ofNat 64 s.mine.teamSize),
   (0x004, fun s => BitVec.ofNat 64 s.mine.stage), (0x005, fun s => BitVec.ofNat 64 s.cur.n), (0x006, fun s => s.me.taskId),
   (0x010, fun s => caps s.variant), (0x020, fun s => BitVec.ofNat 64 s.mine.mqwgt),
   (0x021, fun s => s.me.lodcnt + if s.me.delayed then 1 else 0), (0x030, fun s => s.me.fstat), (0x040, fun s => s.mine.terms),
   (0x041, fun s => s.mine.gsteps), (0x042, fun s => s.mine.skips), (0x043, fun s => s.mine.mcmds),
   (0x048, fun s => s.me.nolegal)]
/-- The writable ones, with the value that a written one leaves: none where the write is cause 0x02 (R16, R54, R118). -/
def writableSpecials : List (Nat × (Word → Option Word)) :=
  [(0x020, fun v => if 1 ≤ v.toNat ∧ v.toNat ≤ 8 then some v else none), (0x021, some),
   (0x030, fun v => if v.toNat / 2 ^ 8 % 8 ≤ 4 then some (v &&& 0x73F) else none), (0x040, some), (0x041, some),
   (0x042, some), (0x043, some), (0x048, some)]
/-- The cause of a MOVS or MOVSW of a number from 0x100 up (R16, R118). -/
def privilegedCause (slot num : Nat) : Nat := if slot ≠ 3 ∧ num < 0x300 then 0x04 else 0x02

/-! ### Memory accesses (R123 to R143) -/

/-- A memory instruction as its entry gives it: operands, displacement, the access for the values read, its bytes, its order
and scope, and where its results land. -/
structure MemForm where
  c : Ctl
  srcs : List SOp
  dsts : List SOp := []
  ps : List PReg := []
  off : BitVec 32
  size : Nat
  kind : (Nat → Word) → AccKind
  ord : Ord := .rlx
  scope : Scope := .sys
  dst : Slot → Dst := fun _ => .none
  dst2 : Slot → Dst := fun _ => .none

/-- Bytes of a width (R128), and whether a loaded value is sign-extended. -/
def widthForm (w : Width) : Nat × Bool :=
  match w with
  | .i8 => (1, true)
  | .n8 => (1, false)
  | .i16 => (2, true)
  | .n16 => (2, false)
  | .i32 => (4, true)
  | .n32 => (4, false)
  | .d64 => (8, false)
/-- The low n bytes of a register, the least significant first (R49). -/
def lowBytes (n : Nat) (v : Word) : List Byte := (List.range n).map fun i => v.extractLsb' (8 * i) 8

def amoFForm (op : AmoOp) (x : AmoF) : MemForm :=
  { c := x.c, srcs := [x.a, x.b], dsts := [x.d], off := x.off, size := if x.w32 then 4 else 8,
    kind := fun v => .amo op x.w32 true (v 1) 0, ord := x.ord, scope := x.scope, dst := fun y => dstOf y x.d }
def amoNForm (op : AmoOp) (x : AmoN) : MemForm :=
  { c := x.c, srcs := [x.a, x.b], off := x.off, size := if x.w32 then 4 else 8,
    kind := fun v => .amo op x.w32 false (v 1) 0, ord := x.ord, scope := x.scope }
def famoFForm (op : AmoOp) (size : Nat) (x : FamoF) : MemForm :=
  { c := x.c, srcs := [x.a, x.b], dsts := [x.d], off := x.off, size := size,
    kind := fun v => .amo op false true (v 1) 0, ord := x.ord, scope := x.scope, dst := fun y => dstOf y x.d }
def famoNForm (op : AmoOp) (size : Nat) (x : FamoN) : MemForm :=
  { c := x.c, srcs := [x.a, x.b], off := x.off, size := size, kind := fun v => .amo op false false (v 1) 0,
    ord := x.ord, scope := x.scope }
/-- The loads, stores, atomics and barrier-object instructions. -/
def memForm : Instr → Option MemForm
  | .ld x => some {
      c := x.c, srcs := [x.a], dsts := [x.d], off := x.off, size := (widthForm x.width).1,
      kind := fun _ => .load (widthForm x.width).1 (widthForm x.width).2, ord := x.ord, scope := x.scope,
      dst := fun y => dstOf y x.d }
  | .st x => some {
      c := x.c, srcs := [x.a, x.b], off := x.off, size := (widthForm x.width).1,
      kind := fun v => .store (lowBytes (widthForm x.width).1 (v 1)), ord := x.ord, scope := x.scope }
  | .ldp x => some {
      c := x.c, srcs := [x.a], dsts := [x.d, x.b], off := x.off, size := 16, kind := fun _ => .loadPair,
      ord := x.ord, scope := x.scope, dst := fun y => dstOf y x.d, dst2 := fun y => dstOf y x.b }
  | .stp x => some {
      c := x.c, srcs := [x.a, x.d, x.b], off := x.off, size := 16,
      kind := fun v => .store (lowBytes 8 (v 1) ++ lowBytes 8 (v 2)), ord := x.ord, scope := x.scope }
  | .amoAdd x => some (amoFForm .add x)
  | .amoAnd x => some (amoFForm .and x)
  | .amoOr x => some (amoFForm .or x)
  | .amoXor x => some (amoFForm .xor x)
  | .amoMin x => some (amoFForm .min x)
  | .amoMinn x => some (amoFForm .minn x)
  | .amoMax x => some (amoFForm .max x)
  | .amoMaxn x => some (amoFForm .maxn x)
  | .amoSwap x => some (amoFForm .swap x)
  | .amoCas x => some {
      c := x.c, srcs := [x.a, x.b, .s x.d], dsts := [.s x.d], off := x.off, size := if x.w32 then 4 else 8,
      kind := fun v => .amo .cas x.w32 true (v 1) (v 2), ord := x.ord, scope := x.scope, dst := fun y => dstOf y (.s x.d) }
  | .amoAddNf x => some (amoNForm .add x)
  | .amoAndNf x => some (amoNForm .and x)
  | .amoOrNf x => some (amoNForm .or x)
  | .amoXorNf x => some (amoNForm .xor x)
  | .amoMinNf x => some (amoNForm .min x)
  | .amoMinnNf x => some (amoNForm .minn x)
  | .amoMaxNf x => some (amoNForm .max x)
  | .amoMaxnNf x => some (amoNForm .maxn x)
  | .famoFaddF32 x => some (famoFForm .faddF32 4 x)
  | .famoFaddF64 x => some (famoFForm .faddF64 8 x)
  | .famoFaddBf16x2 x => some (famoFForm .faddBf16x2 4 x)
  | .famoFminF32 x => some (famoFForm .fminF32 4 x)
  | .famoFmaxF32 x => some (famoFForm .fmaxF32 4 x)
  | .famoFaddF32Nf x => some (famoNForm .faddF32 4 x)
  | .famoFaddF64Nf x => some (famoNForm .faddF64 8 x)
  | .famoFaddBf16x2Nf x => some (famoNForm .faddBf16x2 4 x)
  | .famoFminF32Nf x => some (famoNForm .fminF32 4 x)
  | .famoFmaxF32Nf x => some (famoNForm .fmaxF32 4 x)
  | .barInit x => some { c := x.c, srcs := [x.a, x.b], off := x.off, size := 8, kind := fun v => .bar .init (v 1) }
  | .barArrive x => some {
      c := x.c, srcs := [x.a, .s 0], dsts := [x.d], off := x.off, size := 8,
      kind := fun _ => .bar .arrive 0, ord := .rel, dst := fun y => dstOf y x.d }
  | .barArrivex x => some {
      c := x.c, srcs := [x.a, x.b], dsts := [x.d], off := x.off, size := 8,
      kind := fun v => .bar .arrivex (v 1), ord := .rel, dst := fun y => dstOf y x.d }
  | .barExpect x => some { c := x.c, srcs := [x.a, x.b], off := x.off, size := 8, kind := fun v => .bar .expect (v 1) }
  | .barWait x => some { c := x.c, srcs := [x.a, x.b], off := x.off, size := 8, kind := fun v => .bar .wait (v 1) }
  | .barTest x => some {
      c := x.c, srcs := [x.a, x.b], ps := [x.p], off := x.off, size := 8,
      kind := fun v => .bar .test (v 1), dst := fun _ => .pred x.p.toNat }
  | _ => none

def isBarrier : AccKind → Prop
  | .bar _ _ => True
  | _ => False
/-- Its effective address (R123). -/
def MemForm.ea (m : MemForm) (s : State) : Word := baseTarget (sourceValue s.me m.srcs 0) m.off
/-- What an access of a core's slot releases (R289, R292; log entry 64): one with a releasing order, the definitions that the slot
knows, at its scope; every store, what the slot's releasing FENCEs have put before it. -/
def frees (x : Slot) (core : Nat) (k : AccKind) (o : Ord) (c : Scope) : View :=
  match k with
  | .load _ _ | .loadPair | .join | .range _ _ => []
  | _ => (if o = .rel ∨ o = .ar ∨ o = .sc then x.seen.map fun ev => (ev, core, c) else []) ++ x.freed
/-- The access that it makes at a place. -/
def MemForm.acc (m : MemForm) (s : State) (pl : Place) : Acc :=
  { id := s.nextId, core := s.cur.c, slot := s.cur.n, act := s.me.act, kind := m.kind (sourceValue s.me m.srcs), ea := m.ea s,
    place := pl, ord := m.ord, scope := m.scope, dst := m.dst s.me, dst2 := m.dst2 s.me,
    know := frees s.me s.cur.c (m.kind (sourceValue s.me m.srcs)) m.ord m.scope }
/-- The load queue and the store buffer have room for the access (R286). -/
def roomFor (x : Slot) (k : AccKind) : Prop :=
  (k.isLoad ∨ k.fetching → x.lq.length < 8) ∧ (¬k.isLoad → x.sb.length < 8)

/-- An access was accepted (R125, R286): it is the newest in its queues, and nothing else than the slot and the next access
name changed. No byte of memory changes at issue. -/
structure AccessTaken (s t : State) (srcs : List SOp) (e : Acc) : Prop where
  only : t = updMe { s with nextId := s.nextId + 1 } fun _ => t.me
  memory : ∀ a, physRead t a 1 = physRead s a 1
  scratchpad : ∀ p c off, spadRead t p c off 1 = spadRead s p c off 1
  loads : t.me.lq = s.me.lq ++ if e.kind.isLoad ∨ e.kind.fetching then [{ acc := e }] else []
  stores : t.me.sb = s.me.sb ++ if e.kind.isLoad then [] else [e]
  queues : ∀ q : QReg, queueOf t.me q.toNat = (queueOf s.me q.toNat).drop (srcs.count (.q q))
  rest : t.me = { s.me with
    pc := t.me.pc, st := t.me.st, wait := t.me.wait, delayed := t.me.delayed, popped := t.me.popped, ist := t.me.ist,
    ild := t.me.ild, joinRead := t.me.joinRead, replayNum := t.me.replayNum, lodcnt := t.me.lodcnt, queues := t.me.queues,
    lq := t.me.lq, sb := t.me.sb }

/-- The range operations of R133 (CZERO last). -/
def rangeForms : List ((AB → Instr) × RangeOp) := [(.cflush, .flush), (.cclean, .clean), (.cinv, .inv), (.czero, .zero)]

/-- The slot waits at its instruction for an answer; nothing else changed but how it waits. -/
structure WaitsAt (s t : State) (w : Wait) : Prop extends OnlySlot s t where
  pc : t.me.pc = s.me.pc
  st : t.me.st = .blocked
  wait : t.me.wait = w
  queues : t.me.lq = s.me.lq ∧ t.me.sb = s.me.sb
  registers : (∀ n, readReg t.me n = readReg s.me n) ∧ t.me.preds = s.me.preds ∧ t.me.fstat = s.me.fstat

/-! ### The ordering machine (R284 to R290) -/

/-- v is the value of n loaded bytes, the least significant first (R49, R128). -/
def loadGives (bytes : Nat → Byte) (n : Nat) (sg : Bool) (v : Word) : Prop :=
  ∀ j < 64, v.getLsbD j = if j < 8 * n then (bytes (j / 8)).getLsbD (j % 8) else sg && (bytes (n - 1)).getLsbD 7
def spadByte (s : State) (p c off : Nat) : Byte := (spadRead s p c off 1).headD 0
def memByte (s : State) (a : Nat) : Byte := (physRead s a 1).headD 0

/-- The i-th delivered access of a partition is e, and no earlier one goes first. -/
def AtPlace (s : State) (p i : Nat) (e : Acc) : Prop :=
  runs s p = true ∧ (s.part p).live.delivered[i]? = some e ∧
    ∀ j f, j < i → (s.part p).live.delivered[j]? = some f → goesFirst s p e f = false
/-- It was performed, with its response on the way, which carries what it found released there (log entry 64). -/
def Performed (s t : State) (p i : Nat) (e : Acc) (r : Answer) : Prop :=
  (t.part p).live.delivered = (s.part p).live.delivered.eraseIdx i ∧
    (t.part p).live.resps = (s.part p).live.resps ++
      [({ e with know := if r.error = true ∨ r.trap.isSome = true then e.know else viewAt (s.part p).live.views e }, r)] ∧
    (t.part p).live.chans = (s.part p).live.chans
/-- The partition's log takes two more lines (R335): a step that writes memory is not held. -/
def logRoom (s : State) (p : Nat) : Prop := logUsed (s.part p) + 2 ≤ (s.part p).logCap
/-- Its egress buffer takes one more effect (R335). -/
def egressRoom (s : State) (p : Nat) : Prop := egressUsed (s.part p) < (s.part p).egressCap
/-- No byte of memory, and none of a scratchpad, changed. -/
def sameBytes (s t : State) : Prop :=
  (∀ a, physRead t a 1 = physRead s a 1) ∧ ∀ p c off, spadRead t p c off 1 = spadRead s p c off 1

/-- The byte at an offset of the place of an access (R285): scratchpad, cluster store, the cluster's own copy or the memory it is
taken from, or memory, where a home performs the access for a requester that keeps no copy. -/
def foundByte (s : State) (p : Nat) (e : Acc) (off : Nat) : Byte :=
  match e.place with
  | .own c | .spad c => spadByte s p c off
  | .cstore cl l => (storeRead s p cl l off 1).headD 0
  | .ncCopy cl => (mfind? (s.cluster p cl).nc off).getD (memByte s (e.leaf.pa / 128 * 128 + off % 128))
  | .home _ => memByte s (e.leaf.pa + (off - e.off))
  | .queue _ => 0
/-- The place performs the access as one of bytes, with no error, no line that must first be asked of another core, no D bit to be
set, and no copy displaced. -/
def placeReady (s : State) (p : Nat) (e : Acc) : Prop :=
  match e.place with
  | .spad _ => True
  | .cstore cl l => ((s.cluster p cl).stores.filter fun t => t.launch = l).length = 1
  | .ncCopy cl => s.memErrors = [] ∧ e.leaf.d = true ∧ e.off % 128 + e.kind.bytes ≤ 128 ∧
      ∃ x ∈ (s.cluster p cl).l2, x.line = e.off / 128 ∧ x.cls = .nc
  | .home h => s.memErrors = [] ∧ e.leaf.d = true ∧ e.caches = none ∧ lineHeld (s.part p).live (e.off / 128) = false ∧
      lineBusy s p (e.off / 128) = false ∧ (e.kind.isLoad = false → lineLocked s p (e.off / 128) = false) ∧
      ∀ l ∈ (s.cluster p h).l2, l.cls ≠ .nc
  | .own _ | .queue _ => False
/-- Bytes at an address are those of a list, and every other byte of memory is as it was. -/
def memWritten (s t : State) (pa : Nat) (bs : List Byte) : Prop :=
  ∀ a, memByte t a = if pa ≤ a ∧ a < pa + bs.length then bs.getD (a - pa) 0 else memByte s a
/-- The access's bytes at its place are those of a list, and no other byte of memory, of a scratchpad or of a cluster store
changed. -/
def placeWritten (s t : State) (p : Nat) (e : Acc) (bs : List Byte) : Prop :=
  let inside (off : Nat) : Prop := e.off ≤ off ∧ off < e.off + bs.length
  (∀ k < bs.length, foundByte t p e (e.off + k) = bs.getD k 0) ∧
    (∀ p' c off, ¬(p' = p ∧ e.place = .spad c ∧ inside off) → spadByte t p' c off = spadByte s p' c off) ∧
    (∀ p' cl l off, ¬(p' = p ∧ e.place = .cstore cl l ∧ inside off) →
      storeRead t p' cl l off 1 = storeRead s p' cl l off 1) ∧
    match e.place with
    | .home _ => memWritten s t e.leaf.pa bs
    | .ncCopy cl => (∀ a, memByte t a = memByte s a) ∧
        (∀ off, off / 128 = e.off / 128 → ¬inside off → foundByte t p e off = foundByte s p e off) ∧
        ∀ off, off / 128 ≠ e.off / 128 → mfind? (t.cluster p cl).nc off = mfind? (s.cluster p cl).nc off
    | _ => ∀ a, memByte t a = memByte s a
/-- The step that performs the i-th delivered access: a core's agent for its scratchpad (R48), the place for another. -/
noncomputable def performer (e : Acc) (p i : Nat) (s : State) : Host.Outcome State Fault Refusal :=
  match e.place with
  | .spad _ => exec (.remoteScratchpadRequest p i) s
  | _ => exec (.perform p i) s
/-- A place performs an access (R128 to R130, R135, R136, R142, R166, R287): loads answer the bytes there, the first at the low end,
stores put theirs, an atomic leaves its new value and answers the old one with its flags, or ORs its flags into AFLAGS where it
fetches nothing, an operation on a barrier object does what it does to the word; one that would come between the units of a pair
that a copy moves waits (R216). -/
def performs (s : State) (p i : Nat) (e : Acc) : Prop :=
  let go := performer e p i s
  let n := e.kind.bytes
  let found (k : Nat) : Byte := foundByte s p e (e.off + k)
  let old := leNat ((List.range n).map found)
  (splitsPair s p e.place e.off n = true → e.kind = .loadPair ∨ (∃ bs, e.kind = .store bs) → go = .next s) ∧
  (splitsPair s p e.place e.off n = false →
    (∀ k sg, e.kind = .load k sg → 1 ≤ k → k ≤ 8 →
      ∃ t v, go = .next t ∧ Performed s t p i e { v := v } ∧ sameBytes s t ∧ loadGives found k sg v) ∧
    (e.kind = .loadPair → ∃ t v w, go = .next t ∧ Performed s t p i e { v := v, v2 := w } ∧ sameBytes s t ∧
      loadGives found 8 false v ∧ loadGives (fun k => found (k + 8)) 8 false w) ∧
    (e.kind = .join → ∃ t v, go = .next t ∧ Performed s t p i e { v := v } ∧ sameBytes s t ∧ loadGives found 8 false v) ∧
    (∀ bs, e.kind = .store bs → bs.length ≤ 128 → ∃ t, go = .next t ∧ Performed s t p i e {} ∧ placeWritten s t p e bs) ∧
    (∀ op w32 fetch b c, e.kind = .amo op w32 fetch b c →
      let r := amoNew op (8 * n) old (b.toNat % 2 ^ (8 * n)) (c.toNat % 2 ^ (8 * n))
      ∃ t v, go = .next t ∧ Performed s t p i e (if fetch then { v := v, flags := r.2 } else {}) ∧
        placeWritten s t p e (leBytes n r.1) ∧ (fetch = true → loadGives found n (w32 && !op.isFloat) v) ∧
        (t.part p).live.aflags = if fetch then (s.part p).live.aflags else (s.part p).live.aflags ||| r.2.setWidth 5) ∧
    ∀ op b, e.kind = .bar op b →
      match barOp op (Bar.read old) b with
      | .done x v => ∃ t, go = .next t ∧ Performed s t p i e { v := v } ∧ placeWritten s t p e (leBytes 8 x.word)
      | .trap => ∃ t, go = .next t ∧ Performed s t p i e { trap := some (0x02, e.ea) } ∧ sameBytes s t
      | .wait => go = .next s)

/-- v is what an atomic leaves at w bits (R135). -/
def amoGives (op : AmoOp) (w old b c v : Nat) : Prop :=
  let value (x : Nat) : Int := (BitVec.ofNat w x).toInt
  match op with
  | .add => v = (old + b) % 2 ^ w
  | .and => ∀ i, v.testBit i = (old.testBit i && b.testBit i)
  | .or => ∀ i, v.testBit i = (old.testBit i || b.testBit i)
  | .xor => ∀ i, v.testBit i = (old.testBit i != b.testBit i)
  | .min => (v = old ∨ v = b) ∧ value v = Min.min (value old) (value b)
  | .minn => v = Min.min old b
  | .max => (v = old ∨ v = b) ∧ value v = Max.max (value old) (value b)
  | .maxn => v = Max.max old b
  | .swap => v = b
  | .cas => v = if old = c then b else old
  | .faddF32 | .faddF64 | .faddBf16x2 | .fminF32 | .fmaxF32 => True

/-! ### Effects beyond the issuing slot -/

/-- Beyond the issuing slot, the machine is `u`. -/
def Only (u t : State) : Prop := t = updMe u fun _ => t.me
/-- The issuing slot took its sources and went on at the next instruction, with its registers, predicates and flags as they
were. -/
structure Passed (s t : State) (srcs : List SOp) : Prop where
  on : WentTo s.me t.me (s.me.pc + 12) srcs fun _ => []
  rest : KeepsRest s.me t.me
  registers : t.me.regs = s.me.regs ∧ t.me.wregs = s.me.wregs
  predicates : t.me.preds = s.me.preds
  fstat : t.me.fstat = s.me.fstat
/-- The same with a result written to a scalar destination. -/
structure PassedWith (s t : State) (srcs : List SOp) (d : SOp) (v : Word) : Prop where
  on : WentTo s.me t.me (s.me.pc + 12) srcs fun o => if o = d then [v] else []
  rest : KeepsRest s.me t.me
  registers : ∀ n : BitVec 6, readReg t.me n.toNat = if d = .s n ∧ writable s.me n.toNat then v else readReg s.me n.toNat
  predicates : t.me.preds = s.me.preds
  fstat : t.me.fstat = s.me.fstat
/-- The same with a result written to a predicate. -/
structure PassedPred (s t : State) (srcs : List SOp) (p : PReg) (b : Bool) : Prop where
  on : WentTo s.me t.me (s.me.pc + 12) srcs fun _ => []
  rest : KeepsRest s.me t.me
  registers : t.me.regs = s.me.regs ∧ t.me.wregs = s.me.wregs
  predicates : ∀ q, readP t.me q = if q = 7 then true else onePred s.me p b q
  fstat : t.me.fstat = s.me.fstat

/-- The slot's accesses that a release or FENCE at a scope waits for are performed (R140, R147, R288): its loads have returned,
and from .core on its stores, atomics and sends are posted, from .die on performed where they are not in the own scratchpad. -/
def performedAt (x : Slot) (c : Scope) : Prop :=
  (∀ e ∈ x.lq, e.acc.kind.isLoad = false) ∧
    (c ≠ .th → x.sb = [] ∧ (c = .die ∨ c = .pkg ∨ c = .sys → ∀ e ∈ x.unacked, e.own = true))
/-- The machine with the issuing slot knowing some definitions of groups, keys and contexts (log entry 64): what an instruction that
acquires leaves beside its result. -/
def knowing (s : State) (seen : List Nat) : State := updMe s fun x => { x with seen := seen }
/-- The issuing slot knows some definitions more. -/
def learns (s t : State) (evs : List Nat) : Prop := ∀ ev, ev ∈ t.me.seen ↔ ev ∈ s.me.seen ∨ ev ∈ evs
/-- The scope of an HBAR level (R147). -/
def levelScope : Level → Scope
  | .team => .cl
  | .die => .die
  | .pkg => .pkg

/-- DONE.task's decrement of a counter: an atomic addition of minus one, which returns no value, a release at .cl (R163, R167). -/
def decrementOf (s : State) (ctr : Word) : Acc :=
  let k : AccKind := .amo .add false false (-1) 0
  { id := s.nextId, core := s.cur.c, slot := s.cur.n, act := s.me.act, kind := k, ea := (counterAt s.cur.c ctr).2,
    place := (counterAt s.cur.c ctr).1, ord := .rel, scope := .cl, know := frees s.me s.cur.c k .rel .cl }

/-- A slot took an activation (R23, R24): every register is zero but the arguments in s16 to s19, the window has one frame of
16 registers, no predicate is set. -/
structure Started (t : State) (a : At) (pc task : Word) (args : List Word) (route : Option Route) (join : Option Word)
    (queue : Option Nat) : Prop where
  st : (t.slotAt a.p a.c a.n).st = .ready
  pc : (t.slotAt a.p a.c a.n).pc = pc
  task : (t.slotAt a.p a.c a.n).taskId = task
  args : ∀ i < 4, readReg (t.slotAt a.p a.c a.n) (16 + i) = args.getD i 0
  others : ∀ n, n < 16 ∨ 20 ≤ n → readReg (t.slotAt a.p a.c a.n) n = 0
  window : (t.slotAt a.p a.c a.n).frame = 16 ∧ (t.slotAt a.p a.c a.n).frames = [] ∧ (t.slotAt a.p a.c a.n).wbase = 0
  flags : (t.slotAt a.p a.c a.n).preds = 0 ∧ (t.slotAt a.p a.c a.n).fstat = 0 ∧ (t.slotAt a.p a.c a.n).queues = [] ∧
    (t.slotAt a.p a.c a.n).vregs = []
  ends : (t.slotAt a.p a.c a.n).route = route ∧ (t.slotAt a.p a.c a.n).joinAddr = join ∧
    (t.slotAt a.p a.c a.n).fromQueue = queue

/-! ### Engine commands (R30, R34, R186) -/

/-- A command's instruction as its entry gives it: engine, guard, rounding, the scalar registers it captures, the checks of
the captured values, and the operation that enters the queue. -/
structure EngForm where
  e : Engine
  c : Ctl
  r : Rnd := .rne
  srcs : List SOp := []
  ok : State → (Nat → Word) → Prop := fun _ _ => True
  op : State → (Nat → Word) → EngOp

/-- A command on vector registers. -/
def vecForm (c : Ctl) (r : Rnd) (op : EngOp) : Option EngForm := some { e := .vector, c := c, r := r, op := fun _ _ => op }
/-- No tile of the list has FAULT set (R237). -/
def noFault (s : State) (tiles : List Nat) : Prop := ∀ t ∈ tiles, mget false s.mine.tfault t = false
/-- A range of a core's scratchpad or cluster store, by a global address (R46). -/
def reachable (s : State) (a : Word) (align len : Nat) : Prop :=
  a.msb = true ∧ ∃ r, globalPlace s s.cur.p s.cur.c a align len = .ok r
def matForm (c : Ctl) (op : EngOp) (tiles : List Nat) (ok : Prop := True) : Option EngForm :=
  some { e := .matrix, c := c, ok := fun s _ => ok ∧ noFault s tiles, op := fun _ _ => op }
/-- The captured part of a scalar operand: a register's value travels with the command, a queue register is popped as it
starts (R186). -/
def captured : SOp → List SOp
  | .s n => [.s n]
  | .q _ => []
def queueNo : SOp → Nat
  | .s _ => 0
  | .q n => n.toNat
def valueOf (o : SOp) (v : Word) : Option Word :=
  match o with
  | .s _ => some v
  | .q _ => none
def sampForm (o : SampOp) (k : Nat) (x : SampI) (more : List Word → Prop) : Option EngForm :=
  let group (v : Nat → Word) : List Word := (List.range k).map fun i => v (i + 2)
  some {
    e := .vector, c := x.c, srcs := [.s x.a, .s x.b] ++ (List.range k).map fun i => .s (x.cc + BitVec.ofNat 6 i),
    ok := fun s v => reachable s (v 0) 4 (4 * x.n.toNat) ∧ reachable s (v 1) 16 ((x.moff.toNat + x.n.toNat + 7) / 8) ∧
      more (group v),
    op := fun _ v => .samp o x.q.toNat (v 0) (v 1) x.n.toNat x.moff.toNat (group v) }
def parameters (g : List Word) : Prop := (sampParams (g.getD 0 0) (g.getD 1 0)).isSome = true
/-- The two words of a CPY2, CPYG or CPYS, the credit and the stochastic seed, where the form has them (R229, R232). -/
def copySrcs (two : Bool) (x : CpyI) : List SOp :=
  [.s x.d, .s x.a, .s x.b] ++ (if two then [.s (x.b + 1)] else []) ++ (if x.cred then [.s x.cc] else []) ++
    if x.rnd = .sr then [.s (x.cc + 1), .s (x.cc + 2)] else []
/-- The copy of a CPY, CPY2, CPYG or CPYS (R229, R232). -/
def copyOf (shape : CopyShape) (x : CpyI) (s : State) (v : Nat → Word) : CopyCmd :=
  let n := if shape = .one then 3 else 4
  let m := if x.cred then n + 1 else n
  let signed32 (k : Nat) : Int := (BitVec.ofNat 32 k).toInt
  { shape := shape, dst := v 0, src := v 1,
    count := if shape = .two then (v 2).toNat % 2 ^ 32 else (v 2).toNat,
    rows := if shape = .two then (v 2).toNat / 2 ^ 32 % 2 ^ 16 else 1,
    sstride := signed32 ((v 3).toNat % 2 ^ 32), dstride := signed32 ((v 3).toNat / 2 ^ 32),
    index := (v 3).toNat % 2 ^ 28, inbound := namesOwn s.cur.c (v 0), cred := if x.cred then some (v n) else none,
    seed := if x.rnd = .sr then v m else 0, ibase := if x.rnd = .sr then v (m + 1) else 0,
    rel := x.rel, ovw := x.ovw, zw := x.zw, zd := x.zd, zs := x.zs, conv := x.conv, dfmt := x.dfmt, sfmt := x.sfmt }
def copyForm (shape : CopyShape) (x : CpyI) : Option EngForm :=
  some {
    e := .copy, c := x.c, r := x.rnd, srcs := copySrcs (shape != .one) x,
    ok := fun s v => copyChecks s (copyOf shape x s v) (v 2) (v 3) = none ∧ noFault s (copyOf shape x s v).tiles,
    op := fun s v => .copy (copyOf shape x s v) }

/-- The instructions that enter a command in an engine's queue. -/
def engForm : Instr → Option EngForm
  | .vld x => some {
      e := .vector, c := x.c, srcs := [.s x.a], ok := fun s v => reachable s (baseTarget (v 0) x.off) 16 16,
      op := fun _ v => .vload x.v (baseTarget (v 0) x.off) }
  | .vst x => some {
      e := .vector, c := x.c, srcs := [.s x.a], ok := fun s v => reachable s (baseTarget (v 0) x.off) 16 16,
      op := fun _ v => .vstore x.v (baseTarget (v 0) x.off) }
  | .vldT x => some {
      e := .vector, c := x.c, srcs := [.s x.a],
      ok := fun s v => (v 0 + BitVec.ofNat 64 x.row.toNat).toNat ≤ 31 ∧ noFault s [x.tile.toNat],
      op := fun _ v => .vloadT x.v (512 * x.tile.toNat + 16 * (v 0 + BitVec.ofNat 64 x.row.toNat).toNat) x.tile.toNat }
  | .vstT x => some {
      e := .vector, c := x.c, srcs := [.s x.a],
      ok := fun s v => (v 0 + BitVec.ofNat 64 x.row.toNat).toNat ≤ 31 ∧ noFault s [x.tile.toNat],
      op := fun _ v => .vstoreT x.v (512 * x.tile.toNat + 16 * (v 0 + BitVec.ofNat 64 x.row.toNat).toNat) x.tile.toNat }
  | .vmov x => vecForm x.c .rne (.vmov x.d x.a)
  | .vdup x => some {
      e := .vector, c := x.c, srcs := captured x.a, op := fun _ v => .vdup x.ty x.d (valueOf x.a (v 0)) (queueNo x.a) }
  | .vins x => some {
      e := .vector, c := x.c, srcs := captured x.a,
      op := fun _ v => .vins x.ty x.d x.lane.toNat (valueOf x.a (v 0)) (queueNo x.a) }
  | .vext x => vecForm x.c .rne (.vext x.ty x.q.toNat x.a x.lane.toNat)
  | .vadd x => vecForm x.c x.rnd (.vfp .add x.ty x.d x.a x.b 0)
  | .vsub x => vecForm x.c x.rnd (.vfp .sub x.ty x.d x.a x.b 0)
  | .vmul x => vecForm x.c x.rnd (.vfp .mul x.ty x.d x.a x.b 0)
  | .vdiv x => vecForm x.c x.rnd (.vfp .div x.ty x.d x.a x.b 0)
  | .vsqrt x => vecForm x.c x.rnd (.vfp .sqrt x.ty x.d x.a 0 0)
  | .vmin x => vecForm x.c .rne (.vfp .min x.ty x.d x.a x.b 0)
  | .vmax x => vecForm x.c .rne (.vfp .max x.ty x.d x.a x.b 0)
  | .vabs x => vecForm x.c .rne (.vfp .abs x.ty x.d x.a 0 0)
  | .vneg x => vecForm x.c .rne (.vfp .neg x.ty x.d x.a 0 0)
  | .vfma x => vecForm x.c x.rnd (.vfp .fma x.ty x.d x.a x.b x.cc)
  | .vfms x => vecForm x.c x.rnd (.vfp .fms x.ty x.d x.a x.b x.cc)
  | .vnma x => vecForm x.c x.rnd (.vfp .fnma x.ty x.d x.a x.b x.cc)
  | .viadd x => vecForm x.c .rne (.vint .add x.ty x.d x.a x.b)
  | .visub x => vecForm x.c .rne (.vint .sub x.ty x.d x.a x.b)
  | .vimul x => vecForm x.c .rne (.vint .mul x.ty x.d x.a x.b)
  | .vishl x => vecForm x.c .rne (.vint .shl x.ty x.d x.a x.b)
  | .vishr x => vecForm x.c .rne (.vint .shr x.ty x.d x.a x.b)
  | .visar x => vecForm x.c .rne (.vint .sar x.ty x.d x.a x.b)
  | .viand x => vecForm x.c .rne (.vint .and x.ty x.d x.a x.b)
  | .vior x => vecForm x.c .rne (.vint .or x.ty x.d x.a x.b)
  | .vixor x => vecForm x.c .rne (.vint .xor x.ty x.d x.a x.b)
  | .vimin x => vecForm x.c .rne (.vint .min x.ty x.d x.a x.b)
  | .vimax x => vecForm x.c .rne (.vint .max x.ty x.d x.a x.b)
  | .vcmp x => vecForm x.c .rne (.vcmp x.ty x.cond x.dst x.a x.b)
  | .vsel x => vecForm x.c .rne (.vsel x.d x.a x.b x.cc)
  | .vperm x => vecForm x.c .rne (.vperm x.d x.a x.b x.cc)
  | .vred x => vecForm x.c x.rnd (.vred x.ty x.op x.d x.a)
  | .vcvt x => some {
      e := .vector, c := x.c, r := x.rnd, srcs := captured x.b ++ captured x.cc,
      op := fun _ v => .vcvt x.src x.dst (x.rnd = .sr) x.d x.a (valueOf x.b (v 0)) (queueNo x.b)
        (valueOf x.cc (v (captured x.b).length)) (queueNo x.cc) x.part.toNat }
  | .vexp2 x => vecForm x.c .rne (.vfp .exp2 .f32 x.d x.a 0 0)
  | .vlog2 x => vecForm x.c .rne (.vfp .log2 .f32 x.d x.a 0 0)
  | .vrcp x => vecForm x.c .rne (.vfp .rcp .f32 x.d x.a 0 0)
  | .vrsq x => vecForm x.c .rne (.vfp .rsq .f32 x.d x.a 0 0)
  | .vqtbl x => vecForm x.c .rne (.vqtbl x.a)
  | .vdot4 x => vecForm x.c .rne (.vdot4 x.uns x.d x.a x.b x.cc)
  | .luf x => some {
      e := .vector, c := x.c, srcs := [.s x.d, .s x.a, .s x.b, .s x.cc],
      ok := fun s v => ∃ d a b, Solver.read (v 1) = some d ∧ lufParams (v 0) = true ∧
        areaOf s (v 2) (d.count * d.ms) = .ok a ∧ areaOf s (v 3) (d.count * 32) = .ok b ∧ overlapsArea a b = false,
      op := fun _ v => .luf (v 0) (v 1) (v 2) (v 3) }
  | .lus x => some {
      e := .vector, c := x.c, srcs := [.s x.d, .s x.a, .s x.b, .s x.cc],
      ok := fun s v => ∃ d, Solver.read (v 1) = some d ∧
        areasOk s (v 2, d.count * d.ms) (v 3, d.count * 32) (v 0, d.count * d.vs) = .ok (),
      op := fun _ v => .lus (v 0) (v 1) (v 2) (v 3) }
  | .cpy x => copyForm .one x
  | .cpy2 x => copyForm .two x
  | .cpyg x => copyForm .gather x
  | .cpys x => copyForm .scatter x
  | .cpypf x => some {
      e := .copy, c := x.c, srcs := [.s x.a, .s x.b], ok := fun _ v => 1 ≤ (v 1).toNat ∧ (v 1).toNat ≤ 0x1000000,
      op := fun _ v => .cpypf (v 0) (v 1).toNat }
  | .ttget x => some { e := .copy, c := x.c, op := fun _ _ => .ttget x.q.toNat x.sel.toNat }
  | .ttset x => some { e := .copy, c := x.c, srcs := [.s x.a], op := fun _ v => .ttset (v 0) x.ready x.clrf }
  | .tld x => matForm x.c (.tld x.t.toNat x.tile.toNat) [x.tile.toNat]
  | .tst x => matForm x.c (.tst x.t.toNat x.tile.toNat) [x.tile.toNat]
  | .tzero x => matForm x.c (.tzero x.t.toNat) []
  | .mzero x => matForm x.c (.mzero x.acc.toNat) []
  | .msta x => matForm x.c (.msta x.acc.toNat x.tile.toNat) [x.tile.toNat, x.tile.toNat + 1] (x.tile.toNat % 2 = 0)
  | .mlda x => matForm x.c (.mlda x.acc.toNat x.tile.toNat) [x.tile.toNat, x.tile.toNat + 1] (x.tile.toNat % 2 = 0)
  | .mma x => some {
      e := .matrix, c := x.c, srcs := [.s x.ra, .s x.rb],
      ok := fun s v =>
        let fa := efmtCode (ctlFmt (mget 0 s.mine.tctl x.ta.toNat))
        let fb := efmtCode (ctlFmt (mget 0 s.mine.tctl x.tb.toNat))
        ctlRows (mget 0 s.mine.tctl x.ta.toNat) ≠ 0 ∧ ctlRows (mget 0 s.mine.tctl x.tb.toNat) ≠ 0 ∧
          pairOf fa fb (isW s.cur.c) ≠ .none ∧ scaleCheck (pairOf fa fb (isW s.cur.c)) (kOf fa fb) (v 0) = none ∧
          scaleCheck (pairOf fa fb (isW s.cur.c)) (kOf fa fb) (v 1) = none,
      op := fun s v => .mma x.acc.toNat x.ta.toNat x.tb.toNat (mget 0 s.mine.tctl x.ta.toNat)
        (mget 0 s.mine.tctl x.tb.toNat) (v 0) (v 1) }
  | .smaxl x => sampForm .smaxl 0 x fun _ => True
  | .swsum x => sampForm .swsum 2 x parameters
  | .spick x => sampForm .spick 5 x parameters
  | .sgreedy x => sampForm .sgreedy 1 x fun g => (g.getD 0 0).toNat + x.n.toNat ≤ 2 ^ 20
  | .sdraw x => some { e := .vector, c := x.c, srcs := [.s x.a, .s x.b], op := fun _ v => .sdraw x.q.toNat (v 0) (v 1) }
  | _ => none

/-- An engine instruction issues (R81): its predicate guard is true, and an e-guard travels with the command. -/
def EngReady (s : State) (f : EngForm) : Prop :=
  Here s ∧ hazard s.me f.srcs [] [] = none ∧
    match f.c.guard with
    | .eng _ _ => True
    | _ => guardNow s.me f.c = some true
/-- The command that enters the queue (R30, R34, R186, R57). -/
def commandOf (s : State) (f : EngForm) (op : EngOp) : Cmd :=
  { num := (getQ s.mine f.e).assigned + 1, slot := s.cur.n, act := s.me.act, task := s.me.taskId,
    guard := match f.c.guard with
      | .eng n _ => some (eguard s.me n.toNat)
      | _ => none,
    neg := match f.c.guard with
      | .eng _ neg => neg
      | _ => false,
    rm := resolveRnd s.me f.r, after := startsAfter s.me f.e, qtbl := if op.readsQtbl then s.mine.lastQtbl else 0,
    know := s.me.seen, op := op }
/-- The slot's latest number on an engine's timeline. -/
def latest (x : Slot) : Engine → Nat
  | .copy => x.lastCopy
  | .matrix => x.lastMatrix
  | .vector => x.lastVector
/-- A command entered its queue: it is the newest there, the slot went on, a VCMP's e-slot awaits it, and nothing else
changed. -/
structure Entered (s t : State) (e : Engine) (cmd : Cmd) : Prop where
  queue : getQ t.mine e = { getQ s.mine e with assigned := cmd.num, queue := (getQ s.mine e).queue ++ [cmd] }
  others : ∀ e', e' ≠ e → getQ t.mine e' = getQ s.mine e'
  slot : t.me.pc = s.me.pc + 12 ∧ t.me.st = .ready ∧ t.me.wait = .none
  number : latest t.me e = cmd.num ∧ ∀ e', e' ≠ e → latest t.me e' = latest s.me e'
  guards : ∀ n : EReg, eguard t.me n.toNat = if cmd.op.target = some n then .waiting cmd.num else eguard s.me n.toNat
  registers : (∀ n, readReg t.me n = readReg s.me n) ∧ t.me.preds = s.me.preds ∧ t.me.fstat = s.me.fstat ∧
    t.me.queues = s.me.queues ∧ t.me.vregs = s.me.vregs
  memory : sameBytes s t

/-! ### Armature mode and the chisel unit -/

/-- The sequencer's block of a core, with its opcode. -/
def HasBlock (s : State) (x : CoreAt) (opc : Nat) (b : Blk) : Prop := runs s x.p = true ∧ blkHere s x.p x.c opc = some b
/-- A block completed (R240, R241, R248): the chain is at `next` with its links, one more block is done, TAG is the block's;
the entering slot stays Blocked at its ARMENTER. -/
structure BlockDone (s t : State) (x : CoreAt) (b : Blk) (next : Word) (links : List Word) : Prop where
  block : (t.coreAt x.p x.c).arm.block = next
  links : (t.coreAt x.p x.c).arm.links = links
  count : (t.coreAt x.p x.c).arm.done = (s.coreAt x.p x.c).arm.done + 1
  tag : (t.coreAt x.p x.c).arm.tag = BitVec.ofNat 32 b.tag
  fetched : (t.coreAt x.p x.c).arm.fetched = none
  reading : (t.coreAt x.p x.c).arm.reading = (s.coreAt x.p x.c).arm.ahead
  ahead : (t.coreAt x.p x.c).arm.ahead = []
  active : (t.coreAt x.p x.c).arm.active = true
  slot : (t.slotAt x.p x.c (s.coreAt x.p x.c).arm.slot).st = .blocked
  memory : ∀ a, physRead t a 1 = physRead s a 1
/-- Where a block without a transfer of its own goes: 16 times its link offset from the block (R248). -/
def linked (s : State) (x : CoreAt) (b : Blk) : Word := (s.coreAt x.p x.c).arm.block + 16 * b.off
/-- The block after it in memory. -/
def following (s : State) (x : CoreAt) (b : Blk) : Word :=
  (s.coreAt x.p x.c).arm.block + BitVec.ofNat 64 (32 + 16 * b.len)

/-- The chisel instructions that queue a command on the context their first source names: the sources, whether the slot
waits for the result, the checks of their values and the command. -/
structure ChForm where
  c : Ctl
  srcs : List SOp
  dsts : List SOp := []
  waits : Bool := false
  ok : State → (Nat → Word) → Prop := fun _ _ => True
  op : State → (Nat → Word) → ChOp
def chForm : Instr → Option ChForm
  | .chclose x => some { c := x.c, srcs := [x.a], waits := true, op := fun _ _ => .close }
  | .chstep x => some { c := x.c, srcs := [x.a, x.b], ok := fun _ v => (v 1).toNat < 2 ^ 20, op := fun _ v => .step (v 1) }
  | .chmask x => some {
      c := x.c, srcs := [x.a, x.d, x.b],
      ok := fun s v => 1 ≤ x.n.toNat ∧ x.n.toNat ≤ 1024 ∧ (v 2).toNat % 128 = 0 ∧ (v 2).toNat < 2 ^ 20 ∧
        (v 1).toNat % 16 = 0 ∧ reachable s (v 1) 1 (16 * x.n.toNat),
      op := fun s v =>
        let at_ : Place × Nat := match globalPlace s s.cur.p s.cur.c (v 1) 1 (16 * x.n.toNat) with
          | .ok r => r
          | .error _ => (.own 0, 0)
        .mask at_.1 at_.2 (v 2).toNat (128 * x.n.toNat) }
  | .chsave x => some { c := x.c, srcs := [x.a], op := fun _ _ => .save }
  | .chload x => some { c := x.c, srcs := [x.a], op := fun _ _ => .load x.k.toNat }
  | .chstat x => some {
      c := x.c, srcs := [x.a], dsts := [x.d], waits := true, ok := fun _ _ => x.sel ≠ 3,
      op := fun s _ => .stat (dstOf s.me x.d) x.sel.toNat }
  | _ => none

/-! ### Guards, service, supervisor -/

/-- The guard and hints of an instruction word. -/
def controlOf : Instr → Option Ctl
  | .add x | .addImm x | .sub x | .subImm x | .mul x | .mulImm x | .mulhi x | .mulhiImm x | .mulhn x | .mulhnImm x
  | .div x | .divImm x | .divn x | .divnImm x | .rem x | .remImm x | .remn x | .remnImm x | .and x | .andImm x
  | .or x | .orImm x | .xor x | .xorImm x | .andn x | .andnImm x | .orn x | .ornImm x | .shl x | .shlImm x | .shr x
  | .shrImm x | .sar x | .sarImm x | .rol x | .rolImm x | .ror x | .rorImm x | .min x | .minImm x | .minn x
  | .minnImm x | .max x | .maxImm x | .maxn x | .maxnImm x | .clz x | .ctz x | .popc x | .brev x | .bswap x | .abs x
  | .neg x | .sextI8 x | .sextI16 x | .sextI32 x | .zextN8 x | .zextN16 x | .zextN32 x | .mov x | .movi x | .movhi x
  | .lea x | .cmp x | .cmpImm x | .pand x | .por x | .pxor x | .pandn x | .pnot x | .pmov x | .pget x | .pset x
  | .sel x | .qcnt x | .gete x | .fadd x | .fsub x | .fmul x | .fdiv x | .fsqrt x | .fmin x | .fmax x | .fabs x
  | .fneg x | .fcopysign x | .ffma x | .ffms x | .fnma x | .fcmp x | .fcvt x | .fclass x | .br x | .jmp x | .call x
  | .callr x | .ret x | .frame x | .movs x | .movsw x | .trap x | .brk x | .synci x | .ld x | .st x | .ldp x | .stp x
  | .pf x | .cflush x | .cclean x | .cinv x | .czero x | .amoAdd x | .amoAnd x | .amoOr x | .amoXor x | .amoMin x
  | .amoMinn x | .amoMax x | .amoMaxn x | .amoSwap x | .amoCas x | .amoAddNf x | .amoAndNf x | .amoOrNf x
  | .amoXorNf x | .amoMinNf x | .amoMinnNf x | .amoMaxNf x | .amoMaxnNf x | .famoFaddF32 x | .famoFaddF64 x
  | .famoFaddBf16x2 x | .famoFminF32 x | .famoFmaxF32 x | .famoFaddF32Nf x | .famoFaddF64Nf x | .famoFaddBf16x2Nf x
  | .famoFminF32Nf x | .famoFmaxF32Nf x | .fence x | .barInit x | .barArrive x | .barArrivex x | .barExpect x
  | .barWait x | .barTest x | .hbarArrive x | .hbarWait x | .tlwait x | .tlget x | .send x | .bind x | .unbind x
  | .done x | .doneTask x | .yield x | .spawn x | .callat x | .reply x | .fork x | .join x | .vtset x | .vtadv x
  | .igrp x | .ijoin x | .ileave x | .ireg x | .idrop x | .ist x | .ildS x | .ildU x | .iqry x | .vld x | .vst x
  | .vldT x | .vstT x | .vmov x | .vdup x | .vins x | .vext x | .vadd x | .vsub x | .vmul x | .vdiv x | .vsqrt x
  | .vmin x | .vmax x | .vabs x | .vneg x | .vfma x | .vfms x | .vnma x | .viadd x | .visub x | .vimul x | .vishl x
  | .vishr x | .visar x | .viand x | .vior x | .vixor x | .vimin x | .vimax x | .vcmp x | .vsel x | .vperm x
  | .vred x | .vcvt x | .vexp2 x | .vlog2 x | .vrcp x | .vrsq x | .vqtbl x | .vdot4 x | .luf x | .lus x | .cpy x
  | .cpy2 x | .cpyg x | .cpys x | .cpypf x | .ttget x | .ttset x | .tcfg x | .tcfgr x | .tld x | .tst x | .tzero x
  | .mma x | .mzero x | .msta x | .mlda x | .armenter x | .armstat x | .chopen x | .chclose x | .chstep x | .chmask x
  | .chsave x | .chload x | .chstat x | .smaxl x | .swsum x | .sdraw x | .spick x | .sgreedy x | .movcRead x
  | .movcWrite x | .eret x | .resume x | .resumeEnd x | .resumeReplay x | .rearm x | .dropl x | .xinv x | .ckpt x
  | .halt x | .wake x => some x.c
  | _ => none

/-- The privileged instructions (R327). -/
def privileged : Instr → Bool
  | .movcRead _ | .movcWrite _ | .eret _ | .resume _ | .resumeEnd _ | .resumeReplay _ | .rearm _ | .dropl _ | .xinv _
  | .ckpt _ | .halt _ | .wake _ => true
  | _ => false

/-- Registers of slot scope that hold a value of the slot (R15, R317), with their numbers. -/
def slotRegisters : List (Nat × (Slot → Word)) :=
  [(0x006, (·.taskId)), (0x021, (·.lodcnt)), (0x030, (·.fstat)), (0x048, (·.nolegal)), (0x101, (·.cause)),
   (0x102, (·.badaddr)), (0x103, (·.epc)), (0x105, (·.latchv)), (0x106, (·.wspill))]
/-- Registers of core, partition and function scope (R15, R317, R349), with their numbers. -/
def coreRegisters : List (Nat × (State → Word)) :=
  [(0x020, fun s => BitVec.ofNat 64 s.mine.mqwgt), (0x040, fun s => s.mine.terms), (0x041, fun s => s.mine.gsteps),
   (0x042, fun s => s.mine.skips), (0x043, fun s => s.mine.mcmds), (0x110, fun s => s.mine.tvec),
   (0x112, fun s => s.mine.wdlim), (0x118, fun s => s.myPart.live.aflags.setWidth 64),
   (0x202, fun s => s.myPart.ckptInt.setWidth 64), (0x203, fun s => s.myPart.quantum.setWidth 64),
   (0x204, fun s => (s.vf s.myPart.vf).ptroot), (0x205, fun s => (s.vf s.myPart.vf).fbbase),
   (0x206, fun s => (s.vf s.myPart.vf).fbprod.setWidth 64), (0x207, fun s => (s.vf s.myPart.vf).fbcons.setWidth 64),
   (0x209, fun s => (s.vf s.myPart.vf).dlbase), (0x20A, fun s => (s.vf s.myPart.vf).dlprod.setWidth 64),
   (0x20B, fun s => (s.vf s.myPart.vf).dlcons.setWidth 64), (0x20D, fun s => (s.vf s.myPart.vf).waymask.setWidth 64),
   (0x20E, fun s => (s.vf s.myPart.vf).migva), (0x20F, fun s => (s.vf s.myPart.vf).migpa),
   (0x211, fun s => (s.vf s.myPart.vf).lqbase), (0x212, fun s => (s.vf s.myPart.vf).lqprod.setWidth 64),
   (0x213, fun s => (s.vf s.myPart.vf).lqcons.setWidth 64), (0x214, fun s => (s.vf s.myPart.vf).cqbase),
   (0x215, fun s => (s.vf s.myPart.vf).cqprod.setWidth 64), (0x216, fun s => (s.vf s.myPart.vf).cqcons.setWidth 64),
   (0x217, fun s => (s.vf s.myPart.vf).ronotify.setWidth 64), (0x218, fun _ => 0),
   (0x219, fun s => (s.vf s.myPart.vf).ptrace)]
/-- Numbers of slot scope (R15, R317): a MOVC of any other number names slot 0. -/
def slotNumbers : List Nat :=
  [0x005, 0x006, 0x021, 0x030, 0x048, 0x100, 0x101, 0x102, 0x103, 0x104, 0x105, 0x106]
/-- STATE of R318. -/
def stateOf : SlotState → Nat
  | .idle => 0
  | .ready => 1
  | .blocked => 2
  | .parked => 3
/-- The fields of STATUS (R318). -/
def isStatus (x : Slot) (v : Word) : Prop :=
  v.toNat < 64 ∧ v.getLsbD 5 = x.svc ∧ v.getLsbD 4 = x.held ∧ v.getLsbD 3 = x.intrap ∧ v.getLsbD 2 = x.arm ∧
    v.toNat % 4 = stateOf x.st
/-- The fields of LATCH (R320). -/
def isLatch (x : Slot) (v : Word) : Prop :=
  match x.latch with
  | none => v = 0
  | some l => v.toNat / 2 ^ 32 = 0 ∧ v.toNat / 2 ^ 24 % 2 ^ 8 = l.fn.toNat ∧ v.toNat / 2 ^ 16 % 2 ^ 8 = l.op.toNat ∧
      v.toNat / 2 ^ 8 % 2 ^ 8 = l.refuse.toNat ∧ v.toNat / 8 % 2 ^ 5 = 0 ∧ v.getLsbD 2 = l.fetch ∧ v.getLsbD 1 = l.sent ∧
      v.getLsbD 0 = true
/-- The fields of TPEND (R321). -/
def isTpend (s : State) (v : Word) : Prop :=
  v.toNat < 16 ∧ v.getLsbD 3 = s.mine.tpWake ∧ ∀ n < 3, v.getLsbD n = (s.slotAt s.cur.p s.cur.c n).svc
/-- The fields of CKPTCTL (R321). -/
def isCkptctl (s : State) (v : Word) : Prop :=
  v.toNat / 2 ^ 32 = s.myPart.seq.toNat ∧ v.toNat / 2 ^ 17 % 2 ^ 15 = 0 ∧ (v.getLsbD 16 = true ↔ s.myPart.cut ≠ .none) ∧
    v.toNat % 2 ^ 16 = s.myPart.ckptInt.toNat

/-- A MOVC write of a slot's register that a value reaches, with the value left; none where the value is cause 0x02 (R317,
R319, R321). -/
def slotWrites : List (Nat × (Slot → Word) × (Word → Option Word)) :=
  [(0x101, (·.cause), fun v => some (v &&& 0x1FFFF)), (0x103, (·.epc), fun v => if v.toNat % 4 = 0 then some v else none),
   (0x105, (·.latchv), some),
   (0x106, (·.wspill), fun v =>
     let base := v.toNat % 2 ^ 14
     let size := v.toNat / 2 ^ 16 % 2 ^ 15
     if base % 64 = 0 ∧ size % 64 = 0 ∧ base + size ≤ 0x4000 then some (BitVec.ofNat 64 (size * 2 ^ 16 + base)) else none)]

/-- Something that HALT's mask selects is pending (R327). -/
def pends (s : State) (mask : Word) : Prop :=
  (mask.getLsbD 3 = true ∧ s.mine.tpWake = true) ∨
    ∃ n < 3, mask.getLsbD n = true ∧ (s.slotAt s.cur.p s.cur.c n).svc = true

/-- Windowed registers by their place on the window stack. -/
def winReg (x : Slot) (pos : Nat) : Word := mget 0 x.wregs pos
/-- A byte of host memory. -/
def hostByteOf (s : State) (a : Nat) : Byte := mget 0 s.hostMem a
/-- A little-endian field of host memory. -/
def hostField (s : State) (a n : Nat) : Nat := leNat (bytesAt s.hostMem a n)

/-! ### Coherence, cocoons, launches -/

/-- The request messages (R366), with the transaction each asks for. -/
noncomputable def requestForms : List ((CohMsg → Instr) × CohReq) :=
  [(.rds, .rds), (.rdx, .rdx), (.upg, .upg), (.ncrd, .ncrd), (.ncwr, .ncwr), (.atm, .atm)]
/-- The directory's entry of a message's line. -/
def entryOf (s : State) (m : CohMsg) : DirEntry := dirOf (s.part m.p).live m.line
/-- Messages of the partition under way. -/
def snoops (s : State) (p : Nat) : List Snoop := (s.part p).live.snoop
/-- The copy of a line in a core's L1. -/
def copyAt (s : State) (p c line : Nat) : Option L1Line := mfind? (s.coreAt p c).l1 line
/-- What the home asks of a die for the requester of m. -/
def asks (m : CohMsg) (k : SnoopKind) (keep : Bool) (die : Nat) : Snoop :=
  { kind := k, line := m.line, die := die, core := m.core, keep := keep }
/-- What it asks for a requester that keeps no copy (R366, R368). -/
def asksAll (m : CohMsg) (k : SnoopKind) (die : Nat) : Snoop := { asks m k false die with core := noCore }
/-- The completion message of a request. -/
def completes (m : CohMsg) (made : Bool) : Snoop :=
  { kind := .cmp, line := m.line, die := m.die, core := m.core, dirty := made }
/-- The home's slice holds no non-coherent copy, which the line that it takes could displace to memory (R352). -/
def homeCalm (s : State) (m : CohMsg) : Prop :=
  ∀ l ∈ (s.cluster m.p (homeOf (s.part m.p) (128 * m.line))).l2, l.cls ≠ .nc
/-- Memory's line sent to the requester. -/
def fills (m : CohMsg) (k : SnoopKind) (data : List Byte) : Snoop :=
  { kind := k, line := m.line, die := m.die, core := m.core, dirty := k == .datam, data := data }
/-- A die's answer to the home. -/
def answers (m : CohMsg) (k : SnoopKind) (dirty cut : Bool) (data : List Byte) : Snoop :=
  { kind := k, line := m.line, die := m.die, toHome := true, dirty := dirty, cut := cut, data := data }
/-- The transaction of a request is open at its home, waiting for the answers of some dies. -/
def Opened (t : State) (m : CohMsg) (q : CohReq) (waiting : List Nat) (asked : Bool) : Prop :=
  (entryOf t m).txn = some { req := q, die := m.die, core := m.core, waiting := waiting, asked := asked }
/-- The directory's state of a line, with no transaction in flight. -/
def Settled (t : State) (m : CohMsg) (st : DirState) (owner : Nat) (dies : List Nat) : Prop :=
  (entryOf t m).txn = none ∧ (entryOf t m).st = st ∧ (entryOf t m).owner = owner ∧ (entryOf t m).dies = dies
/-- Nothing of the line is left in a die but what some cores may keep. -/
def dieEmpty (t : State) (m : CohMsg) (but : Option Nat) : Prop :=
  ∀ c, dieOf c = m.die → but ≠ some c → copyAt t m.p c m.line = none

/-- A core's slots hold nothing that a launch's end waits for (R379). -/
def coreQuiet (s : State) (p c : Nat) : Prop :=
  (∀ n < 3, (s.slotAt p c n).st = .idle) ∧ (∀ e ∈ (s.coreAt p c).inq, e.2 = []) ∧ (s.coreAt p c).deque = []

/-! ### Host and platform -/

/-- Registers that the host writes as they are or under a mask (R349, R350, R373, R389): number, mask. -/
def maskedWrites : List (Nat × Word) :=
  [(0x204, 0x0000FFFFFFFF0001), (0x20E, 0x007FFFFFFFFF0000), (0x217, 0xFFFFFFFF)]
/-- Ring bases, with the greatest LOG2N (R350, R373, R389). -/
def ringBases : List (Nat × Nat) := [(0x205, 16), (0x209, 16), (0x211, 12), (0x214, 12), (0x219, 20)]
/-- Numbers that a host register write does not change (R349, R373, R389). -/
def hostReadOnly : List Nat := [0x200, 0x206, 0x20A, 0x210, 0x213, 0x215, 0x21A, 0x240, 0x25F, 0x260]
/-- An image passes its checks at bring-up or in the mailbox (R392, R394). -/
def passes (floor : Nat) (i : Image) : Prop :=
  i.formOk = true ∧ i.ecdsaOk = true ∧ i.lmsOk = true ∧ floor ≤ i.version ∧ i.fieldOk = true ∧ ∀ f ∈ i.fields, recOk f = true
/-- The version floor (R392): what the last record with a floor says whose form and signatures hold, else the one before. -/
def floorSaid (old : Nat) (recs : List Image) : Nat :=
  (((recs.filter fun i => i.formOk && i.ecdsaOk && i.lmsOk).flatMap (·.fields)).filterMap fun f => match f with
    | .floor n => some n
    | _ => none).getLast?.getD old
/-- The machine is as a field of a configuration record says (R392). -/
def carries (t : State) : RecField → Prop
  | .variant v => t.variant = v
  | .chip n => t.chipId = n
  | .spares die n => mget 16 t.spares die = n
  | .spareFor cl n => (cl, n) ∈ t.spareMap
  | .ckptInt n => t.boot.ckptInt.toNat = n
  | .quantum n => t.boot.quantum.toNat = n
  | .floor n => t.boot.floor = n
  | .route chip port => mfind? t.boot.routes chip = some port
  | .identity key chain => t.boot.identity = key ∧ t.boot.chain = chain
  | .debugEnable => True

/-- Registers that the spec gives a value at reset (R15, R317 to R321, R349, R350, R373, R389), with it. -/
def resetValues : List (Nat × Nat) :=
  [(0x020, 1), (0x021, 0), (0x030, 0), (0x040, 0), (0x041, 0), (0x042, 0), (0x043, 0), (0x048, 0), (0x100, 0), (0x101, 0),
   (0x102, 0), (0x103, 0), (0x104, 0), (0x105, 0), (0x106, 0), (0x110, 0), (0x111, 0), (0x112, 10000), (0x118, 0),
   (0x119, 50), (0x202, 50), (0x203, 20), (0x204, 0), (0x205, 0), (0x206, 0), (0x207, 0), (0x208, 0), (0x209, 0),
   (0x20A, 0), (0x20B, 0), (0x20C, 0), (0x20D, 0xFFFF), (0x20E, 0), (0x20F, 0), (0x210, 0), (0x211, 0), (0x212, 0),
   (0x213, 0), (0x214, 0), (0x215, 0), (0x216, 0), (0x217, 0), (0x218, 0), (0x219, 0), (0x21A, 16), (0x21B, 0), (0x220, 0),
   (0x22F, 0), (0x230, 0), (0x233, 0), (0x234, 0), (0x237, 0), (0x238, 0), (0x23F, 0)]

end Sys2Proof.Claims

open Sys2Proof Sys2Proof.Machine Sys2Proof.Safety Sys2Proof.Claims

/-! ### Scalar instructions -/

/-- R96, R97, R94: a register form of the integer table that issues writes the table's result and changes nothing else. -/
def Claims.IntegerRegisterForms : Prop :=
  ∀ (k : IntName) (x : Alu3) (s : State), Ready s x.c [x.a, x.b] [x.d] [] →
    ∃ t r, exec (k.reg x) s = .next t ∧
      atWidth x.w32 k.gives (sourceValue s.me [x.a, x.b] 0) (sourceValue s.me [x.a, x.b] 1) r ∧
      Wrote s t [x.a, x.b] x.d r 0

/-- R96, R97, R94: an immediate form likewise, its immediate extended as the table's last column says. -/
def Claims.IntegerImmediateForms : Prop :=
  ∀ (k : IntName) (x : AluI) (s : State), Ready s x.c [x.a] [x.d] [] →
    ∃ t r, exec (k.imm x) s = .next t ∧ atWidth x.w32 k.gives (sourceValue s.me [x.a] 0) (k.operand x.imm) r ∧
      Wrote s t [x.a] x.d r 0

/-- R94 to R98: the two-source integer instructions, register and immediate forms. -/
def Obligations.IntegerArithmetic : Prop := Claims.IntegerRegisterForms ∧ Claims.IntegerImmediateForms

/-- R98: CLZ, CTZ, POPC, BREV, BSWAP, ABS and NEG at both widths, SEXT and ZEXT. -/
def Claims.UnaryIntegerForms : Prop :=
  (∀ (k : UnName) (x : Un) (s : State), Ready s x.c [x.a] [x.d] [] →
    ∃ t r, exec (k.instr x) s = .next t ∧ atWidth x.w32 k.gives (sourceValue s.me [x.a] 0) 0 r ∧ Wrote s t [x.a] x.d r 0) ∧
  ∀ e ∈ extensions, ∀ (x : DA) (s : State), Ready s x.c [x.a] [x.d] [] →
    ∃ t r, exec (e.1 x) s = .next t ∧
      (∀ i < 64, r.getLsbD i = if i < e.2.1 then (sourceValue s.me [x.a] 0).getLsbD i
        else e.2.2 && (sourceValue s.me [x.a] 0).getLsbD (e.2.1 - 1)) ∧
      Wrote s t [x.a] x.d r 0

/-- R99, R100: MOV, MOVI, MOVHI and LEA. -/
def Claims.MovesAndAddresses : Prop :=
  (∀ (x : DA) (s : State), Ready s x.c [x.a] [x.d] [] →
    ∃ t, exec (.mov x) s = .next t ∧ Wrote s t [x.a] x.d (sourceValue s.me [x.a] 0) 0) ∧
  (∀ (x : MovI) (s : State), Ready s x.c [] [x.d] [] →
    ∃ t r, exec (.movi x) s = .next t ∧ r.toInt = x.imm.toInt ∧ Wrote s t [] x.d r 0) ∧
  (∀ (x : MovHi) (s : State), Ready s x.c [.s x.d] [.s x.d] [] →
    ∃ t r, exec (.movhi x) s = .next t ∧ r.toNat = x.imm.toNat * 2 ^ 32 + (readReg s.me x.d.toNat).toNat % 2 ^ 32 ∧
      Wrote s t [.s x.d] (.s x.d) r 0) ∧
  ∀ (x : Lea) (s : State), Ready s x.c [x.a, x.b] [x.d] [] →
    ∃ t r, exec (.lea x) s = .next t ∧
      (r.toNat : Int) = ((sourceValue s.me [x.a, x.b] 0).toNat + (sourceValue s.me [x.a, x.b] 1).toNat * 2 ^ x.sh.toNat +
        x.imm.toInt) % (2 ^ 64 : Nat) ∧
      Wrote s t [x.a, x.b] x.d r 0

/-- R97 to R100: one-source integer instructions, moves and LEA. -/
def Obligations.UnaryAndMoves : Prop := Claims.UnaryIntegerForms ∧ Claims.MovesAndAddresses

/-- R101: both forms of CMP write the condition of their operands to the predicate named. -/
def Claims.Comparisons : Prop :=
  (∀ (x : CmpR) (s : State), Ready s x.c [x.a, x.b] [] [x.p] →
    ∃ t b, exec (.cmp x) s = .next t ∧
      (b = true ↔ condAt x.w32 x.cond (sourceValue s.me [x.a, x.b] 0) (sourceValue s.me [x.a, x.b] 1)) ∧
      WrotePreds s t [x.a, x.b] (onePred s.me x.p b) 0) ∧
  ∀ (x : CmpI) (s : State), Ready s x.c [x.a] [] [x.p] →
    ∃ t b, exec (.cmpImm x) s = .next t ∧
      (b = true ↔ condAt x.w32 x.cond (sourceValue s.me [x.a] 0)
        (if ICond.unsigned x.cond then x.imm.setWidth 64 else x.imm.signExtend 64)) ∧
      WrotePreds s t [x.a] (onePred s.me x.p b) 0

/-- R102 to R106: predicate logic, PGET, PSET, SEL, QCNT, and GETE of a resolved e-slot. -/
def Claims.PredicateForms : Prop :=
  (∀ e ∈ logic3, ∀ (x : P3) (s : State), Ready s x.c [] [] [x.d, x.a, x.b] →
    ∃ t, exec (e.1 x) s = .next t ∧ WrotePreds s t [] (onePred s.me x.d (e.2 (readP s.me x.a) (readP s.me x.b))) 0) ∧
  (∀ e ∈ logic2, ∀ (x : P2) (s : State), Ready s x.c [] [] [x.d, x.a] →
    ∃ t, exec (e.1 x) s = .next t ∧ WrotePreds s t [] (onePred s.me x.d (e.2 (readP s.me x.a))) 0) ∧
  (∀ (x : D1) (s : State), Ready s x.c [] [x.d] allPreds →
    ∃ t r, exec (.pget x) s = .next t ∧
      (∀ i < 64, r.getLsbD i = (decide (i < 8) && readP s.me (BitVec.ofNat 3 i))) ∧ Wrote s t [] x.d r 0) ∧
  (∀ (x : Sys2Proof.PSet) (s : State), Ready s x.c [x.a] [] allPreds →
    ∃ t, exec (.pset x) s = .next t ∧
      WrotePreds s t [x.a]
        (fun q => if x.mask.getLsbD q.toNat then (sourceValue s.me [x.a] 0).getLsbD q.toNat else readP s.me q) 0) ∧
  (∀ (x : Sel) (s : State), Ready s x.c [x.a, x.b] [x.d] [x.p] →
    ∃ t, exec (.sel x) s = .next t ∧
      Wrote s t [x.a, x.b] x.d (sourceValue s.me [x.a, x.b] (if readP s.me x.p then 0 else 1)) 0) ∧
  (∀ (x : QCnt) (s : State), Ready s x.c [] [x.d] [] →
    ∃ t, exec (.qcnt x) s = .next t ∧ Wrote s t [] x.d (BitVec.ofNat 64 (queueOf s.me x.q.toNat).length) 0) ∧
  ∀ (x : GetE) (b : Bool) (s : State), Ready s x.c [] [] [x.p] → eguard s.me x.e.toNat = .known b →
    ∃ t, exec (.gete x) s = .next t ∧ WrotePreds s t [] (onePred s.me x.p b) 0

/-- R101 to R106: CMP and the predicate instructions. -/
def Obligations.ComparesAndPredicates : Prop := Claims.Comparisons ∧ Claims.PredicateForms

/-! ### Floating point -/

/-- R107 to R109: the rounded forms complete with the operation of their table in the mode of their rounding code; an f32
result is zero-extended, and the flags are ORed into FSTAT. -/
def Claims.FpRounded : Prop :=
  (∀ e ∈ fp2Forms, ∀ (x : F2) (s : State), Ready s x.c [x.a, x.b] [x.d] [] →
    ∃ t, exec (e.1 x) s = .next t ∧
      let r := e.2 (formatOf x.f64) (roundingOf s.me x.rnd) (operandBits x.f64 (sourceValue s.me [x.a, x.b] 0))
        (operandBits x.f64 (sourceValue s.me [x.a, x.b] 1))
      Wrote s t [x.a, x.b] x.d (BitVec.ofNat 64 r.1) r.2) ∧
  (∀ (x : F1) (s : State), Ready s x.c [x.a] [x.d] [] →
    ∃ t, exec (.fsqrt x) s = .next t ∧
      let r := (formatOf x.f64).sqrt (roundingOf s.me x.rnd) (operandBits x.f64 (sourceValue s.me [x.a] 0))
      Wrote s t [x.a] x.d (BitVec.ofNat 64 r.1) r.2) ∧
  ∀ e ∈ fp3Forms, ∀ (x : F3) (s : State), Ready s x.c [x.a, x.b, x.cc] [x.d] [] →
    ∃ t, exec (e.1 x) s = .next t ∧
      let v (i : Nat) : FV := (formatOf x.f64).read (operandBits x.f64 (sourceValue s.me [x.a, x.b, x.cc] i))
      let r := (formatOf x.f64).fmaV (roundingOf s.me x.rnd) (signed e.2.1 (v 0)) (v 1) (signed e.2.2 (v 2))
      Wrote s t [x.a, x.b, x.cc] x.d (BitVec.ofNat 64 r.1) r.2

/-- R52, R53, R108: FABS, FNEG and FCOPYSIGN change the sign alone, FMIN and FMAX pass over a NaN. -/
def Claims.FpSignsAndExtrema : Prop :=
  (∀ (x : F1n) (s : State), Ready s x.c [x.a] [x.d] [] →
    let f := formatOf x.f64
    let a := operandBits x.f64 (sourceValue s.me [x.a] 0)
    (∃ t r, exec (.fabs x) s = .next t ∧ signResult f a false r ∧ Wrote s t [x.a] x.d (BitVec.ofNat 64 r.1) r.2) ∧
    ∃ t r, exec (.fneg x) s = .next t ∧ signResult f a (!signBit f a) r ∧ Wrote s t [x.a] x.d (BitVec.ofNat 64 r.1) r.2) ∧
  ∀ (x : F2n) (s : State), Ready s x.c [x.a, x.b] [x.d] [] →
    let f := formatOf x.f64
    let a := operandBits x.f64 (sourceValue s.me [x.a, x.b] 0)
    let b := operandBits x.f64 (sourceValue s.me [x.a, x.b] 1)
    (∃ t r, exec (.fcopysign x) s = .next t ∧ signResult f a (signBit f b) r ∧
      Wrote s t [x.a, x.b] x.d (BitVec.ofNat 64 r.1) r.2) ∧
    (∃ t r, exec (.fmin x) s = .next t ∧ extremum f false a b r ∧ Wrote s t [x.a, x.b] x.d (BitVec.ofNat 64 r.1) r.2) ∧
    ∃ t r, exec (.fmax x) s = .next t ∧ extremum f true a b r ∧ Wrote s t [x.a, x.b] x.d (BitVec.ofNat 64 r.1) r.2

/-- R110 to R112: FCMP writes its predicate, FCVT the converted value as R111 extends it, FCLASS its class and no flag. -/
def Claims.FpCompareConvertClassify : Prop :=
  (∀ (x : FCmp) (s : State), Ready s x.c [x.a, x.b] [] [x.p] →
    ∃ t, exec (.fcmp x) s = .next t ∧
      let r := (formatOf x.f64).cmp x.cond (operandBits x.f64 (sourceValue s.me [x.a, x.b] 0))
        (operandBits x.f64 (sourceValue s.me [x.a, x.b] 1))
      WrotePreds s t [x.a, x.b] (onePred s.me x.p r.1) r.2) ∧
  (∀ (x : FCvt) (s : State), Ready s x.c [x.a, x.b, x.cc] [x.d] [] →
    ∃ t v, exec (.fcvt x) s = .next t ∧
      let mode := if x.rnd = .sr then
          RMode.sr (srBits (sourceValue s.me [x.a, x.b, x.cc] 1) (sourceValue s.me [x.a, x.b, x.cc] 2))
        else roundingOf s.me x.rnd
      let r := tyConvert x.src x.dst mode (sourceValue s.me [x.a, x.b, x.cc] 0).toNat
      (∀ i < 64, v.getLsbD i = if i < x.dst.bits then r.1.testBit i
        else x.dst.isInt && x.dst.signed && r.1.testBit (x.dst.bits - 1)) ∧
      Wrote s t [x.a, x.b, x.cc] x.d v r.2) ∧
  ∀ (x : F1n) (s : State), Ready s x.c [x.a] [x.d] [] →
    ∃ t, exec (.fclass x) s = .next t ∧
      Wrote s t [x.a] x.d
        (BitVec.ofNat 64 ((formatOf x.f64).classify (operandBits x.f64 (sourceValue s.me [x.a] 0)))) 0

/-- R108 to R112: the other scalar floating-point instructions. -/
def Obligations.FpSelectionsAndConversions : Prop := Claims.FpSignsAndExtrema ∧ Claims.FpCompareConvertClassify

/-- R52: the rounded forms give the canonical NaN for any NaN operand, and raise NV for a signalling one; a fused form's
invalid product raises it too. -/
def Claims.NaNOperands : Prop :=
  ∀ f ∈ [Machine.f32, Machine.f64], ∀ (mode : RMode) (a b c : Nat),
    (isNaN f a ∨ isNaN f b → ∀ e ∈ fp2Forms,
      e.2 f mode a b = (f.nan, if isSignalling f a ∨ isSignalling f b then fNV else 0)) ∧
    (isNaN f a → f.sqrt mode a = (f.nan, if isSignalling f a then fNV else 0)) ∧
    (isNaN f a ∨ isNaN f b ∨ isNaN f c → ∀ n m : Bool,
      f.fmaV mode (signed n (f.read a)) (f.read b) (signed m (f.read c)) =
        (f.nan, if isSignalling f a ∨ isSignalling f b ∨ isSignalling f c ∨
          (mulV (f.read a) (f.read b)).2 = fNV then fNV else 0))

/-- R107 to R109: rounded arithmetic, and what it gives on a NaN. -/
def Obligations.FpArithmetic : Prop := Claims.FpRounded ∧ Claims.NaNOperands

/-! ### Control -/

/-- R113, R114, R87: BR and JMP change nothing but the PC; a misaligned target of JMP is cause 0x05. -/
def Claims.Jumps : Prop :=
  (∀ (x : Off) (s : State), Ready s x.c [] [] [] →
    ∃ t, exec (.br x) s = .next t ∧ Jumped s t [] (codeTarget s.me.pc x.off)) ∧
  ∀ (x : AOff) (s : State), Ready s x.c [x.a] [] [] →
    let target := baseTarget (sourceValue s.me [x.a] 0) x.off
    (target.toNat % 4 = 0 → ∃ t, exec (.jmp x) s = .next t ∧ Jumped s t [x.a] target) ∧
    (target.toNat % 4 ≠ 0 → ∃ t, exec (.jmp x) s = .next t ∧ Trapped s t 0x05 target)

/-- R41, R115: CALL and CALLR enter a function; where a spill would pass the end of the WSPILL region they trap. -/
def Obligations.Calls : Prop :=
  (∀ (x : Off) (s : State), Ready s x.c [] [] [] → frameOk s.me.frame →
    windowFree s.me (s.me.wbase + s.me.frame - 1) (s.me.wbase + s.me.frame + 8) →
    (spillFits s.me (spillNeed s.me (s.me.wbase + s.me.frame - 8 + 16)) = true →
      ∃ t, exec (.call x) s = .next t ∧ Called s t [] (codeTarget s.me.pc x.off) (s.me.pc + 12)) ∧
    (spillFits s.me (spillNeed s.me (s.me.wbase + s.me.frame - 8 + 16)) = false →
      ∃ t, exec (.call x) s = .next t ∧ Trapped s t 0x18 0)) ∧
  ∀ (x : AOff) (s : State), Ready s x.c [x.a] [] [] → frameOk s.me.frame →
    windowFree s.me (s.me.wbase + s.me.frame - 1) (s.me.wbase + s.me.frame + 8) →
    let target := baseTarget (sourceValue s.me [x.a] 0) x.off
    (target.toNat % 4 ≠ 0 → ∃ t, exec (.callr x) s = .next t ∧ Trapped s t 0x05 target) ∧
    (target.toNat % 4 = 0 → spillFits s.me (spillNeed s.me (s.me.wbase + s.me.frame - 8 + 16)) = true →
      ∃ t, exec (.callr x) s = .next t ∧ Called s t [x.a] target (s.me.pc + 12)) ∧
    (target.toNat % 4 = 0 → spillFits s.me (spillNeed s.me (s.me.wbase + s.me.frame - 8 + 16)) = false →
      ∃ t, exec (.callr x) s = .next t ∧ Trapped s t 0x18 0)

/-- R42, R116: RET with a caller slides the window back; at depth 0 it ends the activation, whatever s23 holds. In slot 3, which
never becomes Idle, it then only goes on (the model's choice, log entry 60). -/
def Claims.Returns : Prop :=
  (∀ (x : C0) (s : State), Ready s x.c [] [] [] → s.me.frames = [] →
    (s.cur.n ≠ 3 → ∃ t, exec (.ret x) s = .next t ∧ t = endActivation (taken s []) s.cur ∧ t.me.st = .idle) ∧
    (s.cur.n = 3 → ∃ t, exec (.ret x) s = .next t ∧ Jumped s t [] (s.me.pc + 12))) ∧
  ∀ (x : C0) (s : State) (f : Frame) (rest : List Frame), Ready s x.c [] [] [] → s.me.frames = f :: rest → frameOk f.f →
    frameOk s.me.frame → f.f - 8 ≤ s.me.wbase → depends s.me [.s 23] = false →
    windowFree s.me (s.me.wbase + 8) (s.me.wbase + s.me.frame) →
    ((readReg s.me 23).toNat % 4 = 0 → ∃ t, exec (.ret x) s = .next t ∧ Returned s t f) ∧
    ((readReg s.me 23).toNat % 4 ≠ 0 → ∃ t, exec (.ret x) s = .next t ∧ Trapped s t 0x05 (readReg s.me 23))

/-- R40, R117: FRAME changes the frame size and the registers it exposes or drops, and nothing else. -/
def Claims.FrameSize : Prop :=
  ∀ (x : FrameI) (s : State), Ready s x.c [] [] [] → frameOk s.me.frame → frameOk x.f.toNat →
    windowFree s.me (s.me.wbase + min x.f.toNat s.me.frame) (s.me.wbase + max x.f.toNat s.me.frame) →
    (spillFits s.me (spillNeed s.me (s.me.wbase + x.f.toNat)) = false →
      ∃ t, exec (.frame x) s = .next t ∧ Trapped s t 0x18 0) ∧
    (spillFits s.me (spillNeed s.me (s.me.wbase + x.f.toNat)) = true →
      ∃ t, exec (.frame x) s = .next t ∧ OnlySlot s t ∧ t.me.pc = s.me.pc + 12 ∧ settled t.me ∧
        t.me.frame = x.f.toNat ∧ t.me.wbase = s.me.wbase ∧ t.me.frames = s.me.frames ∧
        (∀ n, readReg t.me n = if n < 16 + min x.f.toNat s.me.frame then readReg s.me n else 0) ∧
        (∀ pos < s.me.wbase, mget 0 t.me.wregs pos = mget 0 s.me.wregs pos) ∧
        t.me.preds = s.me.preds ∧ t.me.queues = s.me.queues ∧ t.me.fstat = s.me.fstat)

/-- R40, R42, R116, R117: RET and FRAME. -/
def Obligations.ReturnsAndFrames : Prop := Claims.Returns ∧ Claims.FrameSize

/-- R41, R42: a call and the return from it bring back the caller's window: every register of the caller below its outs,
and every windowed register of its own callers. -/
def Obligations.CallThenReturn : Prop :=
  ∀ (x : Off) (y : C0) (s t u : State), Ready s x.c [] [] [] → frameOk s.me.frame → s.me.wbase + s.me.frame + 8 ≤ 64 →
    s.me.spilled = 0 → exec (.call x) s = .next t → t.me.fillTo = none → t.me.frames = ⟨s.me.frame, none⟩ :: s.me.frames →
    Ready t y.c [] [] [] → exec (.ret y) t = .next u → u.me.frames = s.me.frames →
    u.me.frame = s.me.frame ∧ u.me.wbase = s.me.wbase ∧
    (∀ n < 8 + s.me.frame, readReg u.me n = readReg s.me n) ∧
    (∀ pos < s.me.wbase, mget 0 u.me.wregs pos = mget 0 s.me.wregs pos)

/-- R15, R16, R118: MOVS reads every user special register; an unassigned number is cause 0x02, and a number of the
privileged ranges traps as R118 says. -/
def Claims.SpecialRegisterReads : Prop :=
  ∀ (x : MovsR) (s : State), Ready s x.c [] [x.d] [] →
    (∀ e ∈ specials, x.num.toNat = e.1 → ∃ t, exec (.movs x) s = .next t ∧ Wrote s t [] x.d (e.2 s) 0) ∧
    (x.num.toNat < 0x100 → x.num.toNat ∉ specials.map (·.1) → ∃ t, exec (.movs x) s = .next t ∧ Trapped s t 0x02 0) ∧
    (0x100 ≤ x.num.toNat → ∃ t, exec (.movs x) s = .next t ∧ Trapped s t (privilegedCause s.cur.n x.num.toNat) 0)

/-- R16, R54, R118, R119: MOVSW sets the register that MOVS then reads, or traps where its value or its number is refused. -/
def Claims.SpecialRegisterWrites : Prop :=
  ∀ (x : MovsW) (s : State), Ready s x.c [x.a] [] [] →
    (∀ e ∈ writableSpecials, x.num.toNat = e.1 →
      (∀ v, e.2 (sourceValue s.me [x.a] 0) = some v →
        ∃ t, exec (.movsw x) s = .next t ∧ userRead t s.cur e.1 = some v ∧ t.me.pc = s.me.pc + 12 ∧ t.me.st = .ready ∧
          (∀ k, k ≠ e.1 → k ≠ 0x021 → userRead t s.cur k = userRead s s.cur k) ∧
          (∀ n, readReg t.me n = readReg s.me n) ∧ (∀ a, physRead t a 1 = physRead s a 1)) ∧
      (e.2 (sourceValue s.me [x.a] 0) = none → ∃ t, exec (.movsw x) s = .next t ∧ Trapped s t 0x02 0)) ∧
    (x.num.toNat < 0x100 → x.num.toNat ∉ writableSpecials.map (·.1) →
      ∃ t, exec (.movsw x) s = .next t ∧ Trapped s t 0x02 0) ∧
    (0x100 ≤ x.num.toNat → ∃ t, exec (.movsw x) s = .next t ∧ Trapped s t (privilegedCause s.cur.n x.num.toNat) 0)

/-- R15, R16, R54, R118, R119: MOVS and MOVSW. -/
def Obligations.SpecialRegisters : Prop := Claims.SpecialRegisterReads ∧ Claims.SpecialRegisterWrites

/-- R120, R121: TRAP and BRK take their trap, with the code in BADADDR. -/
def Claims.SoftwareTraps : Prop :=
  ∀ (x : Off) (s : State), Ready s x.c [] [] [] →
    (∃ t, exec (.trap x) s = .next t ∧ Trapped s t 0x38 (x.off.setWidth 64)) ∧
    ∃ t, exec (.brk x) s = .next t ∧ Trapped s t 0x30 (x.off.setWidth 64)

/-- R87, R113, R114, R120, R121: BR, JMP, TRAP and BRK. -/
def Obligations.JumpsAndTraps : Prop := Claims.Jumps ∧ Claims.SoftwareTraps

/-- R122: SYNCI, once the slot's stores have been performed, drops every line of the range from its octet's instruction cache
and no other line. -/
def Claims.Synci : Prop :=
  ∀ (x : AB) (s : State), Ready s x.c [x.a, x.b] [] [] → s.me.sb = [] → s.me.unacked = [] →
    ∃ t, exec (.synci x) s = .next t ∧ t.me.pc = s.me.pc + 12 ∧ t.me.st = .ready ∧
      (∀ line, (∃ b : Word, b.toNat / 128 = line ∧
          b - sourceValue s.me [x.a, x.b] 0 < sourceValue s.me [x.a, x.b] 1) →
        ∀ bs, (line, bs) ∉ (t.octet s.cur.p (octetOf s.cur.c)).icache) ∧
      (∀ e ∈ (s.octet s.cur.p (octetOf s.cur.c)).icache,
        (¬∃ b : Word, b.toNat / 128 = e.1 ∧ b - sourceValue s.me [x.a, x.b] 0 < sourceValue s.me [x.a, x.b] 1) →
        e.1 < 2 ^ 57 → e ∈ (t.octet s.cur.p (octetOf s.cur.c)).icache) ∧
      (∀ n, readReg t.me n = readReg s.me n) ∧ ∀ a, physRead t a 1 = physRead s a 1

/-! ### Memory -/

/-- R123, R125, R286: an access by a global address that passes the checks of R46 is accepted as it issues: a load, store or
atomic goes on at the next instruction, a barrier-object instruction stays Blocked until its answer. One that fails them
traps. -/
def Claims.GlobalAccesses : Prop :=
  ∀ (i : Instr) (m : MemForm) (s : State), memForm i = some m → Ready s m.c m.srcs m.dsts m.ps → (m.ea s).msb = true →
    (∀ pl off, globalPlace s s.cur.p s.cur.c (m.ea s) m.size m.size = .ok (pl, off) →
      roomFor s.me (m.kind (sourceValue s.me m.srcs)) →
      ∃ t, exec i s = .next t ∧ AccessTaken s t m.srcs (m.acc s pl) ∧
        (isBarrier (m.acc s pl).kind → t.me.pc = s.me.pc ∧ t.me.st = .blocked ∧ t.me.wait = .barrier) ∧
        (¬isBarrier (m.acc s pl).kind → t.me.pc = s.me.pc + 12 ∧ t.me.st = .ready)) ∧
    ∀ f, globalPlace s s.cur.p s.cur.c (m.ea s) m.size m.size = .error f →
      ∃ t, exec i s = .next t ∧ Trapped s t f.cause f.bad

/-- R46: a global address names scratchpad or cluster-store bytes of a core of the partition, or it is cause 0x0B; an
address that is no multiple of the size is cause 0x06. -/
def Claims.GlobalAddresses : Prop :=
  ∀ (s : State) (p me : Nat) (a : Word) (size : Nat), 0 < size →
    let core := namedCore me a false
    let region := a.toNat / 2 ^ 28 % 16
    let off := a.toNat % 2 ^ 28
    let bytes := if region = 0 then 16384 else storeSize s p core
    (region < 2 ∧ (s.part p).hasCore core = true ∧ off % size = 0 ∧ off + size ≤ bytes ↔
      ∃ pl, globalPlace s p me a size size = .ok (pl, off)) ∧
    (region = 0 → off % size = 0 → off + size ≤ 16384 → (s.part p).hasCore core = true →
      globalPlace s p me a size size = .ok (if core = me then .own me else .spad core, off)) ∧
    (region < 2 → (s.part p).hasCore core = true → off < bytes → off % size ≠ 0 →
      globalPlace s p me a size size = .error ⟨0x06, a⟩) ∧
    (2 ≤ region ∨ (s.part p).hasCore core = false ∨ bytes ≤ off → globalPlace s p me a size size = .error ⟨0x0B, a⟩)

/-- R46, R123, R125, R286: accesses through the global form. -/
def Obligations.GlobalForm : Prop := Claims.GlobalAccesses ∧ Claims.GlobalAddresses

/-- R123, R124: an access by a virtual address waits for its home's accept message, with no effect yet; a misaligned one, one
of neither form, and a barrier object outside the global form trap. -/
def Obligations.VirtualAccesses : Prop :=
  ∀ (i : Instr) (m : MemForm) (s : State), memForm i = some m → Ready s m.c m.srcs m.dsts m.ps → (m.ea s).msb = false →
    let bar := isBarrier (m.kind (sourceValue s.me m.srcs))
    ((m.ea s).toNat < 2 ^ 55 → ¬bar → (m.ea s).toNat % m.size = 0 →
      ∃ t, exec i s = .next t ∧ WaitsAt s t .accept ∧ t.me.pend.isSome = true) ∧
    ((m.ea s).toNat < 2 ^ 55 → ¬bar → (m.ea s).toNat % m.size ≠ 0 →
      ∃ t, exec i s = .next t ∧ Trapped s t 0x06 (m.ea s)) ∧
    (2 ^ 55 ≤ (m.ea s).toNat ∨ bar → ∃ t, exec i s = .next t ∧ Trapped s t 0x08 (m.ea s))

/-- R133, R132, R140: a range operation of no bytes has no effect, a range of virtual lines waits for its pages to be
accepted, a malformed one traps; PF is a hint; FENCE waits for the slot's accesses as its order and scope say. -/
def Claims.RangesHintsAndFences : Prop :=
  (∀ e ∈ rangeForms, ∀ (x : AB) (s : State), Ready s x.c [x.a, x.b] [] [] →
    let a := sourceValue s.me [x.a, x.b] 0
    let len := (sourceValue s.me [x.a, x.b] 1).toNat
    (len = 0 → ∃ t, exec (e.1 x) s = .next t ∧ Jumped s t [x.a, x.b] (s.me.pc + 12)) ∧
    (0 < len → a.toNat + len ≤ 2 ^ 55 → len ≤ 0x1000000 → (e.2 = .zero → a.toNat % 128 = 0 ∧ len % 128 = 0) →
      ∃ t, exec (e.1 x) s = .next t ∧ WaitsAt s t .accept ∧ t.me.pend.isSome = true) ∧
    (0 < len → 2 ^ 55 < a.toNat + len → ∃ t, exec (e.1 x) s = .next t ∧ Trapped s t 0x08 a) ∧
    (a.toNat + len ≤ 2 ^ 55 → 0x1000000 < len → ∃ t, exec (e.1 x) s = .next t ∧ Trapped s t 0x02 0) ∧
    (e.2 = .zero → 0 < len → a.toNat + len ≤ 2 ^ 55 → len ≤ 0x1000000 → a.toNat % 128 ≠ 0 ∨ len % 128 ≠ 0 →
      ∃ t, exec (e.1 x) s = .next t ∧ Trapped s t 0x06 a)) ∧
  (∀ (x : PfI) (s : State), Ready s x.c [x.a] [] [] →
    ∃ t, exec (.pf x) s = .next t ∧ Jumped s t [x.a] (s.me.pc + 12)) ∧
  ∀ (x : FenceI) (s : State), Ready s x.c [] [] [] →
    let releases : Prop := x.ord = .rel ∨ x.ord = .ar ∨ x.ord = .sc
    let acquires : Prop := x.ord = .acq ∨ x.ord = .ar ∨ x.ord = .sc
    let passed : Prop := (x.ord ≠ .rel → s.me.lq = []) ∧ (releases → performedAt s.me x.scope)
    (passed → ∃ t, exec (.fence x) s = .next t ∧
      Jumped (updMe s fun y => { y with seen := t.me.seen, freed := t.me.freed }) t [] (s.me.pc + 12) ∧
      (∀ ev, ev ∈ t.me.seen ↔ ev ∈ s.me.seen ∨ acquires ∧ ev ∈ s.me.told) ∧
      ∀ v, v ∈ t.me.freed ↔ v ∈ s.me.freed ∨ releases ∧ ∃ ev ∈ t.me.seen, v = (ev, s.cur.c, x.scope)) ∧
    (¬passed → ∃ t, exec (.fence x) s = .next t ∧ WaitsAt s t .memory)

/-- R133, R134, R285, R297: a range operation at the line it has come to, once what its cluster posted before it to the line's place
is performed. In a window, the cluster's copy: CFLUSH writes its dirty bytes to memory and drops it, CCLEAN writes them and keeps it
clean, CINV drops it, CZERO leaves it zero and dirty. Elsewhere, at the home of a line that is in no transaction and not locked:
CFLUSH and CINV leave no core a copy, and memory holds the dirty one; CCLEAN leaves the owner's copy in S, and memory holds its data;
CZERO leaves no copy and zeros in memory. The line done, the operation goes on at the next, and answers after its last. -/
def Claims.RangeLines : Prop :=
  ∀ (s : State) (p i : Nat) (e : Acc) (op : RangeOp) (len : Nat) (l : Leaf) (win : Bool), AtPlace s p i e →
    e.kind = .range op len → (∃ c, e.place = .home c ∨ e.place = .ncCopy c) → (s.part p).mig = none → logRoom s p →
    let line := e.off / 128 + e.prog
    let cl := clusterOf e.core
    let pa := l.pa + 128 * line % 65536
    let go := exec (.perform p i) s
    let onward (t : State) : Prop :=
      if line < (e.off + len - 1) / 128 then
        (t.part p).live.delivered = (s.part p).live.delivered.set i { e with prog := e.prog + 1 } ∧
          (t.part p).live.resps = (s.part p).live.resps
      else Performed s t p i e {}
    let spads (t : State) : Prop := ∀ p' c off, spadByte t p' c off = spadByte s p' c off
    let x := s.cluster p cl
    e.pages[line / 512 - e.off / 65536]? = some (l, win) →
    (lineBehind s p e line = true → op ≠ .zero → go = .next s) ∧
    (lineBehind s p e line = false → win = true →
      let cleaned (t : State) : Prop := ∀ a, memByte t a =
        if a / 128 = pa / 128 ∧ mget false x.ncDirty (128 * line + a % 128) = true then mget 0 x.nc (128 * line + a % 128)
        else memByte s a
      let dropped (t : State) : Prop := ∀ off, mfind? (t.cluster p cl).nc off = if off / 128 = line then none else mfind? x.nc off
      (op = .flush → ∃ t, go = .next t ∧ onward t ∧ spads t ∧ cleaned t ∧ dropped t) ∧
      (op = .clean → ∃ t, go = .next t ∧ onward t ∧ spads t ∧ cleaned t ∧ (t.cluster p cl).nc = x.nc ∧
        ∀ off, mget false (t.cluster p cl).ncDirty off = if off / 128 = line then false else mget false x.ncDirty off) ∧
      (op = .inv → ∃ t, go = .next t ∧ onward t ∧ sameBytes s t ∧ dropped t) ∧
      (op = .zero → l.d = true → (∃ y ∈ x.l2, y.line = line ∧ y.cls = .nc) → ∃ t, go = .next t ∧ onward t ∧ sameBytes s t ∧
        ∀ off, (off / 128 = line → mfind? (t.cluster p cl).nc off = some 0 ∧ mget false (t.cluster p cl).ncDirty off = true) ∧
          (off / 128 ≠ line → mfind? (t.cluster p cl).nc off = mfind? x.nc off))) ∧
    (lineBehind s p e line = false → win = false → lineBusy s p line = false → lineLocked s p line = false →
      let dirty := dirtyCopy (s.part p).live line
      let home := (dirOf (s.part p).live line).pa
      let gone (t : State) : Prop := ∀ c, copyAt t p c line = none
      (op = .flush ∨ op = .inv → ∃ t, go = .next t ∧ onward t ∧ spads t ∧ gone t ∧
        (∀ c, ∀ y ∈ (t.cluster p c).l2, y.line = line → y.cls = .nc) ∧
        (dirty = none → ∀ a, memByte t a = memByte s a) ∧
        ∀ d cut, dirty = some (d, cut) → d.length = 128 → memWritten s t home d) ∧
      (op = .clean → (∀ k ∈ (s.part p).live.cores, ∀ y, mfind? k.2.l1 line = some y → y.st = .s) →
        ∃ t, go = .next t ∧ onward t ∧ sameBytes s t ∧ ∀ c, copyAt t p c line = copyAt s p c line) ∧
      (op = .clean → ∀ c y, copyAt s p c line = some y → y.st ≠ .s →
        (∀ k ∈ (s.part p).live.cores, ∀ z, mfind? k.2.l1 line = some z → z.st ≠ .s → k.1 = c ∧ z = y) → y.data.length = 128 →
        ∃ t, go = .next t ∧ onward t ∧ spads t ∧
          (∃ z, copyAt t p c line = some z ∧ z.st = .s ∧ z.dirty = false ∧ z.data = y.data) ∧
          (y.dirty = true → memWritten s t home y.data) ∧ (y.dirty = false → ∀ a, memByte t a = memByte s a)) ∧
      (op = .zero → l.d = true → (∀ d cut, dirty = some (d, cut) → d.length = 128 ∧ home = pa) →
        ∃ t, go = .next t ∧ onward t ∧ spads t ∧ gone t ∧ memWritten s t pa (List.replicate 128 0)))

/-- R122, R132, R133, R134, R140, R297: PF, the range operations and what they do line by line, FENCE and SYNCI. -/
def Obligations.RangesHintsFencesAndSynci : Prop := Claims.RangesHintsAndFences ∧ Claims.RangeLines ∧ Claims.Synci

/-- R53, R135, R136: the values atomics leave; a floating-point addition rounds to nearest even, gives the canonical NaN with NV
for a NaN operand, and bf16x2 adds its halves apart; FMIN and FMAX are minimumNumber and maximumNumber with their flags. -/
def Obligations.AtomicValues : Prop :=
  (∀ (op : AmoOp) (w old b c : Nat), w = 32 ∨ w = 64 → old < 2 ^ w → b < 2 ^ w → c < 2 ^ w →
    amoGives op w old b c (amoNew op w old b c).1 ∧ (op.isFloat = false → (amoNew op w old b c).2 = 0)) ∧
  (∀ e ∈ [(AmoOp.faddF32, Machine.f32, 32), (.faddF64, Machine.f64, 64)], ∀ old b c : Nat,
    amoNew e.1 e.2.2 old b c = if isNaN e.2.1 old ∨ isNaN e.2.1 b then (e.2.1.nan, fNV) else e.2.1.add .rne old b) ∧
  (∀ old b c : Nat, old < 2 ^ 32 → b < 2 ^ 32 →
    extremum Machine.f32 false old b (amoNew .fminF32 32 old b c) ∧ extremum Machine.f32 true old b (amoNew .fmaxF32 32 old b c)) ∧
  ∀ old b c : Nat, old < 2 ^ 32 → b < 2 ^ 32 →
    let half (x y : Nat) : Nat × Flags :=
      if isNaN Machine.bf16 x ∨ isNaN Machine.bf16 y then (Machine.bf16.nan, fNV) else Machine.bf16.add .rne x y
    let lo := half (old % 2 ^ 16) (b % 2 ^ 16)
    let hi := half (old / 2 ^ 16) (b / 2 ^ 16)
    amoNew .faddBf16x2 32 old b c = (lo.1 + 2 ^ 16 * hi.1, lo.2 ||| hi.2)

/-- R141, R142, R143: a barrier word's layout; INIT, EXPECT, ARRIVE and ARRIVEX with their refusals; the completion check;
WAIT and TEST compare the phase with the token. -/
def Obligations.BarrierObjects : Prop :=
  (∀ b : Bar, b.pend < 2 ^ 16 → b.expect < 2 ^ 16 → -2 ^ 30 ≤ b.bytes → b.bytes < 2 ^ 30 →
    Bar.read b.word = b ∧ (b.word.testBit 63 = b.phase) ∧ b.word % 2 ^ 16 = b.expect ∧ b.word / 2 ^ 16 % 2 ^ 16 = b.pend) ∧
  ∀ (b : Bar) (v : Word),
    let complete (x : Bar) : Bar :=
      if x.pend = 0 ∧ x.bytes = 0 then ⟨!x.phase, 0, x.expect, x.expect⟩ else x
    let fits (i : Int) : Prop := -2 ^ 30 ≤ i ∧ i < 2 ^ 30
    (∀ n, v.toNat = n → 1 ≤ n → n < 2 ^ 16 → barOp .init b v = .done ⟨false, 0, n, n⟩ 0) ∧
    (v.toNat = 0 ∨ 2 ^ 16 ≤ v.toNat → barOp .init b v = .trap) ∧
    (0 < b.pend → barOp .arrive b v = .done (complete { b with pend := b.pend - 1 }) (if b.phase then 1 else 0)) ∧
    (b.pend = 0 → barOp .arrive b v = .trap ∧ barOp .arrivex b v = .trap) ∧
    (0 < b.pend → fits v.toInt → fits (b.bytes + v.toInt) → barOp .arrivex b v =
      .done (complete { b with pend := b.pend - 1, bytes := b.bytes + v.toInt }) (if b.phase then 1 else 0)) ∧
    (fits v.toInt → fits (b.bytes + v.toInt) → barOp .expect b v =
      .done (complete { b with bytes := b.bytes + v.toInt }) 0) ∧
    (¬fits v.toInt ∨ ¬fits (b.bytes + v.toInt) → barOp .expect b v = .trap ∧ barOp .arrivex b v = .trap) ∧
    (b.phase ≠ v.getLsbD 0 → barOp .wait b v = .done b 0 ∧ barOp .test b v = .done b 1) ∧
    (b.phase = v.getLsbD 0 → barOp .wait b v = .wait ∧ barOp .test b v = .done b 0)

/-- R48, R135, R136, R142, R216, R285, R287: a core's agent performs a request for its scratchpad, and a cluster store or a
cluster's own copy of a line an access to it: loads, stores, pairs, atomics and operations on barrier objects. -/
def Obligations.ScratchpadRequests : Prop :=
  ∀ (s : State) (p i : Nat) (e : Acc), AtPlace s p i e → (∀ h, e.place ≠ .home h) → placeReady s p e → logRoom s p →
    performs s p i e

/-- R285, R287, R361: a caching core's load or pair answers from its own usable copy of the line, and its store changes that copy
alone while it is in E or M. -/
def Claims.CachedAccesses : Prop :=
  ∀ (s : State) (p i h c : Nat) (e : Acc) (l : L1Line), AtPlace s p i e → e.place = .home h → s.memErrors = [] →
    e.caches = some c → e.byHost = false → copyAt s p c (e.off / 128) = some l → l.usable = true → l.data.length = 128 →
    let own (k : Nat) : Byte := l.data.getD (e.off % 128 + k) 0
    (∀ n sg, e.kind = .load n sg → 1 ≤ n → e.off % 128 + n ≤ 128 → n ≤ 8 →
      ∃ t v, exec (.perform p i) s = .next t ∧ Performed s t p i e { v := v } ∧ sameBytes s t ∧ loadGives own n sg v) ∧
    (e.kind = .loadPair → e.off % 128 + 16 ≤ 128 →
      ∃ t v w, exec (.perform p i) s = .next t ∧ Performed s t p i e { v := v, v2 := w } ∧ sameBytes s t ∧
        loadGives own 8 false v ∧ loadGives (fun k => own (k + 8)) 8 false w) ∧
    ∀ bs, e.kind = .store bs → e.off % 128 + bs.length ≤ 128 → e.leaf.d = true → e.leaf.pt = false →
      l.st = .e ∨ l.st = .m → l.cutDirty = false → lineLocked s p (e.off / 128) = false →
      ∃ t m, exec (.perform p i) s = .next t ∧ Performed s t p i e {} ∧ sameBytes s t ∧
        copyAt t p c (e.off / 128) = some m ∧ m.st = .m ∧ m.dirty = true ∧
        ∀ k < 128, m.data.getD k 0 = if e.off % 128 ≤ k ∧ k < e.off % 128 + bs.length then bs.getD (k - e.off % 128) 0
          else l.data.getD k 0

/-- R135, R136, R285, R287, R361: a home performs an access: from a caching core's own copy, and for another requester, of a line
that no cache holds, on memory, with every load, store, pair and atomic, fetching or not. -/
def Obligations.HomePerforms : Prop :=
  Claims.CachedAccesses ∧
  ∀ (s : State) (p i h : Nat) (e : Acc), AtPlace s p i e → e.place = .home h → placeReady s p e → logRoom s p → performs s p i e

/-- R124, R138, R323, R339: a virtual load or store that its slice accepts enters its queues with the leaf's physical address, its
sources are taken and its slot goes on; one that is refused traps with the refusal's cause at the instruction; one whose
walk meets an error that rollback repairs waits, and one whose walk meets another error goes on with nothing performed, and has the
error reported as the error of an access is: cause 0x3F at the slot's next instruction. That a walk's error is taken so is the
model's reading of R339 beside R323 (log entry 62). -/
def Claims.HomeAnswers : Prop :=
  ∀ (s u : State) (a : At) (cached : Bool) (pd : Pend) (e : Acc), runs s a.p = true → s.cur = a →
    s.me.pend = some pd → pd.acc = none → pd.rearm = none → lacksEntry s.me pd.op.srcs = false →
    e = mkAcc s pd.op (sourceValue s.me pd.op.srcs) (.own 0) → (e.kind.isLoad = true ∨ ∃ bs, e.kind = .store bs) →
    e.kind ≠ .join →
    roomFor s.me e.kind →
    let goesOn (t : State) : Prop := t.me.pc = s.me.pc + 12 ∧ t.me.st = .ready ∧ t.me.pend = none ∧
      (∀ n, readReg t.me n = readReg s.me n) ∧ sameBytes s t ∧
      ∀ q : QReg, queueOf t.me q.toNat = (queueOf s.me q.toNat).drop (pd.op.srcs.count (.q q))
    (∀ l win, acceptVa s a.p a.c e.ea.toNat e.kind.perm cached = (u, .ok (l, win)) →
      ∃ t pl, exec (.accessAccept a cached) s = .next t ∧ goesOn t ∧
        let f := { e with leaf := l, place := pl, know := frees s.me a.c e.kind e.ord e.scope }
        t.me.lq = s.me.lq ++ (if e.kind.isLoad then [{ acc := f }] else []) ∧
        t.me.sb = s.me.sb ++ (if e.kind.isLoad then [] else [f]) ∧
        (win = false → pl = .home (homeOf s.myPart e.ea.toNat)) ∧ (win = true → pl = .ncCopy (clusterOf a.c))) ∧
    ∀ r, acceptVa s a.p a.c e.ea.toNat e.kind.perm cached = (u, .error r) →
      (r.wait = true → exec (.accessAccept a cached) s = .next s) ∧
      (r.wait = false → r.cause = 0x3F → ∃ t, exec (.accessAccept a cached) s = .next t ∧ goesOn t ∧
        t.me.report = some (0x3F, e.ea) ∧ t.me.lq = s.me.lq ∧ t.me.sb = s.me.sb) ∧
      (r.wait = false → r.cause ≠ 0x3F →
        ∃ t, exec (.accessAccept a cached) s = .next t ∧ t.me.pc = s.me.pc ∧ t.me.cause = BitVec.ofNat 64 (r.cause % 256) ∧
          t.me.badaddr = e.ea ∧ t.me.epc = s.me.pc ∧ t.me.lq = s.me.lq ∧ t.me.sb = s.me.sb ∧
          (a.n ≠ 3 → t.me.st = .parked ∧ t.me.svc = true) ∧ sameBytes s t)

/-- R287: a load is forwarded while it is not posted, its order is .rlx or .acq, no older entry of another kind than a store lies on
it, and older plain stores of the slot cover each of its bytes; it takes each byte from the youngest of them. -/
def Claims.Forwarding : Prop :=
  ∀ (x : Slot) (f : LqEntry), f ∈ x.lq → (∀ g ∈ x.lq, g.acc.id = f.acc.id → g = f) →
    let e := f.acc
    let gives (g : Acc) (k : Nat) (b : Byte) : Prop := g.id < e.id ∧ g.place = e.place ∧ g.off ≤ e.off + k ∧
      ∃ ds, g.kind = .store ds ∧ ds[e.off + k - g.off]? = some b
    (forwardValue x e.id ≠ none ↔ f.posted = false ∧ (e.kind = .loadPair ∨ ∃ n sg, e.kind = .load n sg) ∧
      (e.ord = .rlx ∨ e.ord = .acq) ∧ returnReady x e = true ∧
      (∀ g ∈ x.sb, g.id < e.id → g.overlaps e = true → ∃ ds, g.kind = .store ds) ∧
      ∀ k < e.kind.bytes, ∃ g ∈ x.sb, ∃ b, gives g k b) ∧
    ∀ bs, forwardValue x e.id = some (e, bs) → bs.length = e.kind.bytes ∧
      ∀ k < e.kind.bytes, ∀ pre g post b, x.sb = pre ++ g :: post → gives g k b → (∀ h ∈ post, ∀ c, ¬gives h k c) →
        bs[k]? = some b

/-- R172, R284, R287, R289: the oldest load of a slot that no older store of it overlaps is posted to its channel, and the head of
the store buffer once every older load has been; a channel delivers its accesses in order, and so do the responses from one
place; a response leaves its queue and writes its destination, and an acquiring one orders before the slot's later instructions what
it carries (log entry 64); a forwarded load takes its bytes at once. -/
def Claims.OrderingSteps : Prop :=
  (∀ (s : State) (a : At) (i : Nat) (pre post : List LqEntry) (e : Acc), runs s a.p = true → a.n < 4 →
    (s.slotAt a.p a.c a.n).lq = pre ++ { acc := e } :: post → (∀ f ∈ pre, f.posted = true) → e.kind.isLoad = true →
    (∀ f ∈ (s.slotAt a.p a.c a.n).sb, f.id < e.id → f.overlaps e = false) → e.ord = .rlx ∨ e.ord = .acq → e.own = false →
    (∀ f ∈ pre ++ post, f.acc.id ≠ e.id) →
    ∃ t, exec (.postALoad ⟨a, i⟩) s = .next t ∧ (t.slotAt a.p a.c a.n).lq = pre ++ { acc := e, posted := true } :: post ∧
      (t.part a.p).live.chans = (s.part a.p).live.chans ++ [(clusterOf e.core, .request, e)] ∧ sameBytes s t) ∧
  (∀ (s : State) (a : At) (i : Nat) (e : Acc) (rest : List Acc), runs s a.p = true → a.n < 4 →
    (s.slotAt a.p a.c a.n).sb = e :: rest → (∀ f ∈ (s.slotAt a.p a.c a.n).lq, f.acc.id < e.id → f.posted = true) →
    e.ord = .rlx ∨ e.ord = .acq → (∀ op len, e.kind ≠ .range op len) → e.own = false →
    ∃ t, exec (.postAStoreBufferEntry ⟨a, i⟩) s = .next t ∧ (t.slotAt a.p a.c a.n).sb = rest ∧
      (t.slotAt a.p a.c a.n).unacked = (s.slotAt a.p a.c a.n).unacked ++ [e] ∧
      (t.part a.p).live.chans = (s.part a.p).live.chans ++ [(clusterOf e.core, e.kind.chan, e)] ∧ sameBytes s t) ∧
  (∀ (s : State) (p : Nat) (pre post : List (Nat × ChClass × Acc)) (m : Nat × ChClass × Acc), runs s p = true →
    (s.part p).live.chans = pre ++ m :: post →
    ((∀ f ∈ pre, sameChan m f = false) →
      ∃ t r ids, exec (.deliver p pre.length) s = .next t ∧ (t.part p).live.chans = pre ++ post ∧
        (t.part p).live.delivered = (s.part p).live.delivered ++ [{ m.2.2 with prog := r, after := ids }] ∧ sameBytes s t ∧
        ((∀ q w b, m.2.2.kind ≠ .send q w b) → r = m.2.2.prog) ∧
        ∀ id, id ∈ ids ↔ (∃ op len, m.2.2.kind = .range op len) ∧ ∃ f ∈ pre, f.1 = m.1 ∧ f.2.1 = .request ∧ f.2.2.id = id) ∧
    ((∃ f ∈ pre, sameChan m f = true) → exec (.deliver p pre.length) s = .next s)) ∧
  (∀ (s : State) (p i : Nat) (e : Acc) (v : Word), runs s p = true → (s.part p).live.resps[i]? = some (e, { v := v }) →
    ((∀ j f, j < i → (s.part p).live.resps[j]? = some f → sameResp (e, { v := v }) f = false) →
      e.byHost = false → e.eng = none → e.act = (s.slotAt p e.core e.slot).act → e.kind.isLoad = true → e.dst2 = .none →
      (∀ n, e.dst ≠ .queue n) → (∀ f ∈ (s.slotAt p e.core e.slot).lq, f.held = none) →
      ∃ t, exec (.respReturn p i) s = .next t ∧
        (t.part p).live.resps = (s.part p).live.resps.eraseIdx i ∧ sameBytes s t ∧
        (∀ f ∈ (t.slotAt p e.core e.slot).lq, f.acc.id ≠ e.id) ∧
        (∀ n, e.dst = .glob n → mget 0 (t.slotAt p e.core e.slot).regs n = v) ∧
        (∀ n, e.dst = .win n → mget 0 (t.slotAt p e.core e.slot).wregs n = v) ∧
        (e.kind ≠ .join → ∀ ev c sc, (ev, c, sc) ∈ e.know → inScope c e.core sc = true →
          ev ∈ if e.ord = .acq ∨ e.ord = .ar ∨ e.ord = .sc then (t.slotAt p e.core e.slot).seen
            else (t.slotAt p e.core e.slot).told)) ∧
    ((∃ j f, j < i ∧ (s.part p).live.resps[j]? = some f ∧ sameResp (e, { v := v }) f = true) →
      exec (.respReturn p i) s = .next s)) ∧
  ∀ (s : State) (a : At) (e : Acc) (bs : List Byte) (n : Nat) (sg : Bool), runs s a.p = true →
    forwardValue (s.slotAt a.p a.c a.n) e.id = some (e, bs) → e.kind = .load n sg → e.core = a.c → e.slot = a.n →
    e.byHost = false → e.eng = none → (∀ f ∈ (s.slotAt a.p a.c a.n).lq, f.held = none) →
    e.act = (s.slotAt a.p a.c a.n).act → e.dst2 = .none →
    ∃ t, exec (.forward a e.id) s = .next t ∧ sameBytes s t ∧ (∀ f ∈ (t.slotAt a.p a.c a.n).lq, f.acc.id ≠ e.id) ∧
      ∀ k, e.dst = .glob k → mget 0 (t.slotAt a.p a.c a.n).regs k = loadValue sg bs

/-- R124, R138, R287, R289, R323, R339: what an answer brings back to its core, and the steps of the ordering machine. What a walk
that meets a memory error does is the model's reading (log entry 62), and so is what an acquire carries (log entry 64). -/
def Obligations.AnswersAndOrdering : Prop := Claims.HomeAnswers ∧ Claims.Forwarding ∧ Claims.OrderingSteps

/-! ### Barriers across cores and timelines -/

/-- R145, R146, R147: HBAR.ARRIVE joins the core's phase with its contribution once its accesses are performed at the level's
scope, and waits while its latest phase is open; HBAR.WAIT then reads the result; the phase completes when every core of
the barrier has arrived. An arrival releases the definitions that its slot knows, and a wait acquires those of its phases (log
entry 64); with no phase complete the result is 0, the model's choice (log entry 74). -/
def Claims.BarrierLevels : Prop :=
  (∀ (x : HbArr) (s : State), let srcs := if x.red = .none then [] else [x.b]
    Ready s x.c srcs [] [] → hbarOpen s s.cur.p s.cur.c x.level = false → performedAt s.me (levelScope x.level) →
    ∃ t, exec (.hbarArrive x) s = .next t ∧ Passed s t srcs ∧ sameBytes s t ∧
      ∃ h ∈ t.myPart.live.hphases, h.level = x.level ∧ h.inst = hbarInst s.mine s.cur.c x.level ∧
        (s.cur.c, (if x.red = .none then 0 else sourceValue s.me srcs 0), x.red, x.uns) ∈ h.arrived ∧
        ∀ ev ∈ s.me.seen, ev ∈ h.know) ∧
  (∀ (x : HbArr) (s : State), Ready s x.c (if x.red = .none then [] else [x.b]) [] [] →
    hbarOpen s s.cur.p s.cur.c x.level = true → ∃ t, exec (.hbarArrive x) s = .next t ∧ WaitsAt s t .phase) ∧
  (∀ (x : HbWait) (s : State), Ready s x.c [] [x.d] [] →
    (hbarOpen s s.cur.p s.cur.c x.level = false → ∃ t, exec (.hbarWait x) s = .next t ∧
      let b := mget ({} : Hbar) s.mine.hbar (levelKey x.level)
      Wrote (knowing s t.me.seen) t [] x.d b.result 0 ∧ learns s t b.know) ∧
    (hbarOpen s s.cur.p s.cur.c x.level = true → ∃ t, exec (.hbarWait x) s = .next t ∧ WaitsAt s t .phase)) ∧
  ∀ (s : State) (p i : Nat) (l : Level) (pre post : List HPhase) (h : HPhase) (a : Nat × Word × Red × Bool)
    (as : List (Nat × Word × Red × Bool)), runs s p = true → (s.part p).live.hphases = pre ++ h :: post →
    (∀ g ∈ pre, samePhase l i g = false) → samePhase l i h = true → h.arrived = a :: as →
    ((∀ c ∈ hbarCores s p a.1 l, c ∈ h.arrived.map (·.1)) →
      ∃ t, exec (.hbarPhaseComplete p l i) s = .next t ∧ (t.part p).live.hphases = pre ++ post ∧ sameBytes s t ∧
        ∀ c ∈ hbarCores s p a.1 l, let b := mget ({} : Hbar) (t.coreAt p c).hbar (levelKey l)
          b.result = hbarReduce h.arrived ∧ ∀ ev ∈ h.know, ev ∈ b.know) ∧
    (¬(∀ c ∈ hbarCores s p a.1 l, c ∈ h.arrived.map (·.1)) → exec (.hbarPhaseComplete p l i) s = .next s)

/-- R146: the sum of a phase is that of its contributions modulo 2^64; the minimum and the maximum are contributions that no
other passes, in the order of the arrival of lowest core. -/
def Claims.BarrierReductions : Prop :=
  ∀ (arr : List (Nat × Word × Red × Bool)) (low : Nat × Word × Red × Bool), low ∈ arr →
    (∀ e ∈ arr, e = low ∨ low.1 < e.1) →
    let le (x y : Word) : Prop := if low.2.2.2 then x.toNat ≤ y.toNat else x.toInt ≤ y.toInt
    (low.2.2.1 = .none → hbarReduce arr = 0) ∧
    (low.2.2.1 = .sum → (hbarReduce arr).toNat = (arr.map fun e => e.2.1.toNat).sum % 2 ^ 64) ∧
    (low.2.2.1 = .min → (∃ e ∈ arr, hbarReduce arr = e.2.1) ∧ ∀ e ∈ arr, le (hbarReduce arr) e.2.1) ∧
    (low.2.2.1 = .max → (∃ e ∈ arr, hbarReduce arr = e.2.1) ∧ ∀ e ∈ arr, le e.2.1 (hbarReduce arr))

/-- R145, R146, R147: HBAR and its reductions. -/
def Obligations.HierarchicalBarriers : Prop := Claims.BarrierLevels ∧ Claims.BarrierReductions

/-- R148, R149, R150, R237, R277: TLWAIT passes once the engine has completed the number in its source and waits until then; it
delivers the copy fault of lowest number that it covers as cause 0x20, and a chisel context's fault as 0x24; TLGET reads what
the engine has assigned, what it has completed, and the slot's own latest number; a context that is not open is cause 0x02.
A context is found as the slot finds it: open, or closed with nothing that orders the CHCLOSE before the slot; a wait that covers a
CHCLOSE acquires it (the model's reading of R150 and R313, log entry 64). -/
def Obligations.Timelines : Prop :=
  (∀ (x : TlWait) (s : State), x.eng ≠ .chisel → Ready s x.c [x.a] [] [] →
    let n := (sourceValue s.me [x.a] 0).toNat
    let q := engQ s.mine x.eng
    (x.eng = .copy → s.me.replayNum ≤ q.completed ∧ ∀ f ∈ s.mine.frecs, f.delivered = true ∨ n < f.num) →
    (n ≤ q.completed → ∃ t, exec (.tlwait x) s = .next t ∧ Jumped s t [x.a] (s.me.pc + 12)) ∧
    (q.completed < n → ∃ t, exec (.tlwait x) s = .next t ∧ WaitsAt s t .timeline)) ∧
  (∀ (x : TlWait) (s : State) (f : CopyFault), x.eng = .copy → Ready s x.c [x.a] [] [] →
    s.me.replayNum ≤ s.mine.cq.completed → f ∈ s.mine.frecs → f.delivered = false →
    f.num ≤ (sourceValue s.me [x.a] 0).toNat → (∀ g ∈ s.mine.frecs, g.delivered = true ∨ g = f ∨ f.num < g.num) →
    ∃ t, exec (.tlwait x) s = .next t ∧ Trapped s t (0x20 + 256 * (f.sub % 256)) f.bad ∧ t.me.copyRec = some f.id ∧
      ∀ g ∈ t.mine.frecs, g.id = f.id → g.delivered = true) ∧
  (∀ (x : TlWait) (s : State), x.eng = .chisel → s.variant ≠ .s16 → Ready s x.c [x.a, x.b] [] [] →
    let n := (sourceValue s.me [x.a, x.b] 0).toNat
    let name := sourceValue s.me [x.a, x.b] 1
    (anyCtx s name = none → ∃ t, exec (.tlwait x) s = .next t ∧ Trapped s t 0x02 0) ∧
    ∀ i c, anyCtx s name = some (i, c) →
      ((∀ m code bad, c.pending = some (m, code, bad) → n < m) →
        (n ≤ c.completed → ∃ t, exec (.tlwait x) s = .next t ∧ Jumped (knowing s t.me.seen) t [x.a, x.b] (s.me.pc + 12) ∧
          learns s t (if c.shut ≠ 0 ∧ c.shut ≤ n then [i / 64] else [])) ∧
        (c.completed < n → ∃ t, exec (.tlwait x) s = .next t ∧ WaitsAt s t .timeline)) ∧
      ∀ m code bad, c.pending = some (m, code, bad) → m ≤ n →
        ∃ t, exec (.tlwait x) s = .next t ∧ Trapped s t (0x24 + 256 * (code % 256)) bad ∧
          (mfind? (t.cluster s.cur.p (clusterOf s.cur.c)).ctxs i).bind (·.pending) = none) ∧
  (∀ (x : TlGet) (s : State), x.eng ≠ .chisel → Ready s x.c [] [x.d] [] →
    let q := engQ s.mine x.eng
    ∃ t, exec (.tlget x) s = .next t ∧ Wrote s t [] x.d
      (BitVec.ofNat 64 (if x.sel = 0 then q.assigned else if x.sel = 1 then q.completed else ownNum s.me x.eng)) 0) ∧
  ∀ (x : TlGet) (s : State), x.eng = .chisel → s.variant ≠ .s16 → Ready s x.c [x.b] [x.d] [] →
    let name := sourceValue s.me [x.b] 0
    (anyCtx s name = none → ∃ t, exec (.tlget x) s = .next t ∧ Trapped s t 0x02 0) ∧
    ∀ i c, anyCtx s name = some (i, c) → ∃ t, exec (.tlget x) s = .next t ∧ Wrote s t [x.b] x.d
      (BitVec.ofNat 64 (if x.sel = 0 then c.assigned else if x.sel = 1 then c.completed else mget 0 s.me.lastChisel i)) 0

/-! ### Messages, activations, tasks -/

/-- R153, R160, R161: the checks of a header: the QUEUE field that the entry allows and the form, cause 0x02; a core of the
partition, 0x0B; of the launch, 0x0C; then a PC that is a multiple of 4, 0x05. Their order, and that the header word is BADADDR, are
the model's reading (log entries 11 and 10). -/
def Claims.HeaderChecks : Prop :=
  ∀ (s : State) (h pc : Word) (queueOk : Nat → Bool),
    let c := namedCore s.cur.c h (h.getLsbD 27)
    let formed := queueOk (h.toNat / 2 ^ 28 % 16) = true ∧ h.msb = true ∧ h.toNat % 2 ^ 27 = 0
    (¬formed → target s h queueOk pc = .error { cause := 0x02 }) ∧
    (formed → s.myPart.hasCore c = false → target s h queueOk pc = .error { cause := 0x0B, bad := h }) ∧
    (formed → s.myPart.hasCore c = true →
      (sameLaunch s s.cur.p s.cur.c c = false → target s h queueOk pc = .error { cause := 0x0C, bad := h }) ∧
      (sameLaunch s s.cur.p s.cur.c c = true →
        (pc.toNat % 4 ≠ 0 → target s h queueOk pc = .error { cause := 0x05, bad := pc, kind := 3 }) ∧
        (pc.toNat % 4 = 0 → target s h queueOk pc = .ok c)))

/-- R151 to R154, R160, R161, R162: a message whose header names a core of the launch leaves for its queue, with the payload,
the sender, its TASKID, and for CALLAT its PC and its reply route; the slot stays Blocked until the answer. A header or a PC that
is refused traps. That the queue registers are popped at issue is the model's reading (log entry 13). -/
def Claims.Messages : Prop :=
  let sent (s t : State) (srcs : List SOp) (c : Nat) (k : AccKind) (dst : Dst) (w : Wait) : Prop :=
    AccessTaken s t srcs { id := s.nextId, core := s.cur.c, slot := s.cur.n, act := s.me.act, kind := k, place := .queue c,
                           ord := .rel, scope := scopeOver s.cur.c c, dst := dst,
                           know := frees s.me s.cur.c k .rel (scopeOver s.cur.c c) } ∧
      t.me.pc = s.me.pc ∧ t.me.st = .blocked ∧ t.me.wait = w
  let message (s : State) (pay : List Word) : Msg :=
    { pay := pay, sender := s.cur.c, task := s.me.taskId, senderVt := s.mine.vt, know := s.me.seen }
  (∀ (x : MsgI) (s : State), let srcs := x.a :: groupOps x.base
    let v := sourceValue s.me srcs
    Ready s x.c srcs [] [] →
    (∀ c, target s (v 0) (fun _ => true) 0 = .ok c → headerQueue (v 0) ≠ 15 → s.me.sb.length < 8 →
      ∃ t, exec (.send x) s = .next t ∧
        sent s t srcs c (.send (headerQueue (v 0)) (message s [v 1, v 2, v 3, v 4]) false) .none .message) ∧
    (∀ c, target s (v 0) (fun _ => true) 0 = .ok c → headerQueue (v 0) = 15 →
      ∃ t, exec (.send x) s = .next t ∧ Trapped s t 0x0C (v 0)) ∧
    (∀ f, target s (v 0) (fun _ => true) 0 = .error f → f.sub = 0 → f.impr = false →
      ∃ t, exec (.send x) s = .next t ∧ Trapped s t (f.cause % 256) f.bad)) ∧
  (∀ (x : SpawnI) (s : State), let srcs := x.a :: groupOps x.base ++ [x.cc]
    let v := sourceValue s.me srcs
    Ready s x.c srcs [] [x.p] →
    (x.p = 7 → ∃ t, exec (.spawn x) s = .next t ∧ Trapped s t 0x02 0) ∧
    (x.p ≠ 7 →
      (∀ c, target s (v 0) (· == 0) (v 5) = .ok c → s.me.sb.length < 8 →
        ∃ t, exec (.spawn x) s = .next t ∧
          sent s t srcs c (.spawn { message s [v 1, v 2, v 3, v 4] with pc := v 5 }) (.pred x.p.toNat) .spawnReply) ∧
      ∀ f, target s (v 0) (· == 0) (v 5) = .error f → f.sub = 0 → f.impr = false →
        ∃ t, exec (.spawn x) s = .next t ∧ Trapped s t (f.cause % 256) f.bad)) ∧
  (∀ (x : CallAtI) (s : State), let srcs := x.a :: groupOps x.base ++ [x.cc]
    let v := sourceValue s.me srcs
    Ready s x.c srcs [] [] →
    (x.queue = 15 → ∃ t, exec (.callat x) s = .next t ∧ Trapped s t 0x02 0) ∧
    (x.queue ≠ 15 →
      (∀ c, target s (v 0) (fun q => q == 0 || q == 15) (v 5) = .ok c → s.me.sb.length < 8 →
        ∃ t, exec (.callat x) s = .next t ∧
          sent s t srcs c
            (.send 15 { message s [v 1, v 2, v 3, v 4] with pc := v 5, route := Option.some ⟨s.cur.c, x.queue.toNat⟩ } false)
            .none .message) ∧
      ∀ f, target s (v 0) (fun q => q == 0 || q == 15) (v 5) = .error f → f.sub = 0 → f.impr = false →
        ∃ t, exec (.callat x) s = .next t ∧ Trapped s t (f.cause % 256) f.bad)) ∧
  ∀ (x : ReplyI) (s : State), let srcs := groupOps x.base
    let v := sourceValue s.me srcs
    Ready s x.c srcs [] [] →
    (∀ r, s.me.route = some r → s.me.sb.length < 8 →
      ∃ t, exec (.reply x) s = .next t ∧
        sent s t srcs r.core (.send r.queue (message s [v 0, v 1, v 2, v 3]) true) .none .message) ∧
    (s.me.route = none → ∃ t, exec (.reply x) s = .next t ∧ Trapped s t 0x0C 0)

/-- R155, R26, R160, R172: a message is taken by its queue while it has room, eight entries or sixteen for queue 15; one that a
timed queue refused as it arrived (`prog` 2) answers cause 0x15; a spawn starts an activation in the lowest Idle user slot and
answers true, or false where there is none. -/
def Claims.MessageArrival : Prop :=
  ∀ (s : State) (p i c : Nat) (e : Acc), AtPlace s p i e → e.place = .queue c →
    (∀ q m r, e.kind = .send q m r → e.prog = 2 →
      ∃ t, exec (.perform p i) s = .next t ∧ Performed s t p i e { trap := some (0x15, 0) } ∧ sameBytes s t) ∧
    (∀ q m r, e.kind = .send q m r → e.prog ≠ 2 →
      (mget [] (s.coreAt p c).inq q).length < (if q = 15 then 16 else 8) →
      ∃ t, exec (.perform p i) s = .next t ∧ Performed s t p i e {} ∧ sameBytes s t ∧
        ∀ q', mget [] (t.coreAt p c).inq q' = if q' = q then mget [] (s.coreAt p c).inq q ++ [m]
          else mget [] (s.coreAt p c).inq q') ∧
    (∀ q m r, e.kind = .send q m r → e.prog ≠ 2 →
      (if q = 15 then 16 else 8) ≤ (mget [] (s.coreAt p c).inq q).length → exec (.perform p i) s = .next s) ∧
    (∀ m n, e.kind = .spawn m → n < 3 → (s.slotAt p c n).st = .idle → (∀ k < n, (s.slotAt p c k).st ≠ .idle) →
      ∃ t, exec (.perform p i) s = .next t ∧ Performed s t p i e { v := 1 } ∧
        Started t ⟨p, c, n⟩ m.pc m.task m.pay none none none) ∧
    ∀ m, e.kind = .spawn m → (∀ k < 3, (s.slotAt p c k).st ≠ .idle) →
      ∃ t, exec (.perform p i) s = .next t ∧ Performed s t p i e { v := 0 }

/-- R26, R151 to R155, R160 to R162: sending, and arrival. -/
def Obligations.MessagesAndQueues : Prop := Claims.HeaderChecks ∧ Claims.Messages ∧ Claims.MessageArrival

/-- R156, R158, R159, R27: BIND binds a queue to a handler with its landing form, UNBIND unbinds it; DONE ends the activation
and leaves its registers (in slot 3, which never becomes Idle, it only goes on: the model's choice, log entry 60); YIELD blocks the
slot until YIELD_EXPIRY is taken, and YIELD 0 only passes the slot over once (no time is modelled: log entry 7). -/
def Obligations.HandlersAndEnds : Prop :=
  (∀ (x : BindI) (s : State), x.queue ≠ 15 → let srcs := if x.land = .ring then [x.a, x.b] else [x.a]
    Ready s x.c srcs [] [] → (sourceValue s.me srcs 0).toNat % 4 = 0 →
    (x.timed = true → (mfind? s.myPart.live.groups x.grp.toNat).isSome = true) →
    ∀ off, (if x.land = .ring then ringPlace s (sourceValue s.me srcs 1) (32 * 2 ^ x.ring.toNat) else .ok 0) = .ok off →
      ∃ t, exec (.bind x) s = .next t ∧ Passed s t srcs ∧ sameBytes s t ∧
        let b : Binding := ⟨sourceValue s.me srcs 0, x.land, x.ring.toNat, BitVec.ofNat 64 off, 0, x.timed, x.grp.toNat⟩
        Only (updMine s fun k => { k with binds := mput k.binds x.queue.toNat b }) t) ∧
  (∀ (x : UnbindI) (s : State), x.queue ≠ 15 → Ready s x.c [] [] [] →
    ∃ t, exec (.unbind x) s = .next t ∧ Passed s t [] ∧ sameBytes s t ∧
      Only (updMine s fun k => { k with binds := mdel k.binds x.queue.toNat }) t) ∧
  (∀ (x : C0) (s : State), Ready s x.c [] [] [] →
    (s.cur.n ≠ 3 → ∃ t, exec (.done x) s = .next t ∧ t.me.st = .idle ∧ t.me.act = s.me.act + 1 ∧
      (∀ n, readReg t.me n = readReg s.me n) ∧ sameBytes s t) ∧
    (s.cur.n = 3 → ∃ t, exec (.done x) s = .next t ∧ Jumped s t [] (s.me.pc + 12))) ∧
  (∀ (x : YieldI) (s : State), Ready s x.c [] [] [] →
    (x.n ≠ 0 → ∃ t, exec (.yield x) s = .next t ∧ WaitsAt s t (.yield x.n.toNat)) ∧
    (x.n = 0 → ∃ t, exec (.yield x) s = .next t ∧ OnlySlot s t ∧ t.me.pc = s.me.pc + 12 ∧ t.me.st = .ready ∧
      t.me.skip = true)) ∧
  ∀ (s : State) (a : At) (n : Nat), runs s a.p = true → (s.slotAt a.p a.c a.n).st = .blocked →
    (s.slotAt a.p a.c a.n).wait = .yield n →
    ∃ t, exec (.yieldExpiry a) s = .next t ∧ (t.slotAt a.p a.c a.n).pc = (s.slotAt a.p a.c a.n).pc + 12 ∧
      (t.slotAt a.p a.c a.n).st = .ready ∧ sameBytes s t

/-- R25, R172: the queue that goes next is 15, then the lowest that may start an activation. Queue 15 starts its head; another queue
does while it is bound and no activation of it is live: its head, or, a timed queue, the message of lowest stamp, equal stamps by
sender and then by arrival, once the floor that the core has seen and the group's lookahead pass that stamp. -/
def Claims.StartOrder : Prop :=
  ∀ (s : State) (p c : Nat),
    let queue (q : Nat) : List Msg := mget [] (s.coreAt p c).inq q
    let head (q : Nat) : Option (Nat × Msg) := (queue q).head?.map fun m => (0, m)
    let live (q : Nat) : Prop := ∃ n < 3, (s.slotAt p c n).st ≠ .idle ∧ (s.slotAt p c n).fromQueue = some q
    let stamp (m : Msg) : Nat := (m.pay.getD 0 0).toNat
    let before (i : Nat) (m : Msg) (j : Nat) (n : Msg) : Prop :=
      stamp m < stamp n ∨ stamp m = stamp n ∧ (m.sender < n.sender ∨ m.sender = n.sender ∧ i ≤ j)
    (∀ q, nextQueue s p c = some q ↔ q ≤ 15 ∧ startable s p c q ≠ none ∧
      (q = 15 ∨ startable s p c 15 = none ∧ ∀ k < q, startable s p c k = none)) ∧
    startable s p c 15 = head 15 ∧
    ∀ q, q ≠ 15 →
      (mfind? (s.coreAt p c).binds q = none ∨ live q → startable s p c q = none) ∧
      ∀ b, mfind? (s.coreAt p c).binds q = some b → ¬live q →
        (b.timed = false → startable s p c q = head q) ∧
        (b.timed = true → ∀ i m, startable s p c q = some (i, m) ↔ (queue q)[i]? = some m ∧
          (∀ j n, (queue q)[j]? = some n → before i m j n) ∧
          ∃ g, mfind? (s.part p).live.groups b.grp = some g ∧
            stamp m < seenFloor s p b.grp (coreView c) + g.lambda.toNat)

/-- R23, R157, R161, R165, R172: an Idle user slot takes the next queue's message, with the payload, the payload and the sender, or
its ring's record as arguments; the ring's record is the payload, stored in the scratchpad, and the ring's sequence number then
counts. An idle core takes the oldest task of the first core of its cluster that has one. A start acquires what the message or the
task releases (log entry 64). -/
def Claims.Starts : Prop :=
  (∀ (s : State) (a : At) (m : Msg), runs s a.p = true → a.n < 3 → (s.slotAt a.p a.c a.n).st = .idle →
    nextQueue s a.p a.c = some 15 → startable s a.p a.c 15 = some (0, m) →
    ∃ t, exec (.messageActivationStart a) s = .next t ∧ Started t a m.pc m.task m.pay m.route none (some 15) ∧
      (t.slotAt a.p a.c a.n).seen = m.know ∧
      mget [] (t.coreAt a.p a.c).inq 15 = (mget [] (s.coreAt a.p a.c).inq 15).eraseIdx 0 ∧ sameBytes s t) ∧
  (∀ (s : State) (a : At) (q i : Nat) (m : Msg) (b : Binding), runs s a.p = true → a.n < 3 →
    (s.slotAt a.p a.c a.n).st = .idle → q ≠ 15 → nextQueue s a.p a.c = some q → startable s a.p a.c q = some (i, m) →
    mfind? (s.coreAt a.p a.c).binds q = some b → (b.land = .ring → logRoom s a.p) →
    let p (k : Nat) : Word := m.pay.getD k 0
    let off := b.base.toNat + 32 * (b.seq.toNat % 2 ^ b.ring)
    let record := lowBytes 8 (p 0) ++ lowBytes 8 (p 1) ++ lowBytes 8 (p 2) ++ lowBytes 8 (p 3)
    ∃ t, exec (if b.timed then .timedQueueActivation a q else .messageActivationStart a) s = .next t ∧
      Started t a b.pc m.task (match b.land with
        | .regs => [p 0, p 1, p 2, p 3]
        | .src => [p 0, p 1, p 2, senderHeader m.sender]
        | .ring => [localAddr off, senderHeader m.sender, b.seq, p 0]) none none (some q) ∧
      (t.slotAt a.p a.c a.n).seen = m.know ∧
      mget [] (t.coreAt a.p a.c).inq q = (mget [] (s.coreAt a.p a.c).inq q).eraseIdx i ∧
      (∀ k, physRead t k 1 = physRead s k 1) ∧
      (∀ p' c o, spadByte t p' c o =
        if b.land = .ring ∧ p' = a.p ∧ c = a.c ∧ off ≤ o ∧ o < off + 32 then record.getD (o - off) 0 else spadByte s p' c o) ∧
      ∀ k, mfind? (t.coreAt a.p a.c).binds k =
        if k = q then some (if b.land = .ring then { b with seq := b.seq + 1 } else b) else mfind? (s.coreAt a.p a.c).binds k) ∧
  ∀ (s : State) (a : At) (c : Nat) (e : Task) (rest : List Task), runs s a.p = true → a.n < 3 →
    (s.slotAt a.p a.c a.n).st = .idle → (s.coreAt a.p a.c).launch.isSome = true → nextQueue s a.p a.c = none →
    (∃ i < 128, c = a.c / 128 * 128 + (a.c % 128 + i) % 128 ∧
      ∀ j < i, let d := a.c / 128 * 128 + (a.c % 128 + j) % 128
        sameLaunch s a.p a.c d = false ∨ (s.coreAt a.p d).deque = []) →
    sameLaunch s a.p a.c c = true → (s.coreAt a.p c).deque = e :: rest →
    ∃ t, exec (.taskSteal a) s = .next t ∧ Started t a e.pc e.task e.regs none (some e.counter) none ∧
      (t.slotAt a.p a.c a.n).seen = e.know ∧ (t.coreAt a.p c).deque = rest ∧ sameBytes s t

/-- R23, R25, R157, R161, R165, R172: which message or task starts next, and what its start does. -/
def Obligations.Activations : Prop := Claims.StartOrder ∧ Claims.Starts

/-- R163, R164, R166, R167, R284, R285: FORK sends the addition of one to the join counter's scratchpad as a message, a release at
.cl, and stays Blocked until the answer, which appends its task to the deque and sets its predicate; it writes false where the
deque, with the entries on their way, is full. JOIN reads its counter at the counter's scratchpad: a zero ends it, with an acquire;
after another value it runs the newest task of its deque, or waits while the deque is empty and the counter is as it was read, and
then reads again. DONE.task of a stolen task sends the counter's decrement, a release at .cl, and ends; that of a task which JOIN
entered sends it and returns to the JOIN. That a FORK is one message with its answer is the model's reading of R284; that DONE.task's
decrement and JOIN's read are accesses of their slot's channels is its reading of R163 and R285 (log entry 84), and the end of slot 3
is the model's choice (log entry 60). -/
def Obligations.Tasks : Prop :=
  (∀ (x : ForkI) (s : State) (ctr : Word), let srcs := x.a :: groupOps x.base
    let v := sourceValue s.me srcs
    Ready s x.c srcs [] [x.p] → x.p ≠ 7 → counterPlace s (v 0) = .ok ctr →
    let place := counterAt s.cur.c ctr
    let task : Task := ⟨codeTarget s.me.pc x.off, [v 1, v 2, v 3, v 4], ctr, s.me.taskId, s.me.seen⟩
    (s.mine.deque.length + forksComing s.mine < 16 → s.me.sb.length < 8 →
      ∃ t, exec (.fork x) s = .next t ∧
        AccessTaken s t srcs { id := s.nextId, core := s.cur.c, slot := s.cur.n, act := s.me.act, kind := .fork ctr task,
                               ea := place.2, place := place.1, ord := .rel, scope := .cl, dst := .pred x.p.toNat,
                               know := frees s.me s.cur.c (.fork ctr task) .rel .cl } ∧
        t.me.pc = s.me.pc ∧ t.me.st = .blocked ∧ t.me.wait = .message) ∧
    (16 ≤ s.mine.deque.length + forksComing s.mine →
      ∃ t, exec (.fork x) s = .next t ∧ PassedPred s t srcs x.p false ∧ OnlySlot s t)) ∧
  (∀ (s : State) (p i c : Nat) (e : Acc) (ctr : Word) (task : Task), AtPlace s p i e → e.place = .spad c →
    e.kind = .fork ctr task → logRoom s p →
    ∃ t, exec (.remoteScratchpadRequest p i) s = .next t ∧ Performed s t p i e { v := 1 } ∧
      leNat (spadRead t p c e.off 8) = (leNat (spadRead s p c e.off 8) + 1) % 2 ^ 64 ∧ ∀ a, physRead t a 1 = physRead s a 1) ∧
  (∀ (s : State) (p i n : Nat) (e : Acc) (ctr : Word) (task : Task), runs s p = true →
    (s.part p).live.resps[i]? = some (e, { v := 1 }) →
    (∀ j f, j < i → (s.part p).live.resps[j]? = some f → sameResp (e, { v := 1 }) f = false) →
    e.kind = .fork ctr task → e.byHost = false → e.eng = none → e.act = (s.slotAt p e.core e.slot).act → n < 7 → e.dst = .pred n →
    e.dst2 = .none → (∀ f ∈ (s.slotAt p e.core e.slot).lq, f.held = none) →
    ∃ t, exec (.respReturn p i) s = .next t ∧ (t.coreAt p e.core).deque = (s.coreAt p e.core).deque ++ [task] ∧
      readP (t.slotAt p e.core e.slot) (BitVec.ofNat 3 n) = true ∧
      (t.slotAt p e.core e.slot).pc = (s.slotAt p e.core e.slot).pc + 12 ∧ (t.slotAt p e.core e.slot).st = .ready ∧
      sameBytes s t) ∧
  (∀ (x : AOff) (s : State) (ctr : Word), Ready s x.c [x.a] [] [] →
    counterPlace s (baseTarget (sourceValue s.me [x.a] 0) x.off) = .ok ctr →
    let place := counterAt s.cur.c ctr
    (s.me.joinRead = none ∨ (∃ c, s.me.joinRead = some c ∧ s.mine.deque = [] ∧ counterRead s s.cur.p ctr ≠ c.toNat) →
      s.me.lq.length < 8 →
      ∃ t, exec (.join x) s = .next t ∧
        AccessTaken s t [x.a] { id := s.nextId, core := s.cur.c, slot := s.cur.n, act := s.me.act, kind := .join, ea := place.2,
                                place := place.1, ord := .rlx, scope := .cl } ∧
        t.me.pc = s.me.pc ∧ t.me.st = .blocked ∧ t.me.wait = .store ∧ t.me.joinRead = none) ∧
    (∀ c, s.me.joinRead = some c → s.mine.deque = [] → counterRead s s.cur.p ctr = c.toNat →
      ∃ t, exec (.join x) s = .next t ∧ WaitsAt s t .phase) ∧
    ∀ c pre e, s.me.joinRead = some c → s.mine.deque = pre ++ [e] → frameOk s.me.frame →
      windowFree s.me (s.me.wbase + s.me.frame - 1) (s.me.wbase + s.me.frame + 8) →
      windowFree s.me (s.me.wbase + s.me.frame - 8) (s.me.wbase + s.me.frame - 4) →
      spillFits s.me (spillNeed s.me (s.me.wbase + s.me.frame - 8 + 16)) = true →
      ∃ t, exec (.join x) s = .next t ∧ t.mine.deque = pre ∧ t.me.pc = e.pc ∧ t.me.frame = 16 ∧
        t.me.frames = ⟨s.me.frame, some e.counter⟩ :: s.me.frames ∧ readReg t.me 23 = s.me.pc ∧
        (∀ i < 4, readReg t.me (16 + i) = e.regs.getD i 0) ∧ t.me.joinRead = none ∧ sameBytes s t) ∧
  (∀ (s : State) (p i : Nat) (e : Acc) (v : Word), runs s p = true → (s.part p).live.resps[i]? = some (e, { v := v }) →
    (∀ j f, j < i → (s.part p).live.resps[j]? = some f → sameResp (e, { v := v }) f = false) →
    e.kind = .join → e.byHost = false → e.eng = none → e.act = (s.slotAt p e.core e.slot).act → e.dst = .none → e.dst2 = .none →
    (∀ f ∈ (s.slotAt p e.core e.slot).lq, f.held = none) →
    ∃ t, exec (.respReturn p i) s = .next t ∧ sameBytes s t ∧
      let x := s.slotAt p e.core e.slot
      let y := t.slotAt p e.core e.slot
      (v = 0 → y.pc = x.pc + 12 ∧ y.st = .ready ∧
        ∀ ev c sc, (ev, c, sc) ∈ e.know → inScope c e.core sc = true → ev ∈ y.seen) ∧
      (v ≠ 0 → y.pc = x.pc ∧ y.st = x.st ∧ y.wait = .phase ∧ y.joinRead = some v)) ∧
  (∀ (x : C0) (s : State), Ready s x.c [] [] [] → (∀ f ∈ s.me.frames, f.join = none) →
    (s.me.joinAddr = none → s.cur.n ≠ 3 → ∃ t, exec (.doneTask x) s = .next t ∧ t.me.st = .idle ∧ sameBytes s t) ∧
    (s.me.joinAddr = none → s.cur.n = 3 → ∃ t, exec (.doneTask x) s = .next t ∧ Jumped s t [] (s.me.pc + 12)) ∧
    ∀ ctr, s.me.joinAddr = some ctr → s.me.sb.length < 8 →
      ∃ t, exec (.doneTask x) s = .next t ∧ (s.cur.n ≠ 3 → t.me.st = .idle) ∧
        (s.cur.n = 3 → t.me.st = .ready ∧ t.me.pc = s.me.pc + 12) ∧ t.me.sb = s.me.sb ++ [decrementOf s ctr] ∧ sameBytes s t) ∧
  ∀ (x : C0) (s : State) (f : Frame) (rest : List Frame) (ctr : Word), Ready s x.c [] [] [] → s.me.frames = f :: rest →
    f.join = some ctr → frameOk f.f → frameOk s.me.frame → f.f - 8 ≤ s.me.wbase → s.me.fillTo = none → s.me.sb.length < 8 →
    windowFree s.me (s.me.wbase + 7) (s.me.wbase + s.me.frame) → (readReg s.me 23).toNat % 4 = 0 →
    ∃ t, exec (.doneTask x) s = .next t ∧ t.me.pc = readReg s.me 23 ∧ settled t.me ∧ t.me.frame = f.f ∧ t.me.frames = rest ∧
      t.me.wbase = s.me.wbase - (f.f - 8) ∧ t.me.sb = s.me.sb ++ [decrementOf s ctr] ∧ sameBytes s t

/-! ### Virtual time and instars -/

/-- R168, R169, R170, R176, R308: VTSET and VTADV set the core's VT and read it back, or trap; IGRP makes a group of a descriptor
that passes its checks; IJOIN of a group that the slot finds takes the member's origin for VT and joins; ILEAVE leaves, once the
member owns no key. Which definitions a slot finds is the model's reading (log entry 64). -/
def Obligations.VirtualTime : Prop :=
  (∀ (x : DA) (s : State), Ready s x.c [x.a] [x.d] [] →
    let v := sourceValue s.me [x.a] 0
    (membership s s.cur.p s.cur.c = none → s.mine.vt.toNat ≤ v.toNat →
      ∃ t, exec (.vtset x) s = .next t ∧ PassedWith s t [x.a] x.d v ∧ Only (updMine s fun k => { k with vt := v }) t ∧
        sameBytes s t) ∧
    (membership s s.cur.p s.cur.c ≠ none ∨ v.toNat < s.mine.vt.toNat →
      ∃ t, exec (.vtset x) s = .next t ∧ Trapped s t 0x15 0) ∧
    (membership s s.cur.p s.cur.c = none → s.mine.vt.toNat + v.toNat < 2 ^ 64 → istPending s.mine = false →
      ∃ t, exec (.vtadv x) s = .next t ∧ PassedWith s t [x.a] x.d (s.mine.vt + v) ∧
        Only (updMine s fun k => { k with vt := s.mine.vt + v }) t ∧ sameBytes s t) ∧
    (∀ g gr rank m, membership s s.cur.p s.cur.c = some (g, gr, rank, m) → s.mine.vt.toNat + v.toNat < 2 ^ 64 →
      v = m.step → owesInstar s s.cur.p s.cur.c g rank = false → istPending s.mine = false →
      ∃ t, exec (.vtadv x) s = .next t ∧ PassedWith s t [x.a] x.d (s.mine.vt + v) ∧
        Only (updMine s fun k => { k with vt := s.mine.vt + v }) t ∧ sameBytes s t) ∧
    (∀ g gr rank m, membership s s.cur.p s.cur.c = some (g, gr, rank, m) → v ≠ m.step →
      ∃ t, exec (.vtadv x) s = .next t ∧ Trapped s t 0x15 0) ∧
    (∀ g gr rank m, membership s s.cur.p s.cur.c = some (g, gr, rank, m) → s.mine.vt.toNat + v.toNat < 2 ^ 64 →
      v = m.step → owesInstar s s.cur.p s.cur.c g rank = true →
      ∃ t, exec (.vtadv x) s = .next t ∧ Trapped s t 0x14 0)) ∧
  (∀ (x : A1) (s : State), Ready s x.c [x.a] [] [] → quiet s.me = true →
    (∀ n g, readGroup s (sourceValue s.me [x.a] 0) = .ok (n, g) →
      ∃ t, exec (.igrp x) s = .next t ∧ Passed (knowing s t.me.seen) t [x.a] ∧ learns s t [s.myPart.live.events + 1] ∧
        sameBytes s t ∧ mfind? t.myPart.live.groups n = some g ∧
        ∀ k, k ≠ n → mfind? t.myPart.live.groups k = mfind? s.myPart.live.groups k) ∧
    ∀ f, readGroup s (sourceValue s.me [x.a] 0) = .error f → f.sub = 0 → f.impr = false → f.cause < 256 →
      ∃ t, exec (.igrp x) s = .next t ∧ Trapped s t f.cause f.bad) ∧
  ∀ (x : GrpI) (s : State) (g : Group) (rank : Nat) (m : Member), Ready s x.c [] [] [] →
    mfind? s.myPart.live.groups x.g.toNat = some g → memberOf g s.cur.c = some (rank, m) →
    (groupAt s s.cur.p x.g.toNat = some g → membership s s.cur.p s.cur.c = none → m.left = false →
      s.mine.vt.toNat ≤ m.origin.toNat →
      ∃ t, exec (.ijoin x) s = .next t ∧ Passed s t [] ∧ sameBytes s t ∧ t.mine.vt = m.origin ∧
        mfind? t.myPart.live.groups x.g.toNat = some { g with members := g.members.map fun k =>
          if k.core = s.cur.c then { k with joined := true } else k }) ∧
    (m.joined = true → m.left = false →
      (∀ e ∈ s.myPart.live.keys, e.1 / 4096 = x.g.toNat → e.2.writer ≠ rank) →
      ∃ t, exec (.ileave x) s = .next t ∧ Passed s t [] ∧ sameBytes s t ∧
        mfind? t.myPart.live.groups x.g.toNat = some { g with members := g.members.map fun k =>
          if k.core = s.cur.c then { k with left := true } else k })

/-- R171, R182, R173, R174: FLOOR_UPDATE lets a place see the floor, the least VT of the joined members and origin of those
yet to join; IQRY reads horizon, oldest retained stamp, floor, span, VT and rank; IREG registers a key whose fields and pages pass,
IDROP drops one that the core owns. What selector 1 reads is log entry 49, that IDROP waits for ISTs on their way log entry 65, which
definitions a slot finds log entry 64: the model's readings. -/
def Obligations.KeysAndFloors : Prop :=
  (∀ (s : State) (p g view : Nat) (gr : Group), runs s p = true → mfind? (s.part p).live.groups g = some gr →
    ∃ t, exec (.floorUpdate p g view) s = .next t ∧ sameBytes s t ∧
      (∀ m ∈ gr.members, m.left = false →
        seenFloor t p g view ≤ if m.joined then (s.coreAt p m.core).vt.toNat else m.origin.toNat) ∧
      ((∃ m ∈ gr.members, m.left = false ∧
        seenFloor t p g view = if m.joined then (s.coreAt p m.core).vt.toNat else m.origin.toNat) ∨
        seenFloor t p g view = 2 ^ 64 - 1)) ∧
  (∀ (x : IqryI) (s : State), Ready s x.c [x.a] [x.d] [] →
    let w := sourceValue s.me [x.a] 0
    let reads (n : Nat) : Prop := ∃ t, exec (.iqry x) s = .next t ∧ Wrote s t [x.a] x.d (BitVec.ofNat 64 n) 0
    (∀ k g, keyOf s s.cur.p w = some (k, g) → x.sel = 0 → reads ((horizon k).getD (2 ^ 64 - 1))) ∧
    (∀ k g, keyOf s s.cur.p w = some (k, g) → x.sel = 1 → reads ((oldestKept s s.cur.p w k g).getD (2 ^ 64 - 1))) ∧
    (keyOf s s.cur.p w = none → x.sel = 0 ∨ x.sel = 1 →
      ∃ t, exec (.iqry x) s = .next t ∧ Trapped s t 0x13 w) ∧
    (groupAt s s.cur.p (keyGroup w) = none → x.sel = 2 ∨ x.sel = 3 → ∃ t, exec (.iqry x) s = .next t ∧ Trapped s t 0x13 w) ∧
    (∀ g, groupAt s s.cur.p (keyGroup w) = some g →
      (x.sel = 2 → reads (seenFloor s s.cur.p (keyGroup w) (coreView s.cur.c))) ∧
      (x.sel = 3 → reads (g.members.map fun m => m.step.toNat).sum)) ∧
    (x.sel = 4 → reads s.mine.vt.toNat) ∧
    (∀ g gr rank m, membership s s.cur.p s.cur.c = some (g, gr, rank, m) → x.sel = 5 → reads rank) ∧
    (membership s s.cur.p s.cur.c = none → x.sel = 5 → reads (2 ^ 64 - 1))) ∧
  (∀ (x : AB) (s u : State) (k : Key) (ls : List (Leaf × Bool)), Ready s x.c [x.a, x.b] [] [] →
    let w := sourceValue s.me [x.a, x.b] 0
    readKey s w (sourceValue s.me [x.a, x.b] 1) = some k →
    acceptRange s.cur.p s.cur.c .rw true
      ((k.base.toNat + k.keep * 256 - 1) / 65536 - k.base.toNat / 65536 + 1) (k.base.toNat / 65536)
      (taken s [x.a, x.b]) = (u, .ok ls) →
    ∃ t, exec (.ireg x) s = .next t ∧ Passed (knowing s t.me.seen) t [x.a, x.b] ∧
      learns s t [s.myPart.live.events + 1] ∧ sameBytes s t ∧
      mfind? t.myPart.live.keys (w.toNat % 2 ^ 15) = some k) ∧
  ∀ (x : A1) (s : State) (k : Key) (g : Group), Ready s x.c [x.a] [] [] →
    let w := sourceValue s.me [x.a] 0
    keyOf s s.cur.p w = some (k, g) → ownsKey s.cur.c k g = true →
    (k.coming ≠ [] → ∃ t, exec (.idrop x) s = .next t ∧ WaitsAt s t .instar) ∧
    (k.coming = [] → readersOf s s.cur.p (keyIndex w) = [] →
      ∃ t, exec (.idrop x) s = .next t ∧ Passed (knowing s t.me.seen) t [x.a] ∧ learns s t [s.myPart.live.events + 1] ∧
        sameBytes s t ∧
        mfind? t.myPart.live.keys (keyIndex w) = none)

/-- R175, R177, R180, R285: IST reads its elements, takes a place of the key's storage and is posted with the core's VT as stamp,
or stalls while the retention rule forbids it; its key's home then takes the bytes and the stamp. ILD that passes its checks
waits for its instars; once they are there the result of its form is written to the scratchpad, the slot acquires the ISTs and goes
on. Three points are the model's readings: that an IST takes its place as it enters the store buffer, and that its instar on its way
counts as a stamp for cause 0x15 (log entries 29 and 71); that istSlot goes by the floor's latest change where the home has not seen
it (log entry 71); what the read acquires (log entry 64). -/
def Claims.Instars : Prop :=
  (∀ (x : AB) (s : State) (off : Nat) (k : Key) (g : Group), Ready s x.c [x.a, x.b] [] [] →
    let w := sourceValue s.me [x.a, x.b] 0
    let len := k.cnt * (if k.f64 then 8 else 4)
    let data := spadRead s s.cur.p s.cur.c off len
    vectorPlace s (sourceValue s.me [x.a, x.b] 1) = .ok off → keyOf s s.cur.p w = some (k, g) →
    ownsKey s.cur.c k g = true → off + len ≤ 16384 → s.me.ist = none →
    (hasStamp k s.mine.vt.toNat = true → ∃ t, exec (.ist x) s = .next t ∧ Trapped s t 0x15 0) ∧
    (hasStamp k s.mine.vt.toNat = false → ownStoreTo s.me off len = false →
      (istSlot s (taken s [x.a, x.b]) w k g = none →
        ∃ t, exec (.ist x) s = .next t ∧ WaitsAt s t .instar ∧ t.me.ist = some ⟨s.mine.vt, data⟩) ∧
      ∀ (u v : State) (i : Nat) (l : Leaf) (win : Bool), istSlot s (taken s [x.a, x.b]) w k g = some (v, i) →
        acceptVa v s.cur.p s.cur.c (k.base.toNat + 256 * i) .rw true = (u, .ok (l, win)) → s.me.sb.length < 8 →
        ∃ t e, exec (.ist x) s = .next t ∧ t.me.pc = s.me.pc + 12 ∧ t.me.st = .ready ∧ sameBytes s t ∧
          t.me.sb = s.me.sb ++ [e] ∧ e.kind = .ist (keyIndex w) i s.mine.vt data ∧ e.leaf = l ∧ e.ord = .rlx ∧
          e.place = .home (homeOf s.myPart k.base.toNat) ∧ e.ea = BitVec.ofNat 64 (k.base.toNat + 256 * i) ∧
          (mfind? t.myPart.live.keys (keyIndex w)).map (·.coming) = some (k.coming ++ [(i, s.mine.vt)]))) ∧
  (∀ (s : State) (p i h key j : Nat) (e : Acc) (τ : Word) (bs : List Byte), AtPlace s p i e → e.place = .home h →
    e.kind = .ist key j τ bs → (mget ({} : Key) (s.part p).live.keys key).coming.contains (j, τ) = true →
    e.eng = none → e.leaf.d = true → (s.part p).mig = none → e.leaf.pa % 128 = 0 → e.off % 128 = 0 → 1 ≤ bs.length → bs.length ≤ 256 → logRoom s p →
    (∀ line ∈ [e.off / 128, e.off / 128 + 1], lineHeld (s.part p).live line = false ∧ lineBusy s p line = false ∧
      lineLocked s p line = false) →
    ∃ t, exec (.perform p i) s = .next t ∧ Performed s t p i e {} ∧ memWritten s t e.leaf.pa bs ∧
      let old := mget ({} : Key) (s.part p).live.keys key
      let new := mget ({} : Key) (t.part p).live.keys key
      new.stamps = old.stamps.filter (fun m => m.1 != j) ++ [(j, τ)] ∧ new.coming = old.coming.erase (j, τ)) ∧
  (∀ e ∈ [(Instr.ildS, false), (.ildU, true)], ∀ (x : IldI) (s : State) (h : IldHold),
    Ready s x.c [x.a, x.b, x.cc] [] [] → let v := sourceValue s.me [x.a, x.b, x.cc]
    (ildCheck s e.2 (v 0) (v 1) (v 2) = .ok h → ∃ t, exec (e.1 x) s = .next t ∧ WaitsAt s t .instar ∧ t.me.ild = some h) ∧
    ∀ f, ildCheck s e.2 (v 0) (v 1) (v 2) = .error f → f.sub = 0 → f.impr = false → f.cause < 256 →
      ∃ t, exec (e.1 x) s = .next t ∧ Trapped s t f.cause f.bad) ∧
  ∀ (s u : State) (a : At) (h : IldHold) (k : Key) (g : Group) (form : Form) (insts : List (List Byte)), runs s a.p = true →
    (s.slotAt a.p a.c a.n).ild = some h → heldKey s a.p h = some (k, g) →
    readForm k g ((memberOf g a.c).getD (0, {})) h = .ok form →
    readInstars s a.p a.c k form.stamps = some (u, .ok insts) →
    logUsed (u.part a.p) + (formBytes k form insts).1.length ≤ (u.part a.p).logCap →
    ownStoreTo (s.slotAt a.p a.c a.n) h.dst (k.cnt * (if k.f64 then 8 else 4)) = false →
    ∃ t, exec (.instarReadComplete a) s = .next t ∧ (t.slotAt a.p a.c a.n).pc = (s.slotAt a.p a.c a.n).pc + 12 ∧
      (t.slotAt a.p a.c a.n).st = .ready ∧ (t.slotAt a.p a.c a.n).ild = none ∧
      (∀ ev ∈ instarsTell s a.p a.c k form.stamps, ev ∈ (t.slotAt a.p a.c a.n).seen) ∧
      ((∀ line, lineHeld (s.part a.p).live line = false) → ∀ b, physRead t b 1 = physRead s b 1) ∧
      ∀ p c o, spadByte t p c o = if p = a.p ∧ c = a.c ∧ h.dst ≤ o ∧ o < h.dst + (formBytes k form insts).1.length then
        (formBytes k form insts).1.getD (o - h.dst) 0 else spadByte s p c o

/-- R178, R179, R180: ILD.S gives the instar at its instant, or, between two, a fused multiply-add of their difference with the
rounded fraction; ILD.U holds the instar at the last settled stamp bp, or extrapolates beyond it through as many earlier ones
as the key's order and the origin allow, up to XLIM. -/
def Claims.ReadForms : Prop :=
  (∀ (k : Key) (w r : Member) (rank : Nat) (vt t : Word), 1 ≤ w.step.toNat →
    (rank ≤ k.writer → settledForm k w r rank vt t = .error 0x10) ∧
    (k.writer < rank →
      (t.toNat < vt.toNat ∨ vt.toNat + r.step.toNat < t.toNat ∨ t.toNat < w.origin.toNat →
        settledForm k w r rank vt t = .error 0x11) ∧
      (vt.toNat ≤ t.toNat → t.toNat ≤ vt.toNat + r.step.toNat → w.origin.toNat ≤ t.toNat →
        ∃ n, let τ := w.origin.toNat + n * w.step.toNat
          τ ≤ t.toNat ∧ t.toNat < τ + w.step.toNat ∧
          settledForm k w r rank vt t = .ok (if t.toNat = τ then .inst τ
            else .interp τ (τ + w.step.toNat) (t.toNat - τ) w.step.toNat)))) ∧
  (∀ (k : Key) (g : Group) (w : Member) (vt t : Word), 1 ≤ w.step.toNat →
    let b : Int := (vt.toNat : Int) - (g.members.map fun m => m.step.toNat).sum
    ∃ n, let bp := w.origin.toNat + n * w.step.toNat
      (if b < w.origin.toNat then n = 0 else (bp : Int) ≤ b ∧ b < bp + w.step.toNat) ∧
      (t.toNat < bp → upstreamForm k g w vt t = .error 0x11) ∧
      (bp ≤ t.toNat → k.xlim.toNat < t.toNat - bp → upstreamForm k g w vt t = .error 0x12) ∧
      (bp ≤ t.toNat → t.toNat - bp ≤ k.xlim.toNat →
        (t.toNat = bp ∨ Min.min k.ord n = 0 → upstreamForm k g w vt t = .ok (.inst bp)) ∧
        (t.toNat ≠ bp → Min.min k.ord n = 1 →
          upstreamForm k g w vt t = .ok (.extrap1 (bp - w.step.toNat) bp (t.toNat - bp) w.step.toNat)) ∧
        (t.toNat ≠ bp → Min.min k.ord n = 2 → upstreamForm k g w vt t =
          .ok (.extrap2 (bp - 2 * w.step.toNat) (bp - w.step.toNat) bp (t.toNat - bp) w.step.toNat)))) ∧
  ∀ (f : Fmt) (a b c d step x y z : Nat),
    let rnd (neg : Bool) (num den : Nat) : Nat := (f.round .rne neg num den).1
    (formElem f (.inst a) [x] = (x, 0)) ∧
    (formElem f (.interp a b d step) [x, y]).1 = (f.fma .rne (rnd false d step) (f.sub .rne y x).1 x).1 ∧
    (formElem f (.extrap1 a b d step) [x, y]).1 = (f.fma .rne (rnd false d step) (f.sub .rne y x).1 y).1 ∧
    (formElem f (.extrap2 a b c d step) [x, y, z]).1 =
      (f.fma .rne (rnd false (d * (d + step)) (2 * step * step)) x
        (f.fma .rne (rnd true (d * (d + 2 * step)) (step * step)) y
          (f.mul .rne (rnd false ((d + step) * (d + 2 * step)) (2 * step * step)) z).1).1).1

/-- R173 to R182: keys, stores and reads of instars. When an IST takes its place, the count of an instar on its way for cause 0x15
and the floor that istSlot uses are the model's readings (log entries 29 and 71). -/
def Obligations.InstarsAndReads : Prop := Claims.Instars ∧ Claims.ReadForms

/-! ### Engines -/

/-- R30, R34, R81, R186, R229: an engine instruction whose operands pass its checks enters its command, with the operand values
captured, at the tail of its engine's queue under the next number; a full queue blocks the slot. -/
def Obligations.EngineCommandsEnter : Prop :=
  ∀ (i : Instr) (f : EngForm) (s : State), engForm i = some f → EngReady s f →
    let v := sourceValue s.me f.srcs
    f.ok s v →
    ((getQ s.mine f.e).queue.length + (if (getQ s.mine f.e).run.isSome then 1 else 0) < (if f.e = .matrix then 4 else 2) →
      ∃ t, exec i s = .next t ∧ Entered s t f.e (commandOf s f (f.op s v))) ∧
    ((if f.e = .matrix then 4 else 2) ≤ (getQ s.mine f.e).queue.length + (if (getQ s.mine f.e).run.isSome then 1 else 0) →
      ∃ t, exec i s = .next t ∧ WaitsAt s t .engineFull)

/-- R34, R37: the head of a queue whose guard is false completes with no other effect than its number; a discarded VCMP
resolves its e-slot false. -/
def Claims.GuardedDiscard : Prop :=
  ∀ (s : State) (x : CoreAt) (e : Engine) (cmd : Cmd), engineMay s x.p = true →
    (getQ (s.coreAt x.p x.c) e).head = some cmd → cmd.verdict = some false →
    (e ≠ .vector → (s.coreAt x.p x.c).arm.active = false) →
    ∃ t, exec (.guardedCommandDiscard x e) s = .next t ∧ sameBytes s t ∧
      (getQ (t.coreAt x.p x.c) e).completed = cmd.num ∧ (getQ (t.coreAt x.p x.c) e).run = none ∧
      (getQ (t.coreAt x.p x.c) e).queue.map (·.num) = (getQ (s.coreAt x.p x.c) e).queue.tail.map (·.num) ∧
      (∀ g : EReg, cmd.op.target = some g → eguard (s.slotAt x.p x.c cmd.slot) g.toNat = .waiting cmd.num →
        eguard (t.slotAt x.p x.c cmd.slot) g.toNat = .known false) ∧
      ∀ n, readReg (t.slotAt x.p x.c n) = readReg (s.slotAt x.p x.c n) ∧
        (t.slotAt x.p x.c n).vregs = (s.slotAt x.p x.c n).vregs

/-- R185, R186, R191, R192, R294: the head of the vector queue starts with its sources read, its queue-register operands popped, and
runs with the effect of those values. A store to the own scratchpad writes as it starts; a load from another place posts the two
aligned halves of its 16 bytes. -/
def Claims.VectorStarts : Prop :=
  ∀ (s : State) (x : CoreAt) (cmd : Cmd), runs s x.p = true → startable? s x.p x.c .vector = some cmd →
    let y := s.slotAt x.p x.c cmd.slot
    let eff (y : Slot) (pop : List Word) : Effect := vecEffect s x.p x.c y (modeOf cmd.rm 0) pop cmd.op
    let running (t : State) (e : Effect) : Prop :=
      (t.coreAt x.p x.c).vq = { (s.coreAt x.p x.c).vq with
        queue := (s.coreAt x.p x.c).vq.queue.tail, run := some { cmd := cmd, pins := cmd.op.tiles, eff := e } }
    (cmd.op.pops = [] → storedNow y cmd.op = none → (∀ v ea, cmd.op = .vload v ea → nearOwn s x.p x.c ea = true) →
      ∃ t, exec (.vectorCommandStart x) s = .next t ∧ sameBytes s t ∧ running t (eff y []) ∧
        ∀ n, (t.slotAt x.p x.c n).vregs = (s.slotAt x.p x.c n).vregs) ∧
    (∀ q, cmd.op.pops = [q] → y.act = cmd.act →
      ∃ t, exec (.vectorCommandStart x) s = .next t ∧ sameBytes s t ∧ running t (eff (popQ y q) [(queueOf y q).headD 0]) ∧
        ∀ n, queueOf (t.slotAt x.p x.c cmd.slot) n = if n = q then (queueOf y q).tail else queueOf y n) ∧
    (∀ v a, cmd.op = .vstore v a ∨ (∃ off tile, cmd.op = .vstoreT v off tile ∧ a = localAddr off) → nearOwn s x.p x.c a = true →
      logRoom s x.p → ∃ t, exec (.vectorCommandStart x) s = .next t ∧ running t (eff y []) ∧ (∀ b, physRead t b 1 = physRead s b 1) ∧
        ∀ p c o, spadByte t p c o =
          if p = x.p ∧ c = x.c ∧ a.toNat % 2 ^ 28 ≤ o ∧ o < a.toNat % 2 ^ 28 + 16
          then (readV y v).extractLsb' (8 * (o - a.toNat % 2 ^ 28)) 8 else spadByte s p c o) ∧
    ∀ v a pl off, cmd.op = .vload v a → nearOwn s x.p x.c a = false → globalPlace s x.p x.c a 1 8 = .ok (pl, off) →
      (∃ off', globalPlace s x.p x.c (a + 8) 1 8 = .ok (pl, off')) → (∀ c, pl ≠ .own c) →
      let half (id k : Nat) (ea : Word) : Nat × ChClass × Acc := (clusterOf x.c, .request,
        { id := id, core := x.c, slot := cmd.slot, act := cmd.num, kind := .load 8 false, ea := ea, place := pl,
          eng := some .vector, piece := k })
      ∃ t, exec (.vectorCommandStart x) s = .next t ∧ sameBytes s t ∧ running t (eff y []) ∧
        (t.part x.p).live.chans = (s.part x.p).live.chans ++ [half s.nextId 0 a, half (s.nextId + 1) 8 (a + 8)]

/-- R186, R188, R148, R191, R199, R278: a vector command completes when its accesses have been performed and its push has room:
its vector register, its queue register and its flags are those of its activation, the e-slot that awaits it resolves, its slot's
NOLEGAL counts, its number is completed. A load beyond the core has its register from the bytes that came. -/
def Claims.VectorCompletes : Prop :=
  (∀ (s : State) (x : CoreAt) (r : Running) (e : Effect), runs s x.p = true → (s.coreAt x.p x.c).vq.run = some r →
    vectorDone r = some e → engineBusy s x.p x.c .vector = false →
    let y := s.slotAt x.p x.c r.cmd.slot
    y.act = r.cmd.act →
    (∀ q v, e.push = some (q, v) → (queueOf y q).length + pendingPush y q + statPushes s x.p x.c r.cmd.slot q < 4) →
    logUsed (s.part x.p) + e.spad.length ≤ (s.part x.p).logCap →
    ∃ t, exec (.vectorCommandComplete x) s = .next t ∧ (∀ a, physRead t a 1 = physRead s a 1) ∧
      (e.spad = [] → ∀ p c off, spadByte t p c off = spadByte s p c off) ∧
      (∀ off b, e.spad = [(off, b)] → ∀ o, spadByte t x.p x.c o = if o = off then b else spadByte s x.p x.c o) ∧
      (t.coreAt x.p x.c).vq.completed = r.cmd.num ∧ (t.coreAt x.p x.c).vq.run = none ∧
      let z := t.slotAt x.p x.c r.cmd.slot
      (e.vregs = [] → z.vregs = y.vregs) ∧
      (∀ d b, e.vregs = [(d, b)] → ∀ n, mget 0 z.vregs n = if n = d then b else mget 0 y.vregs n) ∧
      z.fstat = y.fstat ||| e.flags.setWidth 64 ∧ z.nolegal = y.nolegal + (if e.nolegal then 1 else 0) ∧
      (∀ n, queueOf z n = queueOf y n ++ match e.push with
        | some (q, v) => if n = q then [v] else []
        | none => []) ∧
      (∀ (b : Bool) (g : EReg), e.resolve = some b →
        eguard z g.toNat = if eguard y g.toNat = .waiting r.cmd.num then .known b else eguard y g.toNat) ∧
      (e.resolve = none → z.eguards = y.eguards) ∧
      ∀ n, n ≠ r.cmd.slot → (t.slotAt x.p x.c n).vregs = (s.slotAt x.p x.c n).vregs ∧
        (t.slotAt x.p x.c n).queues = (s.slotAt x.p x.c n).queues) ∧
  (∀ (r : Running) (d : VReg) (ea : Word), r.cmd.op = .vload d ea → r.eff.vregs = [] → r.got.length = 16 →
    vectorDone r = some { r.eff with vregs := [(d.toNat, BitVec.ofNat 128 (leNat (bytesAt r.got 0 16)))] }) ∧
  (∀ (r : Running) (o : SampOp) (q : Nat) (a b : Word) (n moff : Nat) (g : List Word), r.cmd.op = .samp o q a b n moff g →
    r.got.length = 4 * n + (moff + n + 7) / 8 → vectorDone r = some (sampEffect r.got o q n moff g)) ∧
  ∀ (s : State) (x : CoreAt) (r : Running) (off : Nat) (ea : Word), runs s x.p = true → (s.coreAt x.p x.c).vq.run = some r →
    engineBusy s x.p x.c .vector = false → ea.msb = true → x.c < 2 ^ 40 →
    (∀ len, batchNext r = some (.read ea len) → len ≤ 8 → globalPlace s x.p x.c ea 1 len = .ok (.own x.c, off) →
      ∃ t, exec (.postALoad ⟨⟨x.p, x.c, 4⟩, 0⟩) s = .next t ∧ sameBytes s t ∧
        (t.coreAt x.p x.c).vq.run = some { r with vals := r.vals ++ [leNat (spadRead s x.p x.c off len)] }) ∧
    ∀ bs last, batchNext r = some (.write ea bs last) → bs.length ≤ 8 → logRoom s x.p →
      globalPlace s x.p x.c ea 1 bs.length = .ok (.own x.c, off) →
      ∃ t, exec (.postAStoreBufferEntry ⟨⟨x.p, x.c, 4⟩, 0⟩) s = .next t ∧ (∀ a, physRead t a 1 = physRead s a 1) ∧
        (t.coreAt x.p x.c).vq.run = some (batchWrote r last) ∧
        ∀ p c o, spadByte t p c o = if p = x.p ∧ c = x.c ∧ off ≤ o ∧ o < off + bs.length then bs.getD (o - off) 0
          else spadByte s p c o

/-- R34, R37, R148, R185, R186, R188, R191, R199, R278, R294: the vector queue, and commands whose guard fails. -/
def Obligations.VectorQueue : Prop := Claims.GuardedDiscard ∧ Claims.VectorStarts ∧ Claims.VectorCompletes

/-- The types of R195. -/
def Claims.fpTypes : List Ty := [.f16, .bf16, .f32, .f64]
/-- The rounded lane operations of R195 and R196, with the operation of "Numbers" each performs. -/
def Claims.laneOps : List (VFop × (Fmt → RMode → Nat → Nat → Nat → Nat × Flags)) :=
  [(.add, fun f m a b _ => f.add m a b), (.sub, fun f m a b _ => f.sub m a b), (.mul, fun f m a b _ => f.mul m a b),
   (.div, fun f m a b _ => f.div m a b), (.sqrt, fun f m a _ _ => f.sqrt m a),
   (.fma, fun f m a b c => f.fmaV m (f.read a) (f.read b) (f.read c)),
   (.fms, fun f m a b c => f.fmaV m (f.read a) (f.read b) (signed true (f.read c))),
   (.fnma, fun f m a b c => f.fmaV m (signed true (f.read a)) (f.read b) (f.read c))]
/-- The value at the root of R201's tree over lanes l. -/
def Claims.tree (op : Nat → Nat → Nat) (l : Nat → Nat) : Nat → Nat → Nat
  | 0, i => l i
  | d + 1, i => op (Claims.tree op l d (2 * i)) (Claims.tree op l d (2 * i + 1))

/-- R195, R196, R53: floating-point results lane by lane, each that of the scalar operation on its lanes, with the flags of all
lanes. -/
def Claims.LaneArithmetic : Prop :=
  (∀ e ∈ Claims.laneOps, ∀ t ∈ Claims.fpTypes, ∀ (m : RMode) (a b c : V128) (k : Nat), k < 128 / t.bits →
    let w := t.bits
    lane w (vfp e.1 t m a b c).1 k = (e.2 (tyFmt t) m (lane w a k) (lane w b k) (lane w c k)).1 % 2 ^ w ∧
      ∀ i < 6, ((vfp e.1 t m a b c).2.getLsbD i = true ↔
        ∃ j < 128 / w, (e.2 (tyFmt t) m (lane w a j) (lane w b j) (lane w c j)).2.getLsbD i = true)) ∧
  ∀ t ∈ Claims.fpTypes, ∀ (m : RMode) (a b c : V128) (k : Nat), k < 128 / t.bits →
    let w := t.bits
    let x := lane w a k
    (∃ r, extremum (tyFmt t) false x (lane w b k) r ∧ lane w (vfp .min t m a b c).1 k = r.1 % 2 ^ w) ∧
    (∃ r, extremum (tyFmt t) true x (lane w b k) r ∧ lane w (vfp .max t m a b c).1 k = r.1 % 2 ^ w) ∧
    (∃ r, signResult (tyFmt t) x false r ∧ lane w (vfp .abs t m a b c).1 k = r.1 % 2 ^ w) ∧
    ∃ r, signResult (tyFmt t) x (!signBit (tyFmt t) x) r ∧ lane w (vfp .neg t m a b c).1 k = r.1 % 2 ^ w

/-- R197, R200, R205: the integer operations modulo the lane's width, VPERM byte by byte, VSEL bit by bit, VDOT4's clamped
sums. -/
def Claims.LaneIntegers : Prop :=
  (∀ (o : VIop) (t : Ty) (a b : V128) (k : Nat), t.isInt = true → k < 128 / t.bits →
    let w := t.bits
    let x := lane w a k
    let y := lane w b k
    let r := lane w (vint o t a b) k
    let value (n : Nat) : Int := if t.signed then (BitVec.ofNat w n).toInt else n
    match o with
    | .add => r = (x + y) % 2 ^ w
    | .sub => (r : Int) = ((x : Int) - y) % (2 ^ w : Nat)
    | .mul => r = x * y % 2 ^ w
    | .shl => r = x * 2 ^ (y % w) % 2 ^ w
    | .shr => r = x / 2 ^ (y % w)
    | .sar => (BitVec.ofNat w r).toInt = (BitVec.ofNat w x).toInt / (2 ^ (y % w) : Nat)
    | .and => ∀ i, r.testBit i = (x.testBit i && y.testBit i)
    | .or => ∀ i, r.testBit i = (x.testBit i || y.testBit i)
    | .xor => ∀ i, r.testBit i = (x.testBit i != y.testBit i)
    | .min => (r = x ∨ r = y) ∧ value r = Min.min (value x) (value y)
    | .max => (r = x ∨ r = y) ∧ value r = Max.max (value x) (value y)) ∧
  (∀ (a b c : V128) (n : Nat), n < 16 →
    lane 8 (vperm a b c) n =
      if 128 ≤ lane 8 c n then 0
      else if lane 8 c n % 32 < 16 then lane 8 a (lane 8 c n % 32) else lane 8 b (lane 8 c n % 32 - 16)) ∧
  ∀ (uns : Bool) (a b c : V128),
    let byte (u : Bool) (v : V128) (i : Nat) : Int := if u then lane 8 v i else (BitVec.ofNat 8 (lane 8 v i)).toInt
    let sum (j : Nat) : Int := ((List.range 4).map fun k => byte uns a (4 * j + k) * byte false b (4 * j + k)).sum +
      (BitVec.ofNat 32 (lane 32 c j)).toInt
    (∀ j < 4, (BitVec.ofNat 32 (lane 32 (vdot4 uns a b c).1 j)).toInt = Max.max (-2 ^ 31) (Min.min (2 ^ 31 - 1) (sum j))) ∧
      ((vdot4 uns a b c).2 = if ∃ j < 4, sum j < -2 ^ 31 ∨ 2 ^ 31 ≤ sum j then fSAT else 0)

/-- R198, R199: the verdict of each lane; a mask has all ones where it is true, MODE any resolves true where it is true in some
lane, MODE all where it is in every lane. -/
def Claims.LaneCompares : Prop :=
  (∀ (t : Ty) (c : FCond) (a b : V128) (k : Nat), k < 128 / t.bits →
    let x := lane t.bits a k
    let y := lane t.bits b k
    let value (n : Nat) : Int := if t.signed then (BitVec.ofNat t.bits n).toInt else n
    (t.isInt = false → (vcmp t c a b).1[k]? = some ((tyFmt t).cmp c x y).1) ∧
    (t.isInt = true → ∃ v, (vcmp t c a b).1[k]? = some v ∧ (match c with
      | .eq => (v = true ↔ value x = value y)
      | .ne => (v = true ↔ value x ≠ value y)
      | .lt => (v = true ↔ value x < value y)
      | .le => (v = true ↔ value x ≤ value y)
      | .gt => (v = true ↔ value x > value y)
      | .ge => (v = true ↔ value x ≥ value y)
      | .un | .or => v = false))) ∧
  ∀ (s : State) (p c : Nat) (x : Slot) (m : RMode) (pop : List Word) (t : Ty) (f : FCond) (a b : VReg),
    let vs := (vcmp t f (readV x a) (readV x b)).1
    let eff (d : CmpDst) : Effect := vecEffect s p c x m pop (.vcmp t f d a b)
    (∀ d : VReg, ∃ r, (eff (.mask d)).vregs = [(d.toNat, r)] ∧
      ∀ k < 128 / t.bits, lane t.bits r k = if vs.getD k false then 2 ^ t.bits - 1 else 0) ∧
    (∀ e, ∃ v, (eff (.any e)).resolve = some v ∧ (v = true ↔ ∃ k < 128 / t.bits, vs[k]? = some true)) ∧
    ∀ e, ∃ v, (eff (.all e)).resolve = some v ∧ (v = true ↔ ∀ k < 128 / t.bits, vs[k]? = some true)

/-- R194, R200, R204, R281: the moves, VSEL, VQTBL and SDRAW. -/
def Claims.LaneMoves : Prop :=
  ∀ (s : State) (p c : Nat) (x : Slot) (m : RMode) (pop : List Word) (d a b e : VReg) (q : Nat),
    let eff := vecEffect s p c x m pop
    let gives (op : EngOp) (r : V128) : Prop := (eff op).vregs = [(d.toNat, r)] ∧ (eff op).flags = 0 ∧ (eff op).push = none
    gives (.vmov d a) (readV x a) ∧
    (∃ r, gives (.vsel d a b e) r ∧ ∀ i < 128, r.getLsbD i =
      if (readV x e).getLsbD i then (readV x a).getLsbD i else (readV x b).getLsbD i) ∧
    (∀ (t : Ty) (y : Word), (∃ r, gives (.vdup t d (some y) q) r ∧ ∀ k < 128 / t.bits, lane t.bits r k = y.toNat % 2 ^ t.bits) ∧
      (∀ k < 128 / t.bits, ∃ r, gives (.vins t d k (some y) q) r ∧ ∀ j < 128 / t.bits,
        lane t.bits r j = if j = k then y.toNat % 2 ^ t.bits else lane t.bits (readV x d) j) ∧
      ∀ k < 128 / t.bits, ∃ v, (eff (.vext t q a k)).push = some (q, v) ∧
        if t = .i8 ∨ t = .i16 ∨ t = .i32 then v.toInt = (BitVec.ofNat t.bits (lane t.bits (readV x a) k)).toInt
        else v.toNat = lane t.bits (readV x a) k) ∧
    (eff (.vqtbl a)).qtbl = some (readV x a) ∧
    ∀ seed i : Word, (eff (.sdraw q seed i)).push = some (q, srZ seed i)

/-- R201, R202: VRED's tree, and VCVT's lanes, each the value that FCVT gives. -/
def Claims.LaneReductionsAndConversions : Prop :=
  (∀ (t : Ty) (o : RedOp) (m : RMode) (a : V128), t ≠ .e4m3 → t ≠ .e5m2 →
    let w := t.bits
    let value (n : Nat) : Int := if t.signed then (BitVec.ofNat w n).toInt else n
    let op (x y : Nat) : Nat :=
      if t.isInt then match o with
        | .sum => (x + y) % 2 ^ w
        | .min => if value y < value x then y else x
        | .max => if value x < value y then y else x
      else match o with
        | .sum => ((tyFmt t).add m x y).1
        | .min => ((tyFmt t).minMax false x y).1
        | .max => ((tyFmt t).minMax true x y).1
    lane w (vred t o m a).1 0 = Claims.tree op (lane w a) (Nat.log2 (128 / w)) 0 % 2 ^ w ∧
      ∀ k, 0 < k → k < 128 / w → lane w (vred t o m a).1 k = 0) ∧
  ∀ (src dst : Ty) (mode : Nat → RMode) (p k : Nat) (d a : V128), k < 128 / dst.bits →
    let ws := src.bits
    let wt := dst.bits
    let r := lane wt (vcvt src dst mode p d a).1 k
    (ws < wt → p < wt / ws → r = (tyConvert src dst (mode k) (lane ws a (p * (128 / wt) + k))).1 % 2 ^ wt) ∧
    (wt ≤ ws → p < ws / wt → r =
      let n := 128 / ws
      if p * n ≤ k ∧ k < (p + 1) * n then (tyConvert src dst (mode (k - p * n)) (lane ws a (k - p * n))).1 % 2 ^ wt
      else lane wt d k)

/-- R203: the correctly rounded functions on the inputs of its table: NaN, infinities, zeros and negative numbers; VRCP is one
rounding of 1/x, and where a result is exact VEXP2, VLOG2 and VRSQ give it without a flag. -/
def Claims.RoundedFunctions : Prop :=
  (∀ a : Nat,
    let f := Machine.f32
    let nan : Nat × Flags := (f.nan, fNV)
    (isNaN f a → ∀ g ∈ [exp2F32, log2F32, rcpF32, rsqF32], g a = (f.nan, if isSignalling f a then fNV else 0)) ∧
    (f.read a = .inf false → exp2F32 a = (f.inf, 0) ∧ log2F32 a = (f.inf, 0) ∧ rcpF32 a = (0, 0) ∧ rsqF32 a = (0, 0)) ∧
    (f.read a = .inf true → exp2F32 a = (0, 0) ∧ log2F32 a = nan ∧ rcpF32 a = (2 ^ 31, 0) ∧ rsqF32 a = nan) ∧
    (∀ n e, f.read a = .fin n 0 e → let inf := f.inf + if n then 2 ^ 31 else 0
      exp2F32 a = (0x3F800000, 0) ∧ log2F32 a = (f.inf + 2 ^ 31, fDZ) ∧ rcpF32 a = (inf, fDZ) ∧ rsqF32 a = (inf, fDZ)) ∧
    (∀ m e, f.read a = .fin true m e → m ≠ 0 → log2F32 a = nan ∧ rsqF32 a = nan) ∧
    ∀ n m e, f.read a = .fin n m e → m ≠ 0 → rcpF32 a = f.round .rne n (2 ^ (-e).toNat) (m * 2 ^ e.toNat)) ∧
  (∀ i < 277, let k : Int := (i : Int) - 149
    let power (k : Int) : Nat := if -126 ≤ k then (k + 127).toNat * 2 ^ 23 else 2 ^ (k + 149).toNat
    exp2F32 (Machine.f32.ofV .rne (intV k)).1 = (power k, 0) ∧ log2F32 (power k) = ((Machine.f32.ofV .rne (intV k)).1, 0) ∧
      (k % 2 = 0 → rsqF32 (power k) = (power (-k / 2), 0)))

/-- R209: a column of LUF: its pivot is the entry of largest magnitude at or below the diagonal, the lowest of equals, and its row
changes places with the diagonal's; a small pivot is replaced; the rows below hold their multipliers and what is left of them. -/
def Claims.FactorColumns : Prop :=
  ∀ (f : Fmt) (n τ δ j : Nat) (st : Luf), f ∈ [Machine.f32, Machine.f64] → j < n → st.rows.length = n →
    (∀ r ∈ st.rows, r.length = n) → st.perm.length = n →
    let new := lufColumn f n τ δ st j
    ∃ q, j ≤ q ∧ q < n ∧
      (∀ r, j ≤ r → r < n → pivotKey f (at2 st.rows r j) ≤ pivotKey f (at2 st.rows q j)) ∧
      (∀ r, j ≤ r → r < q → pivotKey f (at2 st.rows r j) < pivotKey f (at2 st.rows q j)) ∧
      let place (i : Nat) : Nat := if i = j then q else if i = q then j else i
      let old (i k : Nat) : Nat := at2 st.rows (place i) k
      let v := f.read (old j j)
      let small := v.isZero = true ∨ (v.isNan = false ∧ (f.read (old j j % 2 ^ (f.e + f.m))).lt (f.read τ) = true)
      let pivot := at2 new.rows j j
      (∀ i < n, new.perm.getD i 0 = st.perm.getD (place i) 0) ∧
      (¬small → pivot = old j j ∧ new.reg = st.reg) ∧
      (small → new.reg = st.reg + 2 ^ j ∧ pivot = if signBit f (old j j) = true ∧ v.isZero = false then f.sign true δ else δ) ∧
      new.zero = (st.zero || v.isZero) ∧
      (∀ i < n, ∀ k < n, i < j ∨ k < j ∨ (i = j ∧ k ≠ j) → at2 new.rows i k = old i k) ∧
      ∀ i, j < i → i < n → at2 new.rows i j = (f.div .rne (old i j) pivot).1 ∧
        ∀ k, j < k → k < n → at2 new.rows i k =
          (f.fmaV .rne (signed true (f.read (at2 new.rows i j))) (f.read (old j k)) (f.read (old i k))).1

/-- R210: LUS substitutes forward and back, every operation rounded once. -/
def Claims.Substitutions : Prop :=
  ∀ (f : Fmt) (n : Nat) (rows : List (List Nat)) (perm b : List Nat),
    let less (i : Nat) (z : Nat → Nat) (v k : Nat) : Nat :=
      (f.fmaV .rne (signed true (f.read (at2 rows i k))) (f.read (z k)) (f.read v)).1
    ∃ y x : Nat → Nat,
      (∀ i < n, y i = (List.range i).foldl (less i y) (b.getD (perm.getD i 0 % n) 0)) ∧
      (∀ i < n, x i = (f.div .rne (((List.range n).filter (i < ·)).foldl (less i x) (y i)) (at2 rows i i)).1) ∧
      ∀ i < n, (lusVector f n rows perm b).1.getD i 0 = x i

/-- R278 to R282: SMAXL and SGREEDY find the eligible element of largest key, SWSUM adds the weights of R280's table, SPICK picks
the element at which the running sum passes the target. -/
def Claims.Sampling : Prop :=
  ∀ (mask : List Byte) (moff : Nat) (ls : List Nat) (g : List Word),
    let at_ (i : Nat) : Nat := ls.getD i 0
    let legal (i : Nat) : Prop := i < ls.length ∧ (mask.getD ((moff + i) / 8) 0).getLsbD ((moff + i) % 8) = true ∧
      ¬isNaN Machine.f32 (at_ i)
    let key (i : Nat) : Int := (keyBits (BitVec.ofNat 32 (at_ i))).toInt
    let result (o : SampOp) : Word × Bool := sampResult o mask moff ls g
    (∀ b : BitVec 32, keyBits (keyBits b) = b ∧ (b.msb = false → keyBits b = b)) ∧
    ((∀ i, ¬legal i) → result .smaxl = (0xFFFFFFFF807FFFFF, false) ∧ result .sgreedy = (0x8000000000000000, false)) ∧
    (∀ i, legal i → (∀ j, legal j → key j ≤ key i) → (∀ j < i, legal j → key j < key i) →
      result .smaxl = (BitVec.ofInt 64 (key i), false) ∧
      result .sgreedy = ((BitVec.ofInt 64 (key i) <<< 32) ||| BitVec.ofNat 64 (0xFFFFFFFF - ((g.getD 0 0).toNat + i)), false)) ∧
    (∀ l m c θ : Nat, let f := Machine.f32
      (m = f.inf + 2 ^ 31 → weight l m c θ = 0) ∧
      (m = f.inf → weight l m c θ = if l = f.inf then 2 ^ 40 else 0) ∧
      (m ≠ f.inf → m ≠ f.inf + 2 ^ 31 → (l = f.inf + 2 ^ 31 → weight l m c θ = 0) ∧
        (l ≠ f.inf + 2 ^ 31 →
          let d := (f.sub .rne l m).1
          let w := (exp2F32 (f.mul .rne (if (FV.fin false 0 0).lt (f.read d) then 0 else d) c).1).1
          ((f.read w).lt (f.read θ) = true → weight l m c θ = 0) ∧
          ∀ k e, (f.read w).lt (f.read θ) = false → f.read w = .fin false k e →
            (0 ≤ e + 40 → weight l m c θ = k * 2 ^ (e + 40).toNat) ∧
            (e + 40 < 0 → weight l m c θ = k / 2 ^ (-(e + 40)).toNat)))) ∧
    ∀ m c θ, sampParams (g.getD 0 0) (g.getD 1 0) = some (m, c, θ) →
      ∃ w : Nat → Nat, (∀ i, legal i → w i = weight (at_ i) m c θ) ∧ (∀ i, ¬legal i → w i = 0) ∧
        let before (i : Nat) : Nat := ((List.range i).map w).sum
        let r := (g.getD 2 0).toNat
        let S := (g.getD 3 0).toNat
        let P := (g.getD 4 0).toNat
        let target := r * S / 2 ^ 64
        result .swsum = (BitVec.ofNat 64 (before ls.length), false) ∧
        (S = 0 → result .spick = (0x00000001FFFFFFFF, true)) ∧
        (S ≠ 0 → target < P → result .spick = (0x00000000FFFFFFFE, false)) ∧
        (S ≠ 0 → P ≤ target →
          (∀ i < ls.length, before i ≤ target - P → target - P < before (i + 1) →
            result .spick = (BitVec.ofNat 64 (0x0000000200000000 ||| i), false)) ∧
          (before ls.length ≤ target - P → result .spick = (0x00000000FFFFFFFE, false)))

/-- R53, R189, R194 to R205, R209, R210, R278 to R282: what the commands of the vector engine compute. -/
def Obligations.VectorLanes : Prop :=
  Claims.LaneArithmetic ∧ Claims.LaneIntegers ∧ Claims.LaneCompares ∧ Claims.LaneMoves ∧ Claims.LaneReductionsAndConversions ∧
    Claims.RoundedFunctions ∧ Claims.FactorColumns ∧ Claims.Substitutions ∧ Claims.Sampling

/-- R204, R214, R217, R228: a copy takes its tiles filling or draining, and the q4 table, as it starts, and no byte moves then;
TTSET changes nothing as it starts and, as it completes, while none of its tiles is pinned, sets the states its mask names and
clears FAULT where asked. -/
def Claims.CopyStarts : Prop :=
  (∀ (s : State) (x : CoreAt) (cmd : Cmd), runs s x.p = true → startable? s x.p x.c .copy = some cmd →
    let k := s.coreAt x.p x.c
    (∀ cp, cmd.op = .copy cp →
      ∃ t, exec (.copyCommandStart x) s = .next t ∧ sameBytes s t ∧
        (t.coreAt x.p x.c).cq = { k.cq with
          queue := k.cq.queue.tail, run := some { cmd := cmd, qtbl := cmd.table.getD k.qtbl } } ∧
        ∀ n, tileSt (t.coreAt x.p x.c) n = if n ∈ cp.tiles then (if cp.inbound then .filling else .draining)
          else tileSt k n) ∧
    ∀ m ready clrf, cmd.op = .ttset m ready clrf →
      ∃ t, exec (.copyCommandStart x) s = .next t ∧ sameBytes s t ∧
        (t.coreAt x.p x.c).cq = { k.cq with queue := k.cq.queue.tail, run := some { cmd := cmd } } ∧
        ∀ n, tileSt (t.coreAt x.p x.c) n = tileSt k n ∧ tileBad (t.coreAt x.p x.c) n = tileBad k n) ∧
  ∀ (s : State) (x : CoreAt) (r : Running) (m : Word) (ready clrf : Bool), runs s x.p = true →
    let k := s.coreAt x.p x.c
    k.cq.run = some r → r.cmd.op = .ttset m ready clrf → r.eff = {} →
    ((∀ n < 32, m.getLsbD n = true → pinned k n = false) →
      ∃ t, exec (.copyCommandComplete x) s = .next t ∧ sameBytes s t ∧ (t.coreAt x.p x.c).cq.completed = r.cmd.num ∧
        (t.coreAt x.p x.c).cq.run = none ∧
        ∀ n < 32, tileSt (t.coreAt x.p x.c) n = (if m.getLsbD n then (if ready then .ready else .empty) else tileSt k n) ∧
          tileBad (t.coreAt x.p x.c) n = (tileBad k n && !(clrf && m.getLsbD n))) ∧
    ∀ n < 32, m.getLsbD n = true → pinned k n = true → exec (.copyCommandComplete x) s = .next s

/-- R216, R229, R294, R295: the near side of a running copy moves by aligned 8-byte units at the local path, each whole in one
step: an outbound copy reads a unit, and an inbound one writes a unit once the bytes of it have come. -/
def Claims.CopyNearUnits : Prop :=
  ∀ (s : State) (x : CoreAt) (i : Nat) (r : Running) (cp : CopyCmd), runs s x.p = true →
    Machine.copyOf (s.coreAt x.p x.c) = some (r, cp) → r.err = none → cp.nearUnit i ≠ [] →
    (cp.inbound = false → i ∉ r.asked →
      ∃ t r', exec (.postALoad ⟨⟨x.p, x.c, 5⟩, i⟩) s = .next t ∧ sameBytes s t ∧ (t.coreAt x.p x.c).cq.run = some r' ∧
        r'.asked = i :: r.asked ∧
        ∀ k, mfind? r'.got k = match ((cp.nearUnit i).filter (·.2 == k)).getLast? with
          | some b => some (spadByte s x.p x.c b.1)
          | none => mfind? r.got k) ∧
    ∀ v : Nat → Byte, cp.inbound = true → i ∉ r.put → logRoom s x.p → (∀ b ∈ cp.nearUnit i, dstBytes r cp b.2 1 = some [v b.2]) →
      ∃ t, exec (.postAStoreBufferEntry ⟨⟨x.p, x.c, 5⟩, i⟩) s = .next t ∧ (∀ a, physRead t a 1 = physRead s a 1) ∧
        (t.coreAt x.p x.c).cq.run = some { r with put := i :: r.put } ∧
        ∀ p c o, spadByte t p c o =
          match if p = x.p ∧ c = x.c then ((cp.nearUnit i).filter (·.1 == o)).getLast? else none with
          | some b => v b.2
          | none => spadByte s p c o

/-- R230, R231, R287, R294, R295: the far side of a running copy moves by accesses that its cluster's channel carries, one for each
part that lies in an aligned 8-byte unit: a read's bytes are kept as its response comes, those of a compressed source in order, and a
write is posted once the bytes it needs have been read (and converted, or encoded). -/
def Claims.CopyFarPieces : Prop :=
  (∀ (s t0 : State) (x : CoreAt) (i : Nat) (r : Running) (cp : CopyCmd) (q : Piece) (e : Acc), runs s x.p = true →
    Machine.copyOf (s.coreAt x.p x.c) = some (r, cp) → r.err = none → e.own = false →
    (mfind? t0.parts x.p).isSome = true → overfull s t0 x.p = false →
    let posted : Nat × ChClass × Acc := (clusterOf e.core, .request,
      { e with id := t0.nextId, slot := r.cmd.slot, act := r.cmd.num, eng := some .copy, piece := q.pos })
    (cp.inbound = true → sourcePiece s x.p x.c r cp i = some q → pieceAccess s x.p x.c cp q (.load q.len false) = (t0, .ok e) →
      ∃ t, exec (.postALoad ⟨⟨x.p, x.c, 5⟩, i⟩) s = .next t ∧
        (t.part x.p).live.chans = (t0.part x.p).live.chans ++ [posted] ∧
        (t.coreAt x.p x.c).cq.run = (t0.coreAt x.p x.c).cq.run.map fun r => { r with asked := i :: r.asked }) ∧
    ∀ bs, cp.inbound = false → targetPiece s x.p x.c r cp i = some q →
      (if cp.zd then bs = ((encoded r cp).1.drop q.pos).take q.len else dstBytes r cp q.pos q.len = some bs) →
      pieceAccess s x.p x.c cp q (.store bs) = (t0, .ok e) →
      ∃ t, exec (.postAStoreBufferEntry ⟨⟨x.p, x.c, 5⟩, i⟩) s = .next t ∧
        (t.part x.p).live.chans = (t0.part x.p).live.chans ++ [posted] ∧
        (t.coreAt x.p x.c).cq.run = (t0.coreAt x.p x.c).cq.run.map fun r => { r with
          put := (if cp.zd then q.pos + q.len else i) :: r.put }) ∧
  (∀ (s : State) (p c i : Nat) (r : Running) (cp : CopyCmd),
    let part (pos n : Nat) : Option Piece :=
      let a := cp.farAddr + BitVec.ofNat 64 pos
      if n = 0 then none else some ⟨a, pos, Min.min n (8 - a.toNat % 8), a⟩
    (cp.zs = false → sourcePiece s p c r cp i = if i ∈ r.asked then none else (farPieces s p c cp)[i]?) ∧
    (cp.zs = true → engineBusy s p c .copy = false →
      sourcePiece s p c r cp i = part r.enc.length (cp.decodeBlocks (cp.srcLen / 64) r.enc).2) ∧
    (cp.zd = false → targetPiece s p c r cp i = if i ∈ r.put then none else (farPieces s p c cp)[i]?) ∧
    (cp.zd = true → let e := encoded r cp
      let q := part (r.put.headD 0) (e.1.length - r.put.headD 0)
      targetPiece s p c r cp i = if e.2 = true ∨ ∃ y, q = some y ∧ (y.at_.toNat + y.len) % 8 = 0 then q else none)) ∧
  (∀ (r : Running) (cp : CopyCmd) (pos : Nat) (bs : List Byte), cp.conv = false →
    let source (k : Nat) : Option Byte :=
      if cp.zs then (cp.decodeBlocks (cp.srcLen / 64) r.enc).1[k]? else mfind? r.got k
    (dstBytes r cp pos bs.length = some bs ↔ ∀ j < bs.length, source (pos + j) = some (bs.getD j 0))) ∧
  (∀ (r : Running) (cp : CopyCmd) (n : Nat) (bs : List Byte), cp.conv = true → cp.zs = false → cp.perUnit = 1 →
    bs.length = cp.sfmt.bits / 8 → (∀ j < bs.length, mfind? r.got (n * (cp.sfmt.bits / 8) + j) = some (bs.getD j 0)) →
    dstBytes r cp (n * (cp.dfmt.bits / 8)) (cp.dfmt.bits / 8) = some (leBytes (cp.dfmt.bits / 8)
      ((efmtConvert cp.sfmt cp.dfmt (cp.modeAt r.cmd.rm n) r.qtbl (leNat bs)).1 % 2 ^ cp.dfmt.bits))) ∧
  ∀ (s : State) (p i : Nat) (e : Acc) (a : Answer) (r : Running) (cp : CopyCmd) (n : Nat) (sg : Bool), runs s p = true →
    (s.part p).live.resps[i]? = some (e, a) → ((s.part p).live.resps.take i).any (sameResp (e, a)) = false →
    e.byHost = false → e.eng = some .copy → e.kind = .load n sg → a.error = false →
    Machine.copyOf (s.coreAt p e.core) = some (r, cp) → r.cmd.num = e.act →
    ∃ t r', exec (.respReturn p i) s = .next t ∧ sameBytes s t ∧ (t.coreAt p e.core).cq.run = some r' ∧
      (t.part p).live.resps = (s.part p).live.resps.eraseIdx i ∧
      (cp.zs = true → r'.enc = r.enc ++ leBytes n a.v.toNat) ∧
      ∀ k, cp.zs = false → mfind? r'.got k = if e.piece ≤ k ∧ k < e.piece + n then some (a.v.extractLsb' (8 * (k - e.piece)) 8)
        else mfind? r.got k

/-- R231: a block of 64 bytes, 64 elements of one byte or 32 of two, is encoded as a mask, the bit of each element set where the
element is not zero, and then those elements in order; blocks one after another decode to their bytes; what a copy writes under ZD
is the encodings of its blocks in order, as far as the bytes of the leading ones have been read. -/
def Claims.CompressedBlocks : Prop :=
  (∀ (cp : CopyCmd) (bs : List Byte), bs.length = 64 →
    let w := if cp.zw then 2 else 1
    let n := if cp.zw then 32 else 64
    let element (i : Nat) : List Byte := (bs.drop (i * w)).take w
    let kept (i : Nat) : Bool := (element i).any (· != 0)
    let enc := cp.encodeBlock bs
    n / 8 ≤ enc.length ∧ (∀ i < n, (leNat (enc.take (n / 8))).testBit i = kept i) ∧
      enc.drop (n / 8) = ((List.range n).filter kept).flatMap element) ∧
  (∀ (cp : CopyCmd) (blocks : List (List Byte)), (∀ b ∈ blocks, b.length = 64) →
    cp.decodeBlocks blocks.length (blocks.flatMap cp.encodeBlock) = (blocks.flatten, 0)) ∧
  ∀ (r : Running) (cp : CopyCmd) (m : Nat) (block : Nat → List Byte), m ≤ cp.dstLen / 64 →
    (∀ b < m, dstBytes r cp (64 * b) 64 = some (block b)) →
    (m = cp.dstLen / 64 ∨ dstBytes r cp (64 * m) 64 = none) →
    encoded r cp = ((List.range m).flatMap fun b => cp.encodeBlock (block b), decide (m = cp.dstLen / 64))

/-- R214, R229, R230, R235: a copy completes when all its bytes have been written and none of its accesses is under way: its tiles
are ready, or empty under .rel, its flags are those of its activation, its number is completed. -/
def Claims.CopyCompletes : Prop :=
  ∀ (s : State) (x : CoreAt) (r : Running) (cp : CopyCmd), runs s x.p = true →
    Machine.copyOf (s.coreAt x.p x.c) = some (r, cp) → r.err = none → engineBusy s x.p x.c .copy = false →
    copyWritten s x.p x.c r cp = true → cp.cred = none →
    ∃ t, exec (.copyCommandComplete x) s = .next t ∧ sameBytes s t ∧
      (t.coreAt x.p x.c).cq.completed = r.cmd.num ∧ (t.coreAt x.p x.c).cq.run = none ∧
      (∀ n, tileSt (t.coreAt x.p x.c) n = if n ∈ cp.tiles then (if cp.inbound = false ∧ cp.rel = true then .empty else .ready)
        else tileSt (s.coreAt x.p x.c) n) ∧
      (cp.zd = true → mget 0 (t.coreAt x.p x.c).zdBytes r.cmd.slot = bytesWritten r cp) ∧
      let y := s.slotAt x.p x.c r.cmd.slot
      (t.slotAt x.p x.c r.cmd.slot).fstat = if y.act = r.cmd.act then y.fstat ||| (copyFlags r cp).setWidth 64 else y.fstat

/-- R142, R235: as it completes, a copy with .cred takes the bytes that it wrote from its barrier object, with the completion check,
and no other byte changes; where that leaves the range, the copy completes with FAULT on its tiles and a record of SUB 0xFD at
the object. -/
def Claims.CopyCredits : Prop :=
  ∀ (s : State) (x : CoreAt) (i c off : Nat) (r : Running) (cp : CopyCmd) (b : Word) (pl : Place), runs s x.p = true →
    Machine.copyOf (s.coreAt x.p x.c) = some (r, cp) → r.err = none → engineBusy s x.p x.c .copy = false →
    copyWritten s x.p x.c r cp = true → cp.cred = some b → creditClear s x.p x.c cp.cred = true → b.msb = true →
    globalPlace s x.p x.c b 8 8 = .ok (pl, off) → pl = .own c ∨ pl = .spad c → logRoom s x.p →
    let old := Bar.read (leNat (spadRead s x.p c off 8))
    let left : Int := old.bytes - bytesWritten r cp
    let new : Bar := if old.pend = 0 ∧ left = 0 then ⟨!old.phase, 0, old.expect, old.expect⟩ else { old with bytes := left }
    let fits : Prop := -2 ^ 30 ≤ left ∧ left < 2 ^ 30
    let ended (t : State) : Prop := (t.coreAt x.p x.c).cq.completed = r.cmd.num ∧ (t.coreAt x.p x.c).cq.run = none ∧
      ∀ n ∈ cp.tiles, tileSt (t.coreAt x.p x.c) n = if cp.inbound = false ∧ cp.rel = true then .empty else .ready
    (fits → ∃ t, exec (.copyCommandComplete x) s = .next t ∧ ended t ∧ (∀ a, physRead t a 1 = physRead s a 1) ∧
      ∀ p' c' o, spadByte t p' c' o =
        if p' = x.p ∧ c' = c ∧ off ≤ o ∧ o < off + 8 then (leBytes 8 new.word).getD (o - off) 0 else spadByte s p' c' o) ∧
    (¬fits → exec (.copyCommandComplete x) s = .next s ∧
      (copyFaultAt s x.p x.c i r cp = none → ∃ t rec, exec (.copyFault ⟨x, i⟩) s = .next t ∧ ended t ∧ sameBytes s t ∧
        (t.coreAt x.p x.c).frecs = (s.coreAt x.p x.c).frecs ++ [rec] ∧ rec.num = r.cmd.num ∧ rec.sub = 0xFD ∧ rec.bad = b ∧
        rec.tiles = cp.tiles ∧ rec.delivered = false ∧ ∀ n ∈ cp.tiles, tileBad (t.coreAt x.p x.c) n = true))

/-- R214, R216, R229 to R231, R235, R287, R294, R295: how a copy moves its bytes, piece by piece, compressed ones too, completes and
gives its credit. -/
def Obligations.CopyMovesBytes : Prop :=
  Claims.CopyNearUnits ∧ Claims.CopyFarPieces ∧ Claims.CompressedBlocks ∧ Claims.CopyCompletes ∧ Claims.CopyCredits

/-- R237: a copy that meets a fault at a far part that it has still to move completes its number, leaves its fault in a new
record of the core, sets FAULT on its tiles and takes them to empty or ready; no byte changes. -/
def Claims.CopyFaults : Prop :=
  ∀ (s : State) (x : CoreAt) (i : Nat) (r : Running) (cp : CopyCmd) (f : CFault), runs s x.p = true →
    Machine.copyOf (s.coreAt x.p x.c) = some (r, cp) → engineBusy s x.p x.c .copy = false →
    copyFaultAt s x.p x.c i r cp = some (s, f) → f.bad.msb = true →
    ∃ t rec, exec (.copyFault ⟨x, i⟩) s = .next t ∧ sameBytes s t ∧ (t.coreAt x.p x.c).cq.completed = r.cmd.num ∧
      (t.coreAt x.p x.c).cq.run = none ∧ (t.coreAt x.p x.c).frecs = (s.coreAt x.p x.c).frecs ++ [rec] ∧
      rec.num = r.cmd.num ∧ rec.sub = f.sub ∧ rec.bad = f.bad ∧ rec.tiles = cp.tiles ∧ rec.delivered = false ∧
      ∀ n ∈ cp.tiles, tileBad (t.coreAt x.p x.c) n = true ∧
        tileSt (t.coreAt x.p x.c) n = if cp.inbound then .empty else .ready

/-- R204, R214, R217, R228, R237: a copy starts, or faults. -/
def Obligations.CopyStartsAndFaults : Prop := Claims.CopyStarts ∧ Claims.CopyFaults

/-- R213, R239: TCFG writes a control register whose fields are in their limits, and TCFGR reads it. -/
def Claims.TileControl : Prop :=
  (∀ (x : TcfgI) (s : State), Ready s x.c [x.a] [] [] → s.mine.arm.active = false →
    let v := sourceValue s.me [x.a] 0
    (ctlOk v = true → ∃ t, exec (.tcfg x) s = .next t ∧ Passed s t [x.a] ∧ sameBytes s t ∧
      ∀ n, mget 0 t.mine.tctl n = if n = x.t.toNat then v else mget 0 s.mine.tctl n) ∧
    (ctlOk v = false → ∃ t, exec (.tcfg x) s = .next t ∧ Trapped s t 0x02 0)) ∧
  ∀ (x : TcfgrI) (s : State), Ready s x.c [] [x.d] [] →
    ∃ t, exec (.tcfgr x) s = .next t ∧ Wrote s t [] x.d (mget 0 s.mine.tctl x.t.toNat) 0

/-- R31, R119: the arbiter goes on with the core that it visits while the visit has grants left and the core something to grant;
then the next core in turn that has, with MQWGT grants. -/
def Claims.ArbiterOrder : Prop :=
  ∀ (s : State) (p o : Nat),
    let x := s.octet p o
    let can (i : Nat) : Prop := grantable s p (8 * o + i) = true
    (0 < x.left → can (x.ptr % 8) → nextGrant s p o = some (x.ptr % 8, x.left)) ∧
    (¬(0 < x.left ∧ can (x.ptr % 8)) → ∀ i left, nextGrant s p o = some (i, left) ↔
      ∃ k < 8, i = (x.ptr + 1 + k) % 8 ∧ can i ∧ left = (s.coreAt p (8 * o + i)).mqwgt ∧
        ∀ j < k, ¬can ((x.ptr + 1 + j) % 8))

/-- R31, R119, R218, R219, R220, R226: the arbiter grants an octet's unit to one core at a time; a command's effect is that of its
tile registers and accumulators as it was granted: a tile load or store moves 512 bytes, an accumulator load or store 1024, and the
zeroing forms zero. A load has each 8-byte unit from its read of it, or from the scratchpad as the command completes, and a store has
written each before or writes it then (when each moves the spec does not say: log entry 81). At completion the core's counters
advance by the command's counts, MCMDS by one for an MMA and by none for another, and the arbiter's visit ends where its core has
nothing to grant. -/
def Claims.MatrixUnit : Prop :=
  (∀ (s : State) (p o i left : Nat) (cmd : Cmd), runs s p = true → (s.octet p o).busy = none →
    nextGrant s p o = some (i, left) → startable? s p (8 * o + i) .matrix = some cmd →
    let k := s.coreAt p (8 * o + i)
    ∃ t, exec (.matrixGrant p o) s = .next t ∧ sameBytes s t ∧ (t.octet p o).busy = some (8 * o + i) ∧
      (t.octet p o).ptr = i ∧ (t.octet p o).left = left - 1 ∧
      (t.coreAt p (8 * o + i)).mq.run = some {
        cmd := cmd, pins := cmd.op.tiles, eff := matEffect { k with qtbl := cmd.table.getD k.qtbl } cmd.op }) ∧
  ∀ (s : State) (x : CoreAt) (r : Running) (k : Core), runs s x.p = true → (s.coreAt x.p x.c).mq.run = some r →
    r.eff = matEffect k r.cmd.op → logUsed (s.part x.p) + 8 ≤ (s.part x.p).logCap →
    let kept := s.coreAt x.p x.c
    let read (tile i : Nat) : Byte := (mfind? r.got i).getD (spadByte s x.p x.c (512 * tile + i))
    let reg (n i : Nat) : Byte := mget 0 k.tregs (512 * n + i)
    let word (n i : Nat) : Byte := (mget 0 k.accs (256 * n + i / 4)).extractLsb' (8 * (i % 4)) 8
    let oc := octetOf x.c
    (∀ i tile len, (∃ n, r.cmd.op = .tld n tile ∧ len = 64) ∨ (∃ n, r.cmd.op = .mlda n tile ∧ len = 128) → i < len → i ∉ r.asked →
      ∃ t r', exec (.postALoad ⟨⟨x.p, x.c, 6⟩, i⟩) s = .next t ∧ sameBytes s t ∧ (t.coreAt x.p x.c).mq.run = some r' ∧
        r'.asked = i :: r.asked ∧
        ∀ j, mfind? r'.got j = if 8 * i ≤ j ∧ j < 8 * i + 8 then some (spadByte s x.p x.c (512 * tile + j)) else mfind? r.got j) ∧
    (∀ i tile len v, (∃ n, r.cmd.op = .tst n tile ∧ len = 64 ∧ v = reg n) ∨
        (∃ n, r.cmd.op = .msta n tile ∧ len = 128 ∧ v = word n) → i < len → i ∉ r.put →
      ∃ t, exec (.postAStoreBufferEntry ⟨⟨x.p, x.c, 6⟩, i⟩) s = .next t ∧ (∀ a, physRead t a 1 = physRead s a 1) ∧
        (t.coreAt x.p x.c).mq.run = some { r with put := i :: r.put } ∧
        ∀ p c o, spadByte t p c o = if p = x.p ∧ c = x.c ∧ 512 * tile + 8 * i ≤ o ∧ o < 512 * tile + 8 * i + 8
          then v (o - 512 * tile) else spadByte s p c o) ∧
    ∃ t, exec (.matrixCommandComplete x) s = .next t ∧ (∀ a, physRead t a 1 = physRead s a 1) ∧
      let now := t.coreAt x.p x.c
      now.mq.completed = r.cmd.num ∧ now.mq.run = none ∧ (t.octet x.p oc).busy = none ∧
      ((t.octet x.p oc).left = if grantable t x.p (8 * oc + (s.octet x.p oc).ptr % 8) then (s.octet x.p oc).left else 0) ∧
      now.terms = kept.terms + BitVec.ofNat 64 r.eff.terms ∧ now.gsteps = kept.gsteps + BitVec.ofNat 64 r.eff.gsteps ∧
      now.skips = kept.skips + BitVec.ofNat 64 r.eff.skips ∧
      (∀ a ta tb ca cb ra rb, r.cmd.op = .mma a ta tb ca cb ra rb → now.mcmds = kept.mcmds + 1) ∧
      ((∀ a ta tb ca cb ra rb, r.cmd.op ≠ .mma a ta tb ca cb ra rb) →
        now.mcmds = kept.mcmds ∧ now.terms = kept.terms ∧ now.gsteps = kept.gsteps ∧ now.skips = kept.skips) ∧
      ((t.slotAt x.p x.c r.cmd.slot).fstat = let y := s.slotAt x.p x.c r.cmd.slot
        if y.act = r.cmd.act then y.fstat ||| r.eff.flags.setWidth 64 else y.fstat) ∧
      ((∀ n tile, r.cmd.op ≠ .mlda n tile) →
        ∀ i, mget 0 now.accs i = (((r.eff.accs.filter (·.1 == i)).getLast?).map (·.2)).getD (mget 0 kept.accs i)) ∧
      (∀ n tile, r.cmd.op = .tld n tile → ∀ i, mget 0 now.tregs i =
        if 512 * n ≤ i ∧ i < 512 * n + 512 then read tile (i - 512 * n) else mget 0 kept.tregs i) ∧
      (∀ n, r.cmd.op = .tzero n → ∀ i, mget 0 now.tregs i =
        if 512 * n ≤ i ∧ i < 512 * n + 512 then 0 else mget 0 kept.tregs i) ∧
      (∀ n tile, r.cmd.op = .tst n tile → ∀ i, spadByte t x.p x.c i =
        if 512 * tile ≤ i ∧ i < 512 * tile + 512 ∧ (i - 512 * tile) / 8 ∉ r.put then reg n (i - 512 * tile)
        else spadByte s x.p x.c i) ∧
      (∀ n, r.cmd.op = .mzero n → ∀ i, mget 0 now.accs i =
        if 256 * n ≤ i ∧ i < 256 * n + 256 then 0 else mget 0 kept.accs i) ∧
      (∀ n tile, r.cmd.op = .msta n tile → ∀ i, spadByte t x.p x.c i =
        if 512 * tile ≤ i ∧ i < 512 * tile + 1024 ∧ (i - 512 * tile) / 8 ∉ r.put then word n (i - 512 * tile)
        else spadByte s x.p x.c i) ∧
      ∀ n tile, r.cmd.op = .mlda n tile → ∀ i, mget 0 now.accs i =
        if 256 * n ≤ i ∧ i < 256 * n + 256 then
          read tile (4 * (i - 256 * n) + 3) ++ read tile (4 * (i - 256 * n) + 2) ++ read tile (4 * (i - 256 * n) + 1) ++
            read tile (4 * (i - 256 * n))
        else mget 0 kept.accs i

/-- R72, R73: the value of a block: the special values, zero, or the products cut toward zero at 46 binary places below the
greatest's leading bit, summed exactly, scaled and rounded once. -/
def Claims.BlockValues : Prop :=
  (∀ (ps : List (FV × Flags)) (sa sb : Nat),
    let f := Machine.f32
    let all : Flags := ps.foldl (fun r p => r ||| p.2) 0
    let holds (v : FV) : Prop := ∃ p ∈ ps, p.1 = v
    let noNaN : Prop := sa ≠ 255 ∧ sb ≠ 255 ∧ ∀ p ∈ ps, p.1.isNan = false
    (sa = 255 ∨ sb = 255 → blockValue ps sa sb = (f.nan, all ||| fNV)) ∧
    (sa ≠ 255 → sb ≠ 255 → (∃ p ∈ ps, p.1.isNan = true) → blockValue ps sa sb = (f.nan, all)) ∧
    (noNaN → holds (.inf false) → holds (.inf true) → blockValue ps sa sb = (f.nan, fNV)) ∧
    (noNaN → ∀ neg, holds (.inf neg) → ¬holds (.inf !neg) → blockValue ps sa sb = (f.inf + (if neg then 2 ^ 31 else 0), 0)) ∧
    (sa ≠ 255 → sb ≠ 255 → (∀ p ∈ ps, ∃ n e, p.1 = .fin n 0 e) → blockValue ps sa sb = (0, 0)) ∧
    ∀ E : Int, sa ≠ 255 → sb ≠ 255 → (∀ p ∈ ps, ∃ n m e, p.1 = .fin n m e) → (∃ p ∈ ps, p.1.log2 = some E) →
      (∀ p ∈ ps, ∀ e, p.1.log2 = some e → e ≤ E) →
      let S : Int := (ps.map fun p => p.1.truncAt (E - 46)).sum
      blockValue ps sa sb = f.roundExp .rne (decide (S < 0)) S.natAbs (E - 46 + sa + sb - 254)) ∧
  ∀ (neg : Bool) (m : Nat) (e q : Int),
    (∀ k : Nat, 2 ^ k ≤ m → m < 2 ^ (k + 1) → (FV.fin neg m e).log2 = some ((k : Int) + e)) ∧
    (q ≤ e → (FV.fin neg m e).truncAt q = (if neg then -1 else 1) * ((m * 2 ^ (e - q).toNat : Nat) : Int)) ∧
    (e < q → (FV.fin neg m e).truncAt q = (if neg then -1 else 1) * ((m / 2 ^ (q - e).toNat : Nat) : Int))

/-- R70: the term count of an element is that of the non-adjacent form of its significand's magnitude. -/
def Claims.TermCounts : Prop :=
  (∀ (f : Efmt) (q : V128) (bits : Nat), f ≠ .log6 →
    (∀ n m e, efmtRead f q bits = .fin n m e → efmtTerms f q bits = nafCount (Nat.log2 m + 3) m) ∧
    ((∀ n m e, efmtRead f q bits ≠ .fin n m e) → efmtTerms f q bits = 1)) ∧
  (∀ (q : V128) (bits : Nat), efmtTerms .log6 q bits = if bits % 32 = 0 then 0 else 1) ∧
  let naf (m : Nat) : Nat := nafCount (Nat.log2 m + 3) m
  naf 0 = 0 ∧ ∀ m, naf (2 * m) = naf m ∧ naf (4 * m + 1) = 1 + naf m ∧ naf (4 * m + 3) = 1 + naf (m + 1)

/-- R70, R72, R74, R221 to R226: an MMA writes exactly its rows and columns: the saturated sum of an integer pair, or the block
values of a floating-point pair added one after another; and its counts are the sums, maxima and skips of the term counts
of B over groups of four columns. -/
def Claims.MatrixProducts : Prop :=
  (∀ (t : List Byte) (f : Efmt) (bpr i k : Nat), elemBits t f bpr i k =
    if bpr ≤ f.bits * k / 8 then 0 else leNat (t.drop (32 * i)) / 2 ^ (f.bits * k) % 2 ^ f.bits) ∧
  ∀ (x : MmaIn),
    let fa := efmtCode (ctlFmt x.ca)
    let fb := efmtCode (ctlFmt x.cb)
    let K := 256 / max fa.bits fb.bits
    let A (i k : Nat) : Nat := elemBits x.ta fa (ctlBpr x.ca) i k
    let B (j k : Nat) : Nat := elemBits x.tb fb (ctlBpr x.cb) j k
    let cols := ctlRows x.cb
    let T (k j : Nat) : Nat := efmtTerms fb x.qtbl (B j k)
    let group (k g : Nat) : List Nat := (List.range (min 4 (cols - 4 * g))).map fun c => T k (4 * g + c)
    let r := mmaCompute x
    (∃ val : Nat → Nat → BitVec 32 × Flags,
      (∀ n v, (n, v) ∈ r.words ↔ ∃ i j, i < ctlRows x.ca ∧ j < cols ∧ n = 16 * i + j ∧ v = (val i j).1) ∧
      (∀ b, r.flags.getLsbD b = true ↔ ∃ i j, i < ctlRows x.ca ∧ j < cols ∧ (val i j).2.getLsbD b = true) ∧
      (pairOf fa fb true = .int → ∀ i j,
        let a (k : Nat) : Int := if fa = .i8 then (BitVec.ofNat 8 (A i k)).toInt else (A i k : Int)
        let b (k : Nat) : Int := if fb = .q4 then (x.qtbl.extractLsb' (8 * B j k) 8).toInt
          else if fb = .i8 then (BitVec.ofNat 8 (B j k)).toInt else (B j k : Int)
        let sum := (x.acc i j).toInt + ((List.range 32).map fun k => a k * b k).sum
        (val i j).1.toInt = max (-2 ^ 31) (min (2 ^ 31 - 1) sum) ∧
          (val i j).2 = if (val i j).1.toInt = sum then 0 else fSAT) ∧
      (pairOf fa fb true ≠ .int → ∀ i j,
        let scale (t : Option (List Byte)) (row blk : Nat) : Nat := match t with
          | none => 127
          | some bs => (bs.getD (max 1 (K / 32) * row + blk) 0).toNat
        let block (blk : Nat) : Nat × Flags := blockValue
          ((List.range (min 32 (K - 32 * blk))).map fun k => elemProduct fa fb x.qtbl (A i (32 * blk + k)) (B j (32 * blk + k)))
          (scale x.sa i blk) (scale x.sb j blk)
        val i j = (List.range ((K + 31) / 32)).foldl (fun (v : BitVec 32 × Flags) blk =>
          let sum := Machine.f32.add .rne v.1.toNat (block blk).1
          (BitVec.ofNat 32 sum.1, v.2 ||| ((block blk).2 ||| sum.2))) (x.acc i j, 0))) ∧
    r.terms = ((List.range K).map fun k => ((List.range cols).map (T k)).sum).sum ∧
    r.gsteps = ((List.range K).map fun k => ((List.range ((cols + 3) / 4)).map fun g => (group k g).foldl max 0).sum).sum ∧
    r.skips = ((List.range K).map fun k => (List.range ((cols + 3) / 4)).countP fun g => (group k g).all (· == 0)).sum

/-- R31, R70, R72 to R74, R213, R218 to R226, R239: the tile table's control registers, the matrix unit and what it computes. -/
def Obligations.TilesAndMatrixUnit : Prop :=
  Claims.TileControl ∧ Claims.ArbiterOrder ∧ Claims.MatrixUnit ∧ Claims.BlockValues ∧ Claims.TermCounts ∧ Claims.MatrixProducts

/-! ### Armature mode -/

/-- R238, R241: ARMENTER waits for its session; the session starts when the core's queues are empty and the slot's accesses
are done, at the given block with the slot's predicates, no links, an empty inbox and scales of 1; ARMSTAT reads the
session's words. -/
def Claims.ArmatureSessions : Prop :=
  (∀ (x : ArmEnterI) (s : State), Ready s x.c [.s x.a] [.s x.d] [] →
    let a := readReg s.me x.a.toNat
    (a.toNat < 2 ^ 55 → a.toNat % 16 = 0 → s.me.arm = false →
      ∃ t, exec (.armenter x) s = .next t ∧ t.me.pc = s.me.pc ∧ t.me.st = .blocked ∧ t.me.wait = .armature ∧ sameBytes s t ∧
        t.mine.armWait = s.mine.armWait.filter (·.slot != s.cur.n) ++ [⟨s.cur.n, x.d.toNat, a, x.team⟩]) ∧
    (a.toNat < 2 ^ 55 → a.toNat % 16 ≠ 0 → ∃ t, exec (.armenter x) s = .next t ∧ Trapped s t 0x06 a) ∧
    (2 ^ 55 ≤ a.toNat → ∃ t, exec (.armenter x) s = .next t ∧ Trapped s t 0x08 a)) ∧
  (∀ (s : State) (x : CoreAt) (e : ArmEntry), engineMay s x.p = true →
    let k := s.coreAt x.p x.c
    k.armWait.find? (fun e => atArmenter k e.slot) = some e → k.arm.active = false →
    quiet (s.slotAt x.p x.c e.slot) = true → k.cq.idle = true → k.mq.idle = true →
    ∃ t, exec (.armatureSessionStart x) s = .next t ∧ sameBytes s t ∧
      let a := (t.coreAt x.p x.c).arm
      a.active = true ∧ a.team = e.team ∧ a.slot = e.slot ∧ a.dst = e.dst ∧ a.block = e.block ∧ a.links = [] ∧ a.inbox = [] ∧
        a.done = 0 ∧ a.csc = List.replicate 16 0x7F ∧ a.fetched = none ∧
        ∀ q : PReg, a.tp.getLsbD q.toNat = readP (s.slotAt x.p x.c e.slot) q) ∧
  ∀ (x : DSel3) (s : State), Ready s x.c [] [x.d] [] →
    let a := s.mine.arm
    let reads (v : Word) : Prop := ∃ t, exec (.armstat x) s = .next t ∧ Wrote s t [] x.d v 0
    (x.sel = 1 → reads a.block) ∧ (x.sel = 2 → reads a.done) ∧ (x.sel = 3 → reads (a.tp.setWidth 64)) ∧
    (x.sel = 4 → reads (BitVec.ofNat 64 a.detail)) ∧
    (x.sel = 0 → a.links.length ≤ 4 → a.inbox.length ≤ 4 → ∃ v, reads v ∧ v.toNat / 2 ^ 32 = a.tag.toNat ∧
      v.toNat / 2 ^ 16 % 2 ^ 8 = a.drop.toNat ∧ v.toNat / 2 ^ 8 % 2 ^ 3 = a.links.length ∧
      v.toNat / 4 % 2 ^ 3 = a.inbox.length ∧ v.getLsbD 1 = a.team ∧ v.getLsbD 0 = a.active)

/-- R249, R255, R256, R257, R259: the sequencer reads its block unit by unit; the last unit read, it checks the block: one that
passes every check is ready to act, one that fails is cause 0x22 with its detail code; a unit that is refused is cause 0x23 at
the entering slot. While a block is held, the units of its successor are read into the other half. -/
def Claims.BlockFetch : Prop :=
  ∀ (s u : State) (x : CoreAt) (unit : Nat), runs s x.p = true → armMay s x.p x.c = true →
    (mfind? u.parts x.p).isSome = true → overfull s u x.p = false →
    let a := (s.coreAt x.p x.c).arm
    let b := (u.coreAt x.p x.c).arm
    let unread (us : NMap (List Byte)) : Prop := unit < blkUnits us ∧ mfind? us unit = none
    (∀ bs, a.fetched = none → blkWhole a.reading = false → unread a.reading →
      readUnit s x.p x.c (a.block + BitVec.ofNat 64 (8 * unit)) = .ok (u, bs) →
      let us := mput b.reading unit bs
      ∃ t, exec (.armatureBlockFetch ⟨x, unit⟩) s = .next t ∧
        (blkWhole us = false → (t.coreAt x.p x.c).arm = { b with reading := us }) ∧
        (blkWhole us = true → checkBlk (u.coreAt x.p x.c) (blkBytes us) = none →
          (t.coreAt x.p x.c).arm = { b with reading := us, fetched := some (blkBytes us) }) ∧
        ∀ d, blkWhole us = true → checkBlk (u.coreAt x.p x.c) (blkBytes us) = some d →
          (t.coreAt x.p x.c).arm.detail = d ∧
            (t.slotAt x.p x.c b.slot).cause = BitVec.ofNat 64 (0x22 + 256 * (d % 256)) ∧
            (t.slotAt x.p x.c b.slot).badaddr = b.block ∧ (b.slot ≠ 3 → (t.slotAt x.p x.c b.slot).st = .parked)) ∧
    (∀ held bs, a.fetched = some held → (readBlk held).opc ≠ 12 → unread a.ahead →
      readUnit s x.p x.c ((successor a (readBlk held)).1 + BitVec.ofNat 64 (8 * unit)) = .ok (u, bs) →
      ∃ t, exec (.armatureBlockFetch ⟨x, unit⟩) s = .next t ∧
        (t.coreAt x.p x.c).arm = { b with ahead := mput b.ahead unit bs }) ∧
    ∀ f, a.fetched = none → unitFault x.p x.c a.reading a.block s (blkUnits a.reading) 0 = some (f, u) →
      ∃ t, exec (.armatureFetchFault x) s = .next t ∧ (t.coreAt x.p x.c).arm.detail = 6 ∧
        (t.slotAt x.p x.c b.slot).cause = BitVec.ofNat 64 (0x23 + 256 * (f.sub % 256)) ∧
        (t.slotAt x.p x.c b.slot).badaddr = f.bad

/-- R238, R248, R249, R257: sessions of the armature and the fetch of their blocks. -/
def Obligations.ArmatureEntry : Prop := Claims.ArmatureSessions ∧ Claims.BlockFetch

/-- R248, R240: the control blocks: CALLB pushes the block after it, RETB pops, BRANCH follows its link when its team predicate
is as asked, NOPB goes to its link, SCALE takes the block's scales; EXIT writes its operand word to the status register and
the slot goes on after its ARMENTER. -/
def Obligations.ControlBlocks : Prop :=
  ∀ (s : State) (x : CoreAt) (b : Blk), let a := (s.coreAt x.p x.c).arm
    (HasBlock s x 8 b → b.kind = 2 → ∃ t, exec (.callb x) s = .next t ∧ sameBytes s t ∧
      BlockDone s t x b (linked s x b) (following s x b :: a.links)) ∧
    (HasBlock s x 9 b → b.kind = 3 → ∀ l rest, a.links = l :: rest → ∃ t, exec (.retb x) s = .next t ∧ sameBytes s t ∧
      BlockDone s t x b l rest) ∧
    (HasBlock s x 10 b → b.kind = 1 → ∃ t, exec (.branch x) s = .next t ∧ sameBytes s t ∧
      BlockDone s t x b (if a.tp.getLsbD b.pred = b.neg then following s x b else linked s x b) a.links) ∧
    (HasBlock s x 11 b → b.kind = 0 → ∃ t, exec (.nopb x) s = .next t ∧ sameBytes s t ∧
      BlockDone s t x b (linked s x b) a.links) ∧
    (HasBlock s x 2 b → b.kind = 0 → ∃ t, exec (.scale x) s = .next t ∧ sameBytes s t ∧
      BlockDone s t x b (linked s x b) a.links ∧ (t.coreAt x.p x.c).arm.csc = b.pay.take 16) ∧
    (HasBlock s x 12 b → ∃ t, exec (.exit x) s = .next t ∧ sameBytes s t ∧ (t.coreAt x.p x.c).arm.active = false ∧
      (t.coreAt x.p x.c).arm.done = a.done + 1 ∧ (t.coreAt x.p x.c).arm.links = [] ∧ (t.coreAt x.p x.c).arm.inbox = [] ∧
      (t.slotAt x.p x.c a.slot).pc = (s.slotAt x.p x.c a.slot).pc + 12 ∧ (t.slotAt x.p x.c a.slot).st = .ready ∧
      (t.slotAt x.p x.c a.slot).arm = false ∧
      ∀ n, readReg (t.slotAt x.p x.c a.slot) n =
        if n = a.dst ∧ writable (s.slotAt x.p x.c a.slot) n = true then BitVec.ofNat 64 b.opw
        else readReg (s.slotAt x.p x.c a.slot) n)

/-- The matrix unit of the core's octet is free, and the arbiter would grant it to the block of this core (R31, R239). -/
def Claims.GetsUnit (s : State) (x : CoreAt) : Prop :=
  (s.octet x.p (octetOf x.c)).busy = none ∧ armWants s x.p x.c = true ∧
    (nextGrant s x.p (octetOf x.c)).map (8 * octetOf x.c + ·.1) = some x.c

/-- R251, R226: MMA.T, granted the matrix unit, adds its sums over blocks of 32 steps to the words of its rows and columns, after
clearing the accumulator where ZA is set, and the counters advance by the counts of its terms. -/
def Claims.TermBlocks : Prop :=
  ∀ (s : State) (x : CoreAt) (b : Blk) (rs : List (List (List Nat))) (rest : List Byte), b.kind = 0 → HasBlock s x 1 b →
    Claims.GetsUnit s x → b.records = some (rs, rest) →
    let k := s.coreAt x.p x.c
    let ctl := ctlOf k b.tile
    let f := efmtCode b.afmt
    let A (i kk : Nat) : Nat := elemBits (tileBytes k b.tile) f (ctlBpr ctl) i kk
    let w (kk j : Nat) : Int := ((b.terms rs kk j).map termValue).sum
    let start (i j : Nat) : BitVec 32 := if b.flags = 1 then 0 else accWord k b.acc i j
    let blocks := List.range ((b.opK + 31) / 32)
    let steps (blk : Nat) : List Nat := (List.range (min 32 (b.opK - 32 * blk))).map (32 * blk + ·)
    let group (kk g : Nat) : List Nat := (List.range (min 4 (b.opN - 4 * g))).map fun c => (b.terms rs kk (4 * g + c)).length
    ctlRows ctl ≤ 16 → b.opN ≤ 16 →
    ∃ (t : State) (val : Nat → Nat → BitVec 32 × Flags), exec (.mmaT x) s = .next t ∧ sameBytes s t ∧
      BlockDone s t x b (linked s x b) k.arm.links ∧
      (∀ i j, i < 16 → j < 16 → accWord (t.coreAt x.p x.c) b.acc i j =
        if i < ctlRows ctl ∧ j < b.opN then (val i j).1 else start i j) ∧
      (∀ n, (t.slotAt x.p x.c k.arm.slot).fstat.getLsbD n = true ↔ (s.slotAt x.p x.c k.arm.slot).fstat.getLsbD n = true ∨
        ∃ i j, i < ctlRows ctl ∧ j < b.opN ∧ (val i j).2.getLsbD n = true) ∧
      (b.afmt < 2 → b.srec = 0 → ∀ i j, val i j = blocks.foldl (fun (v : BitVec 32 × Flags) blk =>
        let sum := v.1.toInt + ((steps blk).map fun kk =>
          (if b.afmt = 0 then (BitVec.ofNat 8 (A i kk)).toInt else (A i kk : Int)) * w kk j).sum
        let cut := max (-2 ^ 31) (min (2 ^ 31 - 1) sum)
        (BitVec.ofInt 32 cut, v.2 ||| if cut = sum then 0 else fSAT)) (start i j, 0)) ∧
      (¬(b.afmt < 2 ∧ b.srec = 0) → ∀ i j,
        let scale : Nat := if b.srec = 1 then b.scale else if b.srec = 2 then (k.arm.csc.getD j 0x7F).toNat else 127
        val i j = blocks.foldl (fun (v : BitVec 32 × Flags) blk =>
          let block := blockValue ((steps blk).map fun kk => mulV (efmtRead f k.qtbl (A i kk)) (intV (w kk j))) 127 scale
          let sum := Machine.f32.add .rne v.1.toNat block.1
          (BitVec.ofNat 32 sum.1, v.2 ||| (block.2 ||| sum.2))) (start i j, 0)) ∧
      let counts (count : List Nat → Nat) : Word := BitVec.ofNat 64
        ((List.range b.opK).map fun kk => ((List.range ((b.opN + 3) / 4)).map fun g => count (group kk g)).sum).sum
      (t.coreAt x.p x.c).mcmds = k.mcmds + 1 ∧ (t.coreAt x.p x.c).terms = k.terms + counts List.sum ∧
        (t.coreAt x.p x.c).gsteps = k.gsteps + counts (·.foldl max 0) ∧
        (t.coreAt x.p x.c).skips = k.skips + counts fun ts => if ts.all (· == 0) then 1 else 0

/-- R252: the function of ACT at one word, and where ACT, granted the matrix unit, puts its values: into the words themselves, or
as elements of AFMT into the tile, whose control register then names them. -/
def Claims.Activations : Prop :=
  (∀ (b : Blk) (word : Nat), let f := Machine.f32
    let v : Nat × Flags := if b.mode % 2 = 1 then f.convert .rne (intV (BitVec.ofNat 32 word).toInt) else (word, 0)
    let reached (i : Nat) : Prop := ¬isNaN f (b.entry i).1 ∧ (f.read v.1).lt (f.read (b.entry i).1) = false
    (isNaN f v.1 → actWord b word = (f.nan, v.2 ||| if isSignalling f v.1 then fNV else 0)) ∧
    (¬isNaN f v.1 → ∃ m, (m = 0 ∨ 1 ≤ m ∧ m < b.len ∧ reached m) ∧ (∀ i, m < i → i < b.len → ¬reached i) ∧
      let r := f.fma .rne (b.entry m).2.1 v.1 (b.entry m).2.2
      actWord b word = (r.1, v.2 ||| r.2))) ∧
  ∀ (s : State) (x : CoreAt) (b : Blk), b.kind = 0 → HasBlock s x 3 b → Claims.GetsUnit s x → b.opRows ≤ 16 → b.opN ≤ 16 →
    let k := s.coreAt x.p x.c
    let y (i j : Nat) : Nat := (actWord b (accWord k b.acc i j).toNat).1
    (b.mode / 2 % 2 = 0 →
      ∃ t, exec (.act x) s = .next t ∧ sameBytes s t ∧ BlockDone s t x b (linked s x b) k.arm.links ∧
        ∀ i j, i < 16 → j < 16 → accWord (t.coreAt x.p x.c) b.acc i j =
          if i < b.opRows ∧ j < b.opN then BitVec.ofNat 32 (y i j) else accWord k b.acc i j) ∧
    (b.mode / 2 % 2 = 1 → afmtOk b.afmt = true → let f := efmtCode b.afmt
      ∃ t, exec (.act x) s = .next t ∧ sameBytes s t ∧ BlockDone s t x b (linked s x b) k.arm.links ∧
        (t.coreAt x.p x.c).accs = k.accs ∧
        ctlOf (t.coreAt x.p x.c) b.tile = BitVec.ofNat 64 (b.afmt + b.opRows * 2 ^ 8 + (b.opN * f.bits + 7) / 8 * 2 ^ 16) ∧
        (∀ i j, i < b.opRows → f.bits * j < 256 → elemBits (tileBytes (t.coreAt x.p x.c) b.tile) f 32 i j =
          if j < b.opN then (efmtConvert .f32 f .rne 0 (y i j)).1 % 2 ^ f.bits else 0) ∧
        ∀ a, 32 * b.opRows ≤ a → a < 512 → (tileBytes (t.coreAt x.p x.c) b.tile).getD a 0 = (tileBytes k b.tile).getD a 0)

/-- R249, R253: ROUTE puts its accumulator or tile in the inbox of the member that it names; RECV takes the oldest entry of a rank
into its own and REDUCE adds it, word by word; an entry of the other kind is cause 0x22 with detail 10 and stays. -/
def Claims.Routing : Prop :=
  ∀ (s : State) (x : CoreAt) (b : Blk), b.kind = 0 → let k := s.coreAt x.p x.c
    (HasBlock s x 4 b → let d := memberCore k x.c b.member
      (s.coreAt x.p d).arm.active = true → (s.coreAt x.p d).arm.team = k.arm.team →
      (s.coreAt x.p d).arm.inbox.length < 4 →
      ∃ t e, exec (.route x) s = .next t ∧ sameBytes s t ∧ BlockDone s t x b (linked s x b) k.arm.links ∧
        (t.coreAt x.p d).arm.inbox = (s.coreAt x.p d).arm.inbox ++ [((armTeam k x.c).2, e)] ∧
        (b.mode % 2 = 0 → e = .acc (accWords k b.acc)) ∧
        (b.mode % 2 = 1 → e = .tile (tileBytes k b.tile) (ctlOf k b.tile))) ∧
    (HasBlock s x 5 b → ∀ ws rest, takeEntry k (memberRank k x.c b.member) = some (.acc ws, rest) → ws.length = 256 →
      b.mode % 2 = 0 →
      ∃ t, exec (.recv x) s = .next t ∧ sameBytes s t ∧ BlockDone s t x b (linked s x b) k.arm.links ∧
        (t.coreAt x.p x.c).arm.inbox = rest ∧ accWords (t.coreAt x.p x.c) b.acc = ws) ∧
    (HasBlock s x 5 b → ∀ bs ctl rest, takeEntry k (memberRank k x.c b.member) = some (.tile bs ctl, rest) →
      bs.length = 512 → b.mode % 2 = 1 →
      ∃ t, exec (.recv x) s = .next t ∧ sameBytes s t ∧ BlockDone s t x b (linked s x b) k.arm.links ∧
        (t.coreAt x.p x.c).arm.inbox = rest ∧ tileBytes (t.coreAt x.p x.c) b.tile = bs ∧
        ctlOf (t.coreAt x.p x.c) b.tile = ctl) ∧
    (HasBlock s x 6 b → ∀ ws rest, takeEntry k (memberRank k x.c b.member) = some (.acc ws, rest) → ws.length = 256 →
      ∃ t, exec (.reduce x) s = .next t ∧ sameBytes s t ∧ BlockDone s t x b (linked s x b) k.arm.links ∧
        (t.coreAt x.p x.c).arm.inbox = rest ∧
        ∀ i < 256, let old := mget 0 k.accs (256 * b.acc + i)
          let new := mget 0 (t.coreAt x.p x.c).accs (256 * b.acc + i)
          (b.mode % 2 = 0 → new = BitVec.ofNat 32 (Machine.f32.add .rne old.toNat (ws.getD i 0).toNat).1) ∧
          (b.mode % 2 = 1 → new.toInt = max (-2 ^ 31) (min (2 ^ 31 - 1) (old.toInt + (ws.getD i 0).toInt)))) ∧
    (∀ e rest, takeEntry k (memberRank k x.c b.member) = some (e, rest) →
      let wrong (i : Instr) : Prop := ∃ t, exec i s = .next t ∧ sameBytes s t ∧ (t.coreAt x.p x.c).arm.detail = 10 ∧
        (t.coreAt x.p x.c).arm.inbox = k.arm.inbox ∧ (t.coreAt x.p x.c).accs = k.accs ∧
        (t.slotAt x.p x.c k.arm.slot).cause = BitVec.ofNat 64 (0x22 + 256 * 10)
      ((∃ ws, e = .acc ws) → b.mode % 2 = 1 → HasBlock s x 5 b → wrong (.recv x)) ∧
      ((∃ bs ctl, e = .tile bs ctl) → (b.mode % 2 = 0 → HasBlock s x 5 b → wrong (.recv x)) ∧
        (HasBlock s x 6 b → wrong (.reduce x))))

/-- R254: SYNC of a solo session completes at once; in a team it waits until every member stands at its SYNC of that number, and
then completes for all of them, with the team predicates of the vote of the lowest rank. -/
def Claims.Synchronised : Prop :=
  ∀ (s : State) (x : CoreAt) (b : Blk), HasBlock s x 7 b → let k := s.coreAt x.p x.c
    (k.arm.team = false → b.kind = 0 →
      ∃ t, exec (.sync x) s = .next t ∧ sameBytes s t ∧ BlockDone s t x b (linked s x b) k.arm.links ∧
        (t.coreAt x.p x.c).arm.tp = k.arm.tp) ∧
    (k.arm.team = true → let member (r : Nat) : CoreAt := ⟨x.p, x.c - x.c % k.teamSize + r⟩
      let arm (r : Nat) : Arm := (s.coreAt x.p (member r).c).arm
      let n := k.arm.votes.length
      ((∃ r < k.teamSize, (arm r).active = false ∨ (arm r).team = false ∨
          ((arm r).votes.length ≤ n ∧ blkHere s x.p (member r).c 7 = none)) → exec (.sync x) s = .next s) ∧
      ∀ bs : Nat → Blk, 0 < k.teamSize → (∀ r < k.teamSize, (arm r).team = true ∧ (arm r).votes.length = n ∧
          blkHere s x.p (member r).c 7 = some (bs r) ∧ (bs r).kind = 0) →
        ∃ t, exec (.sync x) s = .next t ∧ sameBytes s t ∧ ∀ r < k.teamSize,
          BlockDone s t (member r) (bs r) (linked s (member r) (bs r)) (arm r).links ∧
          ∀ i < 7, let now : Bool := (t.coreAt x.p (member r).c).arm.tp.getLsbD i
            ((bs 0).vote = 1 → (now = true ↔ ∀ q < k.teamSize, (arm q).tp.getLsbD i = true)) ∧
            ((bs 0).vote = 2 → (now = true ↔ ∃ q < k.teamSize, (arm q).tp.getLsbD i = true)) ∧
            ((bs 0).vote ≠ 1 → (bs 0).vote ≠ 2 → now = (arm r).tp.getLsbD i))

/-- R226, R239, R249, R251, R252, R253, R254: the data blocks. -/
def Obligations.DataBlocks : Prop := Claims.TermBlocks ∧ Claims.Activations ∧ Claims.Routing ∧ Claims.Synchronised

/-! ### The chisel unit -/

/-- R262, R263, R272 to R276, R313: a chisel instruction on a context of the core's launch is queued under the context's next number;
the slot goes on, or for CHSTAT and CHCLOSE waits for the result. A context that a CHCLOSE closes, or has closed, is closed to it
(cause 0x02), unless it finds an earlier definition: then its command is numbered before that CHCLOSE. Which of the definitions
around it an instruction finds is log entry 64's reading. On a part without the unit it is cause 0x03. -/
def Claims.ChiselCommands : Prop :=
  ∀ (i : Instr) (f : ChForm) (s : State), chForm i = some f → Ready s f.c f.srcs f.dsts [] →
    let v := sourceValue s.me f.srcs
    (s.variant = .s16 → ∃ t, exec i s = .next t ∧ Trapped s t 0x03 0) ∧
    (s.variant ≠ .s16 → anyCtx s (v 0) = none → ∃ t, exec i s = .next t ∧ Trapped s t 0x02 0) ∧
    ∀ n k, s.variant ≠ .s16 → anyCtx s (v 0) = some (n, k) →
      let closing : Prop := k.shut ≠ 0 ∨ ∃ q ∈ k.queue, q.op = .close
      let enters (num : Nat) (result : Ctx) : Prop :=
        ∃ t, exec i s = .next t ∧ sameBytes s t ∧
          mfind? (t.cluster s.cur.p (clusterOf s.cur.c)).ctxs n = some result ∧
          mget 0 t.me.lastChisel n = num ∧ (∀ r, readReg t.me r = readReg s.me r) ∧
          (f.waits = false → t.me.pc = s.me.pc + 12 ∧ t.me.st = .ready) ∧
          (f.waits = true → t.me.pc = s.me.pc ∧ t.me.st = .blocked ∧ t.me.wait = .chisel)
      let cmd (num : Nat) : ChCmd := { num := num, at_ := s.cur, act := s.me.act, task := s.me.taskId,
                                       prev := mget 0 s.me.lastChisel n, op := f.op s v }
      (closing → s.stale = false ∨ f.op s v = .close → ∃ t, exec i s = .next t ∧ Trapped s t 0x02 0) ∧
      (¬closing → f.ok s v → quiet s.me = true → k.queue.length < 8 →
        enters (k.assigned + 1) { k with assigned := k.assigned + 1, queue := k.queue ++ [cmd (k.assigned + 1)] }) ∧
      (closing → s.stale = true → f.op s v ≠ .close → f.ok s v → quiet s.me = true → k.queue.length < 8 →
        enters k.assigned { k with
          assigned := k.assigned + 1, completed := min k.completed (k.assigned - 1),
          shut := if k.shut = 0 then 0 else k.assigned + 1,
          queue := k.queue.filter (·.op != .close) ++ [cmd k.assigned] ++
            (k.queue.filter (·.op == .close)).map fun q => { q with num := k.assigned + 1 } })

/-- R271: CHOPEN of an image that passes its checks opens the lowest free context at the start state with the bottom symbol,
and writes its number, and its slot finds the definition from then on; with none free it writes all ones; a bad image address
traps. -/
def Claims.ChiselOpens : Prop :=
  ∀ (x : DA) (s u w : State) (g : Img) (dead acc : Bool), Ready s x.c [x.a] [x.d] [] → s.variant ≠ .s16 →
    let base := sourceValue s.me [x.a] 0
    (2 ^ 55 ≤ base.toNat → ∃ t, exec (.chopen x) s = .next t ∧ Trapped s t 0x08 base) ∧
    (base.toNat < 2 ^ 55 → base.toNat % 64 ≠ 0 → ∃ t, exec (.chopen x) s = .next t ∧ Trapped s t 0x06 base) ∧
    (base.toNat < 2 ^ 55 → base.toNat % 64 = 0 → quiet s.me = true →
      readImg s.cur.p s.cur.c base.toNat (taken s [x.a]) = .ok g u →
      evalConf s.cur.p s.cur.c g g.start [BitVec.ofNat 16 g.bottom] u = .ok (dead, acc) w → Here w → w.cur = s.cur →
      w.me = (taken s [x.a]).me →
      (∀ n, (List.range 64).find? (fun n => (mfind? (s.cluster s.cur.p (clusterOf s.cur.c)).ctxs n).isNone) = some n →
        ∃ t, exec (.chopen x) s = .next t ∧ t.me.pc = s.me.pc + 12 ∧ t.me.st = .ready ∧
          (∀ r : BitVec 6, x.d = .s r → writable s.me r.toNat = true → readReg t.me r.toNat = BitVec.ofNat 64 n) ∧
          mfind? (t.cluster s.cur.p (clusterOf s.cur.c)).ctxs n = some {
            launch := s.mine.launch, born := s.myPart.live.events + 1, by_ := s.cur, image := base, state := g.start, stack := [BitVec.ofNat 16 g.bottom],
            dead := dead, accept := acc } ∧
          s.myPart.live.events + 1 ∈ t.me.seen ∧ mget 0 t.me.lastChisel n = 0) ∧
      ((List.range 64).find? (fun n => (mfind? (s.cluster s.cur.p (clusterOf s.cur.c)).ctxs n).isNone) = none →
        ∃ t, exec (.chopen x) s = .next t ∧ t.me.pc = s.me.pc + 12 ∧ t.me.st = .ready ∧
          ∀ r : BitVec 6, x.d = .s r → writable s.me r.toNat = true → readReg t.me r.toNat = BitVec.allOnes 64))

/-- R262, R263, R271 to R276: numbered chisel commands, and CHOPEN. -/
def Obligations.ChiselQueue : Prop := Claims.ChiselCommands ∧ Claims.ChiselOpens

/-- R262, R272, R274 to R277: the unit executes the next command of the next context: it completes the command's number, and with the
last one of a closed context the number of the CHCLOSE after it; CHSAVE pushes a snapshot and keeps the newest eight, CHSTAT answers
its slot, CHCLOSE frees the context's number, and a fault marks the context. CHMASK's units are written in ascending order, each a step
of its own while more than one is left (R287). The place of a closed context, which a slot may still find, is log entry 64's. -/
def Obligations.ChiselExecutes : Prop :=
  ∀ (s : State) (p cl n : Nat) (k : Ctx) (cmd : ChCmd), runs s p = true → (cmd.begun = false → engineMay s p = true) →
    nextCtx (s.cluster p cl) = some (n, k, cmd) → clusterOf cmd.at_.c = cl → mfind? (s.cluster p cl).ctxs n = some k →
    let go := exec (.chiselCommandExecute p cl) s
    let slot (t : State) : Slot := t.slotAt p cmd.at_.c cmd.at_.n
    let ctx (t : State) (i : Nat) : Option Ctx := mfind? (t.cluster p cl).ctxs i
    let completed : Nat := if k.shut ≠ 0 ∧ k.queue.tail = [] then k.shut else cmd.num
    let ev := (s.part p).live.events + 1
    (cmd.op = .save → k.fault = false →
      ∃ t, go = .next t ∧ sameBytes s t ∧ ctx t n = some { k with
        snaps := (⟨k.state, k.stack, k.steps⟩ :: k.snaps).take 8, completed := completed, queue := k.queue.tail }) ∧
    (∀ r sel, cmd.op = .stat (.glob r) sel → awaitsCmd (slot s) cmd = true →
      ∃ t, go = .next t ∧ sameBytes s t ∧ (slot t).pc = (slot s).pc + 12 ∧ (slot t).st = .ready ∧
        mget 0 (slot t).regs r = ctxStat k sel) ∧
    (cmd.op = .close → cmd.at_.p = p → cmd.at_.n < 4 → awaitsCmd (slot s) cmd = true →
      ∃ t, go = .next t ∧ sameBytes s t ∧ ctx t n = none ∧
        ctx t (64 * ev + n) = some { k with completed := completed, queue := k.queue.tail, shut := cmd.num } ∧
        mfind? (t.cluster p cl).closed n = some (ev, cmd.at_) ∧ (t.part p).live.events = ev ∧
        ev ∈ (slot t).seen ∧ (slot t).pc = (slot s).pc + 12 ∧ (slot t).st = .ready) ∧
    (cmd.op.answers = false →
      (∀ f u, runCtx p cmd.at_.c k cmd.op s = .fault f u → (mfind? u.parts p).isSome = true → overfull s u p = false →
        f.code ≠ 3 → f.code ≠ 4 → ctx u n = some k →
        ∃ t, go = .next t ∧ ctx t n = some { k with
          fault := true, fcode := f.code, pending := k.pending.or (some (cmd.num, f.code, f.bad)), completed := completed,
          queue := k.queue.tail }) ∧
      ∀ k' u, runCtx p cmd.at_.c k cmd.op s = .ok k' u → (mfind? u.parts p).isSome = true → overfull s u p = false →
        ctx u n = some k →
        ∃ t, go = .next t ∧ sameBytes u t ∧ ctx t n = some { k' with
          completed := if k'.shut ≠ 0 ∧ k'.queue.tail = [] then k'.shut else cmd.num, queue := k'.queue.tail }) ∧
    ∀ pl off f len k' u, cmd.op = .mask pl off f len → k.fault = false → 64 < len →
      chMask p cmd.at_.c k pl off f 64 s = .ok k' u → (mfind? u.parts p).isSome = true → overfull s u p = false →
      ctx u n = some k →
      ∃ t, exec (.postAStoreBufferEntry ⟨⟨p, 128 * cl, 7⟩, 0⟩) s = .next t ∧ sameBytes u t ∧ (t.cluster p cl).chPtr = n ∧
        ctx t n = some { k with
          queue := { cmd with begun := true, op := .mask pl (off + 8) (f + 64) (len - 64) } :: k.queue.tail }

/-! ### Guards, waits and traps -/

/-- R81, R20: past the checks of R86, an instruction whose predicate guard is false only goes on, and one whose guard predicate
awaits a memory response waits for it, whatever the instruction is. -/
def Claims.Guards : Prop :=
  ∀ (i : Instr) (c : Ctl) (n : PReg) (neg : Bool) (s : State), controlOf i = some c → c.guard = .pred n neg → Here s →
    (privileged i = true → s.cur.n = 3) →
    (awaitsP s.me n = true → ∃ t, exec i s = .next t ∧ WaitsAt s t .memory) ∧
    (awaitsP s.me n = false → readP s.me n = neg → s.me.delayed = false →
      ∃ t, exec i s = .next t ∧ Jumped s t [] (s.me.pc + 12))

/-- R20, R32, R36: what an integer instruction waits for: a named register with a load under way, an entry of a queue source
(which counts as a loss of decoupling), room in a queue destination, whatever its sources will pop. -/
def Obligations.OperandWaits : Prop :=
  ∀ (k : IntName) (x : Alu3) (s : State), Here s → guardNow s.me x.c = some true →
    let waits (w : Wait) : Prop := ∃ t, exec (k.reg x) s = .next t ∧ WaitsAt s t w ∧
      (t.me.delayed = true ↔ s.me.delayed = true ∨ w = .queueEmpty)
    let loading (d : Dst) : Prop := ∃ e ∈ s.me.lq, e.acc.act = s.me.act ∧ (e.acc.dst = d ∨ e.acc.dst2 = d)
    let hazard : Prop := ∃ r : BitVec 6, (x.d = .s r ∨ x.a = .s r ∨ x.b = .s r) ∧ r ≠ 0 ∧ r.toNat < 16 + s.me.frame ∧
      loading (if r.toNat < 16 then .glob r.toNat else .win (s.me.wbase + r.toNat - 16))
    let lacking : Prop := ∃ q : QReg, (queueOf s.me q.toNat).length < [x.a, x.b].count (.q q)
    (hazard → waits .memory) ∧ (¬hazard → lacking → waits .queueEmpty) ∧
    ∀ q : QReg, ¬hazard → ¬lacking → x.d = .q q →
      4 ≤ (queueOf s.me q.toNat).length + pendingPush s.me q.toNat → waits .queueFull

/-- R322, R353, R354: a trap of a cause of R322's list with a virtual address posts a record of 32 bytes at slot FBPROD of the
fault ring and advances FBPROD, with the fault interrupt when the ring was empty; a full ring leaves the record in its core.
Another trap posts none. -/
def Obligations.TrapRecords : Prop :=
  ∀ (s : State) (a : At) (r : Trap), (mfind? s.parts a.p).isSome = true → a.n < 4 → a.c < 2 ^ 31 → r.sub < 256 → r.kind < 256 →
    r.level < 256 → (s.part a.p).partId < 2 ^ 16 → r.posted = false →
    let v := (s.part a.p).vf
    let f := s.vf v
    let t := takeTrap s a r
    let posts : Prop := r.cause ∈ [0x05, 0x06, 0x07, 0x08, 0x0A, 0x20, 0x21, 0x22, 0x23, 0x24] ∧ r.bad.getLsbD 63 = false
    let room : Prop := (f.fbprod - f.fbcons).toNat < ringSize f.fbbase
    let entry := ringAddr f.fbbase 32 f.fbprod.toNat
    (posts → room →
      hostField t entry 8 = r.bad.toNat ∧ hostField t (entry + 8) 8 = (s.slotAt a.p a.c a.n).taskId.toNat ∧
      hostField t (entry + 16) 4 = a.c ∧ hostField t (entry + 20) 1 = r.cause ∧ hostField t (entry + 21) 1 = r.sub ∧
      hostField t (entry + 22) 1 = r.kind ∧ hostField t (entry + 23) 1 = a.n + (if r.ncw then 8 else 0) ∧
      hostField t (entry + 24) 2 = (s.part a.p).partId ∧ hostField t (entry + 26) 1 = r.level ∧
      hostField t (entry + 27) 1 = 0 ∧ hostField t (entry + 28) 4 = f.fbprod.toNat ∧
      (∀ b, b < entry ∨ entry + 32 ≤ b → hostByteOf t b = hostByteOf s b) ∧
      (t.vf v).fbprod = f.fbprod + 1 ∧
      (t.vf v).interrupts = f.interrupts ++ if f.fbprod = f.fbcons then [.fault] else []) ∧
    (posts → ¬room → t.hostMem = s.hostMem ∧ (t.vf v).fbprod = f.fbprod ∧ (t.vf v).fbovf = true ∧
      (t.coreAt a.p a.c).heldRecs.length = (s.coreAt a.p a.c).heldRecs.length + 1 ∧ (t.slotAt a.p a.c a.n).held = true ∧
      (t.vf v).interrupts = f.interrupts ++ if f.fbovf then [] else [.faultOverflow]) ∧
    (¬posts → t.hostMem = s.hostMem ∧ t.vfs = s.vfs ∧ (t.coreAt a.p a.c).heldRecs = (s.coreAt a.p a.c).heldRecs) ∧
    t.mem = s.mem

/-! ### The privileged level -/

/-- R315, R327: a user slot that meets a privileged instruction takes cause 0x04, whatever the guard. -/
def Claims.PrivilegedOnly : Prop :=
  ∀ (i : Instr) (s : State), privileged i = true → s.cur.n ≠ 3 → Here s → ∃ t, exec i s = .next t ∧ Trapped s t 0x04 0

/-- R37, R86: a false guard, and the privileged instructions outside slot 3. -/
def Obligations.GuardsAndPrivilege : Prop := Claims.Guards ∧ Claims.PrivilegedOnly

/-- R316, R317 to R321, R327: MOVC reads the registers of slot n, and through n = 0 those of its core, its partition and its
function; another number is cause 0x02. -/
def Claims.MovcReads : Prop :=
  ∀ (x : MovcR) (s : State), s.cur.n = 3 → Ready s x.c [] [x.d] [] → s.me.delayed = false →
    let y := s.slotAt s.cur.p s.cur.c x.n.toNat
    let reads (v : Word) : Prop := ∃ t, exec (.movcRead x) s = .next t ∧ Wrote s t [] x.d v 0
    (∀ e ∈ slotRegisters, x.num.toNat = e.1 → reads (e.2 y)) ∧
    (x.num.toNat = 0x005 → reads (BitVec.ofNat 64 x.n.toNat)) ∧
    (x.num.toNat = 0x100 → ∃ v, reads v ∧ isStatus y v) ∧
    (x.num.toNat = 0x104 → ∃ v, reads v ∧ isLatch y v) ∧
    (x.n = 0 → ∀ e ∈ coreRegisters, x.num.toNat = e.1 → reads (e.2 s)) ∧
    (x.n = 0 → x.num.toNat = 0x111 → ∃ v, reads v ∧ isTpend s v) ∧
    (x.n = 0 → x.num.toNat = 0x119 → ∃ v, reads v ∧ isCkptctl s v) ∧
    (x.n ≠ 0 → x.num.toNat ∉ slotNumbers → ∃ t, exec (.movcRead x) s = .next t ∧ Trapped s t 0x02 0) ∧
    (0x260 ≤ x.num.toNat → ∃ t, exec (.movcRead x) s = .next t ∧ Trapped s t 0x02 0)

/-- R316, R317, R319, R321, R327: MOVC writes a register of a slot that is Parked, Idle or slot 3 itself, and through n = 0 one
of its core; TPEND's WAKE and AFLAGS are cleared by writing 1; a hypervisor register is cause 0x04, and a read-only one, a
value outside its limits or a slot that runs is cause 0x02. -/
def Claims.MovcWrites : Prop :=
  ∀ (x : MovcW) (s : State), s.cur.n = 3 → Ready s x.c [x.a] [] [] →
    let v := sourceValue s.me [x.a] 0
    let y := s.slotAt s.cur.p s.cur.c x.n.toNat
    let held : Prop := x.n = 3 ∨ y.st = .parked ∨ y.st = .idle
    let traps (c : Nat) : Prop := ∃ t, exec (.movcWrite x) s = .next t ∧ Trapped s t c 0
    let done (t : State) : Prop := exec (.movcWrite x) s = .next t ∧ t.me.pc = s.me.pc + 12 ∧ t.me.st = .ready ∧ sameBytes s t
    (∀ e ∈ slotWrites, x.num.toNat = e.1 →
      (∀ w, e.2.2 v = some w → held → ∃ t, done t ∧ e.2.1 (t.slotAt s.cur.p s.cur.c x.n.toNat) = w ∧
        ∀ f ∈ slotWrites, f.1 ≠ e.1 → ∀ n, f.2.1 (t.slotAt s.cur.p s.cur.c n) = f.2.1 (s.slotAt s.cur.p s.cur.c n)) ∧
      (e.2.2 v = none ∨ ¬held → traps 0x02)) ∧
    (x.n = 0 → x.num.toNat = 0x110 → v.toNat % 4 = 0 → ∃ t, done t ∧ t.mine.tvec = v) ∧
    (x.n = 0 → x.num.toNat = 0x111 → ∃ t, done t ∧ t.mine.tpWake = (s.mine.tpWake && !v.getLsbD 3)) ∧
    (x.n = 0 → x.num.toNat = 0x112 → v.toNat < 2 ^ 32 → ∃ t, done t ∧ t.mine.wdlim = v) ∧
    (x.n = 0 → x.num.toNat = 0x118 → ∃ t, done t ∧
      ∀ n < 5, t.myPart.live.aflags.getLsbD n = (s.myPart.live.aflags.getLsbD n && !v.getLsbD n)) ∧
    (x.num.toNat = 0x110 ∧ v.toNat % 4 ≠ 0 ∨ x.num.toNat = 0x112 ∧ 2 ^ 32 ≤ v.toNat → traps 0x02) ∧
    (x.num.toNat ∈ [0x000, 0x005, 0x010, 0x100, 0x102, 0x104, 0x119, 0x300, 0x3FF] → traps 0x02) ∧
    (0x200 ≤ x.num.toNat → x.num.toNat < 0x300 → traps 0x04)

/-- R316 to R321, R327: MOVC both ways. -/
def Obligations.Movc : Prop := Claims.MovcReads ∧ Claims.MovcWrites

/-- R326, R327, R329, R330: ERET returns slot 3 to its EPC; RESUME makes a parked slot Ready at its EPC, RESUME.end ends its
activation and fails its launch, and RESUME.replay enters its copy record's command again; each drops the record and ends the
service. Where the slot is not parked, or its latch holds an atomic, it is cause 0x02; a field IMM of RESUME with a value that
is not allowed (slot 3, or END with REPLAY) is cause 0x02 whatever the guard (R86). -/
def Obligations.Service : Prop :=
  (∀ (x : C0) (s : State), s.cur.n = 3 → Ready s x.c [] [] [] →
    (s.me.intrap = true → ∃ t, exec (.eret x) s = .next t ∧ OnlySlot s t ∧ t.me.pc = s.me.epc ∧ t.me.st = .ready ∧
      t.me.intrap = false ∧ (∀ n, readReg t.me n = readReg s.me n) ∧ t.me.preds = s.me.preds) ∧
    (s.me.intrap = false → ∃ t, exec (.eret x) s = .next t ∧ Trapped s t 0x02 0)) ∧
  (∀ (s : State) (n : BitVec 2), s.cur.n = 3 →
    let a := serviced s n
    let y := s.slotAt a.p a.c a.n
    let may : Prop := n ≠ 3 ∧ y.st = .parked ∧ y.latch = none
    let passed (t : State) : Prop := t.me.pc = s.me.pc + 12 ∧ t.me.st = .ready ∧ sameBytes s t
    let dropped (t : State) : Prop := (t.slotAt a.p a.c a.n).copyRec = none ∧ ∀ i, y.copyRec = some i →
      ∀ f ∈ t.mine.frecs, f.id ≠ i
    (∀ x : SlotI, x.n = n → Ready s x.c [] [] [] →
      (may → ∃ t, exec (.resume x) s = .next t ∧ passed t ∧ dropped t ∧ (t.slotAt a.p a.c a.n).st = .ready ∧
        (t.slotAt a.p a.c a.n).pc = y.epc ∧ (t.slotAt a.p a.c a.n).svc = false) ∧
      (¬may → ∃ t, exec (.resume x) s = .next t ∧ Trapped s t 0x02 0) ∧
      (∀ i f, may → y.copyRec = some i → s.mine.frecs.find? (fun f => f.id == i) = some f →
        s.mine.cq.queue.length + (if s.mine.cq.run.isSome then 1 else 0) < 2 →
        ∃ t, exec (.resumeReplay x) s = .next t ∧ passed t ∧ dropped t ∧ (t.slotAt a.p a.c a.n).st = .ready ∧
          (t.slotAt a.p a.c a.n).pc = y.epc ∧ (t.slotAt a.p a.c a.n).replayNum = s.mine.cq.assigned + 1 ∧
          t.mine.cq.assigned = s.mine.cq.assigned + 1 ∧
          t.mine.cq.queue.map (fun q => (q.num, q.op)) =
            s.mine.cq.queue.map (fun q => (q.num, q.op)) ++ [(s.mine.cq.assigned + 1, f.cmd.op)] ∧
          ∀ k ∈ f.tiles, tileBad t.mine k = false) ∧
      (∀ i f, may → y.copyRec = some i → s.mine.frecs.find? (fun f => f.id == i) = some f →
        2 ≤ s.mine.cq.queue.length + (if s.mine.cq.run.isSome then 1 else 0) →
        ∃ t, exec (.resumeReplay x) s = .next t ∧ WaitsAt s t .engineFull) ∧
      (¬may ∨ y.copyRec = none → ∃ t, exec (.resumeReplay x) s = .next t ∧ Trapped s t 0x02 0)) ∧
    ∀ x : ResEndI, x.n = n → x.replay = false → Ready s x.c [] [] [] →
      (may → ∃ t, exec (.resumeEnd x) s = .next t ∧ passed t ∧ dropped t ∧ (t.slotAt a.p a.c a.n).st = .idle ∧
        (t.slotAt a.p a.c a.n).act = y.act + 1 ∧ (t.slotAt a.p a.c a.n).svc = false ∧
        ∀ id, s.mine.launch = some id → ∀ j ∈ t.myPart.live.launches, j.id = id → j.error.isSome = true) ∧
      (¬may → ∃ t, exec (.resumeEnd x) s = .next t ∧ Trapped s t 0x02 0)) ∧
  ∀ (s : State), s.cur.n = 3 → Here s →
    (∀ x : SlotI, x.n = 3 → (∃ t, exec (.resume x) s = .next t ∧ Trapped s t 0x02 0) ∧
      ∃ t, exec (.resumeReplay x) s = .next t ∧ Trapped s t 0x02 0) ∧
    ∀ x : ResEndI, x.n = 3 ∨ x.replay = true → ∃ t, exec (.resumeEnd x) s = .next t ∧ Trapped s t 0x02 0

/-- R138, R320, R327: REARM sends the latched atomic of a slot to its home and waits; accepted, the latch is empty, EPC is past the
atomic, the slot is Ready there and the predicate true; refused, the latch keeps the atomic with the new refusal and the
predicate is false. One whose walk meets a memory error ends as an atomic that meets the error does: log entry 62's reading of R339 and
R323. DROPL empties the latch, with LATCHV in a fetching atomic's destination. -/
def Obligations.LatchedAtomics : Prop :=
  (∀ (s : State) (n : BitVec 2), s.cur.n = 3 →
    let a := serviced s n
    let y := s.slotAt a.p a.c a.n
    let may : Prop := n = 3 ∨ y.st = .parked
    (∀ x : RearmI, x.n = n → Ready s x.c [] [] [x.p] →
      (∀ l, may → y.latch = some l → ∃ t, exec (.rearm x) s = .next t ∧ sameBytes s t ∧ t.me.pc = s.me.pc ∧ t.me.st = .blocked ∧
        t.me.wait = .rearm ∧ (t.slotAt a.p a.c a.n).latch = some { l with sent := true } ∧
        (t.slotAt a.p a.c a.n).pend = some { acc := some l.acc, rearm := some x.p }) ∧
      (¬may ∨ y.latch = none → ∃ t, exec (.rearm x) s = .next t ∧ Trapped s t 0x02 0)) ∧
    ∀ x : SlotI, x.n = n → Ready s x.c [] [] [] →
      (∀ l, may → y.latch = some l → ∃ t, exec (.dropl x) s = .next t ∧ sameBytes s t ∧ t.me.pc = s.me.pc + 12 ∧ t.me.st = .ready ∧
        (t.slotAt a.p a.c a.n).latch = none ∧ (t.slotAt a.p a.c a.n).epc = y.epc + 12 ∧
        (n ≠ 3 → (t.slotAt a.p a.c a.n).st = .ready ∧ (t.slotAt a.p a.c a.n).pc = y.epc + 12 ∧
          (t.slotAt a.p a.c a.n).svc = false) ∧
        ∀ r, l.acc.dst = .glob r → mget 0 (t.slotAt a.p a.c a.n).regs r = if l.fetch then y.latchv else mget 0 y.regs r) ∧
      (¬may ∨ y.latch = none → ∃ t, exec (.dropl x) s = .next t ∧ Trapped s t 0x02 0)) ∧
  ∀ (s u : State) (a : At) (cached : Bool) (q : PReg) (l : Latch), runs s a.p = true → a.n < 3 →
    (s.slotAt a.p a.c a.n).pend = some { acc := some l.acc, rearm := some q } → (s.slotAt a.p a.c a.n).latch = some l →
    l.acc.kind.isAmo = true → roomFor (s.slotAt a.p a.c a.n) l.acc.kind →
    inWindow (s.vf (s.part a.p).vf) l.acc.ea.toNat = false →
    let y := s.slotAt a.p a.c a.n
    (∀ lf win, acceptVa { s with cur := a } a.p a.c l.acc.ea.toNat l.acc.kind.perm cached = (u, .ok (lf, win)) →
      ∃ t, exec (.accessAccept a cached) s = .next t ∧ (t.slotAt a.p a.c a.n).latch = none ∧
        (t.slotAt a.p a.c a.n).epc = y.epc + 12 ∧ (t.slotAt a.p a.c a.n).pc = y.epc + 12 ∧
        (t.slotAt a.p a.c a.n).st = .ready ∧ (t.slotAt a.p a.c a.n).svc = false ∧
        (t.slotAt a.p a.c 3).st = .ready ∧ (t.slotAt a.p a.c 3).pc = (s.slotAt a.p a.c 3).pc + 12 ∧
        readP (t.slotAt a.p a.c 3) q = true ∧ (t.slotAt a.p a.c a.n).sb.length = y.sb.length + 1) ∧
    ∀ r, acceptVa { s with cur := a } a.p a.c l.acc.ea.toNat l.acc.kind.perm cached = (u, .error r) → r.wait = false →
      (r.cause = 0x3F → ∃ t, exec (.accessAccept a cached) s = .next t ∧ (t.slotAt a.p a.c a.n).latch = none ∧
        (t.slotAt a.p a.c a.n).report = some (0x3F, l.acc.ea) ∧ (t.slotAt a.p a.c a.n).epc = y.epc + 12 ∧
        (t.slotAt a.p a.c a.n).pc = y.epc + 12 ∧ (t.slotAt a.p a.c a.n).st = .ready ∧
        (t.slotAt a.p a.c 3).pc = (s.slotAt a.p a.c 3).pc + 12 ∧ readP (t.slotAt a.p a.c 3) q = true) ∧
      (r.cause ≠ 0x3F → ∃ t, exec (.accessAccept a cached) s = .next t ∧
        (t.slotAt a.p a.c a.n).latch = some { l with sent := false, refuse := BitVec.ofNat 8 r.cause } ∧
        (t.slotAt a.p a.c a.n).st = y.st ∧ (t.slotAt a.p a.c a.n).epc = y.epc ∧
        (t.slotAt a.p a.c 3).pc = (s.slotAt a.p a.c 3).pc + 12 ∧ (q ≠ 7 → readP (t.slotAt a.p a.c 3) q = false))

/-- R327: XINV drops the slices' translations of its range and waits for the accesses under them; CKPT waits for a cocoon begun
at or after it and writes its SEQ; HALT waits until its mask meets TPEND, and acquires where WAKE is what it met; WAKE sends a wake
event to a core of the partition. What a release carries to an acquire is log entry 64's reading. -/
def Obligations.Supervisor : Prop :=
  (∀ (x : AB) (s : State), s.cur.n = 3 → Ready s x.c [x.a, x.b] [] [] →
    let start := sourceValue s.me [x.a, x.b] 0
    let len := (sourceValue s.me [x.a, x.b] 1).toNat
    let traps (c : Nat) (bad : Word) : Prop := ∃ t, exec (.xinv x) s = .next t ∧ Trapped s t c bad
    let may : Prop := start.toNat % 65536 = 0 ∧ len % 65536 = 0 ∧ start.toNat + len ≤ 2 ^ 55 ∧ start.toNat < 2 ^ 55
    (2 ^ 55 ≤ start.toNat → traps 0x08 start) ∧
    (start.toNat < 2 ^ 55 → start.toNat % 65536 ≠ 0 ∨ len % 65536 ≠ 0 → traps 0x06 start) ∧
    (start.toNat < 2 ^ 55 → start.toNat % 65536 = 0 → len % 65536 = 0 → 2 ^ 55 < start.toNat + len → traps 0x02 0) ∧
    (may → len = 0 → ∃ t, exec (.xinv x) s = .next t ∧ Jumped s t [x.a, x.b] (s.me.pc + 12)) ∧
    (may → 0 < len → s.me.sb ≠ [] ∨ s.me.unacked ≠ [] → ∃ t, exec (.xinv x) s = .next t ∧ WaitsAt s t .memory) ∧
    (may → 0 < len → s.me.sb = [] → s.me.unacked = [] → ∃ t, exec (.xinv x) s = .next t ∧ sameBytes s t ∧
      (∀ e : Tlb, e ∈ t.myPart.tlb ↔ e ∈ s.myPart.tlb ∧ e.inRange start.toNat len = false) ∧
      (rangeBusy s.myPart start.toNat len = false → t.me.pc = s.me.pc + 12 ∧ t.me.st = .ready) ∧
      (rangeBusy s.myPart start.toNat len = true → t.me.pc = s.me.pc ∧ t.me.st = .blocked ∧ t.me.wait = .xinv))) ∧
  (∀ (x : D1) (s : State), s.cur.n = 3 → Ready s x.c [] [x.d] [] →
    ((∀ n, s.me.wait ≠ .ckpt n) → ∃ t, exec (.ckpt x) s = .next t ∧ sameBytes s t ∧ t.me.pc = s.me.pc ∧ t.me.st = .blocked ∧
      t.me.wait = .ckpt (s.myPart.seq + if s.myPart.cut = .none then 1 else 2).toNat ∧ t.myPart.cut ≠ .none) ∧
    ∀ n, s.me.wait = .ckpt n → (s.myPart.seq - BitVec.ofNat 32 n).toNat < 2 ^ 31 →
      ∃ t, exec (.ckpt x) s = .next t ∧ Wrote s t [] x.d (BitVec.ofNat 64 n) 0) ∧
  (∀ (x : A1) (s : State), s.cur.n = 3 → Ready s x.c [x.a] [] [] →
    let mask := sourceValue s.me [x.a] 0
    (mask = 0 ∨ 16 ≤ mask.toNat → ∃ t, exec (.halt x) s = .next t ∧ Trapped s t 0x02 0) ∧
    (mask ≠ 0 → mask.toNat < 16 → pends s mask → ∃ t, exec (.halt x) s = .next t ∧
      Jumped (knowing s t.me.seen) t [x.a] (s.me.pc + 12) ∧
      learns s t (if s.mine.tpWake = true ∧ mask.getLsbD 3 = true then s.mine.wakeKnow else [])) ∧
    (mask ≠ 0 → mask.toNat < 16 → ¬pends s mask → ∃ t, exec (.halt x) s = .next t ∧ WaitsAt s t .halt)) ∧
  (∀ (x : A1) (s : State), s.cur.n = 3 → Ready s x.c [x.a] [] [] →
    let h := sourceValue s.me [x.a] 0
    (headerQueue h ≠ 0 → ∃ t, exec (.wake x) s = .next t ∧ Trapped s t 0x02 0) ∧
    ∀ c, headerQueue h = 0 → headerCore s h = .ok c → s.me.sb.length < 8 →
      ∃ t, exec (.wake x) s = .next t ∧ t.me.pc = s.me.pc + 12 ∧ t.me.st = .ready ∧
        AccessTaken s t [x.a] { id := s.nextId, core := s.cur.c, slot := s.cur.n, act := s.me.act, kind := .wake,
                                place := .queue c, ord := .rel, scope := scopeOver s.cur.c c,
                                know := frees s.me s.cur.c .wake .rel (scopeOver s.cur.c c) }) ∧
  ∀ (s : State) (p i c : Nat) (e : Acc), AtPlace s p i e → e.place = .queue c → e.kind = .wake →
    ∃ t, exec (.perform p i) s = .next t ∧ Performed s t p i e {} ∧ sameBytes s t ∧ (t.coreAt p c).tpWake = true ∧
      ∀ ev, ev ∈ (t.coreAt p c).wakeKnow ↔ ev ∈ (s.coreAt p c).wakeKnow ∨ ev ∈ visible e.know c

/-- R323, R324, R398, R43: an error report of a line that no write of the interval covers waits at the slot of the load that met
it and takes the load away; the watchdog, which the schedule may take at any time (log entry 7), traps every Blocked slot of the
team; one whose SEND has been performed, and whose answer is under way, takes the answer first, for its instruction has had its
effect; a watchpoint match waits for its slot's next instruction (log entry 51), and an error
report for no access in flight is only counted (log entry 54); a window transfer moves the registers between the slot and its
WSPILL region. -/
def Obligations.Reports : Prop :=
  (∀ (s : State) (a : At) (pa : Word), runs s a.p = true → logged s a.p (pa.toNat / 128) = false →
    let y := s.slotAt a.p a.c a.n
    let met (e : Acc) : Bool := (e.kind.isLoad || e.kind.isAmo) &&
      errorLine { s with memErrors := if s.memErrors.contains (pa.toNat / 128) then s.memErrors
                                      else pa.toNat / 128 :: s.memErrors } a.p e e.caches &&
      e.leaf.pa / 128 == pa.toNat / 128
    (∀ e, (inFlight y).find? met = some e → e.act = y.act → ∃ t, exec (.memoryErrorReport a pa) s = .next t ∧
      pa.toNat / 128 ∈ t.memErrors ∧ (t.slotAt a.p a.c a.n).report = some (0x3F, e.ea) ∧
      (∀ f ∈ (t.slotAt a.p a.c a.n).lq, f.acc.id ≠ e.id) ∧ sameBytes s t) ∧
    ((inFlight y).find? met = none → ∃ t, exec (.memoryErrorReport a pa) s = .next t ∧ pa.toNat / 128 ∈ t.memErrors ∧
      t.reliability = s.reliability + 1 ∧ t.parts = s.parts)) ∧
  (∀ (s : State) (p l c : Nat), runs s p = true → (s.coreAt p c).launch = some l → (s.coreAt p c).wdlim ≠ 0 →
    (∀ d ∈ teamOf s p c, ∀ n < 3, (s.slotAt p d n).st ≠ .parked) →
    let answered (d n : Nat) : Prop := ∃ r ∈ (s.part p).live.resps, ∃ e ∈ inFlight (s.slotAt p d n), e.id = r.1.id
    let parks (t : State) (d n : Nat) (pc : Word) : Prop := (t.slotAt p d n).st = .parked ∧ (t.slotAt p d n).svc = true ∧
      (t.slotAt p d n).cause = 0x28 ∧ (t.slotAt p d n).epc = pc
    ((∀ d ∈ teamOf s p c, ∀ n < 3, ¬answered d n) →
      ∃ t, exec (.teamWatchdogExpiry p l c) s = .next t ∧ (∀ b, physRead t b 1 = physRead s b 1) ∧
        ∀ d ∈ teamOf s p c, ∀ n < 3, (s.slotAt p d n).st = .blocked → parks t d n (s.slotAt p d n).pc) ∧
    ∀ d ∈ teamOf s p c, ∀ n < 3, ∀ e q m, (∀ d' ∈ teamOf s p c, ∀ n' < 3, (d' ≠ d ∨ n' ≠ n) → ¬answered d' n') →
      (s.part p).live.resps = [(e, {})] → e ∈ inFlight (s.slotAt p d n) → e.core = d → e.slot = n →
      e.act = (s.slotAt p d n).act → e.kind = .send q m false → e.eng = none → e.dst = .none → e.dst2 = .none → e.core < 2 ^ 40 →
      (s.slotAt p d n).st = .blocked → (∀ f ∈ (s.slotAt p d n).lq, f.held = none) →
      ∃ t, exec (.teamWatchdogExpiry p l c) s = .next t ∧ parks t d n ((s.slotAt p d n).pc + 12)) ∧
  (∀ (s : State) (p i : Nat) (h : WatchHit), runs s p = true → s.watch[i]? = some h → h.at_.p = p → h.note = none →
    let y := s.slotAt p h.at_.c h.at_.n
    y.act = h.act → y.report = none →
    ∃ t, exec (.watchpointReport p i) s = .next t ∧ t.watch = s.watch.eraseIdx i ∧ sameBytes s t ∧
      (t.slotAt p h.at_.c h.at_.n).report = some (0x31, h.addr)) ∧
  ∀ (s : State) (a : At) (n : Nat), runs s a.p = true →
    let y := s.slotAt a.p a.c a.n
    y.fillTo = some n → (∀ e ∈ inFlight y, e.own = false) → winBusy y y.spilled n = false →
    logUsed (s.part a.p) + (n - y.spilled) + 2 ≤ (s.part a.p).logCap →
    ∃ t, exec (.windowSpillFillDone a) s = .next t ∧ (∀ b, physRead t b 1 = physRead s b 1) ∧
      let z := t.slotAt a.p a.c a.n
      z.spilled = n ∧ z.fillTo = none ∧ (y.st = .blocked → z.st = .ready) ∧
      (y.spilled < n → ∀ p c off, spadByte t p c off =
        if p = a.p ∧ c = a.c ∧ wspillBase y + 8 * y.spilled ≤ off ∧ off < wspillBase y + 8 * n
        then BitVec.ofNat 8 ((winReg y ((off - wspillBase y) / 8)).toNat / 256 ^ ((off - wspillBase y) % 8))
        else spadByte s p c off) ∧
      (n ≤ y.spilled → (∀ p c off, spadByte t p c off = spadByte s p c off) ∧
        ∀ pos, (∀ i < 8, n ≤ pos → pos < y.spilled →
            (winReg z pos).toNat / 256 ^ i % 256 = (spadByte s a.p a.c (wspillBase y + 8 * pos + i)).toNat) ∧
          (pos < n ∨ y.spilled ≤ pos → winReg z pos = winReg y pos))

/-! ### Coherence -/

/-- R366, R367, R368: a core that may asks its line's home by a message. What the request does there, once it heads its channel,
by the line's directory state: an owner is asked to forward or return the line and sharers to drop it, and the home waits
for their answers; from I or S a read is filled from memory at once, and with no die to ask a write too; a request for a
BUSY line waits. -/
def Obligations.CoherenceRequests : Prop :=
  ∀ e ∈ requestForms, ∀ (s : State) (m : CohMsg), runs s m.p = true →
    (takeRequest s e.2.kind m = none → maySend s m e.2 = true →
      ∃ t, exec (e.1 m) s = .next t ∧ sameBytes s t ∧ entryOf t m = entryOf s m ∧ snoops t m.p = snoops s m.p ++ [
        { kind := e.2.kind, line := m.line, die := m.die, core := m.core, toHome := true,
          acc := ncAccess (s.part m.p) m.line m.core e.2 }]) ∧
    ∀ (r : Snoop) (u : State) (w : Leaf), takeRequest s e.2.kind m = some (r, u) → lineLeaf s m.p m.line e.2 m.core = some w →
    let d := entryOf s m
    let others := d.dies.filter (· ≠ d.owner)
    let owned : Prop := d.st = .e ∨ d.st = .o ∨ d.st = .m
    let does (P : State → Prop) (ms : List Snoop) : Prop :=
      ∃ t, exec (e.1 m) s = .next t ∧ sameBytes s t ∧ P t ∧ snoops t m.p = snoops u m.p ++ ms
    let line : List Byte := physRead s (w.pa / 128 * 128) 128
    (∀ x, d.txn = some x → x.waiting ≠ [] →
      does (fun t => (entryOf t m).queue = d.queue ++ [(e.2, m.die, m.core)] ∧ (entryOf t m).txn = some x) []) ∧
    (d.txn = none → d.queue = [] →
      (owned → e.2 = .rds → does (fun t => Opened t m .rds [d.owner] true) [asks m .fwds true d.owner]) ∧
      (owned → e.2 = .ncrd → does (fun t => Opened t m .ncrd [d.owner] true) [asks m .rcl true d.owner]) ∧
      (owned → e.2 = .rdx → does (fun t => Opened t m .rdx (d.owner :: others) true)
        (asks m .fwdx false d.owner :: others.map (asks m .inv false))) ∧
      (owned → e.2 = .ncwr ∨ e.2 = .atm → does (fun t => Opened t m e.2 (d.owner :: others) true)
        (asksAll m .rcl d.owner :: others.map (asksAll m .inv))) ∧
      (d.st = .s → d.dies ≠ [] → e.2 = .rdx → does (fun t => Opened t m .rdx d.dies false) (d.dies.map (asks m .inv false))) ∧
      (d.st = .s → d.dies ≠ [] → e.2 = .ncwr ∨ e.2 = .atm →
        does (fun t => Opened t m e.2 d.dies false) (d.dies.map (asksAll m .inv))) ∧
      (homeCalm s m → d.st = .i → d.dies = [] → e.2 = .rds →
        (lineWalk s m.p m.line .rdx).isSome = true →
        does (fun t => Settled t m .e m.die [m.die]) [fills m .datae line, completes m false]) ∧
      (homeCalm s m → d.st = .i → d.dies = [] → e.2 = .rds →
        (lineWalk s m.p m.line .rdx).isSome = false →
        does (fun t => Settled t m .s 0 [m.die]) [fills m .datas line, completes m false]) ∧
      (homeCalm s m → d.st = .i → d.dies = [] → e.2 = .rdx →
        does (fun t => Settled t m .m m.die [m.die]) [fills m .datam line, completes m false]) ∧
      (homeCalm s m → d.st = .s → e.2 = .rds → d.dies.contains m.die = true →
        does (fun t => Settled t m .s 0 d.dies) [fills m .datas (physRead s d.pa 128), completes m false]) ∧
      (d.st = .i ∨ d.st = .s → d.dies ≠ [] → e.2 = .ncrd → does (fun t => Settled t m .s 0 d.dies) []) ∧
      (d.st = .s ∨ d.st = .o → d.dies = [m.die] → (∃ l, copyAt s m.p m.core m.line = some l ∧ l.usable = true) → (∀ e ∈ (s.part m.p).live.cores,
          dieOf e.1 = m.die → e.1 ≠ m.core → mfind? e.2.l1 m.line = none) →
        e.2 = .upg → does (fun t => Settled t m .m m.die [m.die]) [completes m true]) ∧
      (homeCalm s m → d.st = .s → d.dies = [] → e.2 = .upg →
        does (fun t => Settled t m .m m.die [m.die]) [fills m .datam (physRead s d.pa 128), completes m false]))

/-- R366, R367, R369: a die answers the message that heads its channel: an owner forwards or returns its line and keeps it or drops
it as asked, a die without a copy answers Nak, an Inv takes every copy but the requester's; a fill reaches its core, which
uses it after Cmp. -/
def Obligations.CoherenceAtDies : Prop :=
  ∀ (s u : State) (m : CohMsg) (w : Snoop), runs s m.p = true →
    let does (i : Instr) (P : State → Prop) (ms : List Snoop) : Prop :=
      ∃ t, exec i s = .next t ∧ sameBytes s t ∧ P t ∧ snoops t m.p = snoops u m.p ++ ms
    let forwards (k : SnoopKind) (l : L1Line) : Snoop :=
      { kind := k, line := m.line, die := dieOf w.core, core := w.core, src := some m.die, dirty := k == .datam,
        cut := (k == .datam) && l.cutDirty, data := l.data }
    let owner (c : Nat) (l : L1Line) : Prop :=
      ownerCopy (u.part m.p).live m.line m.die = some (c, l) ∧ copyAt u m.p c m.line = some l
    (takeSnoop s .fwds m = some (w, u) →
      (∀ c l, owner c l → does (.fwds m) (fun t =>
        copyAt t m.p c m.line = some { l with st := if l.dirty then .o else .s })
        [forwards .datas l, answers m .fwdack l.dirty false []]) ∧
      (ownerCopy (u.part m.p).live m.line m.die = none → does (.fwds m) (fun _ => True) [answers m .nak false false []])) ∧
    (takeSnoop s .fwdx m = some (w, u) →
      (∀ c l, owner c l → does (.fwdx m) (fun t => dieEmpty t m none)
        [forwards .datam l, answers m .fwdack l.dirty false []]) ∧
      (ownerCopy (u.part m.p).live m.line m.die = none → does (.fwdx m) (fun _ => True) [answers m .nak false false []])) ∧
    (takeSnoop s .rcl m = some (w, u) →
      (∀ c l, owner c l → does (.rcl m) (fun t =>
        if w.keep then copyAt t m.p c m.line = some { l with st := .s, dirty := false, cutDirty := false }
        else dieEmpty t m none) [answers m .rcldata l.dirty l.cutDirty l.data]) ∧
      (ownerCopy (u.part m.p).live m.line m.die = none → does (.rcl m) (fun _ => True) [answers m .nak false false []])) ∧
    (takeSnoop s .inv m = some (w, u) → ∃ t a, exec (.inv m) s = .next t ∧ sameBytes s t ∧ dieEmpty t m (some w.core) ∧
      copyAt t m.p w.core m.line = copyAt s m.p w.core m.line ∧ snoops t m.p = snoops u m.p ++ [a] ∧ a.kind = .invack ∧
      a.toHome = true ∧ a.die = m.die ∧ a.line = m.line) ∧
    (∀ e ∈ [(Instr.datas m, SnoopKind.datas, LineState.s), (.datae m, .datae, .e), (.datam m, .datam, .m)],
      takeRequest s e.2.1 m = some (w, u) → m.victim = none → filterRoom u m.p m.line m.die = true →
      (mfind? (s.part m.p).live.cores w.core).isSome = true → does e.1 (fun t => copyAt t m.p w.core m.line =
        some { st := e.2.2, data := w.data, dirty := e.2.2 == .m, usable := false, cutDirty := w.cut }) []) ∧
    (takeRequest s .cmp m = some (w, u) → ∀ l, copyAt s m.p w.core m.line = some l →
      does (.cmpMessage m) (fun t => copyAt t m.p w.core m.line = some
        (if w.dirty then { l with st := .m, dirty := true, cutDirty := l.cutDirty || w.cut } else { l with usable := true })) [])

/-- R364, R365, R367, R368, R369: a line leaves a die by WbD, which writes it to memory, or by EvC; an answer that is not the last only
counts down, and the last ends the transaction: the requester owns the line after RdX and Upg, no die holds it after NcWr
and Atm, and a dirty owner that forwarded keeps O; RclData's dirty line goes to memory. -/
def Obligations.CoherenceAtHomes : Prop :=
  (∀ (s u : State) (m : CohMsg) (w : Snoop), runs s m.p = true →
    (takeSnoop s .wbd m = some (w, u) → logRoom s m.p → ∃ t, exec (.wbd m) s = .next t ∧ memWritten s t (entryOf s m).pa w.data ∧
      (entryOf t m).dies = (entryOf s m).dies.filter (· ≠ m.die) ∧ (entryOf t m).owner = 0 ∧
      ((entryOf t m).dies = [] → (entryOf t m).st = .i) ∧ ((entryOf t m).dies ≠ [] → (entryOf t m).st = .s) ∧
      ((entryOf s m).txn = none → (mget {} (t.part m.p).live.filters (filterKey m.line m.die)).leaving = false) ∧
      snoops t m.p = snoops u m.p) ∧
    (takeSnoop s .evc m = some (w, u) → ∃ t, exec (.evc m) s = .next t ∧ sameBytes s t ∧
      (entryOf t m).dies = (entryOf s m).dies.filter (· ≠ m.die) ∧ ((entryOf t m).dies = [] → (entryOf t m).st = .i) ∧
      snoops t m.p = snoops u m.p) ∧
    (takeSnoop s .wbd m = none → dieHeld (s.part m.p).live m.line m.die = false →
      ∀ c l, (dieCopies (s.part m.p).live m.line m.die).find? (·.2.dirty) = some (c, l) →
      ∃ t, exec (.wbd m) s = .next t ∧ sameBytes s t ∧ dieEmpty t m none ∧
        (mget {} (t.part m.p).live.filters (filterKey m.line m.die)).leaving = true ∧
        snoops t m.p = snoops s m.p ++ [answers m .wbd true l.cutDirty l.data]) ∧
    (takeSnoop s .evc m = none → dieOf m.core = m.die → dieHeld (s.part m.p).live m.line m.die = false →
      ∀ l, copyAt s m.p m.core m.line = some l → l.dirty = false →
      ∃ t, exec (.evc m) s = .next t ∧ sameBytes s t ∧ copyAt t m.p m.core m.line = none ∧
        ( dieCopies (t.part m.p).live m.line m.die = [] →
          snoops t m.p = snoops s m.p ++ [answers m .evc false false []]))) ∧
  ∀ e ∈ [(Instr.invack, SnoopKind.invack), (.fwdack, .fwdack), (.rcldata, .rcldata), (.nak, .nak)],
    ∀ (s u : State) (m : CohMsg) (w : Snoop) (x : Txn) (rest : List Nat), runs s m.p = true →
    takeSnoop s e.2 m = some (w, u) → (entryOf s m).txn = some x → x.waiting = m.die :: rest → x.asked = true → logRoom s m.p →
    let data (t : State) : Prop := memWritten s t (entryOf s m).pa (if e.2 = .rcldata ∧ w.dirty = true then w.data else [])
    (rest ≠ [] → ∃ t y, exec (e.1 m) s = .next t ∧ data t ∧ (entryOf t m).txn = some y ∧ y.waiting = rest ∧ y.req = x.req ∧
      y.sent = (x.sent || e.2 == .fwdack) ∧ snoops t m.p = snoops u m.p) ∧
    (rest = [] → (entryOf s m).queue = [] → homeCalm s m → ∃ t, exec (e.1 m) s = .next t ∧ data t ∧ (entryOf t m).txn = none ∧
      (x.req = .rdx ∨ x.req = .upg → (entryOf t m).st = .m ∧ (entryOf t m).owner = x.die ∧ (entryOf t m).dies = [x.die]) ∧
      (x.req = .ncwr ∨ x.req = .atm → (entryOf t m).st = .i ∧ (entryOf t m).dies = [] ∧ snoops t m.p = snoops u m.p) ∧
      (x.req = .rds → (entryOf t m).st = if (x.sent || e.2 == .fwdack) && (x.dirty || (e.2 == .fwdack && w.dirty))
        then .o else .s) ∧
      (x.req = .rds ∨ x.req = .rdx ∨ x.req = .upg → ∃ k ∈ snoops t m.p, k.kind = .cmp ∧ k.line = m.line ∧ k.core = x.core))

/-! ### Cocoons -/

/-- R331, R332, R378: a cut begins by stopping the engines; once they are idle and the accesses have drained it applies the bind
records that wait and records the partition, while the partition's own state goes on. -/
def Claims.CocoonCuts : Prop :=
  (∀ (s : State) (p : Nat), runs s p = true → (s.part p).cut = .none →
    ∃ t, exec (.cocoonCut p) s = .next t ∧ sameBytes s t ∧ t.part p = { s.part p with cut := .stopping }) ∧
  (∀ (s : State) (p : Nat), runs s p = true → (s.part p).cut = .stopping →
    enginesIdle s p = false ∨ drained s p = false → exec (.cocoonCut p) s = .next s) ∧
  ∀ (s : State) (p : Nat), runs s p = true → (s.part p).cut = .stopping → enginesIdle s p = true → drained s p = true →
    (∀ j ∈ (s.part p).live.launches, j.error = none) →
    ((s.part p).records = [] → ∃ t, exec (.cocoonCut p) s = .next t ∧ sameBytes s t ∧ (t.part p).cut = .saved ∧
      (t.part p).pending = recordLive (s.part p).live ∧ (∀ c n, t.slotAt p c n = s.slotAt p c n) ∧
      (t.part p).pstate = ((s.part p).pstateNext.getD (s.part p).pstate) ∧ (t.part p).seq = (s.part p).seq) ∧
    ∀ r, (s.part p).records = [r] → launchReady s p r = true → (s.part p).vf = r.vf → (s.part p).partId = r.part →
      (s.part p).hasCore r.core = true → r.slot < 3 → (s.slotAt p r.core r.slot).st = .idle → r.pc.toNat % 4 = 0 →
      r.pc.toNat < 2 ^ 55 → r.prio < 8 → r.teamId < 2 ^ 20 → r.stage < 16 → r.log2Team < 8 → r.csw ≤ 8 →
      (s.coreAt p r.core).launch = none → (∀ l ∈ (s.cluster p (clusterOf r.core)).l2, l.cls ≠ .nc) →
      ∃ t, exec (.cocoonCut p) s = .next t ∧ sameBytes s t ∧ (t.part p).cut = .saved ∧ (t.part p).records = [] ∧
        Started t ⟨p, r.core, r.slot⟩ r.pc r.task ((List.range 4).map fun i => mget 0 (s.part p).argTable (4 * r.argIx + i))
          none none none ∧
        (t.coreAt p r.core).teamId = r.teamId ∧ (t.coreAt p r.core).teamSize = 2 ^ r.log2Team ∧
        (t.coreAt p r.core).stage = r.stage ∧ (t.coreAt p r.core).launch = r.launch ∧ (t.coreAt p r.core).vt = 0 ∧
        ∀ e, (getQ (t.coreAt p r.core) e).assigned = 0 ∧ (getQ (t.coreAt p r.core) e).completed = 0

/-- R331, R333, R370, R381: a recorded cut commits once no cut-dirty line is left: the record is the latest cocoon, SEQ advances, the
logs of the closed interval end, and the completion records held since the cut before are posted. -/
def Claims.CocoonCommits : Prop :=
  ∀ (s : State) (p : Nat), runs s p = true →
    let x := s.part p
    let dirty : Prop := (∃ e ∈ x.live.cores, ∃ l ∈ e.2.l1, l.2.cutDirty = true) ∨ (∃ m ∈ x.live.snoop, m.cut = true) ∨
      ∃ d ∈ x.live.dir, ∃ k, d.2.txn = some k ∧ k.cut = true
    (x.cut ≠ .saved ∨ dirty → exec (.cocoonCommit p) s = .next s) ∧
    (x.cut = .saved → ¬dirty →
      (∃ t, exec (.cocoonCommit p) s = .next t ∧ sameBytes s t ∧ (t.part p).cut = .none ∧ (t.part p).saved = x.pending ∧
        (t.part p).seq = x.seq + 1 ∧ (t.part p).undo = x.undoNew ∧ (t.part p).undoNew = [] ∧
        (t.part p).inbound = x.inboundNew ∧ (t.part p).egress = x.egressNew ∧ (t.part p).egressNew = [] ∧
        ∀ c n, t.slotAt p c n = s.slotAt p c n) ∧
      ∀ id st code task bs, x.egress = [.completion id st code task bs] → st < 256 → code < 256 → (s.vf x.vf).complQ = [] →
        ((s.vf x.vf).cqprod - (s.vf x.vf).cqcons).toNat < ringSize (s.vf x.vf).cqbase →
        ∃ t, exec (.cocoonCommit p) s = .next t ∧ (t.vf x.vf).cqprod = (s.vf x.vf).cqprod + 1 ∧
          let entry := ringAddr (s.vf x.vf).cqbase 16 (s.vf x.vf).cqprod.toNat
          hostField t entry 4 = id.toNat ∧ hostField t (entry + 4) 1 = st ∧ hostField t (entry + 5) 1 = code ∧
            hostField t (entry + 6) 2 = 0 ∧ hostField t (entry + 8) 8 = task.toNat ∧
            Interrupt.completion ∈ (t.vf x.vf).interrupts)

/-- R331, R332, R333, R370, R378, R381: a cut and its commit. -/
def Obligations.Cocoons : Prop := Claims.CocoonCuts ∧ Claims.CocoonCommits

/-- R336, R337, R334, R384: a rollback puts the partition back to its latest committed cocoon and undoes its writes of memory, line by
line; the second supervisor double fault before a commit discards the partition. -/
def Obligations.Rollbacks : Prop :=
  let hostless (l : PLive) : Prop := (∀ e ∈ l.chans, e.2.2.byHost = false) ∧ (∀ e ∈ l.delivered, e.byHost = false) ∧
    ∀ e ∈ l.resps, e.1.byHost = false
  ∀ (s : State) (p : Nat) (x : Part), mfind? s.parts p = some x →
    (x.doubleFaults < 2 → ∃ t, exec (.rollback p) s = .next t ∧ (t.part p).seq = x.seq ∧ (t.part p).stopped = false ∧
      (t.part p).cut = .none ∧ (t.part p).tlb = [] ∧ (t.part p).undo = [] ∧ (t.part p).undoNew = [] ∧
      (t.part p).saved = x.saved ∧ (x.newLaunches = [] → hostless x.saved → hostless x.live → (t.part p).live = x.saved) ∧
      (∀ c, t.coreAt p c = mget {} x.saved.cores c) ∧
      (x.undo = [] → x.undoNew = [] → x.inbound = [] → x.inboundNew = [] → ∀ a, memByte t a = memByte s a) ∧
      ∀ line data, x.undo = [(line, data)] → x.undoNew = [] → x.inbound = [] → x.inboundNew = [] → data.length = 128 →
        ∀ a, memByte t a = if a / 128 = line then data.getD (a % 128) 0 else memByte s a) ∧
    (2 ≤ x.doubleFaults → ∃ t, exec (.rollback p) s = .next t ∧ mfind? t.parts p = none)

/-! ### Scheduling, launches, migration -/

/-- R382, R383, R384, R337, R395: the end of a quantum begins the closing cut, after the commit of one whose state is recorded
already, and once it has committed deschedules the tenant, which rolls back first where its closing cut cannot commit; the
window's end and an urgent pre-emption begin the next tenant; a failed cluster takes a spare of its die and rolls its
partitions back; with no spare left its node shrinks to the half without it, and its tenants with it, or, where it is the node,
they are discarded; a cluster of no node is retired. Wherever a partition rolls back after its second supervisor double fault it is
discarded (R384). -/
def Obligations.Scheduling : Prop :=
  (∀ (s : State) (i p : Nat) (n : Node) (x : Part), s.halted = false → s.nodes[i]? = some n → n.window = false →
    n.retired = false → 1 < n.tenants.length → n.tenants[n.running]? = some p → mfind? s.parts p = some x →
    (n.closing = none → ∃ t, exec (.quantumEnd i) s = .next t ∧ sameBytes s t ∧ (t.part p).cut ≠ .none ∧
      t.nodes[i]? = some { n with closing := some (x.seq + if x.cut = .saved then 2 else 1) }) ∧
    ∀ k, n.closing = some k →
      ((x.seq - k).toNat < 2 ^ 31 → ∃ t, exec (.quantumEnd i) s = .next t ∧ sameBytes s t ∧
        t.part p = { x with scheduled := false } ∧ t.nodes[i]? = some { n with window := true, closing := none }) ∧
      (2 ^ 31 ≤ (x.seq - k).toNat → x.cut = .none → ∃ t, exec (.quantumEnd i) s = .next t ∧ sameBytes s t ∧
        (t.part p).cut = .stopping ∧ t.nodes = s.nodes) ∧
      (2 ^ 31 ≤ (x.seq - k).toNat → x.cut ≠ .none → ∃ t, exec (.quantumEnd i) s = .next t ∧
        (if x.doubleFaults < 2 then (t.part p).scheduled = false ∧ ∀ c, t.coreAt p c = mget {} x.saved.cores c
         else mfind? t.parts p = none) ∧
        t.nodes[i]? = some { n with window := true, closing := none })) ∧
  (∀ (s : State) (i q : Nat) (n : Node) (x : Part), s.halted = false → s.nodes[i]? = some n → n.window = true →
    n.running + 1 < n.tenants.length → n.tenants[n.running + 1]? = some q → mfind? s.parts q = some x →
    ∃ t, exec (.switchWindowEnd i) s = .next t ∧ sameBytes s t ∧ t.part q = { x with scheduled := true } ∧
      t.nodes[i]? = some { n with running := n.running + 1, window := false, closing := none }) ∧
  (∀ (s : State) (i p q : Nat) (n : Node), runs s p = true → nodeOf s p = some i → s.nodes[i]? = some n → p ≠ q →
    n.running + 1 < n.tenants.length → n.tenants[n.running + 1]? = some q → (mfind? s.parts q).isSome = true →
    ∃ t, exec (.urgentPreemption p) s = .next t ∧ (t.part q).scheduled = true ∧
      ((s.part p).doubleFaults < 2 → (t.part p).scheduled = false ∧ (∀ c, t.coreAt p c = mget {} (s.part p).saved.cores c) ∧
        t.nodes[i]? = some { n with running := n.running + 1, window := false, closing := none }) ∧
      (2 ≤ (s.part p).doubleFaults → mfind? t.parts p = none)) ∧
  ∀ (s : State) (p cl : Nat), cl % 8192 < 2 ^ chipLog2 s.variant →
    let die := cl / 512
    let left := mget 16 s.spares die
    let gone : Node := { first := cl, log2 := 0, retired := true }
    let at_ := s.nodes.findIdx? fun n => (nodeClusters s.variant n.first n.log2).contains cl
    let calm (q : Nat) : Prop := ∀ x, mfind? s.parts q = some x → x.doubleFaults < 2
    (0 < left → ∃ t, exec (.clusterFailure p cl) s = .next t ∧ mget 16 t.spares die = left - 1 ∧
      ((∀ q x, mfind? s.parts q = some x → x.clusters.contains cl = true → x.doubleFaults < 2) → t.nodes = s.nodes) ∧
      (∀ q x, mfind? s.parts q = some x → x.clusters.contains cl = true →
        (x.doubleFaults < 2 → ∀ c, t.coreAt q c = mget {} x.saved.cores c) ∧
        (2 ≤ x.doubleFaults → mfind? t.parts q = none)) ∧
      (left = 1 → t.replace = true)) ∧
    (left = 0 → at_ = none → ∃ t, exec (.clusterFailure p cl) s = .next t ∧ sameBytes s t ∧ t.parts = s.parts ∧
      t.nodes = s.nodes ++ [gone]) ∧
    ∀ i n, left = 0 → at_ = some i → s.nodes[i]? = some n →
      (n.retired = true → exec (.clusterFailure p cl) s = .next s) ∧
      (n.retired = false → n.log2 = 0 → ∃ t, exec (.clusterFailure p cl) s = .next t ∧
        (∀ q ∈ n.tenants ++ n.joining, mfind? t.parts q = none) ∧ t.nodes = s.nodes.eraseIdx i ++ [gone]) ∧
      ∀ first, n.retired = false → (∀ q ∈ n.tenants ++ n.joining, calm q) → otherHalf s.variant n cl = some first → ∃ t, exec (.clusterFailure p cl) s = .next t ∧
        (∀ q ∈ n.tenants ++ n.joining, (mfind? s.parts q).isSome = true →
          (t.part q).clusters = nodeClusters s.variant first (n.log2 - 1)) ∧
        t.nodes = s.nodes.set i { n with first := first, log2 := n.log2 - 1 } ++ [gone]

/-- R373 to R376, R379 to R381: the launch record that LQPROD covers is taken, and placed whole where it fits, one bind record for
each of its cores, or completed with STATUS 2 where it is malformed; a launch whose cores are quiet ends, frees them and
completes with STATUS 0. -/
def Claims.Launches : Prop :=
  (∀ (s : State) (p : Nat), runs s p = true →
    let x := s.part p
    let f := s.vf x.vf
    let bs := bytesAt s.hostMem (ringAddr f.lqbase 128 f.lqcons.toNat) 128
    let r := readLaunch bs
    f.lqprod = f.lqcons + 1 → f.taken = [] → 0 < ringSize f.lqbase →
    (r.ok = false → x.cut ≠ .saved → egressRoom s p → ∃ t, exec (.launchPlacement p) s = .next t ∧ sameBytes s t ∧
      (t.vf x.vf).lqcons = f.lqprod ∧ (t.vf x.vf).taken = [] ∧
      (t.part p).egress = x.egress ++ [.completion r.launchId 2 0 r.taskBase bs]) ∧
    ∀ g ax hx y, r.ok = true → fitAll x { f with lqcons := f.lqprod, taken := [bs] } false r = some g → r.htab = 0 →
      launchBlocks x r [] = some (ax, hx, y) →
      ∃ t j, exec (.launchPlacement p) s = .next t ∧ sameBytes s t ∧ (t.vf x.vf).lqcons = f.lqprod ∧
        (t.vf x.vf).taken = [] ∧ (t.part p).live.launches = x.live.launches ++ [j] ∧ j.launchId = r.launchId ∧
        j.cores = g.taken ∧ j.started = false ∧
        (t.part p).records.length = x.records.length + (g.teams.map fun k => 2 ^ k.2.2).sum ∧
        ∀ b ∈ (t.part p).records, b ∈ x.records ∨ b.pc = r.entry ∧ b.slot = 0 ∧ b.launch = some j.id ∧
          b.csw = r.csw ∧ b.prio = r.prio ∧ b.task = r.taskBase + BitVec.ofNat 64 (g.taken.countP (· < b.core)) ∧
          argBlock (t.part p) b.argIx = r.args) ∧
  ∀ (s : State) (p id : Nat) (j : Launch), runs s p = true → (s.part p).live.launches.find? (fun j => j.id == id) = some j →
    (j.started = true → j.error = none → (∀ c ∈ j.cores, coreQuiet s p c) → (s.part p).cut ≠ .saved → egressRoom s p →
      ∃ t, exec (.launchEnd p id) s = .next t ∧ sameBytes s t ∧ (∀ k ∈ (t.part p).live.launches, k.id ≠ id) ∧
        (∀ c, (s.coreAt p c).launch = some id → (t.coreAt p c).launch = none ∧ (t.coreAt p c).binds = []) ∧
        (t.part p).egress = (s.part p).egress ++ [.completion j.launchId 0 0 j.taskBase []]) ∧
    (j.started = false ∨ (∃ c ∈ j.cores, ¬coreQuiet s p c) → exec (.launchEnd p id) s = .next s)

/-- R356, R358: MIGPA's GO is refused with its REASON, or takes the page and the destination and makes the migration busy. Run, the
migration begins at the page's leaf. -/
def Claims.MigrationStarts : Prop :=
  (∀ (s : State) (v : Nat) (w : Word), s.boot.passed = true → v = 0 ∨ (s.vf v).enabled = true → w.getLsbD 0 = true →
    let u := updVf s v fun f => { f with migpa := w &&& 0x0000FFFFFFFF0000 }
    let p := (s.parts.find? fun e => e.2.vf == v && e.2.scheduled).map (·.1)
    (∀ r, migRefusal u v p = some r → ∃ t, exec (.migrationGo v w) s = .next t ∧ sameBytes s t ∧ (t.vf v).migState = 3 ∧
      (t.vf v).migReason = r ∧ t.parts = s.parts) ∧
    (p = none → migRefusal u v p = some 1) ∧
    ∀ q, p = some q → migRefusal u v p = none → ∃ t, exec (.migrationGo v w) s = .next t ∧ sameBytes s t ∧
      (t.vf v).migState = 1 ∧ (t.part q).migWait = true ∧
      (t.part q).migReq = some ((s.vf v).migva.toNat / 65536 % 2 ^ 39, w.toNat / 65536 % 2 ^ 32 * 65536)) ∧
  ∀ (s : State) (p page npa : Nat), runs s p = true → (s.part p).mig = none → (s.part p).migReq = some (page, npa) →
    ((s.part p).migReady = false → exec (.migrationRun p) s = .next s) ∧
    ∀ w, (s.part p).migReady = true → translate s p (65536 * page) = .ok w →
      ∃ t, exec (.migrationRun p) s = .next t ∧ sameBytes s t ∧ (t.part p).migReady = false ∧
        (t.part p).mig = some { page := page, opa := w.pa / 65536 * 65536, npa := npa, at_ := w.at_ }

/-- R356, R357, R298: the migration takes its page's lines one after another: it locks one, and once no transaction and no message
of the line is under way it recalls the copies, copies the line and unlocks it. After the last it writes the leaf with the
destination, other bits as they then are, and drops cached translations of the page; and once every access accepted under the old
translation is performed its done state is held until the next commit. -/
def Claims.MigrationLines : Prop :=
  ∀ (s : State) (p : Nat) (g : Mig), runs s p = true → (s.part p).mig = some g → g.opa % 65536 = 0 → g.npa % 65536 = 0 →
    g.npa < 2 ^ 48 → g.opa ≠ g.npa →
    let line := 512 * g.page + g.moved
    (g.moved < 512 → g.locked = false → ∃ t, exec (.migrationRun p) s = .next t ∧ sameBytes s t ∧
      lineLocked t p line = true ∧ (t.part p).mig = some { g with locked := true }) ∧
    (g.moved < 512 → g.locked = true → lineBusy s p line = true → exec (.migrationRun p) s = .next s) ∧
    (let held := dirtyCopy (s.part p).live line
     let data := held.elim (physRead s (g.opa + 128 * g.moved) 128) (·.1)
     g.moved < 512 → g.locked = true → lineBusy s p line = false → logRoom s p →
     (∀ d, held = some d → d.1.length = 128 ∧ (dirOf (s.part p).live line).pa = g.opa + 128 * g.moved) →
     ∃ t, exec (.migrationRun p) s = .next t ∧ lineLocked t p line = false ∧ lineHeld (t.part p).live line = false ∧
       (t.part p).mig = some { g with locked := false, moved := g.moved + 1 } ∧
       (∀ i < 128, memByte t (g.npa + 128 * g.moved + i) = data.getD i 0 ∧ memByte t (g.opa + 128 * g.moved + i) = data.getD i 0) ∧
       ∀ a, a / 128 ≠ (g.npa + 128 * g.moved) / 128 → a / 128 ≠ (g.opa + 128 * g.moved) / 128 → memByte t a = memByte s a) ∧
    (g.moved = 512 → g.mark = none → logRoom s p → ∃ t, exec (.migrationRun p) s = .next t ∧
      (physRead64 t g.at_).toNat / 2 ^ 16 % 2 ^ 32 = g.npa / 65536 ∧
      (∀ i, i < 16 ∨ 48 ≤ i → (physRead64 t g.at_).getLsbD i = (physRead64 s g.at_).getLsbD i) ∧
      (∀ a, a < g.at_ ∨ g.at_ + 8 ≤ a → memByte t a = memByte s a) ∧
      (∀ e ∈ (t.part p).tlb, e.inRange (65536 * g.page) 65536 = false) ∧ (t.part p).mig = some { g with mark := some s.nextId }) ∧
    ∀ m, g.moved = 512 → g.mark = some m →
      (migBehind (s.part p).live g m = true → exec (.migrationRun p) s = .next s) ∧
      (migBehind (s.part p).live g m = false → (s.part p).cut ≠ .saved → egressRoom s p →
        ∃ t, exec (.migrationRun p) s = .next t ∧ sameBytes s t ∧ (t.part p).mig = none ∧ (t.part p).migReq = none ∧
          (t.part p).egress = (s.part p).egress ++ [.migrationDone])

/-- R298, R356, R357, R358, R374 to R379: launches and page migrations. -/
def Obligations.LaunchesAndMigrations : Prop := Claims.Launches ∧ Claims.MigrationStarts ∧ Claims.MigrationLines

/-! ### The host and the platform -/

/-- R349, R350, R373, R381, R389, R390, R392: notify writes set their index where the ring admits it; a relaxed one is counted and
takes effect at once, another stays behind the function's posted writes; WAKEDB wakes a core of the function; a register write
changes its register alone, under its mask, and AFLAGS in the function's partitions; a write to a function that is not enabled is
answered with completer abort and does nothing else (R386). -/
def Claims.HostRegisters : Prop :=
  ∀ (s : State) (v : Nat) (w : Word) (relaxed : Bool),
    let f := s.vf v
    let open_ : Prop := s.boot.passed = true ∧ (v = 0 ∨ f.enabled = true)
    let i := w.setWidth 32
    let counted : BitVec 32 := if relaxed then f.ronotify + 1 else f.ronotify
    (open_ → relaxed = true ∨ postedBy s v = false →
      (∃ t, exec (.lqprod v w relaxed) s = .next t ∧ t.hostMem = s.hostMem ∧ t.parts = s.parts ∧
        t.vf v = { f with ronotify := counted,
                          lqprod := if (i - f.lqcons).toNat ≤ ringSize f.lqbase then i else f.lqprod }) ∧
      (∃ t, exec (.dlcons v w relaxed) s = .next t ∧ t.hostMem = s.hostMem ∧ t.parts = s.parts ∧
        t.vf v = { f with ronotify := counted,
                          dlcons := if (f.dlprod - i).toNat ≤ ringSize f.dlbase then i else f.dlcons }) ∧
      (heldCount s v = 0 → ∃ t, exec (.fbcons v w relaxed) s = .next t ∧ t.hostMem = s.hostMem ∧ t.parts = s.parts ∧
        t.vf v = { f with ronotify := counted,
                          fbcons := if (f.fbprod - i).toNat ≤ ringSize f.fbbase then i else f.fbcons }) ∧
      (f.complQ = [] → ∃ t, exec (.cqcons v w relaxed) s = .next t ∧ t.hostMem = s.hostMem ∧ t.parts = s.parts ∧
        t.vf v = { f with ronotify := counted, cqcons := i }) ∧
      (∃ t, exec (.wakedb v w relaxed) s = .next t ∧ t.hostMem = s.hostMem ∧ (t.vf v).ronotify = counted ∧
        (∀ p x, mfind? s.parts p = some x →
          let c := w.toNat % 2 ^ 20 + w.toNat / 2 ^ 20 % 2 ^ 11 * 2 ^ 20
          (x.vf = v → x.hasCore c = true → (t.coreAt p c).tpWake = true) ∧
          ∀ d, x.vf ≠ v ∨ d ≠ c → t.coreAt p d = s.coreAt p d))) ∧
    (open_ → relaxed = false → postedBy s v = true →
      ∀ e ∈ [(Instr.lqprod v w false, 0x212), (.fbcons v w false, 0x207), (.dlcons v w false, 0x20B), (.cqcons v w false, 0x216),
             (.wakedb v w false, 0x218)],
        exec e.1 s = .next { s with posted := s.posted ++ [(v, .notify e.2 w)] }) ∧
    (open_ → ∀ num < 0x1000, num ≠ 0x21B → ∃ t, exec (.registerWrite v num w) s = .next t ∧ t.hostMem = s.hostMem ∧ sameBytes s t ∧
        (∀ k, k ≠ num → num = 0x118 ∧ k = 0x208 ∨ regRead t v k = regRead s v k) ∧
        (num = 0x118 → ∀ p x, mfind? s.parts p = some x → x.vf = v → ∀ n < 5,
          (t.part p).live.aflags.getLsbD n = (x.live.aflags.getLsbD n && !w.getLsbD n)) ∧ (∀ u, u ≠ v → t.vf u = s.vf u) ∧
        (∀ e ∈ maskedWrites, num = e.1 → regRead t v num = some (w &&& e.2)) ∧
        (num = 0x20D → regRead t v num = some (if w.toNat % 2 ^ 16 = 0 then f.waymask.setWidth 64 else w &&& 0xFFFF)) ∧
        (∀ e ∈ ringBases, num = e.1 → ∃ r, regRead t v num = some r ∧ r.toNat / 64 = w.toNat / 64 ∧
          r.toNat % 64 = if 4 ≤ w.toNat % 32 ∧ w.toNat % 32 ≤ e.2 then w.toNat % 32 else 4) ∧
        (num ∈ hostReadOnly → t.vf v = s.vf v)) ∧
    (¬open_ →
      let aborted : State := if v = 0 then s else { s with hostResp := none }
      exec (.lqprod v w relaxed) s = .next aborted ∧ exec (.fbcons v w relaxed) s = .next aborted ∧
      exec (.dlcons v w relaxed) s = .next aborted ∧ exec (.cqcons v w relaxed) s = .next aborted ∧
      exec (.wakedb v w relaxed) s = .next aborted ∧ exec (.migrationGo v w) s = .next aborted ∧
      ∀ num < 0x1000, exec (.registerWrite v num w) s = .next aborted) ∧
    ∃ t, exec (.waymaskChangeEffect v) s = .next t ∧ sameBytes s t ∧ t.vf v = { f with wayEffect := f.waymask }

/-- R285, R343, R386: an access of the host to a partition's memory is cut into pieces of aligned 8-byte units, each posted as the
function's to its line's home; a read waits until what the function posted before it has been sent, and a write that cannot go
yet is held. A write is answered at once. One that translation refuses, or to no partition or a function that is not enabled,
is answered with completer abort and does nothing else. -/
def Claims.HostAccesses : Prop :=
  ∀ (s : State) (p : Nat),
    let x := s.part p
    let v := x.vf
    let open_ : Prop := (mfind? s.parts p).isSome = true ∧ s.boot.passed = true ∧ (v = 0 ∨ (s.vf v).enabled = true)
    let posts (t : State) (ps : List (Piece × Leaf)) (kind : Piece → AccKind) : Prop :=
      ∃ new, (t.part p).live.chans = x.live.chans ++ new ∧ new.length = ps.length ∧
        ∀ (i : Nat) n e, new[i]? = some n → ps[i]? = some e → n.1 = clusterOf n.2.2.core ∧ n.2.1 = .request ∧
          n.2.2.core = hostCore v ∧ n.2.2.act = s.nextId ∧ n.2.2.ea = e.1.at_ ∧ n.2.2.piece = e.1.pos ∧ n.2.2.leaf = e.2 ∧
          n.2.2.place = .home (homeOf x e.1.at_.toNat) ∧ n.2.2.kind = kind e.1
    (¬open_ → ∀ y, exec (.hostMemoryAccess p y) s = .next { s with hostResp := none }) ∧
    (∀ va len ps, open_ → 0 < len → va + len ≤ 2 ^ 55 → unsent s v = false → hostPieces s p va len .read = .ok ps →
      ∃ t, exec (.hostMemoryAccess p (.read va len)) s = .next t ∧ sameBytes s t ∧ t.hostResp = s.hostResp ∧
        t.hostReqs = s.hostReqs ++ [{ id := s.nextId, vf := v, part := p, read := true, va := va, len := len, left := ps.length }] ∧
        posts t ps fun e => .load e.len false) ∧
    (∀ va len, open_ → 0 < len → va + len ≤ 2 ^ 55 → unsent s v = true →
      exec (.hostMemoryAccess p (.read va len)) s = .next s) ∧
    (∀ va bs ps, open_ → bs ≠ [] → va + bs.length ≤ 2 ^ 55 → unsent s v = false → hostPieces s p va bs.length .write = .ok ps →
      ∃ t, exec (.hostMemoryAccess p (.write va bs)) s = .next t ∧ sameBytes s t ∧ t.hostResp = some [] ∧
        t.posted = (v, .sent s.nextId) :: s.posted ∧
        t.hostReqs = s.hostReqs ++ [{ id := s.nextId, vf := v, part := p, read := false, va := va, len := bs.length,
                                      left := ps.length }] ∧
        posts t ps fun e => .store ((bs.drop e.pos).take e.len)) ∧
    (∀ va bs, open_ → bs ≠ [] → va + bs.length ≤ 2 ^ 55 → unsent s v = true →
      exec (.hostMemoryAccess p (.write va bs)) s =
        .next { s with hostResp := some [], posted := s.posted ++ [(v, .mem p va bs)] }) ∧
    (∀ va len k, va % 8 + len ≤ 8 → 0 < len → va + len ≤ 2 ^ 55 → ∀ w win, checkAccess s p va k (translate s p va) = .ok (w, win) →
      ∃ e, hostPieces s p va len k = .ok [(e, migLeaf s p va (leafOf w))] ∧ e.at_.toNat = va ∧ e.pos = 0 ∧ e.len = len) ∧
    (∀ va bs r, open_ → bs ≠ [] →
      (va + bs.length ≤ 2 ^ 55 → unsent s v = false ∧ checkAccess s p va .write (translate s p va) = .error r ∧ r.wait = false) →
      ∃ t, exec (.hostMemoryAccess p (.write va bs)) s = .next t ∧ sameBytes s t ∧ t.hostResp = none ∧ t.parts = s.parts ∧
        t.posted = s.posted ∧ t.hostReqs = s.hostReqs) ∧
    ∀ va len r, open_ → 0 < len →
      (va + len ≤ 2 ^ 55 → unsent s v = false ∧ checkAccess s p va .read (translate s p va) = .error r ∧ r.wait = false) →
      exec (.hostMemoryAccess p (.read va len)) s = .next { s with hostResp := none }

/-- R285, R343, R334, R386: a home performs the host's store as an inbound write, once every copy of the line has left; the last
response of a read answers it with its bytes, or with completer abort where memory had an error; and the last one of a write
ends what stayed posted. A function's teardown leaves none of its partitions and none of its registers. -/
def Claims.HostAnswers : Prop :=
  (∀ (s : State) (p cl : Nat) (e : Acc) (bs : List Byte), runs s p = true → (s.part p).live.delivered = [e] →
    e.byHost = true → e.place = .home cl → cl < 2 ^ 24 → e.kind = .store bs → e.leaf.d = true →
    lineBusy s p (e.off / 128) = false → lineLocked s p (e.off / 128) = false → lineHeld (s.part p).live (e.off / 128) = false →
    watched (s.vf (s.part p).vf) e.off bs.length true false = false →
    ∃ t, exec (.perform p 0) s = .next t ∧ memWritten s t e.leaf.pa bs ∧ (t.part p).live.delivered = [] ∧
      (t.part p).live.resps = (s.part p).live.resps ++ [({ e with know := viewAt (s.part p).live.views e }, ({} : Answer))] ∧
      (t.part p).undo = (s.part p).undo) ∧
  (∀ (s : State) (p : Nat) (e : Acc) (a : Answer) (q : HostReq), runs s p = true → (s.part p).live.resps = [(e, a)] →
    e.byHost = true → s.hostReqs.find? (fun r => r.id == e.act) = some q → q.left = 1 →
    (q.read = true → q.got = [] → e.piece = 0 → e.kind = .load q.len false → 0 < q.len → q.len ≤ 8 →
      ∃ t, exec (.respReturn p 0) s = .next t ∧ sameBytes s t ∧ (t.part p).live.resps = [] ∧ (∀ r ∈ t.hostReqs, r.id ≠ q.id) ∧
        t.hostResp = if a.error then none else some (leBytes q.len a.v.toNat)) ∧
    (q.read = false → ∃ t, exec (.respReturn p 0) s = .next t ∧ sameBytes s t ∧ (∀ w ∈ t.posted, w.2 ≠ .sent q.id) ∧
      t.hostResp = s.hostResp)) ∧
  ∀ (s : State) (v : Nat), v ≠ 0 → ∃ t, exec (.vfTeardown v) s = .next t ∧
    (∀ p x, mfind? t.parts p = some x → x.vf ≠ v) ∧ t.vf v = {} ∧
    (∀ u, u ≠ v → t.vf u = s.vf u) ∧
    ∀ p x, mfind? s.parts p = some x → x.vf ≠ v → (mfind? t.parts p).isSome = true

/-- R285, R343, R349, R350, R373, R386, R389, R390: what the host writes and reads. -/
def Obligations.HostAccess : Prop := Claims.HostRegisters ∧ Claims.HostAccesses ∧ Claims.HostAnswers

/-- R391 to R394: a flit whose number comes next is delivered, or dropped and counted for its class; one whose CRC fails is dropped
for its sender to replay, another number brings nothing new; a flit acknowledges, returns credits, and one that waited for a credit
leaves with the next number and stays in the replay buffer (where a flit holds its acknowledgement and credits is log entry 82);
bring-up passes when every image does and
else stops at the first refused, in order; the mailbox loads an image, takes it in place of the one refused, or restarts;
a measurement answers each index of R393, and JTAG needs its record. -/
def Claims.BringUp : Prop :=
  (∀ (s : State) (port : Nat) (bs : List Byte), port < 16 → bs.length = 256 →
    let x := mget ({} : Port) s.ports port
    let good : Prop := (crc64 (bs.take 248)).toNat = leNat (bs.drop 248)
    let cls := (bs.getD 4 0).toNat
    let next : Prop := leNat ((bs.drop 5).take 3) = x.expect % 2 ^ 24
    let does (P : Port → Prop) : Prop := ∃ t, exec (.amisinFlit port bs) s = .next t ∧ sameBytes s t ∧ P (mget {} t.ports port) ∧
      ∀ k, k ≠ port → mget ({} : Port) t.ports k = mget {} s.ports k
    (¬good → x.waiting = [] → does fun y => y = { x with crcDropped := x.crcDropped + 1 }) ∧
    (good → x.waiting = [] → ¬next → does fun y => y.flits = x.flits ∧ y.dropped = x.dropped ∧ y.expect = x.expect ∧
      y.credits = x.credits) ∧
    (good → x.waiting = [] → next → does fun y => y.expect = x.expect + 1 ∧
      y.dropped = (if 3 < cls then x.dropped + 1 else x.dropped) ∧ y.flits = (if 3 < cls then x.flits else x.flits ++ [bs]) ∧
      (∀ c < 4, mget 0 y.credits c = mget 0 x.credits c + (bs.getD (11 + c) 0).toNat) ∧
      (cls ≤ 3 → mget 0 y.owed cls = mget 0 x.owed cls + 1)) ∧
    (∀ n, good → x.waiting = [] → x.ackOf (leNat ((bs.drop 8).take 3)) = some n →
      does fun y => y.replay = x.replay.filter (·.1 > n)) ∧
    ∀ dst c pay, ¬good → x.waiting = [(dst, c, pay)] → mget 0 x.credits c ≠ 0 → does fun y =>
      y.waiting = [] ∧ y.seq = x.seq + 1 ∧ mget 0 y.credits c = mget 0 x.credits c - 1 ∧
      y.replay = x.replay ++ [(x.seq, flitBytes dst s.chipId c (x.seq % 2 ^ 24) x.ackField pay)]) ∧
  (∀ (s : State) (fw rt : Image) (recs : List Image), ∃ t, exec (.bringUp fw rt recs) s = .next t ∧ t.parts = [] ∧ t.mem = [] ∧
    let floor := floorSaid s.boot.floor recs
    (t.boot.passed = true ↔ ∀ i ∈ fw :: rt :: recs, passes floor i) ∧
    t.boot.floor = (if t.boot.passed then floor else s.boot.floor) ∧
    (∀ f, t.boot.passed = true → recs.flatMap (·.fields) = [f] → carries t f) ∧
    (t.boot.passed = true → (∃ e ∈ t.spares, e.2 = 0) → t.replace = true) ∧
    (¬passes floor fw → t.boot.stage = 1) ∧ (passes floor fw → ¬passes floor rt → t.boot.stage = 2) ∧
    ∀ pre i post, recs = pre ++ i :: post → passes floor fw → passes floor rt → (∀ k ∈ pre, passes floor k) →
      ¬passes floor i → t.boot.stage = 3 ∧ t.boot.index = pre.length) ∧
  (∀ (s : State), s.boot.passed = false → s.boot.stage ≠ 0 →
    (s.boot.loading = false →
      (∃ t, exec .load s = .next t ∧ sameBytes s t ∧ t.parts = s.parts ∧
        if s.boot.raddr.toNat % 4096 = 0 ∧ 1 ≤ s.boot.rlen.toNat ∧ s.boot.rlen.toNat ≤ 0x4000000
        then t.boot.rstat = 1 ∧ t.boot.loading = true else t.boot.rstat = 3 ∧ t.boot.rreason = 4 ∧ t.boot.loading = false) ∧
      ∃ t, exec .restart s = .next t ∧ sameBytes s t ∧ t.boot.substitute = [] ∧
        (t.boot.passed = true ↔ ∀ i ∈ s.boot.firmware :: s.boot.runtime :: s.boot.recs,
          passes (floorSaid s.boot.floor s.boot.recs) i)) ∧
    (s.boot.loading = true → ∀ img,
      (¬passes (floorOfRecords s.boot) img → ∃ t, exec (.recoveryLoadDone img) s = .next t ∧ t.boot.rstat = 3 ∧ t.boot.loading = false ∧
        t.boot.stage = s.boot.stage ∧ t.boot.passed = false) ∧
      (passes (floorOfRecords s.boot) img → ∃ t, exec (.recoveryLoadDone img) s = .next t ∧ t.boot.loading = false ∧
        ∃ k ∈ t.boot.substitute, k.1 = s.boot.stage ∧ k.2.1 = s.boot.index ∧ k.2.2.version = img.version ∧
          k.2.2.bytes = bytesAt s.hostMem s.boot.raddr.toNat s.boot.rlen.toNat))) ∧
  (∀ (s : State) (i : Nat), (1 ≤ i → i ≤ 5 → ∃ t d, exec (.spdmRequest i) s = .next t ∧ sameBytes s t ∧ t.spdm = s.spdm ++ [d]) ∧
    (i = 0 ∨ 5 < i → exec (.spdmRequest i) s = .next s)) ∧
  ∀ (s : State) (rec : Image),
    let may : Prop := passes s.boot.floor rec ∧ RecField.debugEnable ∈ rec.fields
    (may → ∃ t, exec (.jtagAccess rec) s = .next t ∧ sameBytes s t ∧ t.jtag = s.jtag + 1) ∧
    (¬may → exec (.jtagAccess rec) s = .next s)

/-- R396: at 105 °C ALARM is set with its interrupt; at 115 °C every partition rolls back and the compute clocks stop, and no slot
issues then; the host clears HALTED only below 100 °C. -/
def Claims.Temperature : Prop :=
  ∀ (s : State) (c : BitVec 8),
    (105 ≤ c.toNat → ∃ t, exec (.thermalAlarm c) s = .next t ∧ sameBytes s t ∧ t.alarm = true ∧ t.junction = c ∧
      Interrupt.alarm ∈ t.pfInterrupts ∧ t.parts = s.parts) ∧
    (115 ≤ c.toNat → ∃ t, exec (.protectiveHalt c) s = .next t ∧ t.halted = true ∧ t.junction = c ∧
      (∀ p x, mfind? s.parts p = some x → (x.doubleFaults < 2 → ∀ k, t.coreAt p k = mget {} x.saved.cores k) ∧
        (2 ≤ x.doubleFaults → mfind? t.parts p = none)) ∧
      (∀ p, runs t p = false) ∧ ∀ a refetch stale, issueSlot t a refetch stale = .next t) ∧
    (∃ t, exec (.thermHaltedClear c) s = .next t ∧ sameBytes s t ∧ t.junction = c ∧
      (t.halted = true ↔ s.halted = true ∧ 100 ≤ c.toNat))

/-- R391 to R396: bring-up, flits, recovery, measurement, JTAG and the temperature. -/
def Obligations.PlatformEvents : Prop := Claims.BringUp ∧ Claims.Temperature

/-! ### The machine -/

/-- R15, R317, R349, R373, R389, R148, R168, R214: right after reset every register of those tables that has a reset value reads
it, timelines, VT and QTBL are 0, and every tile is empty with FAULT clear. -/
def Claims.ResetValues : Prop :=
  (∀ e ∈ resetValues, ∀ (a : At), privRead State.reset a 0 e.1 = some (BitVec.ofNat 64 e.2)) ∧
  ∀ p c : Nat, let k := State.reset.coreAt p c
    k.vt = 0 ∧ k.qtbl = 0 ∧ (∀ e, (getQ k e).assigned = 0 ∧ (getQ k e).completed = 0) ∧
      ∀ n, tileSt k n = .empty ∧ tileBad k n = false

/-- The memory of the machine right after reset has its canonical form. -/
def Claims.ResetMemoryWf : Prop := memoryWf State.reset

/-- R15, R148, R168, R214, R317, R349, R373, R389: the machine right after reset. -/
def Obligations.ResetState : Prop := Claims.ResetValues ∧ Claims.ResetMemoryWf

/-- Every step that goes on keeps the canonical form of memory and of host memory. -/
def Obligations.StepKeepsMemoryWf : Prop := keeps memoryWf

/-- R19, R77, R86: when the schedule lets a slot issue and its instruction's bytes can be fetched, the step is that instruction's: a
word that decodes and passes the checks of R86 runs as exec of what it decodes to, and a word that fails one takes the
first failed check's cause. What the step adds: the core's issue pointer, the early cuts of R335, the slots' states as their
conditions stand (R20), the patina trace. -/
def Obligations.StepRunsDecodedInstruction : Prop :=
  ∀ (s u : State) (rest : List Move) (a : At) (refetch stale : Bool) (bs : List Byte),
    s.moves = .issue a.p a.c a.n refetch stale :: rest →
    let v : State := { s with moves := rest, cur := a, stale := stale }
    mayIssue { s with moves := rest } a = true → v.me.report = none →
    fetchBytes (if refetch then dropInstr v a.p a.c v.me.pc else v) a.p a.c v.me.pc = .ok bs u →
    let w := wordOfBytes bs
    let settled (t : State) : State := patinaTrace s (settle (t.parts.foldl (fun t e => earlyCut t e.1) t))
    let stepped (t : State) : Prop :=
      step s = .next (settled { t with stale := false }) ∨ step s = .next (settled { countIssue t a w with stale := false })
    let absent : Prop := namesChisel w = true ∧ u.variant = .s16
    let barred : Prop := isPrivileged w = true ∧ u.cur.n ≠ 3
    let stops : Prop := breakpoint (u.vf u.myPart.vf) u.me = true
    (∀ i t, decode w = .ok i → ¬absent → ¬barred → ¬stops → exec i u = .next t → stepped t) ∧
    (decode w = .error .c01 → Here u → ∃ t, stepped t ∧ Trapped u t 0x01 0) ∧
    (decode w ≠ .error .c01 → absent → Here u → ∃ t, stepped t ∧ Trapped u t 0x03 0) ∧
    (decode w ≠ .error .c01 → ¬absent → barred → Here u → ∃ t, stepped t ∧ Trapped u t 0x04 0) ∧
    (decode w = .error .c02 → ¬absent → ¬barred → Here u → ∃ t, stepped t ∧ Trapped u t 0x02 0) ∧
    ∀ i, decode w = .ok i → ¬absent → ¬barred → stops → Here u →
      ∃ t, stepped t ∧ Trapped u t 0x30 (BitVec.allOnes 64)

/-- The words that the spec works out (03_encoding, 05_isa_memory, 06_isa_work, R328 and the programs), each with the
instruction that the spec says it is, and four of the words that it says are refused. -/
def Obligations.DecodeWords : Prop :=
  decode (threeWords 0x15140001 0x00002216 0) =
    .ok (.add ⟨⟨.pred 2 false, { delay := 1 }⟩, false, .s 20, .s 21, .s 22⟩) ∧
  decode (threeWords 0x02180420 0x02200700 0x40) = .ok (.ld ⟨{}, .i32, .acq, .cl, .s 24, .s 2, 64⟩) ∧
  decode (threeWords 0x15140011 0x22E00716 0) = .ok (.ffma ⟨{}, false, .rz, .s 20, .s 21, .s 22, .s 23⟩) ∧
  decode (threeWords 0x00000018 0x00001300 0xFFFFFFFD) = .ok (.br ⟨⟨.pred 3 true, {}⟩, 0xFFFFFFFD⟩) ∧
  decode (threeWords 0x14008029 0x03400715 8) = .ok (.amoAddNf ⟨{}, true, .rel, .die, .s 20, .s 21, 8⟩) ∧
  decode (threeWords 0x14160928 0x05000115 0) =
    .ok (.amoCas ⟨⟨.pred 1 false, {}⟩, false, .rlx, .sys, 22, .s 20, .s 21, 0⟩) ∧
  decode (threeWords 0x01170231 0x00000718 0x10) = .ok (.barArrivex ⟨{}, .s 23, .s 1, .s 24, 16⟩) ∧
  decode (threeWords 0x1400003C 0x03C00718 0xE) = .ok (.callat ⟨{}, .s 20, 24, .s 30, 14⟩) ∧
  decode (threeWords 0x15000044 0x03200716 0) = .ok (.ildS ⟨{}, .s 21, .s 22, .s 25⟩) ∧
  decode (threeWords 0x0504A064 0x20E00906 0) = .ok (.vfma ⟨⟨.eng 1 false, {}⟩, .f32, .rz, 4, 5, 6, 7⟩) ∧
  decode (threeWords 0x171A8902 0x00000700 1) = .ok (.andImm ⟨{}, true, .s 26, .s 23, 1⟩) ∧
  decode (threeWords 0x001400E0 0x00000700 0x501) = .ok (.movcRead ⟨{}, .s 20, 1, 0x101⟩) ∧
  decode (threeWords 0x000100E3 0x00000700 0) = .ok (.rearm ⟨{}, 1, 0⟩) ∧
  decode (threeWords 0x55140001 0x00002216 0) = .error .c02 ∧
  decode (threeWords 0x55180420 0x02A00700 0x40) = .error .c01 ∧
  decode (threeWords 0x14008029 0x03200715 8) = .error .c01 ∧
  decode (threeWords 0x1400003C 0x03C00718 0xF) = .error .c02

/-- R77 to R84: every well-formed instruction has a word, and the decoder reads it back with every operand. -/
def Claims.DecodeOfEncode : Prop :=
  ∀ i : Instr, i.wf = true → i.isAgent = false → ∃ w, encode i = some w ∧ decode w = .ok i

/-- R77 to R86: what the decoder accepts is a well-formed instruction, and the word it accepted is that instruction's one word. -/
def Claims.OneWordEach : Prop :=
  ∀ (w : IWord) (i : Instr), decode w = .ok i → i.wf = true ∧ i.isAgent = false ∧ encode i = some w

/-- R77 to R86: the decoder and the encoder are inverse to each other on well-formed instructions and accepted words. -/
def Obligations.DecodeEncode : Prop := Claims.DecodeOfEncode ∧ Claims.OneWordEach
end

