-- ==== Sys2Proof/Laws/Decode.lean ====
section
/-! SUPPORT. The lemmas by which the decoder reads back what the encoder wrote: a word is its fields and its fields are the
word (R78), the guard and hints of an encoded word (R81, R82), each operand's code (R79) and each enumeration's code (R84 and
the entries' own), and the ends of a concatenation and of a zero-extension at the widths the encoder uses. -/

namespace Sys2Proof.Laws

open Sys2Proof

theorem fields_assemble (f : Fields) : fields (assemble f) = f := by
  obtain ⟨op, fn, d, a, b, gidx, gneg, delay, yield, ra, rb, rsv, x, imm⟩ := f
  simp only [fields, assemble, Fields.mk.injEq]
  and_intros <;>
  · ext i hi
    simp only [BitVec.getElem_extractLsb', BitVec.getLsbD_append]
    repeat (first | rw [if_pos (by omega)] | rw [if_neg (by omega)])
    try simp [BitVec.getLsbD_eq_getElem, *]
    try (rw [BitVec.getLsbD_eq_getElem (by omega)]; congr 1; omega)
theorem extract_append_extract {n : Nat} (w : BitVec n) (s t k a : Nat) (h : t = s + a) :
    (w.extractLsb' t k ++ w.extractLsb' s a : BitVec (k + a)) = w.extractLsb' s (k + a) := by
  apply BitVec.eq_of_getLsbD_eq
  intro i hi
  simp only [BitVec.getLsbD_append, BitVec.getLsbD_extractLsb']
  split
  · rename_i h'; simp [h']; omega
  · rename_i h'; rw [decide_eq_true (show i - a < k by omega), decide_eq_true hi]; simp only [Bool.true_and]; congr 1; omega
theorem assemble_fields (w : IWord) : assemble (fields w) = w := by
  simp only [fields, assemble]
  rw [extract_append_extract w 53 64 32 11 rfl, extract_append_extract w 51 53 43 2 rfl,
    extract_append_extract w 50 51 45 1 rfl, extract_append_extract w 49 50 _ 1 rfl,
    extract_append_extract w 48 49 _ 1 rfl, extract_append_extract w 45 48 _ 3 rfl,
    extract_append_extract w 44 45 _ 1 rfl, extract_append_extract w 40 44 _ 4 rfl,
    extract_append_extract w 32 40 _ 8 rfl, extract_append_extract w 24 32 _ 8 rfl,
    extract_append_extract w 16 24 _ 8 rfl, extract_append_extract w 8 16 _ 8 rfl,
    extract_append_extract w 0 8 _ 8 rfl]
  simp
@[simp] theorem base_op (op fn : BitVec 8) (c : Ctl) : (base op fn c).op = op := by unfold base; split <;> rfl
@[simp] theorem base_fn (op fn : BitVec 8) (c : Ctl) : (base op fn c).fn = fn := by unfold base; split <;> rfl
@[simp] theorem base_d (op fn : BitVec 8) (c : Ctl) : (base op fn c).d = 0 := by unfold base; split <;> rfl
@[simp] theorem base_a (op fn : BitVec 8) (c : Ctl) : (base op fn c).a = 0 := by unfold base; split <;> rfl
@[simp] theorem base_b (op fn : BitVec 8) (c : Ctl) : (base op fn c).b = 0 := by unfold base; split <;> rfl
@[simp] theorem base_rsv (op fn : BitVec 8) (c : Ctl) : (base op fn c).rsv = 0 := by unfold base; split <;> rfl
@[simp] theorem base_x (op fn : BitVec 8) (c : Ctl) : (base op fn c).x = 0 := by unfold base; split <;> rfl
@[simp] theorem base_imm (op fn : BitVec 8) (c : Ctl) : (base op fn c).imm = 0 := by unfold base; split <;> rfl
@[simp] theorem eBit_one (b : Bool) : (eBit b == 1#1) = b := by cases b <;> rfl
theorem guard_lt : ∀ n : BitVec 3, n ≠ 7#3 → (n.setWidth 4).toNat < 7 := by decide
theorem guard_eng : ∀ n : BitVec 2, ¬(8#4 ||| n.setWidth 4).toNat < 7 ∧ (8#4 ||| n.setWidth 4 == 7#4) = false ∧
    (8#4 ||| n.setWidth 4).toNat < 12 ∧
    (8#4 ||| n.setWidth 4).setWidth 2 = n := by decide
theorem guard_w : ∀ n : BitVec 3, (n.setWidth 4).setWidth 3 = n := by decide
theorem ctl_base {e : Bool} {f : Fields} (op fn : BitVec 8) (c : Ctl) (hc : (if e then c.wfE else c.wf) = true)
    (h1 : f.gidx = (base op fn c).gidx) (h2 : f.gneg = (base op fn c).gneg)
    (h3 : f.delay = (base op fn c).delay) (h4 : f.yield = (base op fn c).yield)
    (h5 : f.ra = (base op fn c).ra) (h6 : f.rb = (base op fn c).rb) :
    ctl e f = some c := by
  obtain ⟨g, ⟨dl, y, ra, rb⟩⟩ := c
  unfold ctl hintsOf
  rw [h1, h2, h3, h4, h5, h6]
  cases g with
  | always => simp [base]
  | pred n g =>
    have hn : n ≠ 7#3 := by cases e <;> simpa [Ctl.wf, Ctl.wfE] using hc
    simp only [base, if_pos (guard_lt n hn), guard_w]; simp
  | eng n g =>
    obtain ⟨g1, g2, g3, g4⟩ := guard_eng n
    cases e with
    | false => simp [Ctl.wf] at hc
    | true => simp only [base, if_neg g1, if_pos g3, g4]; simp; simpa using g2
/-- The guard code of the control fields. -/
def guardIdx (c : Ctl) : BitVec 4 := (base 0 0 c).gidx
/-- The guard's negation bit. -/
def guardNeg (c : Ctl) : BitVec 1 := (base 0 0 c).gneg
@[simp] theorem base_gidx (op fn : BitVec 8) (c : Ctl) : (base op fn c).gidx = guardIdx c := by
  unfold guardIdx base; split <;> rfl
@[simp] theorem base_gneg (op fn : BitVec 8) (c : Ctl) : (base op fn c).gneg = guardNeg c := by
  unfold guardNeg base; split <;> rfl
@[simp] theorem base_delay (op fn : BitVec 8) (c : Ctl) : (base op fn c).delay = c.hints.delay := by
  unfold base; split <;> rfl
@[simp] theorem base_yield (op fn : BitVec 8) (c : Ctl) : (base op fn c).yield = eBit c.hints.yield := by
  unfold base; split <;> rfl
@[simp] theorem base_ra (op fn : BitVec 8) (c : Ctl) : (base op fn c).ra = eBit c.hints.reuseA := by
  unfold base; split <;> rfl
@[simp] theorem base_rb (op fn : BitVec 8) (c : Ctl) : (base op fn c).rb = eBit c.hints.reuseB := by
  unfold base; split <;> rfl
@[simp] theorem ctl_wf (c : Ctl) (hc : c.wf = true) (op fn d a b rsv x imm) : ctl false ⟨op, fn, d, a, b, guardIdx c, guardNeg c, c.hints.delay, eBit c.hints.yield,
    eBit c.hints.reuseA, eBit c.hints.reuseB, rsv, x, imm⟩ = some c := by
  apply ctl_base 0 0 c (by simpa using hc) <;> simp
@[simp] theorem ctl_wfE (c : Ctl) (hc : c.wfE = true) (op fn d a b rsv x imm) : ctl true ⟨op, fn, d, a, b, guardIdx c, guardNeg c, c.hints.delay, eBit c.hints.yield,
    eBit c.hints.reuseA, eBit c.hints.reuseB, rsv, x, imm⟩ = some c := by
  apply ctl_base 0 0 c (by simpa using hc) <;> simp
@[simp] theorem sop_eSop (o : SOp) : sop (eSop o) = some o := by
  cases o with
  | s n => revert n; decide
  | q n => revert n; decide
@[simp] theorem sreg_eq (n : SReg) : sreg (n.setWidth 8) = some n := by revert n; decide
@[simp] theorem preg_eq (n : PReg) : preg (n.setWidth 8) = some n := by revert n; decide
@[simp] theorem vreg_eq (n : VReg) : vreg (n.setWidth 8) = some n := by revert n; decide
@[simp] theorem ereg_eq (n : EReg) : ereg (n.setWidth 8) = some n := by revert n; decide
@[simp] theorem treg_eq (n : TReg) : treg (n.setWidth 8) = some n := by revert n; decide
@[simp] theorem areg_eq (n : AReg) : areg (n.setWidth 8) = some n := by revert n; decide
@[simp] theorem qreg_eq (n : QReg) : qreg (eQ n) = some n := by revert n; decide

@[simp] theorem extract_append_high {n m : Nat} (a : BitVec n) (b : BitVec m) : (a ++ b).extractLsb' m n = a := by
  apply BitVec.eq_of_getLsbD_eq; intro i hi; simp [BitVec.getLsbD_append]; intro; omega
@[simp] theorem extract_append_low {n m : Nat} (a : BitVec n) (b : BitVec m) : (a ++ b).extractLsb' 0 m = b := by
  apply BitVec.eq_of_getLsbD_eq; intro i hi; simp [BitVec.getLsbD_append, hi]
theorem decode_encode_of_fields {i : Instr} (h : ∃ F, encodeF i = some F ∧ decodeF F = .ok i) : ∃ w, encode i = some w ∧ decode w = .ok i := by
  obtain ⟨F, h1, h2⟩ := h
  exact ⟨assemble F, by simp [encode, h1], by rw [decode, fields_assemble, h2]⟩
@[simp] theorem tyOf_eq (t : Ty) : tyOf (eTy t) = some t := by cases t <;> rfl
@[simp] theorem efmt_eq (t : Efmt) : efmtOf (eEfmt t) = t := by cases t <;> rfl
@[simp] theorem rnd_eq (t : Rnd) : rndOf (eRnd t) = some t := by cases t <;> rfl
@[simp] theorem ord_eq (t : Ord) : ordOf (eOrd t) = some t := by cases t <;> rfl
@[simp] theorem scope_eq (t : Scope) : scopeOf (eScope t) = some t := by cases t <;> rfl
@[simp] theorem width_eq (t : Width) : widthOf (eWidth t) = some t := by cases t <;> rfl
@[simp] theorem icond_eq (t : ICond) : icondOf (eICond t) = some t := by cases t <;> rfl
@[simp] theorem fcond_eq (t : FCond) : fcondOf (eFCond t) = some t := by cases t <;> rfl
@[simp] theorem eng_eq (t : Eng) : engOf (eEng t) = some t := by cases t <;> rfl
@[simp] theorem level_eq (t : Level) : levelOf (eLevel t) = some t := by cases t <;> rfl
@[simp] theorem red_eq (t : Red) : redOf (eRed t) = t := by cases t <;> rfl
@[simp] theorem land_eq (t : Land) : landOf (eLand t) = some t := by cases t <;> rfl
@[simp] theorem redOp_eq (t : RedOp) : redOpOf (eRedOp t) = some t := by cases t <;> rfl
@[simp] theorem exh_1_7 (a : BitVec 1) (b : BitVec 7) : (a ++ b).extractLsb' 7 1 = a := extract_append_high a b
@[simp] theorem exl_1_7 (a : BitVec 1) (b : BitVec 7) : (a ++ b).extractLsb' 0 7 = b := extract_append_low a b
@[simp] theorem exh_4_4 (a : BitVec 4) (b : BitVec 4) : (a ++ b).extractLsb' 4 4 = a := extract_append_high a b
@[simp] theorem exl_4_4 (a : BitVec 4) (b : BitVec 4) : (a ++ b).extractLsb' 0 4 = b := extract_append_low a b
@[simp] theorem exh_1_3 (a : BitVec 1) (b : BitVec 3) : (a ++ b).extractLsb' 3 1 = a := extract_append_high a b
@[simp] theorem exl_1_3 (a : BitVec 1) (b : BitVec 3) : (a ++ b).extractLsb' 0 3 = b := extract_append_low a b
@[simp] theorem exh_3_8 (a : BitVec 3) (b : BitVec 8) : (a ++ b).extractLsb' 8 3 = a := extract_append_high a b
@[simp] theorem exl_3_8 (a : BitVec 3) (b : BitVec 8) : (a ++ b).extractLsb' 0 8 = b := extract_append_low a b
@[simp] theorem exh_5_3 (a : BitVec 5) (b : BitVec 3) : (a ++ b).extractLsb' 3 5 = a := extract_append_high a b
@[simp] theorem exl_5_3 (a : BitVec 5) (b : BitVec 3) : (a ++ b).extractLsb' 0 3 = b := extract_append_low a b
@[simp] theorem exh_8_3 (a : BitVec 8) (b : BitVec 3) : (a ++ b).extractLsb' 3 8 = a := extract_append_high a b
@[simp] theorem exl_8_3 (a : BitVec 8) (b : BitVec 3) : (a ++ b).extractLsb' 0 3 = b := extract_append_low a b
@[simp] theorem exh_2_1 (a : BitVec 2) (b : BitVec 1) : (a ++ b).extractLsb' 1 2 = a := extract_append_high a b
@[simp] theorem exl_2_1 (a : BitVec 2) (b : BitVec 1) : (a ++ b).extractLsb' 0 1 = b := extract_append_low a b
@[simp] theorem exh_3_2 (a : BitVec 3) (b : BitVec 2) : (a ++ b).extractLsb' 2 3 = a := extract_append_high a b
@[simp] theorem exl_3_2 (a : BitVec 3) (b : BitVec 2) : (a ++ b).extractLsb' 0 2 = b := extract_append_low a b
@[simp] theorem exh_5_2 (a : BitVec 5) (b : BitVec 2) : (a ++ b).extractLsb' 2 5 = a := extract_append_high a b
@[simp] theorem exl_5_2 (a : BitVec 5) (b : BitVec 2) : (a ++ b).extractLsb' 0 2 = b := extract_append_low a b
@[simp] theorem exh_7_1 (a : BitVec 7) (b : BitVec 1) : (a ++ b).extractLsb' 1 7 = a := extract_append_high a b
@[simp] theorem exl_7_1 (a : BitVec 7) (b : BitVec 1) : (a ++ b).extractLsb' 0 1 = b := extract_append_low a b
@[simp] theorem exh_5_5 (a : BitVec 5) (b : BitVec 5) : (a ++ b).extractLsb' 5 5 = a := extract_append_high a b
@[simp] theorem exl_5_5 (a : BitVec 5) (b : BitVec 5) : (a ++ b).extractLsb' 0 5 = b := extract_append_low a b
@[simp] theorem exh_3_1 (a : BitVec 3) (b : BitVec 1) : (a ++ b).extractLsb' 1 3 = a := extract_append_high a b
@[simp] theorem exl_3_1 (a : BitVec 3) (b : BitVec 1) : (a ++ b).extractLsb' 0 1 = b := extract_append_low a b
@[simp] theorem exh_4_3 (a : BitVec 4) (b : BitVec 3) : (a ++ b).extractLsb' 3 4 = a := extract_append_high a b
@[simp] theorem exl_4_3 (a : BitVec 4) (b : BitVec 3) : (a ++ b).extractLsb' 0 3 = b := extract_append_low a b
@[simp] theorem exh_7_4 (a : BitVec 7) (b : BitVec 4) : (a ++ b).extractLsb' 4 7 = a := extract_append_high a b
@[simp] theorem exl_7_4 (a : BitVec 7) (b : BitVec 4) : (a ++ b).extractLsb' 0 4 = b := extract_append_low a b
@[simp] theorem exh_11_4 (a : BitVec 11) (b : BitVec 4) : (a ++ b).extractLsb' 4 11 = a := extract_append_high a b
@[simp] theorem exl_11_4 (a : BitVec 11) (b : BitVec 4) : (a ++ b).extractLsb' 0 4 = b := extract_append_low a b
@[simp] theorem exh_7_13 (a : BitVec 7) (b : BitVec 13) : (a ++ b).extractLsb' 13 7 = a := extract_append_high a b
@[simp] theorem exl_7_13 (a : BitVec 7) (b : BitVec 13) : (a ++ b).extractLsb' 0 13 = b := extract_append_low a b
@[simp] theorem exh_1_1 (a : BitVec 1) (b : BitVec 1) : (a ++ b).extractLsb' 1 1 = a := extract_append_high a b
@[simp] theorem exl_1_1 (a : BitVec 1) (b : BitVec 1) : (a ++ b).extractLsb' 0 1 = b := extract_append_low a b
@[simp] theorem exh_2_2 (a : BitVec 2) (b : BitVec 2) : (a ++ b).extractLsb' 2 2 = a := extract_append_high a b
@[simp] theorem exl_2_2 (a : BitVec 2) (b : BitVec 2) : (a ++ b).extractLsb' 0 2 = b := extract_append_low a b
@[simp] theorem exh_8_8 (a : BitVec 8) (b : BitVec 8) : (a ++ b).extractLsb' 8 8 = a := extract_append_high a b
@[simp] theorem exl_8_8 (a : BitVec 8) (b : BitVec 8) : (a ++ b).extractLsb' 0 8 = b := extract_append_low a b
@[simp] theorem exh_2_10 (a : BitVec 2) (b : BitVec 10) : (a ++ b).extractLsb' 10 2 = a := extract_append_high a b
@[simp] theorem exl_2_10 (a : BitVec 2) (b : BitVec 10) : (a ++ b).extractLsb' 0 10 = b := extract_append_low a b
@[simp] theorem exh_1_2 (a : BitVec 1) (b : BitVec 2) : (a ++ b).extractLsb' 2 1 = a := extract_append_high a b
@[simp] theorem exl_1_2 (a : BitVec 1) (b : BitVec 2) : (a ++ b).extractLsb' 0 2 = b := extract_append_low a b
@[simp] theorem exh_3_10 (a : BitVec 3) (b : BitVec 10) : (a ++ b).extractLsb' 10 3 = a := extract_append_high a b
@[simp] theorem exl_3_10 (a : BitVec 3) (b : BitVec 10) : (a ++ b).extractLsb' 0 10 = b := extract_append_low a b
@[simp] theorem ctl_of_base (op fn) (c : Ctl) (hc : c.wf = true) : ctl false (base op fn c) = some c := by
  apply ctl_base 0 0 c (by simpa using hc) <;> simp
@[simp] theorem ctl_of_baseE (op fn) (c : Ctl) (hc : c.wfE = true) : ctl true (base op fn c) = some c := by
  apply ctl_base 0 0 c (by simpa using hc) <;> simp
@[simp] theorem gbase_setWidth (b : SReg) (h : groupBase b = true) : gbase (b.setWidth 8) = some b := by revert b; decide
@[simp] theorem preg7_setWidth (b : PReg) (h : ¬b = 7#3) : preg7 (b.setWidth 8) = some b := by revert b; decide
@[simp] theorem negCond_pad (b : BitVec 1) (c : BitVec 4) : ((b ++ 0#3) ++ c).extractLsb' 4 3 = 0#3 := by revert b c; decide
@[simp] theorem negCond_neg (b : BitVec 1) (c : BitVec 4) : ((b ++ 0#3) ++ c).extractLsb' 7 1 = b := by revert b c; decide
@[simp] theorem negCond_high (b : BitVec 1) (c : BitVec 4) : ((b ++ 0#3) ++ c).extractLsb' 3 4 = 0#4 ↔ c.extractLsb' 3 1 = 0#1 := by
  revert b c; decide
@[simp] theorem eFCond_high (c : FCond) : (eFCond c).extractLsb' 3 1 = 0#1 := by cases c <;> decide
@[simp] theorem eRnd_low (r : Rnd) : ((eRnd r).setWidth 11).extractLsb' 0 3 = eRnd r := by cases r <;> decide
@[simp] theorem eRnd_high (r : Rnd) : ((eRnd r).setWidth 11).extractLsb' 3 8 = 0#8 := by cases r <;> decide
@[simp] theorem order_scope (o s : BitVec 3) : ((0#5 ++ s) ++ o).extractLsb' 3 3 = s := by revert o s; decide
@[simp] theorem order_rsv (o s : BitVec 3) : ((0#5 ++ s) ++ o).extractLsb' 6 5 = 0#5 := by revert o s; decide
theorem extract_setWidth_low {n N : Nat} (x : BitVec n) (h : n ≤ N) : (x.setWidth N).extractLsb' 0 n = x := by
  apply BitVec.eq_of_getLsbD_eq; intro i hi; simp [hi]; intro; omega
theorem extract_setWidth_high {n N k : Nat} (x : BitVec n) : (x.setWidth N).extractLsb' n k = 0#k := by
  apply BitVec.eq_of_getLsbD_eq; intro i hi; simp
@[simp] theorem swl_1 (x : BitVec 1) : (x.setWidth 32).extractLsb' 0 1 = x := extract_setWidth_low x (by decide)
@[simp] theorem swh_1 (x : BitVec 1) : (x.setWidth 32).extractLsb' 1 31 = 0#31 := extract_setWidth_high x
@[simp] theorem swl_2 (x : BitVec 2) : (x.setWidth 32).extractLsb' 0 2 = x := extract_setWidth_low x (by decide)
@[simp] theorem swh_2 (x : BitVec 2) : (x.setWidth 32).extractLsb' 2 30 = 0#30 := extract_setWidth_high x
@[simp] theorem swl_3 (x : BitVec 3) : (x.setWidth 32).extractLsb' 0 3 = x := extract_setWidth_low x (by decide)
@[simp] theorem swh_3 (x : BitVec 3) : (x.setWidth 32).extractLsb' 3 29 = 0#29 := extract_setWidth_high x
@[simp] theorem swl_4 (x : BitVec 4) : (x.setWidth 32).extractLsb' 0 4 = x := extract_setWidth_low x (by decide)
@[simp] theorem swh_4 (x : BitVec 4) : (x.setWidth 32).extractLsb' 4 28 = 0#28 := extract_setWidth_high x
@[simp] theorem swl_5 (x : BitVec 5) : (x.setWidth 32).extractLsb' 0 5 = x := extract_setWidth_low x (by decide)
@[simp] theorem swh_5 (x : BitVec 5) : (x.setWidth 32).extractLsb' 5 27 = 0#27 := extract_setWidth_high x
@[simp] theorem swl_6 (x : BitVec 6) : (x.setWidth 32).extractLsb' 0 6 = x := extract_setWidth_low x (by decide)
@[simp] theorem swh_6 (x : BitVec 6) : (x.setWidth 32).extractLsb' 6 26 = 0#26 := extract_setWidth_high x
@[simp] theorem swl_7 (x : BitVec 7) : (x.setWidth 32).extractLsb' 0 7 = x := extract_setWidth_low x (by decide)
@[simp] theorem swh_7 (x : BitVec 7) : (x.setWidth 32).extractLsb' 7 25 = 0#25 := extract_setWidth_high x
@[simp] theorem swl_8 (x : BitVec 8) : (x.setWidth 32).extractLsb' 0 8 = x := extract_setWidth_low x (by decide)
@[simp] theorem swh_8 (x : BitVec 8) : (x.setWidth 32).extractLsb' 8 24 = 0#24 := extract_setWidth_high x
@[simp] theorem swl_9 (x : BitVec 9) : (x.setWidth 32).extractLsb' 0 9 = x := extract_setWidth_low x (by decide)
@[simp] theorem swh_9 (x : BitVec 9) : (x.setWidth 32).extractLsb' 9 23 = 0#23 := extract_setWidth_high x
@[simp] theorem swl_10 (x : BitVec 10) : (x.setWidth 32).extractLsb' 0 10 = x := extract_setWidth_low x (by decide)
@[simp] theorem swh_10 (x : BitVec 10) : (x.setWidth 32).extractLsb' 10 22 = 0#22 := extract_setWidth_high x
@[simp] theorem swl_11 (x : BitVec 11) : (x.setWidth 32).extractLsb' 0 11 = x := extract_setWidth_low x (by decide)
@[simp] theorem swh_11 (x : BitVec 11) : (x.setWidth 32).extractLsb' 11 21 = 0#21 := extract_setWidth_high x
@[simp] theorem swl_12 (x : BitVec 12) : (x.setWidth 32).extractLsb' 0 12 = x := extract_setWidth_low x (by decide)
@[simp] theorem swh_12 (x : BitVec 12) : (x.setWidth 32).extractLsb' 12 20 = 0#20 := extract_setWidth_high x
@[simp] theorem swl_13 (x : BitVec 13) : (x.setWidth 32).extractLsb' 0 13 = x := extract_setWidth_low x (by decide)
@[simp] theorem swh_13 (x : BitVec 13) : (x.setWidth 32).extractLsb' 13 19 = 0#19 := extract_setWidth_high x
@[simp] theorem swl_14 (x : BitVec 14) : (x.setWidth 32).extractLsb' 0 14 = x := extract_setWidth_low x (by decide)
@[simp] theorem swh_14 (x : BitVec 14) : (x.setWidth 32).extractLsb' 14 18 = 0#18 := extract_setWidth_high x
@[simp] theorem swl_15 (x : BitVec 15) : (x.setWidth 32).extractLsb' 0 15 = x := extract_setWidth_low x (by decide)
@[simp] theorem swh_15 (x : BitVec 15) : (x.setWidth 32).extractLsb' 15 17 = 0#17 := extract_setWidth_high x
@[simp] theorem swl_16 (x : BitVec 16) : (x.setWidth 32).extractLsb' 0 16 = x := extract_setWidth_low x (by decide)
@[simp] theorem swh_16 (x : BitVec 16) : (x.setWidth 32).extractLsb' 16 16 = 0#16 := extract_setWidth_high x
@[simp] theorem swl_17 (x : BitVec 17) : (x.setWidth 32).extractLsb' 0 17 = x := extract_setWidth_low x (by decide)
@[simp] theorem swh_17 (x : BitVec 17) : (x.setWidth 32).extractLsb' 17 15 = 0#15 := extract_setWidth_high x
@[simp] theorem swl_18 (x : BitVec 18) : (x.setWidth 32).extractLsb' 0 18 = x := extract_setWidth_low x (by decide)
@[simp] theorem swh_18 (x : BitVec 18) : (x.setWidth 32).extractLsb' 18 14 = 0#14 := extract_setWidth_high x
@[simp] theorem swl_19 (x : BitVec 19) : (x.setWidth 32).extractLsb' 0 19 = x := extract_setWidth_low x (by decide)
@[simp] theorem swh_19 (x : BitVec 19) : (x.setWidth 32).extractLsb' 19 13 = 0#13 := extract_setWidth_high x
@[simp] theorem swl_20 (x : BitVec 20) : (x.setWidth 32).extractLsb' 0 20 = x := extract_setWidth_low x (by decide)
@[simp] theorem swh_20 (x : BitVec 20) : (x.setWidth 32).extractLsb' 20 12 = 0#12 := extract_setWidth_high x
@[simp] theorem swl11_2 (x : BitVec 2) : (x.setWidth 11).extractLsb' 0 2 = x := extract_setWidth_low x (by decide)
@[simp] theorem swh11_2 (x : BitVec 2) : (x.setWidth 11).extractLsb' 2 9 = 0#9 := extract_setWidth_high x
@[simp] theorem swl11_4 (x : BitVec 4) : (x.setWidth 11).extractLsb' 0 4 = x := extract_setWidth_low x (by decide)
@[simp] theorem swh11_4 (x : BitVec 4) : (x.setWidth 11).extractLsb' 4 7 = 0#7 := extract_setWidth_high x

end Sys2Proof.Laws
end

