-- ==== Sys2Proof/Laws/Maps.lean ====
section
/-! SUPPORT. The laws of maps and of memory as bytes: reading after writing, and the canonical form of a memory. -/

namespace Sys2Proof.Machine

section Maps
variable {α : Type}

@[simp] theorem mget_nil (d : α) (n : Nat) : mget d [] n = d := rfl
@[simp] theorem mfind?_nil (n : Nat) : mfind? ([] : NMap α) n = none := rfl

theorem mget_eq_mfind? (d : α) (m : NMap α) (n : Nat) : mget d m n = (mfind? m n).getD d := by
  induction m with
  | nil => rfl
  | cons e m ih =>
    by_cases h : e.1 = n
    · simp [mget, mfind?, h]
    · simp [mget, mfind?, h, ih]

@[simp] theorem mfind?_mput (m : NMap α) (n k : Nat) (x : α) :
    mfind? (mput m n x) k = if n = k then some x else mfind? m k := by
  induction m with
  | nil => simp [mput, mfind?]
  | cons e m ih =>
    by_cases h : e.1 = n
    · subst h
      simp only [mput, if_true, mfind?]
      by_cases hk : e.1 = k <;> simp [hk]
    · by_cases h2 : n < e.1
      · simp only [mput, h, h2, if_true, if_false, mfind?]
      · simp only [mput, h, h2, if_false, mfind?, ih]
        by_cases hk : e.1 = k
        · have : n ≠ k := fun hn => h (hk.trans hn.symm)
          simp [hk, this]
        · simp [hk]

@[simp] theorem mfind?_mdel (m : NMap α) (n k : Nat) : mfind? (mdel m n) k = if n = k then none else mfind? m k := by
  induction m with
  | nil => simp [mdel]
  | cons e m ih =>
    by_cases h : e.1 = n
    · by_cases hk : n = k
      · simpa [mdel, h, hk] using ih
      · simp [mdel, mfind?, h, hk, ih]
    · by_cases hk : e.1 = k
      · have : n ≠ k := fun hn => h (hk.trans hn.symm)
        simp [mdel, mfind?, hk, this, this.symm]
      · simp [mdel, mfind?, h, hk, ih]

@[simp] theorem mfind?_mupd (m : NMap α) (n k : Nat) (f : α → α) :
    mfind? (mupd m n f) k = if n = k then (mfind? m k).map f else mfind? m k := by
  induction m with
  | nil => simp [mupd]
  | cons e m ih =>
    by_cases h : e.1 = n
    · subst h
      by_cases hk : e.1 = k <;> simp [mupd, mfind?, hk]
    · by_cases hk : e.1 = k
      · have : n ≠ k := fun hn => h (hk.trans hn.symm)
        simp [mupd, mfind?, hk, this, this.symm]
      · simp [mupd, mfind?, h, hk, ih]

@[simp] theorem mget_mput (d : α) (m : NMap α) (n k : Nat) (x : α) :
    mget d (mput m n x) k = if n = k then x else mget d m k := by
  simp only [mget_eq_mfind?, mfind?_mput]
  split <;> rfl

@[simp] theorem mget_mdel (d : α) (m : NMap α) (n k : Nat) :
    mget d (mdel m n) k = if n = k then d else mget d m k := by
  simp only [mget_eq_mfind?, mfind?_mdel]
  split <;> rfl

theorem mget_mupd (d : α) (m : NMap α) (n k : Nat) (f : α → α) (h : (mfind? m n).isSome) :
    mget d (mupd m n f) k = if n = k then f (mget d m k) else mget d m k := by
  simp only [mget_eq_mfind?, mfind?_mupd]
  split
  · rename_i hk
    subst hk
    obtain ⟨v, hv⟩ := Option.isSome_iff_exists.mp h
    simp [hv]
  · rfl

theorem mget_mupd_ne (d : α) (m : NMap α) (n k : Nat) (f : α → α) (h : n ≠ k) :
    mget d (mupd m n f) k = mget d m k := by
  simp [mget_eq_mfind?, h]

@[simp] theorem mget_mset [DecidableEq α] (d : α) (m : NMap α) (n k : Nat) (x : α) :
    mget d (mset d m n x) k = if n = k then x else mget d m k := by
  unfold mset
  split
  · rename_i hx
    simp [hx]
  · simp

theorem mupd_of_absent (m : NMap α) (n : Nat) (f : α → α) (h : mfind? m n = none) : mupd m n f = m := by
  induction m with
  | nil => rfl
  | cons e m ih =>
    by_cases he : e.1 = n
    · simp [mfind?, he] at h
    · simp only [mfind?, he, if_false] at h
      simp [mupd, he, ih h]

theorem mupd_mupd (m : NMap α) (n : Nat) (f g : α → α) : mupd (mupd m n f) n g = mupd m n (fun x => g (f x)) := by
  induction m with
  | nil => rfl
  | cons e m ih => by_cases he : e.1 = n <;> simp [mupd, he, ih]

/-- Two changes that agree on the listed value. -/
theorem mupd_congr (m : NMap α) (n : Nat) (f g : α → α) (h : ∀ x, mfind? m n = some x → f x = g x) :
    mupd m n f = mupd m n g := by
  induction m with
  | nil => rfl
  | cons e m ih =>
    by_cases he : e.1 = n
    · simp [mupd, he, h e.2 (by simp [mfind?, he])]
    · simp [mupd, he, ih fun x hx => h x (by simpa [mfind?, he] using hx)]

theorem mput_mput (m : NMap α) (n : Nat) (x y : α) : mput (mput m n x) n y = mput m n y := by
  induction m with
  | nil => simp [mput]
  | cons e m ih =>
    by_cases he : e.1 = n
    · simp [mput, he]
    · by_cases h2 : n < e.1
      · simp [mput, he, h2]
      · simp [mput, he, h2, ih]

/-! ### Sums over a map -/

/-- Only which keys are counted already matters. -/
theorem msum_congr (f : α → Nat) (m : NMap α) (s t : List Nat) (h : ∀ k, k ∈ s ↔ k ∈ t) : msum f s m = msum f t m := by
  induction m generalizing s t with
  | nil => rfl
  | cons e m ih =>
    have hk : s.contains e.1 = t.contains e.1 := by
      rw [Bool.eq_iff_iff]; simpa using h e.1
    rw [msum, msum, hk, ih (e.1 :: s) (e.1 :: t) fun k => by simp [h k]]

/-- A key counted already takes its value out of the sum. -/
theorem msum_cons (f : α → Nat) (m : NMap α) (s : List Nat) (c : Nat) (hc : c ∉ s) :
    msum f (c :: s) m + (mfind? m c).elim 0 f = msum f s m := by
  induction m generalizing s with
  | nil => rfl
  | cons e m ih =>
    by_cases he : e.1 = c
    · subst he
      rw [msum, msum, msum_congr f m (e.1 :: e.1 :: s) (e.1 :: s) fun k => by simp]
      simp [mfind?, hc, Nat.add_comm]
    · have := ih (e.1 :: s) (by simp [hc, Ne.symm he])
      rw [msum, msum, msum_congr f m (e.1 :: c :: s) (c :: e.1 :: s) fun k => by simp [or_left_comm]]
      simp only [List.contains_cons, he, mfind?, if_false, beq_eq_false_iff_ne.mpr he, Bool.false_or]
      omega

/-- Writing the value at a key that is counted already changes nothing. -/
theorem msum_mput_seen (f : α → Nat) (m : NMap α) (s : List Nat) (c : Nat) (v : α) (hc : c ∈ s) :
    msum f s (mput m c v) = msum f s m := by
  induction m generalizing s with
  | nil => simp [mput, msum, hc]
  | cons e m ih =>
    by_cases he : e.1 = c
    · subst he; simp [mput, msum, hc]
    · by_cases h2 : c < e.1
      · simp only [mput, he, h2, if_true, if_false]
        rw [msum, msum_congr f (e :: m) (c :: s) s fun k => by
          simp only [List.mem_cons, or_iff_right_iff_imp]; rintro rfl; exact hc]
        simp [hc]
      · simp only [mput, he, h2, if_false, msum]
        rw [ih (e.1 :: s) (by simp [hc])]

/-- Writing the value at a key replaces its share of the sum. -/
theorem msum_mput (f : α → Nat) (m : NMap α) (s : List Nat) (c : Nat) (v : α) (hc : c ∉ s) :
    msum f s (mput m c v) + (mfind? m c).elim 0 f = msum f s m + f v := by
  rw [← msum_cons f (mput m c v) s c hc, msum_mput_seen f m (c :: s) c v (by simp), mfind?_mput, if_pos rfl,
    ← msum_cons f m s c hc]
  simp only [Option.elim]
  omega

end Maps

/-! ### The canonical form of a memory -/

theorem wfFrom_weaken {lo lo' : Nat} (m : Bytes) (h : lo' ≤ lo) (hm : Memory.wfFrom lo m = true) :
    Memory.wfFrom lo' m = true := by
  cases m with
  | nil => rfl
  | cons e m =>
    simp only [Memory.wfFrom, Bool.and_eq_true, decide_eq_true_eq] at hm ⊢
    exact ⟨⟨by omega, hm.1.2⟩, hm.2⟩

theorem wfFrom_mdel (m : Bytes) (lo n : Nat) (hm : Memory.wfFrom lo m = true) : Memory.wfFrom lo (mdel m n) = true := by
  induction m generalizing lo with
  | nil => rfl
  | cons e m ih =>
    simp only [Memory.wfFrom, Bool.and_eq_true, decide_eq_true_eq] at hm
    by_cases he : e.1 = n
    · simp only [mdel, he, if_true]
      exact wfFrom_weaken _ (by omega) (ih (e.1 + 1) hm.2)
    · simp only [mdel, he, if_false, Memory.wfFrom, Bool.and_eq_true, decide_eq_true_eq]
      exact ⟨hm.1, ih _ hm.2⟩

theorem wfFrom_mput (m : Bytes) (lo n : Nat) (b : Byte) (hb : b ≠ 0) (hn : lo ≤ n) (hm : Memory.wfFrom lo m = true) :
    Memory.wfFrom lo (mput m n b) = true := by
  induction m generalizing lo with
  | nil => simpa [mput, Memory.wfFrom, hn] using hb
  | cons e m ih =>
    simp only [Memory.wfFrom, Bool.and_eq_true, decide_eq_true_eq] at hm
    by_cases he : e.1 = n
    · subst he
      simpa [mput, Memory.wfFrom, hn, hm.2] using hb
    · by_cases h2 : n < e.1
      · simp only [mput, he, h2, if_true, if_false, Memory.wfFrom, Bool.and_eq_true, decide_eq_true_eq]
        exact ⟨⟨hn, by simpa using hb⟩, ⟨⟨by omega, hm.1.2⟩, hm.2⟩⟩
      · simp only [mput, he, h2, if_false, Memory.wfFrom, Bool.and_eq_true, decide_eq_true_eq]
        exact ⟨hm.1, ih _ (by omega) hm.2⟩

/-- Writing a byte keeps the canonical form. -/
theorem wf_mset (m : Bytes) (n : Nat) (b : Byte) (hm : Memory.wf m = true) : Memory.wf (mset 0 m n b) = true := by
  unfold mset
  split
  · exact wfFrom_mdel m 0 n hm
  · rename_i hb
    exact wfFrom_mput m 0 n b hb (Nat.zero_le n) hm

/-- Writing bytes keeps the canonical form. -/
theorem wf_putBytes (bs : List Byte) (m : Bytes) (a : Nat) (hm : Memory.wf m = true) :
    Memory.wf (putBytes m a bs) = true := by
  induction bs generalizing m a with
  | nil => exact hm
  | cons b bs ih => exact ih _ _ (wf_mset m a b hm)

theorem wfFrom_filter (p : Host.Cell → Bool) (m : Bytes) (lo : Nat) (hm : Memory.wfFrom lo m = true) :
    Memory.wfFrom lo (m.filter p) = true := by
  induction m generalizing lo with
  | nil => rfl
  | cons e m ih =>
    simp only [Memory.wfFrom, Bool.and_eq_true, decide_eq_true_eq] at hm
    by_cases hp : p e
    · simp only [List.filter_cons, hp, if_true, Memory.wfFrom, Bool.and_eq_true, decide_eq_true_eq]
      exact ⟨hm.1, ih _ hm.2⟩
    · simp only [List.filter_cons, hp, Bool.false_eq_true, if_false]
      exact wfFrom_weaken _ (by omega) (ih _ hm.2)

/-- Dropping bytes keeps the canonical form. -/
theorem wf_filter (p : Host.Cell → Bool) (m : Bytes) (hm : Memory.wf m = true) : Memory.wf (m.filter p) = true :=
  wfFrom_filter p m 0 hm

/-! ### Bytes -/

theorem mget_putBytes_outside (bs : List Byte) (m : Bytes) (a k : Nat) (h : k < a ∨ a + bs.length ≤ k) :
    mget 0 (putBytes m a bs) k = mget 0 m k := by
  induction bs generalizing m a with
  | nil => rfl
  | cons b bs ih =>
    simp only [List.length_cons] at h
    rw [putBytes, ih _ _ (by omega), mget_mset, if_neg (by omega)]

theorem mget_putBytes_inside (bs : List Byte) (m : Bytes) (a i : Nat) (h : i < bs.length) :
    mget 0 (putBytes m a bs) (a + i) = bs[i] := by
  induction bs generalizing m a i with
  | nil => simp at h
  | cons b bs ih =>
    cases i with
    | zero => rw [putBytes, mget_putBytes_outside _ _ _ _ (by omega)]; simp
    | succ i =>
      have := ih (mset 0 m a b) (a + 1) i (by simpa using h)
      rw [putBytes]
      simpa [Nat.add_assoc, Nat.add_comm 1 i] using this

@[simp] theorem length_bytesAt (m : Bytes) (a n : Nat) : (bytesAt m a n).length = n := by
  induction n generalizing a with
  | zero => rfl
  | succ n ih => simp [bytesAt, ih]

/-- What was written is read back. -/
theorem bytesAt_putBytes (bs : List Byte) (m : Bytes) (a : Nat) : bytesAt (putBytes m a bs) a bs.length = bs := by
  have key : ∀ n i, i + n = bs.length → bytesAt (putBytes m a bs) (a + i) n = bs.drop i := by
    intro n
    induction n with
    | zero => intro i h; simp [bytesAt, List.drop_eq_nil_of_le (show bs.length ≤ i by omega)]
    | succ n ih =>
      intro i h
      have hi : i < bs.length := by omega
      rw [bytesAt, mget_putBytes_inside _ _ _ _ hi, List.drop_eq_getElem_cons hi, Nat.add_assoc, ih (i + 1) (by omega)]
  simpa using key bs.length 0 (by simp)

/-- Bytes elsewhere read as before. -/
theorem bytesAt_putBytes_outside (bs : List Byte) (m : Bytes) (a b n : Nat) (h : b + n ≤ a ∨ a + bs.length ≤ b) :
    bytesAt (putBytes m a bs) b n = bytesAt m b n := by
  induction n generalizing b with
  | zero => rfl
  | succ n ih => rw [bytesAt, bytesAt, mget_putBytes_outside _ _ _ _ (by omega), ih _ (by omega)]

@[simp] theorem length_leBytes (n v : Nat) : (leBytes n v).length = n := by
  induction n generalizing v with
  | zero => rfl
  | succ n ih => simp [leBytes, ih]

/-- The little-endian value of a value's low bytes. -/
theorem leNat_leBytes (n v : Nat) : leNat (leBytes n v) = v % 256 ^ n := by
  induction n generalizing v with
  | zero => simp [leBytes, leNat, Nat.mod_one]
  | succ n ih =>
    simp only [leBytes, leNat, BitVec.toNat_ofNat, ih]
    rw [show 256 ^ (n + 1) = 256 * 256 ^ n from Nat.pow_succ', Nat.mod_mul]

end Sys2Proof.Machine
end

