-- ==== Sys2Proof/Laws/State.lean ====
section
/-! SUPPORT. The laws of State under its updates: every field that an update leaves alone, and what the accessors read after
an update. -/

namespace Sys2Proof.Machine

/-! ### Fields that an update leaves alone -/

section Fields
variable (s : State)

@[simp] theorem updPart_variant (p : Nat) (f : Part → Part) : (updPart s p f).variant = s.variant := rfl
@[simp] theorem updPart_chipId (p : Nat) (f : Part → Part) : (updPart s p f).chipId = s.chipId := rfl
@[simp] theorem updPart_mem (p : Nat) (f : Part → Part) : (updPart s p f).mem = s.mem := rfl
@[simp] theorem updPart_hostMem (p : Nat) (f : Part → Part) : (updPart s p f).hostMem = s.hostMem := rfl
@[simp] theorem updPart_hostResp (p : Nat) (f : Part → Part) : (updPart s p f).hostResp = s.hostResp := rfl
@[simp] theorem updPart_hostReqs (p : Nat) (f : Part → Part) : (updPart s p f).hostReqs = s.hostReqs := rfl
@[simp] theorem updPart_memErrors (p : Nat) (f : Part → Part) : (updPart s p f).memErrors = s.memErrors := rfl
@[simp] theorem updPart_reliability (p : Nat) (f : Part → Part) : (updPart s p f).reliability = s.reliability := rfl
@[simp] theorem updPart_vfs (p : Nat) (f : Part → Part) : (updPart s p f).vfs = s.vfs := rfl
@[simp] theorem updPart_nodes (p : Nat) (f : Part → Part) : (updPart s p f).nodes = s.nodes := rfl
@[simp] theorem updPart_spares (p : Nat) (f : Part → Part) : (updPart s p f).spares = s.spares := rfl
@[simp] theorem updPart_spareMap (p : Nat) (f : Part → Part) : (updPart s p f).spareMap = s.spareMap := rfl
@[simp] theorem updPart_gated (p : Nat) (f : Part → Part) : (updPart s p f).gated = s.gated := rfl
@[simp] theorem updPart_refresh (p : Nat) (f : Part → Part) : (updPart s p f).refresh = s.refresh := rfl
@[simp] theorem updPart_posted (p : Nat) (f : Part → Part) : (updPart s p f).posted = s.posted := rfl
@[simp] theorem updPart_replace (p : Nat) (f : Part → Part) : (updPart s p f).replace = s.replace := rfl
@[simp] theorem updPart_junction (p : Nat) (f : Part → Part) : (updPart s p f).junction = s.junction := rfl
@[simp] theorem updPart_alarm (p : Nat) (f : Part → Part) : (updPart s p f).alarm = s.alarm := rfl
@[simp] theorem updPart_halted (p : Nat) (f : Part → Part) : (updPart s p f).halted = s.halted := rfl
@[simp] theorem updPart_map (p : Nat) (f : Part → Part) : (updPart s p f).map = s.map := rfl
@[simp] theorem updPart_tierSize (p : Nat) (f : Part → Part) : (updPart s p f).tierSize = s.tierSize := rfl
@[simp] theorem updPart_reserved (p : Nat) (f : Part → Part) : (updPart s p f).reserved = s.reserved := rfl
@[simp] theorem updPart_boot (p : Nat) (f : Part → Part) : (updPart s p f).boot = s.boot := rfl
@[simp] theorem updPart_ports (p : Nat) (f : Part → Part) : (updPart s p f).ports = s.ports := rfl
@[simp] theorem updPart_pfInterrupts (p : Nat) (f : Part → Part) : (updPart s p f).pfInterrupts = s.pfInterrupts := rfl
@[simp] theorem updPart_spdm (p : Nat) (f : Part → Part) : (updPart s p f).spdm = s.spdm := rfl
@[simp] theorem updPart_jtag (p : Nat) (f : Part → Part) : (updPart s p f).jtag = s.jtag := rfl
@[simp] theorem updPart_watch (p : Nat) (f : Part → Part) : (updPart s p f).watch = s.watch := rfl
@[simp] theorem updPart_moves (p : Nat) (f : Part → Part) : (updPart s p f).moves = s.moves := rfl
@[simp] theorem updPart_cur (p : Nat) (f : Part → Part) : (updPart s p f).cur = s.cur := rfl
@[simp] theorem updPart_stale (p : Nat) (f : Part → Part) : (updPart s p f).stale = s.stale := rfl
@[simp] theorem updPart_fresh (p : Nat) (f : Part → Part) : (updPart s p f).fresh = s.fresh := rfl
@[simp] theorem updPart_nextId (p : Nat) (f : Part → Part) : (updPart s p f).nextId = s.nextId := rfl

@[simp] theorem updLive_variant (p : Nat) (f : PLive → PLive) : (updLive s p f).variant = s.variant := rfl
@[simp] theorem updLive_chipId (p : Nat) (f : PLive → PLive) : (updLive s p f).chipId = s.chipId := rfl
@[simp] theorem updLive_mem (p : Nat) (f : PLive → PLive) : (updLive s p f).mem = s.mem := rfl
@[simp] theorem updLive_hostMem (p : Nat) (f : PLive → PLive) : (updLive s p f).hostMem = s.hostMem := rfl
@[simp] theorem updLive_hostResp (p : Nat) (f : PLive → PLive) : (updLive s p f).hostResp = s.hostResp := rfl
@[simp] theorem updLive_hostReqs (p : Nat) (f : PLive → PLive) : (updLive s p f).hostReqs = s.hostReqs := rfl
@[simp] theorem updLive_memErrors (p : Nat) (f : PLive → PLive) : (updLive s p f).memErrors = s.memErrors := rfl
@[simp] theorem updLive_reliability (p : Nat) (f : PLive → PLive) : (updLive s p f).reliability = s.reliability := rfl
@[simp] theorem updLive_vfs (p : Nat) (f : PLive → PLive) : (updLive s p f).vfs = s.vfs := rfl
@[simp] theorem updLive_nodes (p : Nat) (f : PLive → PLive) : (updLive s p f).nodes = s.nodes := rfl
@[simp] theorem updLive_spares (p : Nat) (f : PLive → PLive) : (updLive s p f).spares = s.spares := rfl
@[simp] theorem updLive_spareMap (p : Nat) (f : PLive → PLive) : (updLive s p f).spareMap = s.spareMap := rfl
@[simp] theorem updLive_gated (p : Nat) (f : PLive → PLive) : (updLive s p f).gated = s.gated := rfl
@[simp] theorem updLive_refresh (p : Nat) (f : PLive → PLive) : (updLive s p f).refresh = s.refresh := rfl
@[simp] theorem updLive_posted (p : Nat) (f : PLive → PLive) : (updLive s p f).posted = s.posted := rfl
@[simp] theorem updLive_replace (p : Nat) (f : PLive → PLive) : (updLive s p f).replace = s.replace := rfl
@[simp] theorem updLive_junction (p : Nat) (f : PLive → PLive) : (updLive s p f).junction = s.junction := rfl
@[simp] theorem updLive_alarm (p : Nat) (f : PLive → PLive) : (updLive s p f).alarm = s.alarm := rfl
@[simp] theorem updLive_halted (p : Nat) (f : PLive → PLive) : (updLive s p f).halted = s.halted := rfl
@[simp] theorem updLive_map (p : Nat) (f : PLive → PLive) : (updLive s p f).map = s.map := rfl
@[simp] theorem updLive_tierSize (p : Nat) (f : PLive → PLive) : (updLive s p f).tierSize = s.tierSize := rfl
@[simp] theorem updLive_reserved (p : Nat) (f : PLive → PLive) : (updLive s p f).reserved = s.reserved := rfl
@[simp] theorem updLive_boot (p : Nat) (f : PLive → PLive) : (updLive s p f).boot = s.boot := rfl
@[simp] theorem updLive_ports (p : Nat) (f : PLive → PLive) : (updLive s p f).ports = s.ports := rfl
@[simp] theorem updLive_pfInterrupts (p : Nat) (f : PLive → PLive) : (updLive s p f).pfInterrupts = s.pfInterrupts := rfl
@[simp] theorem updLive_spdm (p : Nat) (f : PLive → PLive) : (updLive s p f).spdm = s.spdm := rfl
@[simp] theorem updLive_jtag (p : Nat) (f : PLive → PLive) : (updLive s p f).jtag = s.jtag := rfl
@[simp] theorem updLive_watch (p : Nat) (f : PLive → PLive) : (updLive s p f).watch = s.watch := rfl
@[simp] theorem updLive_moves (p : Nat) (f : PLive → PLive) : (updLive s p f).moves = s.moves := rfl
@[simp] theorem updLive_cur (p : Nat) (f : PLive → PLive) : (updLive s p f).cur = s.cur := rfl
@[simp] theorem updLive_stale (p : Nat) (f : PLive → PLive) : (updLive s p f).stale = s.stale := rfl
@[simp] theorem updLive_fresh (p : Nat) (f : PLive → PLive) : (updLive s p f).fresh = s.fresh := rfl
@[simp] theorem updLive_nextId (p : Nat) (f : PLive → PLive) : (updLive s p f).nextId = s.nextId := rfl

@[simp] theorem updCore_variant (p c : Nat) (f : Core → Core) : (updCore s p c f).variant = s.variant := rfl
@[simp] theorem updCore_chipId (p c : Nat) (f : Core → Core) : (updCore s p c f).chipId = s.chipId := rfl
@[simp] theorem updCore_mem (p c : Nat) (f : Core → Core) : (updCore s p c f).mem = s.mem := rfl
@[simp] theorem updCore_hostMem (p c : Nat) (f : Core → Core) : (updCore s p c f).hostMem = s.hostMem := rfl
@[simp] theorem updCore_hostResp (p c : Nat) (f : Core → Core) : (updCore s p c f).hostResp = s.hostResp := rfl
@[simp] theorem updCore_hostReqs (p c : Nat) (f : Core → Core) : (updCore s p c f).hostReqs = s.hostReqs := rfl
@[simp] theorem updCore_memErrors (p c : Nat) (f : Core → Core) : (updCore s p c f).memErrors = s.memErrors := rfl
@[simp] theorem updCore_reliability (p c : Nat) (f : Core → Core) : (updCore s p c f).reliability = s.reliability := rfl
@[simp] theorem updCore_vfs (p c : Nat) (f : Core → Core) : (updCore s p c f).vfs = s.vfs := rfl
@[simp] theorem updCore_nodes (p c : Nat) (f : Core → Core) : (updCore s p c f).nodes = s.nodes := rfl
@[simp] theorem updCore_spares (p c : Nat) (f : Core → Core) : (updCore s p c f).spares = s.spares := rfl
@[simp] theorem updCore_spareMap (p c : Nat) (f : Core → Core) : (updCore s p c f).spareMap = s.spareMap := rfl
@[simp] theorem updCore_gated (p c : Nat) (f : Core → Core) : (updCore s p c f).gated = s.gated := rfl
@[simp] theorem updCore_refresh (p c : Nat) (f : Core → Core) : (updCore s p c f).refresh = s.refresh := rfl
@[simp] theorem updCore_posted (p c : Nat) (f : Core → Core) : (updCore s p c f).posted = s.posted := rfl
@[simp] theorem updCore_replace (p c : Nat) (f : Core → Core) : (updCore s p c f).replace = s.replace := rfl
@[simp] theorem updCore_junction (p c : Nat) (f : Core → Core) : (updCore s p c f).junction = s.junction := rfl
@[simp] theorem updCore_alarm (p c : Nat) (f : Core → Core) : (updCore s p c f).alarm = s.alarm := rfl
@[simp] theorem updCore_halted (p c : Nat) (f : Core → Core) : (updCore s p c f).halted = s.halted := rfl
@[simp] theorem updCore_map (p c : Nat) (f : Core → Core) : (updCore s p c f).map = s.map := rfl
@[simp] theorem updCore_tierSize (p c : Nat) (f : Core → Core) : (updCore s p c f).tierSize = s.tierSize := rfl
@[simp] theorem updCore_reserved (p c : Nat) (f : Core → Core) : (updCore s p c f).reserved = s.reserved := rfl
@[simp] theorem updCore_boot (p c : Nat) (f : Core → Core) : (updCore s p c f).boot = s.boot := rfl
@[simp] theorem updCore_ports (p c : Nat) (f : Core → Core) : (updCore s p c f).ports = s.ports := rfl
@[simp] theorem updCore_pfInterrupts (p c : Nat) (f : Core → Core) : (updCore s p c f).pfInterrupts = s.pfInterrupts := rfl
@[simp] theorem updCore_spdm (p c : Nat) (f : Core → Core) : (updCore s p c f).spdm = s.spdm := rfl
@[simp] theorem updCore_jtag (p c : Nat) (f : Core → Core) : (updCore s p c f).jtag = s.jtag := rfl
@[simp] theorem updCore_watch (p c : Nat) (f : Core → Core) : (updCore s p c f).watch = s.watch := rfl
@[simp] theorem updCore_moves (p c : Nat) (f : Core → Core) : (updCore s p c f).moves = s.moves := rfl
@[simp] theorem updCore_cur (p c : Nat) (f : Core → Core) : (updCore s p c f).cur = s.cur := rfl
@[simp] theorem updCore_stale (p c : Nat) (f : Core → Core) : (updCore s p c f).stale = s.stale := rfl
@[simp] theorem updCore_fresh (p c : Nat) (f : Core → Core) : (updCore s p c f).fresh = s.fresh := rfl
@[simp] theorem updCore_nextId (p c : Nat) (f : Core → Core) : (updCore s p c f).nextId = s.nextId := rfl

@[simp] theorem updSlot_variant (p c n : Nat) (f : Slot → Slot) : (updSlot s p c n f).variant = s.variant := rfl
@[simp] theorem updSlot_chipId (p c n : Nat) (f : Slot → Slot) : (updSlot s p c n f).chipId = s.chipId := rfl
@[simp] theorem updSlot_mem (p c n : Nat) (f : Slot → Slot) : (updSlot s p c n f).mem = s.mem := rfl
@[simp] theorem updSlot_hostMem (p c n : Nat) (f : Slot → Slot) : (updSlot s p c n f).hostMem = s.hostMem := rfl
@[simp] theorem updSlot_hostResp (p c n : Nat) (f : Slot → Slot) : (updSlot s p c n f).hostResp = s.hostResp := rfl
@[simp] theorem updSlot_hostReqs (p c n : Nat) (f : Slot → Slot) : (updSlot s p c n f).hostReqs = s.hostReqs := rfl
@[simp] theorem updSlot_memErrors (p c n : Nat) (f : Slot → Slot) : (updSlot s p c n f).memErrors = s.memErrors := rfl
@[simp] theorem updSlot_reliability (p c n : Nat) (f : Slot → Slot) : (updSlot s p c n f).reliability = s.reliability := rfl
@[simp] theorem updSlot_vfs (p c n : Nat) (f : Slot → Slot) : (updSlot s p c n f).vfs = s.vfs := rfl
@[simp] theorem updSlot_nodes (p c n : Nat) (f : Slot → Slot) : (updSlot s p c n f).nodes = s.nodes := rfl
@[simp] theorem updSlot_spares (p c n : Nat) (f : Slot → Slot) : (updSlot s p c n f).spares = s.spares := rfl
@[simp] theorem updSlot_spareMap (p c n : Nat) (f : Slot → Slot) : (updSlot s p c n f).spareMap = s.spareMap := rfl
@[simp] theorem updSlot_gated (p c n : Nat) (f : Slot → Slot) : (updSlot s p c n f).gated = s.gated := rfl
@[simp] theorem updSlot_refresh (p c n : Nat) (f : Slot → Slot) : (updSlot s p c n f).refresh = s.refresh := rfl
@[simp] theorem updSlot_posted (p c n : Nat) (f : Slot → Slot) : (updSlot s p c n f).posted = s.posted := rfl
@[simp] theorem updSlot_replace (p c n : Nat) (f : Slot → Slot) : (updSlot s p c n f).replace = s.replace := rfl
@[simp] theorem updSlot_junction (p c n : Nat) (f : Slot → Slot) : (updSlot s p c n f).junction = s.junction := rfl
@[simp] theorem updSlot_alarm (p c n : Nat) (f : Slot → Slot) : (updSlot s p c n f).alarm = s.alarm := rfl
@[simp] theorem updSlot_halted (p c n : Nat) (f : Slot → Slot) : (updSlot s p c n f).halted = s.halted := rfl
@[simp] theorem updSlot_map (p c n : Nat) (f : Slot → Slot) : (updSlot s p c n f).map = s.map := rfl
@[simp] theorem updSlot_tierSize (p c n : Nat) (f : Slot → Slot) : (updSlot s p c n f).tierSize = s.tierSize := rfl
@[simp] theorem updSlot_reserved (p c n : Nat) (f : Slot → Slot) : (updSlot s p c n f).reserved = s.reserved := rfl
@[simp] theorem updSlot_boot (p c n : Nat) (f : Slot → Slot) : (updSlot s p c n f).boot = s.boot := rfl
@[simp] theorem updSlot_ports (p c n : Nat) (f : Slot → Slot) : (updSlot s p c n f).ports = s.ports := rfl
@[simp] theorem updSlot_pfInterrupts (p c n : Nat) (f : Slot → Slot) : (updSlot s p c n f).pfInterrupts = s.pfInterrupts := rfl
@[simp] theorem updSlot_spdm (p c n : Nat) (f : Slot → Slot) : (updSlot s p c n f).spdm = s.spdm := rfl
@[simp] theorem updSlot_jtag (p c n : Nat) (f : Slot → Slot) : (updSlot s p c n f).jtag = s.jtag := rfl
@[simp] theorem updSlot_watch (p c n : Nat) (f : Slot → Slot) : (updSlot s p c n f).watch = s.watch := rfl
@[simp] theorem updSlot_moves (p c n : Nat) (f : Slot → Slot) : (updSlot s p c n f).moves = s.moves := rfl
@[simp] theorem updSlot_cur (p c n : Nat) (f : Slot → Slot) : (updSlot s p c n f).cur = s.cur := rfl
@[simp] theorem updSlot_stale (p c n : Nat) (f : Slot → Slot) : (updSlot s p c n f).stale = s.stale := rfl
@[simp] theorem updSlot_fresh (p c n : Nat) (f : Slot → Slot) : (updSlot s p c n f).fresh = s.fresh := rfl
@[simp] theorem updSlot_nextId (p c n : Nat) (f : Slot → Slot) : (updSlot s p c n f).nextId = s.nextId := rfl

@[simp] theorem updCluster_variant (p c : Nat) (f : Cluster → Cluster) : (updCluster s p c f).variant = s.variant := rfl
@[simp] theorem updCluster_chipId (p c : Nat) (f : Cluster → Cluster) : (updCluster s p c f).chipId = s.chipId := rfl
@[simp] theorem updCluster_mem (p c : Nat) (f : Cluster → Cluster) : (updCluster s p c f).mem = s.mem := rfl
@[simp] theorem updCluster_hostMem (p c : Nat) (f : Cluster → Cluster) : (updCluster s p c f).hostMem = s.hostMem := rfl
@[simp] theorem updCluster_hostResp (p c : Nat) (f : Cluster → Cluster) : (updCluster s p c f).hostResp = s.hostResp := rfl
@[simp] theorem updCluster_hostReqs (p c : Nat) (f : Cluster → Cluster) : (updCluster s p c f).hostReqs = s.hostReqs := rfl
@[simp] theorem updCluster_memErrors (p c : Nat) (f : Cluster → Cluster) : (updCluster s p c f).memErrors = s.memErrors := rfl
@[simp] theorem updCluster_reliability (p c : Nat) (f : Cluster → Cluster) : (updCluster s p c f).reliability = s.reliability := rfl
@[simp] theorem updCluster_vfs (p c : Nat) (f : Cluster → Cluster) : (updCluster s p c f).vfs = s.vfs := rfl
@[simp] theorem updCluster_nodes (p c : Nat) (f : Cluster → Cluster) : (updCluster s p c f).nodes = s.nodes := rfl
@[simp] theorem updCluster_spares (p c : Nat) (f : Cluster → Cluster) : (updCluster s p c f).spares = s.spares := rfl
@[simp] theorem updCluster_spareMap (p c : Nat) (f : Cluster → Cluster) : (updCluster s p c f).spareMap = s.spareMap := rfl
@[simp] theorem updCluster_gated (p c : Nat) (f : Cluster → Cluster) : (updCluster s p c f).gated = s.gated := rfl
@[simp] theorem updCluster_refresh (p c : Nat) (f : Cluster → Cluster) : (updCluster s p c f).refresh = s.refresh := rfl
@[simp] theorem updCluster_posted (p c : Nat) (f : Cluster → Cluster) : (updCluster s p c f).posted = s.posted := rfl
@[simp] theorem updCluster_replace (p c : Nat) (f : Cluster → Cluster) : (updCluster s p c f).replace = s.replace := rfl
@[simp] theorem updCluster_junction (p c : Nat) (f : Cluster → Cluster) : (updCluster s p c f).junction = s.junction := rfl
@[simp] theorem updCluster_alarm (p c : Nat) (f : Cluster → Cluster) : (updCluster s p c f).alarm = s.alarm := rfl
@[simp] theorem updCluster_halted (p c : Nat) (f : Cluster → Cluster) : (updCluster s p c f).halted = s.halted := rfl
@[simp] theorem updCluster_map (p c : Nat) (f : Cluster → Cluster) : (updCluster s p c f).map = s.map := rfl
@[simp] theorem updCluster_tierSize (p c : Nat) (f : Cluster → Cluster) : (updCluster s p c f).tierSize = s.tierSize := rfl
@[simp] theorem updCluster_reserved (p c : Nat) (f : Cluster → Cluster) : (updCluster s p c f).reserved = s.reserved := rfl
@[simp] theorem updCluster_boot (p c : Nat) (f : Cluster → Cluster) : (updCluster s p c f).boot = s.boot := rfl
@[simp] theorem updCluster_ports (p c : Nat) (f : Cluster → Cluster) : (updCluster s p c f).ports = s.ports := rfl
@[simp] theorem updCluster_pfInterrupts (p c : Nat) (f : Cluster → Cluster) : (updCluster s p c f).pfInterrupts = s.pfInterrupts := rfl
@[simp] theorem updCluster_spdm (p c : Nat) (f : Cluster → Cluster) : (updCluster s p c f).spdm = s.spdm := rfl
@[simp] theorem updCluster_jtag (p c : Nat) (f : Cluster → Cluster) : (updCluster s p c f).jtag = s.jtag := rfl
@[simp] theorem updCluster_watch (p c : Nat) (f : Cluster → Cluster) : (updCluster s p c f).watch = s.watch := rfl
@[simp] theorem updCluster_moves (p c : Nat) (f : Cluster → Cluster) : (updCluster s p c f).moves = s.moves := rfl
@[simp] theorem updCluster_cur (p c : Nat) (f : Cluster → Cluster) : (updCluster s p c f).cur = s.cur := rfl
@[simp] theorem updCluster_stale (p c : Nat) (f : Cluster → Cluster) : (updCluster s p c f).stale = s.stale := rfl
@[simp] theorem updCluster_fresh (p c : Nat) (f : Cluster → Cluster) : (updCluster s p c f).fresh = s.fresh := rfl
@[simp] theorem updCluster_nextId (p c : Nat) (f : Cluster → Cluster) : (updCluster s p c f).nextId = s.nextId := rfl

@[simp] theorem updOctet_variant (p o : Nat) (f : Octet → Octet) : (updOctet s p o f).variant = s.variant := rfl
@[simp] theorem updOctet_chipId (p o : Nat) (f : Octet → Octet) : (updOctet s p o f).chipId = s.chipId := rfl
@[simp] theorem updOctet_mem (p o : Nat) (f : Octet → Octet) : (updOctet s p o f).mem = s.mem := rfl
@[simp] theorem updOctet_hostMem (p o : Nat) (f : Octet → Octet) : (updOctet s p o f).hostMem = s.hostMem := rfl
@[simp] theorem updOctet_hostResp (p o : Nat) (f : Octet → Octet) : (updOctet s p o f).hostResp = s.hostResp := rfl
@[simp] theorem updOctet_hostReqs (p o : Nat) (f : Octet → Octet) : (updOctet s p o f).hostReqs = s.hostReqs := rfl
@[simp] theorem updOctet_memErrors (p o : Nat) (f : Octet → Octet) : (updOctet s p o f).memErrors = s.memErrors := rfl
@[simp] theorem updOctet_reliability (p o : Nat) (f : Octet → Octet) : (updOctet s p o f).reliability = s.reliability := rfl
@[simp] theorem updOctet_vfs (p o : Nat) (f : Octet → Octet) : (updOctet s p o f).vfs = s.vfs := rfl
@[simp] theorem updOctet_nodes (p o : Nat) (f : Octet → Octet) : (updOctet s p o f).nodes = s.nodes := rfl
@[simp] theorem updOctet_spares (p o : Nat) (f : Octet → Octet) : (updOctet s p o f).spares = s.spares := rfl
@[simp] theorem updOctet_spareMap (p o : Nat) (f : Octet → Octet) : (updOctet s p o f).spareMap = s.spareMap := rfl
@[simp] theorem updOctet_gated (p o : Nat) (f : Octet → Octet) : (updOctet s p o f).gated = s.gated := rfl
@[simp] theorem updOctet_refresh (p o : Nat) (f : Octet → Octet) : (updOctet s p o f).refresh = s.refresh := rfl
@[simp] theorem updOctet_posted (p o : Nat) (f : Octet → Octet) : (updOctet s p o f).posted = s.posted := rfl
@[simp] theorem updOctet_replace (p o : Nat) (f : Octet → Octet) : (updOctet s p o f).replace = s.replace := rfl
@[simp] theorem updOctet_junction (p o : Nat) (f : Octet → Octet) : (updOctet s p o f).junction = s.junction := rfl
@[simp] theorem updOctet_alarm (p o : Nat) (f : Octet → Octet) : (updOctet s p o f).alarm = s.alarm := rfl
@[simp] theorem updOctet_halted (p o : Nat) (f : Octet → Octet) : (updOctet s p o f).halted = s.halted := rfl
@[simp] theorem updOctet_map (p o : Nat) (f : Octet → Octet) : (updOctet s p o f).map = s.map := rfl
@[simp] theorem updOctet_tierSize (p o : Nat) (f : Octet → Octet) : (updOctet s p o f).tierSize = s.tierSize := rfl
@[simp] theorem updOctet_reserved (p o : Nat) (f : Octet → Octet) : (updOctet s p o f).reserved = s.reserved := rfl
@[simp] theorem updOctet_boot (p o : Nat) (f : Octet → Octet) : (updOctet s p o f).boot = s.boot := rfl
@[simp] theorem updOctet_ports (p o : Nat) (f : Octet → Octet) : (updOctet s p o f).ports = s.ports := rfl
@[simp] theorem updOctet_pfInterrupts (p o : Nat) (f : Octet → Octet) : (updOctet s p o f).pfInterrupts = s.pfInterrupts := rfl
@[simp] theorem updOctet_spdm (p o : Nat) (f : Octet → Octet) : (updOctet s p o f).spdm = s.spdm := rfl
@[simp] theorem updOctet_jtag (p o : Nat) (f : Octet → Octet) : (updOctet s p o f).jtag = s.jtag := rfl
@[simp] theorem updOctet_watch (p o : Nat) (f : Octet → Octet) : (updOctet s p o f).watch = s.watch := rfl
@[simp] theorem updOctet_moves (p o : Nat) (f : Octet → Octet) : (updOctet s p o f).moves = s.moves := rfl
@[simp] theorem updOctet_cur (p o : Nat) (f : Octet → Octet) : (updOctet s p o f).cur = s.cur := rfl
@[simp] theorem updOctet_stale (p o : Nat) (f : Octet → Octet) : (updOctet s p o f).stale = s.stale := rfl
@[simp] theorem updOctet_fresh (p o : Nat) (f : Octet → Octet) : (updOctet s p o f).fresh = s.fresh := rfl
@[simp] theorem updOctet_nextId (p o : Nat) (f : Octet → Octet) : (updOctet s p o f).nextId = s.nextId := rfl

@[simp] theorem updMe_variant (f : Slot → Slot) : (updMe s f).variant = s.variant := rfl
@[simp] theorem updMe_chipId (f : Slot → Slot) : (updMe s f).chipId = s.chipId := rfl
@[simp] theorem updMe_mem (f : Slot → Slot) : (updMe s f).mem = s.mem := rfl
@[simp] theorem updMe_hostMem (f : Slot → Slot) : (updMe s f).hostMem = s.hostMem := rfl
@[simp] theorem updMe_hostResp (f : Slot → Slot) : (updMe s f).hostResp = s.hostResp := rfl
@[simp] theorem updMe_hostReqs (f : Slot → Slot) : (updMe s f).hostReqs = s.hostReqs := rfl
@[simp] theorem updMe_memErrors (f : Slot → Slot) : (updMe s f).memErrors = s.memErrors := rfl
@[simp] theorem updMe_reliability (f : Slot → Slot) : (updMe s f).reliability = s.reliability := rfl
@[simp] theorem updMe_vfs (f : Slot → Slot) : (updMe s f).vfs = s.vfs := rfl
@[simp] theorem updMe_nodes (f : Slot → Slot) : (updMe s f).nodes = s.nodes := rfl
@[simp] theorem updMe_spares (f : Slot → Slot) : (updMe s f).spares = s.spares := rfl
@[simp] theorem updMe_spareMap (f : Slot → Slot) : (updMe s f).spareMap = s.spareMap := rfl
@[simp] theorem updMe_gated (f : Slot → Slot) : (updMe s f).gated = s.gated := rfl
@[simp] theorem updMe_refresh (f : Slot → Slot) : (updMe s f).refresh = s.refresh := rfl
@[simp] theorem updMe_posted (f : Slot → Slot) : (updMe s f).posted = s.posted := rfl
@[simp] theorem updMe_replace (f : Slot → Slot) : (updMe s f).replace = s.replace := rfl
@[simp] theorem updMe_junction (f : Slot → Slot) : (updMe s f).junction = s.junction := rfl
@[simp] theorem updMe_alarm (f : Slot → Slot) : (updMe s f).alarm = s.alarm := rfl
@[simp] theorem updMe_halted (f : Slot → Slot) : (updMe s f).halted = s.halted := rfl
@[simp] theorem updMe_map (f : Slot → Slot) : (updMe s f).map = s.map := rfl
@[simp] theorem updMe_tierSize (f : Slot → Slot) : (updMe s f).tierSize = s.tierSize := rfl
@[simp] theorem updMe_reserved (f : Slot → Slot) : (updMe s f).reserved = s.reserved := rfl
@[simp] theorem updMe_boot (f : Slot → Slot) : (updMe s f).boot = s.boot := rfl
@[simp] theorem updMe_ports (f : Slot → Slot) : (updMe s f).ports = s.ports := rfl
@[simp] theorem updMe_pfInterrupts (f : Slot → Slot) : (updMe s f).pfInterrupts = s.pfInterrupts := rfl
@[simp] theorem updMe_spdm (f : Slot → Slot) : (updMe s f).spdm = s.spdm := rfl
@[simp] theorem updMe_jtag (f : Slot → Slot) : (updMe s f).jtag = s.jtag := rfl
@[simp] theorem updMe_watch (f : Slot → Slot) : (updMe s f).watch = s.watch := rfl
@[simp] theorem updMe_moves (f : Slot → Slot) : (updMe s f).moves = s.moves := rfl
@[simp] theorem updMe_cur (f : Slot → Slot) : (updMe s f).cur = s.cur := rfl
@[simp] theorem updMe_stale (f : Slot → Slot) : (updMe s f).stale = s.stale := rfl
@[simp] theorem updMe_fresh (f : Slot → Slot) : (updMe s f).fresh = s.fresh := rfl
@[simp] theorem updMe_nextId (f : Slot → Slot) : (updMe s f).nextId = s.nextId := rfl

@[simp] theorem updMine_variant (f : Core → Core) : (updMine s f).variant = s.variant := rfl
@[simp] theorem updMine_chipId (f : Core → Core) : (updMine s f).chipId = s.chipId := rfl
@[simp] theorem updMine_mem (f : Core → Core) : (updMine s f).mem = s.mem := rfl
@[simp] theorem updMine_hostMem (f : Core → Core) : (updMine s f).hostMem = s.hostMem := rfl
@[simp] theorem updMine_hostResp (f : Core → Core) : (updMine s f).hostResp = s.hostResp := rfl
@[simp] theorem updMine_hostReqs (f : Core → Core) : (updMine s f).hostReqs = s.hostReqs := rfl
@[simp] theorem updMine_memErrors (f : Core → Core) : (updMine s f).memErrors = s.memErrors := rfl
@[simp] theorem updMine_reliability (f : Core → Core) : (updMine s f).reliability = s.reliability := rfl
@[simp] theorem updMine_vfs (f : Core → Core) : (updMine s f).vfs = s.vfs := rfl
@[simp] theorem updMine_nodes (f : Core → Core) : (updMine s f).nodes = s.nodes := rfl
@[simp] theorem updMine_spares (f : Core → Core) : (updMine s f).spares = s.spares := rfl
@[simp] theorem updMine_spareMap (f : Core → Core) : (updMine s f).spareMap = s.spareMap := rfl
@[simp] theorem updMine_gated (f : Core → Core) : (updMine s f).gated = s.gated := rfl
@[simp] theorem updMine_refresh (f : Core → Core) : (updMine s f).refresh = s.refresh := rfl
@[simp] theorem updMine_posted (f : Core → Core) : (updMine s f).posted = s.posted := rfl
@[simp] theorem updMine_replace (f : Core → Core) : (updMine s f).replace = s.replace := rfl
@[simp] theorem updMine_junction (f : Core → Core) : (updMine s f).junction = s.junction := rfl
@[simp] theorem updMine_alarm (f : Core → Core) : (updMine s f).alarm = s.alarm := rfl
@[simp] theorem updMine_halted (f : Core → Core) : (updMine s f).halted = s.halted := rfl
@[simp] theorem updMine_map (f : Core → Core) : (updMine s f).map = s.map := rfl
@[simp] theorem updMine_tierSize (f : Core → Core) : (updMine s f).tierSize = s.tierSize := rfl
@[simp] theorem updMine_reserved (f : Core → Core) : (updMine s f).reserved = s.reserved := rfl
@[simp] theorem updMine_boot (f : Core → Core) : (updMine s f).boot = s.boot := rfl
@[simp] theorem updMine_ports (f : Core → Core) : (updMine s f).ports = s.ports := rfl
@[simp] theorem updMine_pfInterrupts (f : Core → Core) : (updMine s f).pfInterrupts = s.pfInterrupts := rfl
@[simp] theorem updMine_spdm (f : Core → Core) : (updMine s f).spdm = s.spdm := rfl
@[simp] theorem updMine_jtag (f : Core → Core) : (updMine s f).jtag = s.jtag := rfl
@[simp] theorem updMine_watch (f : Core → Core) : (updMine s f).watch = s.watch := rfl
@[simp] theorem updMine_moves (f : Core → Core) : (updMine s f).moves = s.moves := rfl
@[simp] theorem updMine_cur (f : Core → Core) : (updMine s f).cur = s.cur := rfl
@[simp] theorem updMine_stale (f : Core → Core) : (updMine s f).stale = s.stale := rfl
@[simp] theorem updMine_fresh (f : Core → Core) : (updMine s f).fresh = s.fresh := rfl
@[simp] theorem updMine_nextId (f : Core → Core) : (updMine s f).nextId = s.nextId := rfl

@[simp] theorem updVf_variant (v : Nat) (f : VF → VF) : (updVf s v f).variant = s.variant := rfl
@[simp] theorem updVf_chipId (v : Nat) (f : VF → VF) : (updVf s v f).chipId = s.chipId := rfl
@[simp] theorem updVf_mem (v : Nat) (f : VF → VF) : (updVf s v f).mem = s.mem := rfl
@[simp] theorem updVf_hostMem (v : Nat) (f : VF → VF) : (updVf s v f).hostMem = s.hostMem := rfl
@[simp] theorem updVf_hostResp (v : Nat) (f : VF → VF) : (updVf s v f).hostResp = s.hostResp := rfl
@[simp] theorem updVf_hostReqs (v : Nat) (f : VF → VF) : (updVf s v f).hostReqs = s.hostReqs := rfl
@[simp] theorem updVf_memErrors (v : Nat) (f : VF → VF) : (updVf s v f).memErrors = s.memErrors := rfl
@[simp] theorem updVf_reliability (v : Nat) (f : VF → VF) : (updVf s v f).reliability = s.reliability := rfl
@[simp] theorem updVf_nodes (v : Nat) (f : VF → VF) : (updVf s v f).nodes = s.nodes := rfl
@[simp] theorem updVf_spares (v : Nat) (f : VF → VF) : (updVf s v f).spares = s.spares := rfl
@[simp] theorem updVf_spareMap (v : Nat) (f : VF → VF) : (updVf s v f).spareMap = s.spareMap := rfl
@[simp] theorem updVf_gated (v : Nat) (f : VF → VF) : (updVf s v f).gated = s.gated := rfl
@[simp] theorem updVf_refresh (v : Nat) (f : VF → VF) : (updVf s v f).refresh = s.refresh := rfl
@[simp] theorem updVf_posted (v : Nat) (f : VF → VF) : (updVf s v f).posted = s.posted := rfl
@[simp] theorem updVf_replace (v : Nat) (f : VF → VF) : (updVf s v f).replace = s.replace := rfl
@[simp] theorem updVf_junction (v : Nat) (f : VF → VF) : (updVf s v f).junction = s.junction := rfl
@[simp] theorem updVf_alarm (v : Nat) (f : VF → VF) : (updVf s v f).alarm = s.alarm := rfl
@[simp] theorem updVf_halted (v : Nat) (f : VF → VF) : (updVf s v f).halted = s.halted := rfl
@[simp] theorem updVf_map (v : Nat) (f : VF → VF) : (updVf s v f).map = s.map := rfl
@[simp] theorem updVf_tierSize (v : Nat) (f : VF → VF) : (updVf s v f).tierSize = s.tierSize := rfl
@[simp] theorem updVf_reserved (v : Nat) (f : VF → VF) : (updVf s v f).reserved = s.reserved := rfl
@[simp] theorem updVf_boot (v : Nat) (f : VF → VF) : (updVf s v f).boot = s.boot := rfl
@[simp] theorem updVf_ports (v : Nat) (f : VF → VF) : (updVf s v f).ports = s.ports := rfl
@[simp] theorem updVf_pfInterrupts (v : Nat) (f : VF → VF) : (updVf s v f).pfInterrupts = s.pfInterrupts := rfl
@[simp] theorem updVf_spdm (v : Nat) (f : VF → VF) : (updVf s v f).spdm = s.spdm := rfl
@[simp] theorem updVf_jtag (v : Nat) (f : VF → VF) : (updVf s v f).jtag = s.jtag := rfl
@[simp] theorem updVf_watch (v : Nat) (f : VF → VF) : (updVf s v f).watch = s.watch := rfl
@[simp] theorem updVf_moves (v : Nat) (f : VF → VF) : (updVf s v f).moves = s.moves := rfl
@[simp] theorem updVf_cur (v : Nat) (f : VF → VF) : (updVf s v f).cur = s.cur := rfl
@[simp] theorem updVf_stale (v : Nat) (f : VF → VF) : (updVf s v f).stale = s.stale := rfl
@[simp] theorem updVf_fresh (v : Nat) (f : VF → VF) : (updVf s v f).fresh = s.fresh := rfl
@[simp] theorem updVf_nextId (v : Nat) (f : VF → VF) : (updVf s v f).nextId = s.nextId := rfl
@[simp] theorem updVf_parts (v : Nat) (f : VF → VF) : (updVf s v f).parts = s.parts := rfl

end Fields

/-! ### What the accessors read -/

/-- The partition exists. -/
abbrev State.has (s : State) (p : Nat) : Prop := (mfind? s.parts p).isSome = true

section Accessors
variable {s : State} {p : Nat}

@[simp] theorem has_updPart (q : Nat) (f : Part → Part) : (updPart s q f).has p ↔ s.has p := by
  simp only [State.has, updPart, mfind?_mupd]
  split <;> simp

@[simp] theorem has_updLive (q : Nat) (f : PLive → PLive) : (updLive s q f).has p ↔ s.has p := has_updPart q _
@[simp] theorem has_updCore (q c : Nat) (f : Core → Core) : (updCore s q c f).has p ↔ s.has p := has_updPart q _
@[simp] theorem has_updSlot (q c n : Nat) (f : Slot → Slot) : (updSlot s q c n f).has p ↔ s.has p := has_updPart q _
@[simp] theorem has_updCluster (q c : Nat) (f : Cluster → Cluster) : (updCluster s q c f).has p ↔ s.has p := has_updPart q _
@[simp] theorem has_updOctet (q o : Nat) (f : Octet → Octet) : (updOctet s q o f).has p ↔ s.has p := has_updPart q _
@[simp] theorem has_updMe (f : Slot → Slot) : (updMe s f).has p ↔ s.has p := has_updPart _ _
@[simp] theorem has_updMine (f : Core → Core) : (updMine s f).has p ↔ s.has p := has_updPart _ _
@[simp] theorem has_updVf (v : Nat) (f : VF → VF) : (updVf s v f).has p ↔ s.has p := Iff.rfl

/-- A partition reads as it was changed. -/
theorem part_updPart (h : s.has p) (f : Part → Part) : (updPart s p f).part p = f (s.part p) := by
  simp [State.part, updPart, mget_mupd _ _ _ _ _ h]
/-- Another partition is untouched. -/
theorem part_updPart_ne {q : Nat} (h : q ≠ p) (f : Part → Part) : (updPart s q f).part p = s.part p := by
  simp [State.part, updPart, mget_mupd_ne _ _ _ _ _ h]

theorem part_updLive (h : s.has p) (f : PLive → PLive) :
    (updLive s p f).part p = { s.part p with live := f (s.part p).live } := part_updPart h _
theorem part_updLive_ne {q : Nat} (h : q ≠ p) (f : PLive → PLive) : (updLive s q f).part p = s.part p := part_updPart_ne h _
@[simp] theorem part_updVf (v : Nat) (f : VF → VF) : (updVf s v f).part p = s.part p := rfl

/-- A change of a core or a slot changes its partition's cores only. -/
theorem part_updCore (h : s.has p) (c : Nat) (f : Core → Core) :
    (updCore s p c f).part p = { s.part p with
      live := { (s.part p).live with cores := mput (s.part p).live.cores c (f (s.coreAt p c)) } } := part_updLive h _
theorem part_updSlot (h : s.has p) (c n : Nat) (f : Slot → Slot) :
    (updSlot s p c n f).part p = { s.part p with
      live := { (s.part p).live with
        cores := mput (s.part p).live.cores c { s.coreAt p c with
          slots := mput (s.coreAt p c).slots n (f (s.slotAt p c n)) } } } := part_updLive h _

/-- A core reads as it was changed, and the partition's other cores as before. -/
theorem coreAt_updCore (h : s.has p) (c d : Nat) (f : Core → Core) :
    (updCore s p c f).coreAt p d = if c = d then f (s.coreAt p c) else s.coreAt p d := by
  simp only [State.coreAt, updCore, part_updLive h, mget_mput]
theorem coreAt_updCore_ne {q : Nat} (h : q ≠ p) (c d : Nat) (f : Core → Core) :
    (updCore s q c f).coreAt p d = s.coreAt p d := by
  simp only [State.coreAt, updCore, part_updLive_ne h]

/-- A slot reads as it was changed, and the core's other slots as before. -/
theorem slotAt_updSlot (h : s.has p) (c n k : Nat) (f : Slot → Slot) :
    (updSlot s p c n f).slotAt p c k = if n = k then f (s.slotAt p c n) else s.slotAt p c k := by
  simp only [State.slotAt, updSlot, coreAt_updCore h, if_true, mget_mput]
theorem slotAt_updSlot_core (h : s.has p) {c d : Nat} (hc : c ≠ d) (n k : Nat) (f : Slot → Slot) :
    (updSlot s p c n f).slotAt p d k = s.slotAt p d k := by
  simp only [State.slotAt, updSlot, coreAt_updCore h, if_neg hc]
theorem slotAt_updSlot_ne {q : Nat} (h : q ≠ p) (c n d k : Nat) (f : Slot → Slot) :
    (updSlot s q c n f).slotAt p d k = s.slotAt p d k := by
  simp only [State.slotAt, updSlot, coreAt_updCore_ne h]

theorem slotAt_updCore (h : s.has p) (c n : Nat) (f : Core → Core) :
    (updCore s p c f).slotAt p c n = mget {} (f (s.coreAt p c)).slots n := by
  simp only [State.slotAt, coreAt_updCore h, if_true]

theorem cluster_updCluster (h : s.has p) (c d : Nat) (f : Cluster → Cluster) :
    (updCluster s p c f).cluster p d = if c = d then f (s.cluster p c) else s.cluster p d := by
  simp only [State.cluster, updCluster, part_updLive h, mget_mput]
theorem octet_updOctet (h : s.has p) (c d : Nat) (f : Octet → Octet) :
    (updOctet s p c f).octet p d = if c = d then f (s.octet p c) else s.octet p d := by
  simp only [State.octet, updOctet, part_updLive h, mget_mput]
@[simp] theorem vf_updVf (v w : Nat) (f : VF → VF) :
    (updVf s v f).vf w = if v = w then f (s.vf v) else s.vf w := by
  simp only [State.vf, updVf, mget_mput]

/-- The issuing slot, core and partition after they change. -/
theorem me_updMe (h : s.has s.cur.p) (f : Slot → Slot) : (updMe s f).me = f s.me := by
  have := slotAt_updSlot h s.cur.c s.cur.n s.cur.n f
  simpa [State.me, updMe] using this
theorem mine_updMine (h : s.has s.cur.p) (f : Core → Core) : (updMine s f).mine = f s.mine := by
  have := coreAt_updCore h s.cur.c s.cur.c f
  simpa [State.mine, updMine] using this
theorem mine_updMe (h : s.has s.cur.p) (f : Slot → Slot) :
    (updMe s f).mine = { s.mine with slots := mput s.mine.slots s.cur.n (f s.me) } := by
  have := coreAt_updCore h s.cur.c s.cur.c (fun k => { k with slots := mput k.slots s.cur.n (f (mget {} k.slots s.cur.n)) })
  simpa [State.mine, updMe, updSlot, State.me, State.slotAt] using this
theorem me_updMine (h : s.has s.cur.p) (f : Core → Core) : (updMine s f).me = mget {} (f s.mine).slots s.cur.n :=
  slotAt_updCore h s.cur.c s.cur.n f
theorem myPart_updLive (h : s.has s.cur.p) (f : PLive → PLive) :
    (updLive s s.cur.p f).myPart = { s.myPart with live := f s.myPart.live } := by
  simp only [State.myPart, updLive_cur, part_updLive h]

/-! ### Updates in a row -/

theorem updPart_updPart (f g : Part → Part) : updPart (updPart s p f) p g = updPart s p fun x => g (f x) := by
  simp [updPart, mupd_mupd]
theorem updLive_updLive (f g : PLive → PLive) : updLive (updLive s p f) p g = updLive s p fun x => g (f x) :=
  updPart_updPart _ _
theorem updCore_updCore (c : Nat) (f g : Core → Core) :
    updCore (updCore s p c f) p c g = updCore s p c fun k => g (f k) := by
  simp only [updCore, updLive_updLive, mget_mput, if_true, mput_mput]
theorem updSlot_updSlot (c n : Nat) (f g : Slot → Slot) :
    updSlot (updSlot s p c n f) p c n g = updSlot s p c n fun x => g (f x) := by
  simp only [updSlot, updCore_updCore, mget_mput, if_true, mput_mput]
theorem updMe_updMe (f g : Slot → Slot) : updMe (updMe s f) g = updMe s fun x => g (f x) :=
  updSlot_updSlot _ _ _ _
theorem updMine_updMine (f g : Core → Core) : updMine (updMine s f) g = updMine s fun k => g (f k) :=
  updCore_updCore _ _ _
theorem updMe_eq (f : Slot → Slot) : updMe s f = updMe s fun _ => f s.me := by
  simp only [updMe, updSlot, updCore, updLive, updPart]
  refine congrArg (fun m => { s with parts := m }) ?_
  exact mupd_congr _ _ _ _ fun x hx => by simp [State.me, State.slotAt, State.coreAt, State.part, mget_eq_mfind?, hx]

end Accessors

end Sys2Proof.Machine
end

