-- ==== Sys2Proof/Laws/Ops.lean ====
section
/-! SUPPORT. The laws of the shared operations: what taking sources, writing a result and issuing an instruction do. -/

namespace Sys2Proof.Machine

open Sys2Proof.Safety

/-! ### Queue registers -/

@[simp] theorem queueOf_popQ (x : Slot) (n k : Nat) :
    queueOf (popQ x n) k = if n = k then (queueOf x n).tail else queueOf x k := by
  simp only [queueOf, popQ, mget_mset]
@[simp] theorem queueOf_pushQ (x : Slot) (n k : Nat) (v : Word) :
    queueOf (pushQ x n v) k = if n = k then queueOf x n ++ [v] else queueOf x k := by
  simp only [queueOf, pushQ, mget_mset]
@[simp] theorem readReg_popQ (x : Slot) (n k : Nat) : readReg (popQ x n) k = readReg x k := rfl
@[simp] theorem readReg_pushQ (x : Slot) (n k : Nat) (v : Word) : readReg (pushQ x n v) k = readReg x k := rfl
@[simp] theorem readReg_popS (x : Slot) (o : SOp) (k : Nat) : readReg (popS x o) k = readReg x k := by cases o <;> rfl

theorem queueOf_popS (x : Slot) (o : SOp) (q : QReg) :
    queueOf (popS x o) q.toNat = (queueOf x q.toNat).drop (if o = .q q then 1 else 0) := by
  cases o with
  | s n => simp [popS]
  | q n =>
    by_cases h : n = q
    · subst h; simp [popS]
    · have : n.toNat ≠ q.toNat := fun e => h (BitVec.eq_of_toNat_eq e)
      simp [popS, this, h]

/-! ### Taking sources (R32, R88) -/

/-- Source i has the value that `sourceValue` names. -/
theorem readAll_value (srcs : List SOp) (x : Slot) (i : Nat) :
    (readAll x srcs).1.getD i 0 = sourceValue x srcs i := by
  induction srcs generalizing x i with
  | nil => simp [readAll, sourceValue]
  | cons o os ih =>
    cases i with
    | zero =>
      cases o with
      | s n => simp [readAll, sourceValue, peekS]
      | q n => cases h : queueOf x n.toNat <;> simp [readAll, sourceValue, peekS, h]
    | succ i =>
      have key : (readAll x (o :: os)).1.getD (i + 1) 0 = (readAll (popS x o) os).1.getD i 0 := by
        simp [readAll]
      rw [key, ih]
      simp only [sourceValue, List.getElem?_cons_succ, List.take_succ_cons]
      cases hi : os[i]? with
      | none => rfl
      | some p =>
        cases p with
        | s n => simp
        | q n =>
          simp only [queueOf_popS, List.count_cons]
          by_cases h : o = .q n
          · subst h; simp [List.getD_eq_getElem?_getD, Nat.add_comm]
          · simp [h, List.getD_eq_getElem?_getD]

/-- Only queue registers change as sources are read. -/
theorem readAll_rest (srcs : List SOp) (x : Slot) :
    (readAll x srcs).2 = { x with queues := (readAll x srcs).2.queues } := by
  induction srcs generalizing x with
  | nil => rfl
  | cons o os ih =>
    have key : (readAll x (o :: os)).2 = (readAll (popS x o) os).2 := rfl
    rw [key, ih (popS x o)]
    cases o <;> rfl

/-- Every queue register has lost as many entries as sources name it. -/
theorem readAll_queues (srcs : List SOp) (x : Slot) (q : QReg) :
    queueOf (readAll x srcs).2 q.toNat = (queueOf x q.toNat).drop (srcs.count (.q q)) := by
  induction srcs generalizing x with
  | nil => rfl
  | cons o os ih =>
    have key : (readAll x (o :: os)).2 = (readAll (popS x o) os).2 := rfl
    rw [key, ih (popS x o), queueOf_popS, List.drop_drop, List.count_cons]
    by_cases h : o = .q q <;> simp [h, Nat.add_comm]

theorem takeSources_value (x : Slot) (srcs : List SOp) :
    (fun i => (takeSources x srcs).1.getD i 0) = sourceValue x srcs := by
  funext i
  exact readAll_value srcs x i

/-- Taking sources changes queue registers, and counts a delayed instruction (R36). -/
theorem takeSources_rest (x : Slot) (srcs : List SOp) :
    (takeSources x srcs).2 = { x with
      queues := (readAll x srcs).2.queues, lodcnt := x.lodcnt + if x.delayed then 1 else 0 } := by
  have h := readAll_rest srcs x
  have key : (takeSources x srcs).2 = countDelay (readAll x srcs).2 := rfl
  rw [key, h, countDelay]
  by_cases hd : x.delayed
  · simp [hd]
  · simp [hd]

theorem takeSources_queues (x : Slot) (srcs : List SOp) (q : QReg) :
    queueOf (takeSources x srcs).2 q.toNat = (queueOf x q.toNat).drop (srcs.count (.q q)) := by
  rw [takeSources_rest]
  exact readAll_queues srcs x q

/-! ### Registers and predicates (R39, R40, R79) -/

theorem readReg_writeReg (x : Slot) (n k : Nat) (v : Word) :
    readReg (writeReg x n v) k = if n = k ∧ writable x n then v else readReg x k := by
  unfold writeReg writable
  by_cases h0 : n = 0
  · simp [h0]
  · by_cases h1 : n < 16
    · have hf : n < 16 + x.frame := by omega
      by_cases hk : n = k
      · subst hk; simp [h0, h1, hf, readReg]
      · simp only [h0, h1, if_true, if_false, hk, false_and]
        simp only [readReg, mget_mset, hk, if_false]
    · by_cases hf : n < 16 + x.frame
      · by_cases hk : n = k
        · subst hk; simp [h0, h1, hf, readReg]
        · simp only [h0, h1, hf, if_true, if_false, hk, false_and]
          simp only [readReg]
          by_cases k0 : k = 0
          · simp [k0]
          · by_cases k1 : k < 16
            · simp [k0, k1]
            · by_cases k2 : k < 16 + x.frame
              · have : x.wbase + n - 16 ≠ x.wbase + k - 16 := by omega
                simp [k0, k1, k2, this]
              · simp [k0, k1, k2]
      · simp [h0, h1, hf]

theorem queueOf_writeReg (x : Slot) (n q : Nat) (v : Word) : queueOf (writeReg x n v) q = queueOf x q := by
  unfold writeReg; split
  · rfl
  · split
    · rfl
    · split <;> rfl

theorem queueOf_writeS (x : Slot) (d : SOp) (v : Word) (q : QReg) :
    queueOf (writeS x d v) q.toNat = queueOf x q.toNat ++ if d = .q q then [v] else [] := by
  cases d with
  | s n => simp [writeS, queueOf_writeReg]
  | q n =>
    by_cases h : n = q
    · subst h; simp [writeS]
    · have : n.toNat ≠ q.toNat := fun e => h (BitVec.eq_of_toNat_eq e)
      simp [writeS, this, h]

/-- A scalar result changes registers and queue registers only. -/
theorem writeS_rest (x : Slot) (d : SOp) (v : Word) :
    writeS x d v = { x with
      regs := (writeS x d v).regs, wregs := (writeS x d v).wregs, queues := (writeS x d v).queues } := by
  cases d with
  | s n =>
    simp only [writeS]; unfold writeReg; split
    · rfl
    · split
      · rfl
      · split <;> rfl
  | q n => rfl

theorem readReg_writeS (x : Slot) (d : SOp) (v : Word) (n : BitVec 6) :
    readReg (writeS x d v) n.toNat = if d = .s n ∧ writable x n.toNat then v else readReg x n.toNat := by
  cases d with
  | s k =>
    have e : (k.toNat = n.toNat) ↔ k = n := ⟨BitVec.eq_of_toNat_eq, congrArg _⟩
    simp only [writeS, readReg_writeReg, e]
    by_cases h : k = n
    · subst h; simp
    · simp [h]
  | q k => simp [writeS]

/-- Windowed registers outside the frame, those of the callers, keep their values. -/
theorem wregs_writeS (x : Slot) (d : SOp) (v : Word) (pos : Nat) (h : pos < x.wbase ∨ x.wbase + x.frame ≤ pos) :
    mget 0 (writeS x d v).wregs pos = mget 0 x.wregs pos := by
  cases d with
  | s k =>
    simp only [writeS]; unfold writeReg; split
    · rfl
    · split
      · rfl
      · split
        · have : x.wbase + k.toNat - 16 ≠ pos := by omega
          simp [this]
        · rfl
  | q k => rfl

theorem getLsbD_setPred (p : BitVec 7) (n : Nat) (b : Bool) (i : Nat) (hi : i < 7) :
    ((p &&& ~~~(1#7 <<< n)) ||| ((if b then 1#7 else 0#7) <<< n)).getLsbD i = if i = n then b else p.getLsbD i := by
  by_cases h : i = n
  · subst h; cases b <;> simp [hi]
  · cases b
    · simp only [Bool.false_eq_true, if_false, h, BitVec.zero_shiftLeft, BitVec.or_zero, BitVec.getLsbD_and, BitVec.getLsbD_not,
        BitVec.getLsbD_shiftLeft, hi, decide_true, Bool.true_and]
      by_cases h2 : i < n
      · simp [h2]
      · have : i - n ≠ 0 := by omega
        simp [h2, this]
    · simp only [if_true, h, if_false, BitVec.getLsbD_or, BitVec.getLsbD_and, BitVec.getLsbD_not,
        BitVec.getLsbD_shiftLeft, hi, decide_true, Bool.true_and]
      by_cases h2 : i < n
      · simp [h2]
      · have : i - n ≠ 0 := by omega
        simp [h2, this]

theorem readP_writeP (x : Slot) (p q : PReg) (b : Bool) :
    readP (writeP x p b) q = if q = 7 then true else onePred x p b q := by
  unfold readP onePred
  by_cases h7 : q = 7
  · simp [h7]
  · have hq : q.toNat < 7 := by
      have : q.toNat ≠ 7 := fun e => h7 (BitVec.eq_of_toNat_eq e)
      omega
    simp only [h7, if_false]
    unfold writeP
    by_cases hp : p = 7
    · have : q ≠ p := fun e => h7 (e.trans hp)
      have h7' : ¬q = 7#3 := h7
      simp [hp, readP, h7']
    · simp only [hp, if_false, getLsbD_setPred _ _ _ _ hq]
      have e : (q.toNat = p.toNat) ↔ q = p := ⟨BitVec.eq_of_toNat_eq, congrArg _⟩
      have h7' : ¬q = 7#3 := h7
      simp [e, readP, h7']

/-! ### The shapes of a result -/

/-- A slot that has gone on from `updMe` keeps everything else of the machine. -/
theorem onlySlot_updMe {s : State} (h : Here s) (f : Slot → Slot) : OnlySlot s (updMe s f) where
  only := by rw [me_updMe h]; exact updMe_eq f
  memory a := rfl
  scratchpad p c off := by
    have key : (updMe s f).coreAt p c = s.coreAt p c ∨ ∃ m, (updMe s f).coreAt p c = { s.coreAt p c with slots := m } := by
      by_cases hp : s.cur.p = p
      · subst hp
        simp only [updMe, updSlot, coreAt_updCore h]
        by_cases hc : s.cur.c = c
        · subst hc; exact .inr ⟨_, if_pos rfl⟩
        · exact .inl (by simp [hc])
      · exact .inl (by simp only [updMe, updSlot, coreAt_updCore_ne hp])
    unfold spadRead
    rcases key with e | ⟨m, e⟩ <;> rw [e]

theorem updMe_chain (s : State) (f g : Slot → Slot) : advance (updMe (updMe s f) g) = updMe s fun x => goOn (g (f x)) ((g (f x)).pc + 12) := by
  unfold advance
  rw [updMe_updMe, updMe_updMe]

/-- The slot after its sources are taken, a scalar result with flags is written, and it goes on. -/
theorem wrote_flags {s : State} (h : Here s) (srcs : List SOp) (d : SOp) (v : Word) (fl : Flags) :
    Wrote s (advance (putS (updMe (taken s srcs) fun y => orFlags y fl) d v)) srcs d v fl := by
  have e : advance (putS (updMe (taken s srcs) fun y => orFlags y fl) d v) =
      updMe s fun x => goOn (writeS (orFlags (takeSources s.me srcs).2 fl) d v) (s.me.pc + 12) := by
    unfold putS taken
    rw [updMe_updMe, updMe_chain, writeS_rest, takeSources_rest]
    rfl
  rw [e]
  have o := onlySlot_updMe h fun x => goOn (writeS (orFlags (takeSources s.me srcs).2 fl) d v) (s.me.pc + 12)
  refine { toOnlySlot := o, on := ?_, rest := ?_, registers := ?_, callers := ?_, predicates := ?_, fstat := ?_ }
  all_goals rw [me_updMe h]
  · refine ⟨rfl, rfl, rfl, ?_, ?_⟩
    · rw [writeS_rest, takeSources_rest]; rfl
    · intro q
      have := queueOf_writeS (orFlags (takeSources s.me srcs).2 fl) d v q
      simp only [orFlags] at this ⊢
      rw [show queueOf (goOn (writeS { (takeSources s.me srcs).2 with fstat := _ } d v) (s.me.pc + 12)) q.toNat =
        queueOf (writeS { (takeSources s.me srcs).2 with fstat := (takeSources s.me srcs).2.fstat ||| fl.setWidth 64 } d v) q.toNat from rfl, this]
      rw [show queueOf { (takeSources s.me srcs).2 with fstat := (takeSources s.me srcs).2.fstat ||| fl.setWidth 64 } q.toNat =
        queueOf (takeSources s.me srcs).2 q.toNat from rfl, takeSources_queues]
      by_cases hd : d = .q q
      · simp [hd]
      · simp [hd, Ne.symm hd]
  · rw [KeepsRest, writeS_rest, takeSources_rest]; rfl
  · intro n
    have := readReg_writeS (orFlags (takeSources s.me srcs).2 fl) d v n
    rw [show readReg (goOn (writeS (orFlags (takeSources s.me srcs).2 fl) d v) (s.me.pc + 12)) n.toNat =
      readReg (writeS (orFlags (takeSources s.me srcs).2 fl) d v) n.toNat from rfl, this, takeSources_rest]
    rfl
  · intro pos hpos
    have := wregs_writeS (orFlags (takeSources s.me srcs).2 fl) d v pos (by rw [takeSources_rest]; exact hpos)
    rw [show (goOn (writeS (orFlags (takeSources s.me srcs).2 fl) d v) (s.me.pc + 12)).wregs =
      (writeS (orFlags (takeSources s.me srcs).2 fl) d v).wregs from rfl, this, takeSources_rest]
    rfl
  · rw [writeS_rest, takeSources_rest]; rfl
  · rw [writeS_rest, takeSources_rest]; rfl

theorem orFlags_zero (x : Slot) : orFlags x 0 = x := by simp [orFlags]
theorem updMe_self (s : State) (f : Slot → Slot) (g : Slot → Slot) (h : ∀ x, g x = x) : updMe (updMe s f) g = updMe s f := by
  rw [updMe_updMe]; simp [h]

/-- The same without flags. -/
theorem wrote {s : State} (h : Here s) (srcs : List SOp) (d : SOp) (v : Word) :
    Wrote s (advance (putS (taken s srcs) d v)) srcs d v 0 := by
  have w := wrote_flags h srcs d v 0
  rwa [taken, updMe_self _ _ _ orFlags_zero] at w

/-- The slot after its sources are taken, its predicates and flags are set, and it goes on. -/
theorem wrotePreds {s : State} (h : Here s) (srcs : List SOp) (ps : BitVec 7) (fl : Flags) (f : PReg → Bool)
    (hf : ∀ q : PReg, q ≠ 7 → ps.getLsbD q.toNat = f q) :
    WrotePreds s (updMe s fun _ => goOn { orFlags (takeSources s.me srcs).2 fl with preds := ps } (s.me.pc + 12)) srcs f fl := by
  have o := onlySlot_updMe h fun _ => goOn { orFlags (takeSources s.me srcs).2 fl with preds := ps } (s.me.pc + 12)
  refine { toOnlySlot := o, on := ?_, rest := ?_, registers := ?_, predicates := ?_, fstat := ?_ }
  all_goals rw [me_updMe h]
  · refine ⟨rfl, rfl, rfl, ?_, fun q => ?_⟩
    · rw [takeSources_rest]; rfl
    · rw [List.append_nil, ← takeSources_queues]; rfl
  · rw [KeepsRest, takeSources_rest]; rfl
  · rw [takeSources_rest]; exact ⟨rfl, rfl⟩
  · intro q
    by_cases h7 : q = 7
    · simp [readP, h7]
    · simp only [readP, h7, if_false]; exact hf q h7
  · rw [takeSources_rest]; rfl

theorem preds_writeP (x : Slot) (p : PReg) (b : Bool) : writeP x p b = { x with preds := (writeP x p b).preds } := by
  unfold writeP; split <;> rfl

/-- One predicate written. -/
theorem wrote_pred {s : State} (h : Here s) (srcs : List SOp) (p : PReg) (b : Bool) (fl : Flags) :
    WrotePreds s (advance (putP (updMe (taken s srcs) fun y => orFlags y fl) p b)) srcs (onePred s.me p b) fl := by
  have e : advance (putP (updMe (taken s srcs) fun y => orFlags y fl) p b) =
      updMe s fun _ => goOn { orFlags (takeSources s.me srcs).2 fl with
        preds := (writeP (orFlags (takeSources s.me srcs).2 fl) p b).preds } (s.me.pc + 12) := by
    unfold putP taken
    rw [updMe_updMe, updMe_chain, preds_writeP, takeSources_rest]
    rfl
  rw [e]
  refine wrotePreds h srcs _ fl _ fun q hq => ?_
  have r := readP_writeP (orFlags (takeSources s.me srcs).2 fl) p q b
  rw [if_neg hq, readP, if_neg hq] at r
  rw [r, onePred, onePred, takeSources_rest]
  rfl
theorem wrote_pred0 {s : State} (h : Here s) (srcs : List SOp) (p : PReg) (b : Bool) :
    WrotePreds s (advance (putP (taken s srcs) p b)) srcs (onePred s.me p b) 0 := by
  have w := wrote_pred h srcs p b 0
  rwa [taken, updMe_self _ _ _ orFlags_zero] at w

/-- A slot whose sources are taken goes to a target. -/
theorem jumped {s : State} (h : Here s) (srcs : List SOp) (pc : Word) :
    Jumped s (updMe (taken s srcs) fun y => goOn y pc) srcs pc := by
  have e : updMe (taken s srcs) (fun y => goOn y pc) = updMe s fun _ => goOn (takeSources s.me srcs).2 pc := by
    unfold taken; rw [updMe_updMe]
  rw [e]
  have o := onlySlot_updMe h fun _ => goOn (takeSources s.me srcs).2 pc
  refine { toOnlySlot := o, on := ?_, rest := ?_, registers := ?_, predicates := ?_, fstat := ?_ }
  all_goals rw [me_updMe h]
  · refine ⟨rfl, rfl, rfl, ?_, fun q => ?_⟩
    · rw [takeSources_rest]; rfl
    · rw [List.append_nil, ← takeSources_queues]; rfl
  · rw [KeepsRest, takeSources_rest]; rfl
  all_goals rw [takeSources_rest]
  · exact ⟨rfl, rfl⟩
  · rfl
  · rfl
/-- An instruction that takes its sources and does nothing else. -/
theorem passed {s : State} (h : Here s) (srcs : List SOp) : Jumped s (advance (taken s srcs)) srcs (s.me.pc + 12) := by
  have e : advance (taken s srcs) = updMe (taken s srcs) fun y => goOn y (s.me.pc + 12) := by
    unfold advance taken
    rw [updMe_updMe, updMe_updMe, takeSources_rest]
  rw [e]
  exact jumped h srcs _

/-! ### Traps (R22, R322, R325) -/

/-- A slot that leaves the armature's entry queue keeps its registers, and its partition runs as before. -/
theorem has_leaveEntry {s : State} (a : At) (p : Nat) : (leaveEntry s a).has p ↔ s.has p := has_updCore _ _ _
theorem slotAt_leaveEntry {s : State} {a : At} (h : s.has a.p) : (leaveEntry s a).slotAt a.p a.c a.n = s.slotAt a.p a.c a.n := by
  simp only [leaveEntry, slotAt_updCore h]; rfl
theorem part_leaveEntry {s : State} {a : At} (h : s.has a.p) :
    ((leaveEntry s a).part a.p).stopped = (s.part a.p).stopped := by
  simp only [leaveEntry, part_updCore h]

/-- A trap that posts no record, taken at the issuing slot. -/
theorem trapped {s : State} (h : Here s) (t : Trap) (hr : t.recorded = false) :
    Trapped s (takeTrap s s.cur t) ((causeWord t).toNat) t.bad := by
  have hc : BitVec.ofNat 64 (causeWord t).toNat = causeWord t := by simp
  unfold takeTrap
  simp only [hr, Bool.false_eq_true, if_false]
  by_cases h3 : s.cur.n = 3
  · simp only [h3, if_true]
    by_cases hi : (s.slotAt s.cur.p s.cur.c 3).intrap = true
    · have hme : s.me.intrap = true := by rw [State.me, h3]; exact hi
      simp only [hi, if_true]
      have e : ∀ f, (updPart (updSlot s s.cur.p s.cur.c 3 f) s.cur.p fun x =>
          { x with stopped := true, doubleFaults := x.doubleFaults + 1 }).me = f s.me := by
        intro f
        have hp := (has_updSlot (s := s) (p := s.cur.p) s.cur.p s.cur.c 3 f).mpr h
        have := slotAt_updSlot h s.cur.c 3 3 f
        simp only [State.me, State.slotAt, State.coreAt, updPart_cur, updSlot_cur, part_updPart hp] at this ⊢
        rw [h3]; simpa [State.slotAt, State.coreAt] using this
      have hp : ∀ f, (updSlot s s.cur.p s.cur.c 3 f).has s.cur.p := fun f => by rw [has_updSlot]; exact h
      refine ⟨?_, ?_, ?_, ?_, ?_, ?_, ?_, ?_, ?_⟩
      · rw [e, hc]; rfl
      · rw [e]; rfl
      · rw [e]; rfl
      · exact fun hn => absurd h3 hn
      · intro _ hf; rw [hme] at hf; cases hf
      · intro _ _
        refine ⟨by rw [e], ?_, ?_⟩
        · simp only [State.myPart, updPart_cur, updSlot_cur, part_updPart (hp _)]
        · simp only [State.myPart, updPart_cur, updSlot_cur, part_updPart (hp _), part_updSlot h]
      · exact fun hn => absurd ⟨h3, hme⟩ hn
      · rw [e]; exact ⟨fun _ => rfl, rfl, rfl, rfl⟩
      · intro a; rfl
    · have hi' : (s.slotAt s.cur.p s.cur.c 3).intrap = false := by simpa using hi
      have hme : s.me.intrap = false := by rw [State.me, h3]; exact hi'
      simp only [hi', Bool.false_eq_true, if_false]
      have e : ∀ f, (updSlot s s.cur.p s.cur.c 3 f).me = f s.me := by
        intro f
        have := slotAt_updSlot h s.cur.c 3 3 f
        simp only [State.me, updSlot_cur, h3]; simpa using this
      refine ⟨?_, ?_, ?_, ?_, ?_, ?_, ?_, ?_, ?_⟩
      · rw [e, hc]; rfl
      · rw [e]; rfl
      · rw [e]; rfl
      · exact fun hn => absurd h3 hn
      · intro _ _; rw [e]; exact ⟨rfl, rfl, rfl⟩
      · intro _ hf; rw [hme] at hf; cases hf
      · intro _
        simp only [State.myPart, updSlot_cur, part_updSlot h]
      · rw [e]; exact ⟨fun _ => rfl, rfl, rfl, rfl⟩
      · intro a; rfl
  · simp only [h3, if_false]
    have hl : (leaveEntry s s.cur).has s.cur.p := (has_leaveEntry _ _).mpr h
    have e : ∀ f, (updSlot (leaveEntry s s.cur) s.cur.p s.cur.c s.cur.n f).me = f s.me := fun f => by
      refine (me_updMe (s := leaveEntry s s.cur) hl f).trans ?_
      rw [State.me, State.me, show (leaveEntry s s.cur).cur = s.cur from rfl, slotAt_leaveEntry h]
    refine ⟨?_, ?_, ?_, ?_, ?_, ?_, ?_, ?_, ?_⟩
    · rw [e, hc]; rfl
    · rw [e]; rfl
    · rw [e]; rfl
    · intro _; rw [e]; exact ⟨rfl, rfl, rfl, rfl⟩
    · exact fun hn => absurd hn h3
    · exact fun hn => absurd hn h3
    · intro _
      simp only [State.myPart, updSlot_cur, show (leaveEntry s s.cur).cur = s.cur from rfl, part_updSlot hl]
      exact part_leaveEntry h
    · rw [e]; exact ⟨fun _ => rfl, rfl, rfl, rfl⟩
    · intro a; rfl

/-! ### Issuing (R20, R32, R37, R81) -/

section Issue
variable {s : State} {c : Ctl} {srcs dsts : List SOp} {ps : List PReg}

/-- An instruction that is ready takes its sources and does its operation. -/
theorem issue_ready (h : Ready s c srcs dsts ps) (body : (Nat → Word) → State → Res) :
    issue c srcs dsts ps s body = finish s (body (sourceValue s.me srcs) (taken s srcs)) := by
  obtain ⟨_, hg, hz⟩ := h
  have hv := takeSources_value s.me srcs
  cases hc : c.guard with
  | eng n neg => simp [guardNow, hc] at hg
  | always => simp only [issue, hc, hg, hz]; rw [hv]; rfl
  | pred n neg => simp only [issue, hc, hg, hz]; rw [hv]; rfl
/-- An instruction whose guard is false has no effect (R81). -/
theorem issue_false (hg : guardNow s.me c = some false) (body : (Nat → Word) → State → Res) :
    issue c srcs dsts ps s body = .next (advance s) := by
  cases hc : c.guard with
  | eng n neg => simp [guardNow, hc] at hg
  | always => simp [guardNow, hc] at hg
  | pred n neg => simp only [issue, hc, hg]; rfl
/-- An instruction that something holds at the issue point has no effect, and its slot is Blocked (R20, R32). -/
theorem issue_waits {w : Wait} (hg : guardNow s.me c = some true) (hz : hazard s.me srcs dsts ps = some w)
    (body : (Nat → Word) → State → Res) : issue c srcs dsts ps s body = .next (block s w) := by
  cases hc : c.guard with
  | eng n neg => simp [guardNow, hc] at hg
  | always => simp only [issue, hc, hg, hz]; rfl
  | pred n neg => simp only [issue, hc, hg, hz]; rfl
/-- A privileged instruction issues in slot 3 as any other. -/
theorem issueP_slot3 (h3 : s.cur.n = 3) (body : (Nat → Word) → State → Res) :
    issueP c srcs dsts ps s body = issue c srcs dsts ps s body := by simp [issueP, h3]
/-- From a user slot it traps with cause 0x04 (R86, R315). -/
theorem issueP_user (h3 : s.cur.n ≠ 3) (body : (Nat → Word) → State → Res) :
    issueP c srcs dsts ps s body = .next (takeTrap s s.cur { cause := 0x04 }) := by simp [issueP, h3, finish]

end Issue

end Sys2Proof.Machine
end

