-- ==== Sys2Proof/Tests/Slice0.lean ====
section
/-! SUPPORT. Tests: words of the spec's encodings with the instruction each stands for, an ill-formed instruction for each
check, and for each statement states and operands that meet its hypotheses, most with what the step then leaves. -/

namespace Sys2Proof.Tests

open Sys2Proof Sys2Proof.Machine Sys2Proof.Safety Sys2Proof.Claims

set_option maxRecDepth 100000
set_option Elab.async false

/-! ### Small states -/

/-- One partition, with cores 0 to 127, whose core 0 has a slot n with the given contents. -/
def one (x : Slot) (n : Nat := 0) (k : Core := {}) (pl : PLive := {}) : State where
  parts := [(0, { clusters := [0], live := { pl with cores := [(0, { k with slots := [(n, x)] })] } })]
  cur := ⟨0, 0, n⟩
  boot := { passed := true }
/-- A step's outcome is a next state with a property. -/
def ends (o : Out) (f : State → Bool) : Bool :=
  match o with
  | .next t => f t
  | _ => false
/-- A trap of a cause was taken at the issuing slot. -/
def trapsWith (i : Instr) (s : State) (cause : Nat) : Bool := ends (exec i s) fun t => t.me.cause == BitVec.ofNat 64 cause
/-- Three-word instruction. -/
abbrev word (a b c : BitVec 32) : IWord := threeWords a b c

/-! ### Encodings (03_encoding, 05_assembler, and the words that the spec works out) -/

theorem test_decode_add : decode (word 0x15140001 0x00002216 0) = .ok (.add ⟨⟨.pred 2 false, { delay := 1 }⟩, false, .s 20, .s 21, .s 22⟩) := by decide +kernel
theorem test_decode_ld : decode (word 0x02180420 0x02200700 0x40) = .ok (.ld ⟨{}, .i32, .acq, .cl, .s 24, .s 2, 64⟩) := by decide +kernel
theorem test_decode_ffma : decode (word 0x15140011 0x22E00716 0) = .ok (.ffma ⟨{}, false, .rz, .s 20, .s 21, .s 22, .s 23⟩) := by decide +kernel
theorem test_decode_br : decode (word 0x00000018 0x00001300 0xFFFFFFFD) = .ok (.br ⟨⟨.pred 3 true, {}⟩, 0xFFFFFFFD⟩) := by decide +kernel
theorem test_decode_amo_add_nf : decode (word 0x14008029 0x03400715 8) = .ok (.amoAddNf ⟨{}, true, .rel, .die, .s 20, .s 21, 8⟩) := by decide +kernel
theorem test_decode_amo_cas : decode (word 0x14160928 0x05000115 0) = .ok (.amoCas ⟨⟨.pred 1 false, {}⟩, false, .rlx, .sys, 22, .s 20, .s 21, 0⟩) := by decide +kernel
theorem test_decode_bar_arrivex : decode (word 0x01170231 0x00000718 0x10) = .ok (.barArrivex ⟨{}, .s 23, .s 1, .s 24, 16⟩) := by decide +kernel
theorem test_decode_send : decode (word 0x14000038 0x00000718 0) = .ok (.send ⟨{}, .s 20, 24⟩) := by decide +kernel
theorem test_decode_callat : decode (word 0x1400003C 0x03C00718 0xE) = .ok (.callat ⟨{}, .s 20, 24, .s 30, 14⟩) := by decide +kernel
theorem test_decode_ild_s : decode (word 0x15000044 0x03200716 0) = .ok (.ildS ⟨{}, .s 21, .s 22, .s 25⟩) := by decide +kernel
theorem test_decode_vfma : decode (word 0x0504A064 0x20E00906 0) = .ok (.vfma ⟨⟨.eng 1 false, {}⟩, .f32, .rz, 4, 5, 6, 7⟩) := by decide +kernel
theorem test_decode_vcmp : decode (word 0x0401A466 0x00200705 0) = .ok (.vcmp ⟨{}, .f32, .gt, .any 1, 4, 5⟩) := by decide +kernel
theorem test_decode_vcvt : decode (word 0x0406A96A 0xA2A00714 1) = .ok (.vcvt ⟨{}, .f32, .bf16, .sr, 6, 4, .s 20, .s 21, 1⟩) := by decide +kernel
theorem test_decode_mma : decode (word 0x00000095 0x00000701 0) = .ok (.mma ⟨{}, 0, 0, 1, 0, 0⟩) := by decide +kernel
theorem test_decode_mma_scaled : decode (word 0x02010095 0x00000703 0x1514) = .ok (.mma ⟨{}, 1, 2, 3, 20, 21⟩) := by decide +kernel
theorem test_decode_ttset : decode (word 0x1600018D 0x00000700 2) = .ok (.ttset ⟨{}, 22, true, false⟩) := by decide +kernel
theorem test_decode_cpy : decode (word 0x19180088 0x0360071A 0x4175) = .ok (.cpy ⟨{}, .rne, 24, 25, 26, 27, true, false, false, false, false, false, true, .bf16, .f32⟩) := by decide +kernel
theorem test_decode_armenter : decode (word 0x181900A0 0x00000700 1) = .ok (.armenter ⟨{}, 25, 24, true⟩) := by decide +kernel
theorem test_decode_armstat : decode (word 0x001400A1 0x00000700 2) = .ok (.armstat ⟨{}, .s 20, 2⟩) := by decide +kernel
theorem test_decode_chstep : decode (word 0x140000AA 0x00000716 0) = .ok (.chstep ⟨{}, .s 20, .s 22⟩) := by decide +kernel
theorem test_decode_chmask : decode (word 0x141700AB 0x00000716 2) = .ok (.chmask ⟨{}, .s 23, .s 20, .s 22, 2⟩) := by decide +kernel
theorem test_decode_spick : decode (word 0x144200AF 0x03400715 5) = .ok (.spick ⟨{}, 2, 20, 21, 26, 5, 0⟩) := by decide +kernel
theorem test_decode_lea : decode (word 0x10180304 0x00400718 0) = .ok (.lea ⟨{}, .s 24, .s 16, .s 24, 2, 0⟩) := by decide +kernel
theorem test_decode_fence : decode (word 0x00000030 0x05400700 0) = .ok (.fence ⟨{}, .rel, .sys⟩) := by decide +kernel
theorem test_decode_ireg : decode (word 0x1A000042 0x0000071B 0) = .ok (.ireg ⟨{}, .s 26, .s 27⟩) := by decide +kernel
theorem test_decode_ist : decode (word 0x1A000043 0x00000719 0) = .ok (.ist ⟨{}, .s 26, .s 25⟩) := by decide +kernel
theorem test_decode_ild_u : decode (word 0x1C000144 0x03201321 0) = .ok (.ildU ⟨⟨.pred 3 true, {}⟩, .s 28, .s 33, .s 25⟩) := by decide +kernel
theorem test_decode_vtadv : decode (word 0x1D200140 0x00000700 0) = .ok (.vtadv ⟨{}, .s 32, .s 29⟩) := by decide +kernel
theorem test_decode_and_imm : decode (word 0x171A8902 0x00000700 1) = .ok (.andImm ⟨{}, true, .s 26, .s 23, 1⟩) := by decide +kernel
theorem test_decode_cpy_held : decode (word 0x171B0088 0x0320081A 0x6000) = .ok (.cpy ⟨⟨.eng 0 false, {}⟩, .rne, 27, 23, 26, 25, true, true, false, false, false, false, false, .i8, .i8⟩) := by decide +kernel
theorem test_decode_movc_read : decode (word 0x001400E0 0x00000700 0x501) = .ok (.movcRead ⟨{}, .s 20, 1, 0x101⟩) := by decide +kernel
theorem test_decode_movc_write : decode (word 0x150000E0 0x00000700 0x1903) = .ok (.movcWrite ⟨{}, .s 21, 2, 0x103⟩) := by decide +kernel
theorem test_decode_resume_replay : decode (word 0x000000E2 0x00000700 0x9) = .ok (.resumeReplay ⟨{}, 1⟩) := by decide +kernel
theorem test_decode_rearm : decode (word 0x000100E3 0x00000700 0) = .ok (.rearm ⟨{}, 1, 0⟩) := by decide +kernel

/-! Words that the same chapters say are refused. -/

theorem test_refuse_operand : decode (word 0x55140001 0x00002216 0) = .error .c02 := by decide +kernel
theorem test_refuse_order_first : decode (word 0x55180420 0x02A00700 0x40) = .error .c01 := by decide +kernel
theorem test_refuse_acquire_nf : decode (word 0x14008029 0x03200715 8) = .error .c01 := by decide +kernel
theorem test_refuse_cas_queue : decode (word 0x14430928 0x05000115 0) = .error .c02 := by decide +kernel
theorem test_refuse_cas_nf : decode (word 0x14160929 0x05000115 0) = .error .c01 := by decide +kernel
theorem test_refuse_send_group : decode (word 0x14000038 0x0000073D 0) = .error .c02 := by decide +kernel
theorem test_refuse_callat_queue : decode (word 0x1400003C 0x03C00718 0xF) = .error .c02 := by decide +kernel
theorem test_refuse_ild_x : decode (word 0x15000044 0x23200716 0) = .error .c01 := by decide +kernel
theorem test_refuse_ild_fn : decode (word 0x15000244 0x03200716 0) = .error .c01 := by decide +kernel
theorem test_refuse_mma_queue : decode (word 0x02010095 0x00000703 0x1541) = .error .c02 := by decide +kernel
theorem test_refuse_ttset_state : decode (word 0x1600018D 0x00000700 1) = .error .c01 := by decide +kernel
theorem test_refuse_cpy_formats : decode (word 0x19180088 0x0360071A 0x4155) = .error .c01 := by decide +kernel
theorem test_refuse_chstep_guard : decode (word 0x140000AA 0x00000916 0) = .error .c02 := by decide +kernel
theorem test_refuse_spick_d : decode (word 0x141400AF 0x03400715 5) = .error .c02 := by decide +kernel
theorem test_refuse_spick_c : decode (word 0x144200AF 0x07800715 5) = .error .c02 := by decide +kernel
theorem test_refuse_spick_imm : decode (word 0x144200AF 0x03400715 0x00100005) = .error .c01 := by decide +kernel
theorem test_refuse_vcmp_d : decode (word 0x0404A466 0x00200705 0) = .error .c02 := by decide +kernel
theorem test_refuse_vcmp_condition : decode (word 0x0401A666 0x00200705 0) = .error .c01 := by decide +kernel
theorem test_refuse_vcvt_part : decode (word 0x0406A96A 0xA2A00714 2) = .error .c01 := by decide +kernel
theorem test_refuse_vcvt_sr : decode (word 0x0406406A 0xA2A00714 1) = .error .c01 := by decide +kernel
theorem test_refuse_armenter_d : decode (word 0x194500A0 0x00000700 1) = .error .c02 := by decide +kernel
theorem test_refuse_armenter_imm : decode (word 0x181900A0 0x00000700 3) = .error .c01 := by decide +kernel
theorem test_refuse_armenter_guard : decode (word 0x181900A0 0x00000900 1) = .error .c02 := by decide +kernel
theorem test_refuse_armstat_imm : decode (word 0x001400A1 0x00000700 5) = .error .c01 := by decide +kernel

/-! ### Ill-formed instructions, one for each check of WellFormed.lean -/

/-- An e-guard, which only an engine command may carry, and the guard p7, which is spelled `always`. -/
def onE : Ctl := { guard := .eng 1 false }
def onP7 : Ctl := { guard := .pred 7 false }
def cpy0 : CpyI := ⟨{}, .rne, 1, 2, 3, 0, false, false, false, false, false, false, false, .i8, .i8⟩

theorem test_wf_guard : (Instr.add ⟨onE, false, .s 1, .s 2, .s 3⟩).wf = false ∧ (Instr.vmov ⟨onP7, 1, 2⟩).wf = false ∧
    (Instr.ret ⟨onP7⟩).wf = false ∧ (Instr.vmov ⟨onE, 1, 2⟩).wf = true := by decide +kernel
theorem test_wf_rounding : (Instr.fadd ⟨{}, false, .sr, .s 1, .s 2, .s 3⟩).wf = false ∧
    (Instr.fsqrt ⟨{}, true, .sr, .s 1, .s 2⟩).wf = false ∧ (Instr.ffma ⟨{}, true, .sr, .s 1, .s 2, .s 3, .s 4⟩).wf = false ∧
    (Instr.vadd ⟨{}, .f32, .sr, 1, 2, 3⟩).wf = false ∧ (Instr.vsqrt ⟨{}, .f32, .sr, 1, 2⟩).wf = false ∧
    (Instr.vfma ⟨{}, .f32, .sr, 1, 2, 3, 4⟩).wf = false := by decide +kernel
theorem test_wf_conversion : (Instr.fcvt ⟨{}, .f32, .f32, .rne, .s 1, .s 2, .s 0, .s 0⟩).wf = false ∧
    (Instr.fcvt ⟨{}, .i32, .i64, .sr, .s 1, .s 2, .s 3, .s 4⟩).wf = false ∧
    (Instr.fcvt ⟨{}, .f32, .i64, .rne, .s 1, .s 2, .s 3, .s 0⟩).wf = false ∧
    (Instr.vcvt ⟨{}, .f32, .bf16, .rne, 1, 2, .s 0, .s 0, 2⟩).wf = false := by decide +kernel
theorem test_wf_frame : (Instr.frame ⟨{}, 20⟩).wf = false ∧ (Instr.frame ⟨{}, 48⟩).wf = true := by decide +kernel
theorem test_wf_order : (Instr.ld ⟨{}, .i8, .rel, .sys, .s 1, .s 2, 0⟩).wf = false ∧
    (Instr.st ⟨{}, .i8, .acq, .sys, .s 1, .s 2, 0⟩).wf = false ∧ (Instr.ldp ⟨{}, .ar, .sys, .s 1, .s 2, .s 3, 0⟩).wf = false ∧
    (Instr.stp ⟨{}, .ar, .sys, .s 1, .s 2, .s 3, 0⟩).wf = false ∧
    (Instr.amoAddNf ⟨{}, false, .acq, .sys, .s 1, .s 2, 0⟩).wf = false ∧
    (Instr.famoFaddF32Nf ⟨{}, .ar, .sys, .s 1, .s 2, 0⟩).wf = false ∧ (Instr.fence ⟨{}, .rlx, .sys⟩).wf = false := by
  decide +kernel
theorem test_wf_memory : (Instr.pf ⟨{}, 3, .s 1, 0⟩).wf = false ∧
    (Instr.amoCas ⟨{}, false, .rlx, .sys, 0, .s 1, .s 2, 0⟩).wf = false := by decide +kernel
theorem test_wf_barriers : (Instr.hbarArrive ⟨{}, .team, .sum, true, .s 1⟩).wf = false ∧
    (Instr.hbarArrive ⟨{}, .team, .none, false, .s 1⟩).wf = false ∧
    (Instr.hbarWait ⟨{}, .die, .none, false, .s 1⟩).wf = false ∧ (Instr.tlwait ⟨{}, .copy, .s 1, .s 2⟩).wf = false ∧
    (Instr.tlget ⟨{}, .matrix, .s 1, .s 0, 3⟩).wf = false ∧ (Instr.tlget ⟨{}, .matrix, .s 1, .s 2, 0⟩).wf = false := by
  decide +kernel
theorem test_wf_work : (Instr.send ⟨{}, .s 1, 0⟩).wf = false ∧ (Instr.send ⟨{}, .s 1, 0x3D⟩).wf = false ∧
    (Instr.bind ⟨{}, .s 1, .s 0, 15, .regs, 0, false, 0⟩).wf = false ∧
    (Instr.bind ⟨{}, .s 1, .s 2, 3, .regs, 0, false, 0⟩).wf = false ∧
    (Instr.bind ⟨{}, .s 1, .s 0, 3, .regs, 0, false, 1⟩).wf = false ∧ (Instr.unbind ⟨{}, 15⟩).wf = false ∧
    (Instr.spawn ⟨{}, 7, .s 1, 2, .s 3⟩).wf = false ∧ (Instr.callat ⟨{}, .s 1, 2, .s 3, 15⟩).wf = false ∧
    (Instr.reply ⟨{}, 0⟩).wf = false ∧ (Instr.fork ⟨{}, 7, .s 1, 2, 0⟩).wf = false ∧
    (Instr.iqry ⟨{}, .s 1, .s 2, 6⟩).wf = false := by decide +kernel
theorem test_wf_vector : (Instr.vins ⟨{}, .f64, 1, .s 2, 2⟩).wf = false ∧ (Instr.vext ⟨{}, .i32, 1, 2, 4⟩).wf = false ∧
    (Instr.vmin ⟨{}, .i32, 1, 2, 3⟩).wf = false ∧ (Instr.vabs ⟨{}, .i32, 1, 2⟩).wf = false ∧
    (Instr.viadd ⟨{}, .f32, 1, 2, 3⟩).wf = false ∧ (Instr.vcmp ⟨{}, .e4m3, .eq, .mask 1, 2, 3⟩).wf = false ∧
    (Instr.vcmp ⟨{}, .f32, .un, .mask 1, 2, 3⟩).wf = false ∧ (Instr.vred ⟨{}, .i32, .sum, .rz, 1, 2⟩).wf = false := by
  decide +kernel
theorem test_wf_copies : (Instr.cpy cpy0).wf = true ∧ (Instr.cpy { cpy0 with conv := true }).wf = false ∧
    (Instr.cpy { cpy0 with cc := 1 }).wf = false ∧ (Instr.cpy { cpy0 with cred := true, cc := 0x3E }).wf = false ∧
    (Instr.cpy2 { cpy0 with zd := true }).wf = false ∧ (Instr.cpy2 { cpy0 with b := 0x3F }).wf = false ∧
    (Instr.cpyg { cpy0 with conv := true, sfmt := .e2m1 }).wf = false ∧ (Instr.ttget ⟨{}, 1, 3⟩).wf = false := by
  decide +kernel
theorem test_wf_units : (Instr.msta ⟨{}, 1, 3⟩).wf = false ∧ (Instr.armstat ⟨{}, .s 1, 5⟩).wf = false ∧
    (Instr.chmask ⟨{}, .s 1, .s 2, .s 3, 1025⟩).wf = false ∧ (Instr.chstat ⟨{}, .s 1, .s 2, 3⟩).wf = false ∧
    (Instr.smaxl ⟨{}, 1, 2, 3, 0, 0, 0⟩).wf = false ∧ (Instr.smaxl ⟨{}, 1, 2, 3, 4, 1, 0⟩).wf = false ∧
    (Instr.swsum ⟨{}, 1, 2, 3, 63, 1, 0⟩).wf = false ∧ (Instr.spick ⟨{}, 1, 2, 3, 60, 1, 0⟩).wf = false ∧
    (Instr.sgreedy ⟨{}, 1, 2, 3, 4, 4097, 0⟩).wf = false := by decide +kernel

/-! ### Witnesses -/

/-- Ready holds of a concrete state. -/
theorem ready_of {s : State} {c : Ctl} {srcs dsts : List SOp} {ps : List PReg}
    (h : ((mfind? s.parts s.cur.p).isSome && decide (guardNow s.me c = some true) &&
      decide (hazard s.me srcs dsts ps = none)) = true) : Ready s c srcs dsts ps := by
  simp only [Bool.and_eq_true, decide_eq_true_eq] at h
  exact ⟨h.1.1, h.1.2, h.2⟩

/-- A slot that runs, with registers s0 to s15. -/
def regs (l : NMap Word) : Slot := { st := .ready, pc := 0x1000, regs := l }
/-- A step leaves register n of the issuing slot with a value. -/
def leaves (i : Instr) (s : State) (n : Nat) (v : Word) : Bool := ends (exec i s) fun t => readReg t.me n == v && t.me.pc == 0x100C

/-- s1 is the most negative number, s2 all ones, q1 holds 7 then 5; p0 is true. -/
def a1 : State := one { regs [(1, 0x8000000000000000), (2, 0xFFFFFFFFFFFFFFFF)] with queues := [(1, [7, 5])], preds := 1 }

theorem witness_IntegerRegisterForms : Ready a1 {} [.s 1, .s 2] [.s 3] [] ∧
    leaves (.div ⟨{}, false, .s 3, .s 1, .s 2⟩) a1 3 0x8000000000000000 = true := ⟨ready_of (by decide +kernel), by decide +kernel⟩
theorem witness_IntegerRegisterForms_queue : Ready a1 ⟨.pred 0 false, {}⟩ [.q 1, .q 1] [.q 1] [] ∧
    ends (exec (.sub ⟨⟨.pred 0 false, {}⟩, true, .q 1, .q 1, .q 1⟩) a1) (fun t => queueOf t.me 1 == [2]) = true :=
  ⟨ready_of (by decide +kernel), by decide +kernel⟩
theorem witness_IntegerRegisterForms_zero : Ready a1 {} [.s 1, .s 0] [.s 0] [] ∧
    leaves (.remn ⟨{}, false, .s 0, .s 1, .s 0⟩) a1 0 0 = true := ⟨ready_of (by decide +kernel), by decide +kernel⟩
theorem witness_IntegerImmediateForms : Ready a1 {} [.s 1] [.s 3] [] ∧
    leaves (.mulhnImm ⟨{}, false, .s 3, .s 1, 0xFFFFFFFF⟩) a1 3 0x7FFFFFFF = true ∧
    leaves (.addImm ⟨{}, true, .s 3, .s 2, 0x80000000⟩) a1 3 0x7FFFFFFF = true :=
  by and_intros <;> first | decide +kernel | (unfold Here; decide +kernel)
theorem witness_UnaryIntegerForms : Ready a1 {} [.s 1] [.s 3] [] ∧ leaves (.clz ⟨{}, false, .s 3, .s 0⟩) a1 3 64 = true ∧
    leaves (.ctz ⟨{}, true, .s 3, .s 1⟩) a1 3 32 = true ∧
    leaves (.bswap ⟨{}, false, .s 3, .s 1⟩) a1 3 0x80 = true ∧ leaves (.abs ⟨{}, false, .s 3, .s 1⟩) a1 3 (1 <<< 63) = true ∧
    leaves (.sextI8 ⟨{}, .s 3, .s 2⟩) a1 3 (BitVec.allOnes 64) = true ∧ leaves (.zextN16 ⟨{}, .s 3, .s 2⟩) a1 3 0xFFFF = true :=
  by and_intros <;> first | decide +kernel | (unfold Here; decide +kernel)
theorem witness_MovesAndAddresses : Ready a1 {} [.s 2] [.s 3] [] ∧ Ready a1 {} [] [.s 3] [] ∧ Ready a1 {} [.s 2] [.s 2] [] ∧
    Ready a1 {} [.s 1, .s 2] [.s 3] [] ∧ leaves (.mov ⟨{}, .s 3, .s 1⟩) a1 3 0x8000000000000000 = true ∧
    leaves (.movi ⟨{}, .s 3, 0x80000000⟩) a1 3 0xFFFFFFFF80000000 = true ∧
    leaves (.movhi ⟨{}, 2, 1⟩) a1 2 0x1FFFFFFFF = true ∧ leaves (.lea ⟨{}, .s 3, .s 2, .s 2, 3, 12⟩) a1 3 3 = true :=
  by and_intros <;> first | decide +kernel | (unfold Here; decide +kernel)

/-- A step leaves predicate n of the issuing slot with a value. -/
def leavesP (i : Instr) (s : State) (n : PReg) (b : Bool) : Bool := ends (exec i s) fun t => readP t.me n == b

theorem witness_Comparisons : Ready a1 {} [.s 1, .s 2] [] [1] ∧ Ready a1 {} [.s 1] [] [7] ∧
    leavesP (.cmp ⟨{}, false, .lt, 1, .s 1, .s 2⟩) a1 1 true = true ∧
    leavesP (.cmp ⟨{}, true, .ltn, 1, .s 1, .s 2⟩) a1 1 true = true ∧
    leavesP (.cmpImm ⟨{}, false, .gtn, 1, .s 2, 0xFFFFFFFF⟩) a1 1 true = true :=
  by and_intros <;> first | decide +kernel | (unfold Here; decide +kernel)

/-- e0 is resolved true. -/
def a2 : State := one { regs [(1, 0xFD)] with preds := 5, eguards := [(0, .known true)], queues := [(4, [1, 2, 3])] }

theorem witness_PredicateForms : Ready a2 {} [] [] [1, 0, 2] ∧ Ready a2 {} [] [] [1, 7] ∧ Ready a2 {} [] [.s 3] allPreds ∧
    Ready a2 {} [.s 1] [] allPreds ∧ Ready a2 {} [.s 1, .s 0] [.s 3] [1] ∧ eguard a2.me 0 = .known true :=
  by and_intros <;> first | decide +kernel | (unfold Here; decide +kernel)
theorem witness_PredicateForms_results : leavesP (.pandn ⟨{}, 1, 7, 0⟩) a2 1 false = true ∧
    leavesP (.pxor ⟨{}, 1, 0, 1⟩) a2 1 true = true ∧ leavesP (.pnot ⟨{}, 0, 2⟩) a2 0 false = true ∧
    leaves (.pget ⟨{}, .s 3⟩) a2 3 0x85 = true ∧ leavesP (.pset ⟨{}, .s 1, 3⟩) a2 1 false = true ∧
    leavesP (.pset ⟨{}, .s 1, 3⟩) a2 0 true = true ∧ leaves (.sel ⟨{}, .s 3, .s 1, .s 0, 1⟩) a2 3 0 = true ∧
    leaves (.qcnt ⟨{}, .s 3, 4⟩) a2 3 3 = true ∧ leavesP (.gete ⟨{}, 1, 0⟩) a2 1 true = true := by decide +kernel

/-- s1 is 1.0, s2 a signalling NaN, s3 −0, s4 2^-149 of f32; FSTAT.RM is toward zero. -/
def f1 : State := one { regs [(1, 0x3F800000), (2, 0x7FA00000), (3, 0x80000000), (4, 1)] with fstat := 0x100 }

theorem witness_FpRounded : Ready f1 {} [.s 1, .s 4] [.s 5] [] ∧ Ready f1 {} [.s 1] [.s 5] [] ∧
    Ready f1 {} [.s 1, .s 1, .s 4] [.s 5] [] ∧
    leaves (.fsub ⟨{}, false, .dyn, .s 5, .s 1, .s 4⟩) f1 5 0x3F7FFFFF = true ∧
    leaves (.fadd ⟨{}, false, .ru, .s 5, .s 1, .s 4⟩) f1 5 0x3F800001 = true ∧
    leaves (.fsqrt ⟨{}, false, .rne, .s 5, .s 3⟩) f1 5 0x80000000 = true ∧
    leaves (.fnma ⟨{}, false, .rz, .s 5, .s 1, .s 1, .s 1⟩) f1 5 0 = true :=
  by and_intros <;> first | decide +kernel | (unfold Here; decide +kernel)
theorem witness_FpSignsAndExtrema : Ready f1 {} [.s 2] [.s 5] [] ∧ Ready f1 {} [.s 3, .s 0] [.s 5] [] ∧
    leaves (.fabs ⟨{}, false, .s 5, .s 3⟩) f1 5 0 = true ∧ leaves (.fneg ⟨{}, false, .s 5, .s 2⟩) f1 5 0x7FC00000 = true ∧
    leaves (.fmin ⟨{}, false, .s 5, .s 0, .s 3⟩) f1 5 0x80000000 = true ∧
    leaves (.fmax ⟨{}, false, .s 5, .s 2, .s 1⟩) f1 5 0x3F800000 = true ∧
    leaves (.fcopysign ⟨{}, false, .s 5, .s 1, .s 3⟩) f1 5 0xBF800000 = true :=
  by and_intros <;> first | decide +kernel | (unfold Here; decide +kernel)
theorem witness_FpCompareConvertClassify : Ready f1 {} [.s 1, .s 2] [] [1] ∧ Ready f1 {} [.s 1, .s 0, .s 0] [.s 5] [] ∧
    Ready f1 {} [.s 4] [.s 5] [] ∧ leavesP (.fcmp ⟨{}, false, .un, 1, .s 1, .s 2⟩) f1 1 true = true ∧
    leaves (.fcvt ⟨{}, .f32, .f64, .rne, .s 5, .s 1, .s 0, .s 0⟩) f1 5 0x3FF0000000000000 = true ∧
    leaves (.fcvt ⟨{}, .i32, .f32, .rne, .s 5, .s 3, .s 0, .s 0⟩) f1 5 0xCF000000 = true :=
  by and_intros <;> first | decide +kernel | (unfold Here; decide +kernel)
theorem witness_NaNOperands : Machine.f32 ∈ [Machine.f32, Machine.f64] ∧ isNaN Machine.f32 0x7FA00000 ∧
    isSignalling Machine.f32 0x7FA00000 ∧ isNaN Machine.f32 0x7FC00000 ∧ ¬isSignalling Machine.f32 0x7FC00000 := by
  decide +kernel

/-- s1 is a code address, s2 one that is no multiple of 4. -/
def j1 : State := one (regs [(1, 0x2000), (2, 0x2002)])

theorem witness_Jumps : Ready j1 {} [] [] [] ∧ Ready j1 {} [.s 1] [] [] ∧ (baseTarget (sourceValue j1.me [.s 1] 0) 4).toNat % 4 = 0 ∧
    (baseTarget (sourceValue j1.me [.s 2] 0) 4).toNat % 4 ≠ 0 ∧
    ends (exec (.br ⟨{}, 0xFFFFFFFF⟩) j1) (fun t => t.me.pc == 0xFF4) = true ∧
    trapsWith (.jmp ⟨{}, .s 2, 4⟩) j1 5 = true :=
  by and_intros <;> first | decide +kernel | (unfold Here; decide +kernel)
theorem witness_SoftwareTraps : Ready j1 {} [] [] [] ∧ trapsWith (.trap ⟨{}, 9⟩) j1 0x38 = true ∧
    trapsWith (.brk ⟨{}, 9⟩) j1 0x30 = true := by and_intros <;> first | decide +kernel | (unfold Here; decide +kernel)

/-- A slot whose window is at its file's end, with and without a WSPILL region (64 registers at 0). -/
def c1 (wspill : Word) : State :=
  one { regs [(1, 0x2000), (2, 0x2001)] with wbase := 48, frames := [⟨16, none⟩], wspill := wspill, wregs := [(50, 9), (63, 4)] }

theorem witness_Calls : Ready j1 {} [] [] [] ∧ frameOk j1.me.frame ∧
    windowFree j1.me (j1.me.wbase + j1.me.frame - 1) (j1.me.wbase + j1.me.frame + 8) ∧
    spillFits j1.me (spillNeed j1.me (j1.me.wbase + j1.me.frame - 8 + 16)) = true ∧
    ends (exec (.call ⟨{}, 2⟩) j1) (fun t => t.me.pc == 0x1018 && readReg t.me 23 == 0x100C && t.me.wbase == 8) = true :=
  ⟨ready_of (by decide +kernel), by unfold frameOk; decide +kernel, by unfold windowFree; decide +kernel, by decide +kernel,
    by decide +kernel⟩
theorem witness_Calls_spill : Ready (c1 0) {} [] [] [] ∧ frameOk (c1 0).me.frame ∧
    windowFree (c1 0).me ((c1 0).me.wbase + (c1 0).me.frame - 1) ((c1 0).me.wbase + (c1 0).me.frame + 8) ∧
    spillFits (c1 0).me (spillNeed (c1 0).me ((c1 0).me.wbase + (c1 0).me.frame - 8 + 16)) = false ∧
    spillFits (c1 0x400000).me (spillNeed (c1 0x400000).me ((c1 0x400000).me.wbase + 24)) = true ∧
    trapsWith (.call ⟨{}, 2⟩) (c1 0) 0x18 = true ∧
    ends (exec (.call ⟨{}, 2⟩) (c1 0x400000)) (fun t => t.me.fillTo == some 8 && t.me.st == .blocked) = true :=
  ⟨ready_of (by decide +kernel), by unfold frameOk; decide +kernel, by unfold windowFree; decide +kernel, by and_intros <;> decide +kernel⟩
theorem witness_Calls_register : Ready j1 {} [.s 1] [] [] ∧ (baseTarget (sourceValue j1.me [.s 1] 0) 0).toNat % 4 = 0 ∧
    (baseTarget (sourceValue j1.me [.s 2] 0) 0).toNat % 4 ≠ 0 ∧ trapsWith (.callr ⟨{}, .s 2, 0⟩) j1 5 = true :=
  by and_intros <;> first | decide +kernel | (unfold Here; decide +kernel)
/-- A slot one call deep, with a return address in s23. -/
def r1 (ra : Word) : State :=
  one { regs [] with wbase := 8, frames := [⟨16, none⟩], wregs := [(8, 0x77), (15, ra)] }
theorem witness_Returns : Ready j1 {} [] [] [] ∧ j1.me.frames = [] ∧
    ends (exec (.ret ⟨{}⟩) j1) (fun t => t.me.st == .idle) = true :=
  by and_intros <;> first | decide +kernel | (unfold Here; decide +kernel)
theorem witness_Returns_caller : Ready (r1 0x3000) {} [] [] [] ∧ (r1 0x3000).me.frames = ⟨16, none⟩ :: [] ∧ frameOk 16 ∧
    frameOk (r1 0x3000).me.frame ∧ 16 - 8 ≤ (r1 0x3000).me.wbase ∧ depends (r1 0x3000).me [.s 23] = false ∧
    windowFree (r1 0x3000).me ((r1 0x3000).me.wbase + 8) ((r1 0x3000).me.wbase + (r1 0x3000).me.frame) ∧
    (readReg (r1 0x3000).me 23).toNat % 4 = 0 ∧ (readReg (r1 0x3001).me 23).toNat % 4 ≠ 0 :=
  ⟨ready_of (by decide +kernel), by decide +kernel, by unfold frameOk; decide, by unfold frameOk; decide +kernel,
    by decide +kernel, by decide +kernel, by unfold windowFree; decide +kernel, by decide +kernel, by decide +kernel⟩
theorem witness_Returns_results : ends (exec (.ret ⟨{}⟩) (r1 0x3000)) (fun t => t.me.pc == 0x3000 && readReg t.me 24 == 0x77) = true ∧
    trapsWith (.ret ⟨{}⟩) (r1 0x3001) 5 = true := by decide +kernel
theorem witness_FrameSize : Ready j1 {} [] [] [] ∧ frameOk j1.me.frame ∧ frameOk (48#32).toNat ∧
    windowFree j1.me (j1.me.wbase + min (48#32).toNat j1.me.frame) (j1.me.wbase + max (48#32).toNat j1.me.frame) ∧
    spillFits j1.me (spillNeed j1.me (j1.me.wbase + 48)) = true ∧
    spillFits (c1 0).me (spillNeed (c1 0).me ((c1 0).me.wbase + 24)) = false ∧
    ends (exec (.frame ⟨{}, 48⟩) j1) (fun t => t.me.frame == 48) = true ∧ trapsWith (.frame ⟨{}, 24⟩) (c1 0) 0x18 = true :=
  ⟨ready_of (by decide +kernel), by unfold frameOk; decide +kernel, by unfold frameOk; decide +kernel,
    by unfold windowFree; decide +kernel, by and_intros <;> decide +kernel⟩
/-- The state that a step leaves. -/
def after (i : Instr) (s : State) : State :=
  match exec i s with
  | .next t => t
  | _ => s
theorem witness_CallThenReturn : let s := one { regs [] with wregs := [(0, 1), (23, 2)] , frame := 32 }
    let t := after (.call ⟨{}, 2⟩) s
    let u := after (.ret ⟨{}⟩) t
    Ready s {} [] [] [] ∧ frameOk s.me.frame ∧ s.me.wbase + s.me.frame + 8 ≤ 64 ∧ s.me.spilled = 0 ∧
    exec (.call ⟨{}, 2⟩) s = .next t ∧ t.me.fillTo = none ∧ t.me.frames = ⟨s.me.frame, none⟩ :: s.me.frames ∧
    Ready t {} [] [] [] ∧ exec (.ret ⟨{}⟩) t = .next u ∧ u.me.frames = s.me.frames := by
  refine ⟨ready_of (by decide +kernel), by unfold frameOk; decide +kernel, by decide +kernel, by decide +kernel, ?_,
    by decide +kernel, by decide +kernel, ready_of (by decide +kernel), ?_, by decide +kernel⟩ <;>
  · unfold after; rfl
theorem witness_SpecialRegisterReads : Ready j1 {} [] [.s 3] [] ∧ (0x020#10).toNat = 0x020 ∧ (0x0FF#10).toNat ∉ specials.map (·.1) ∧
    (0x007#10).toNat ∉ specials.map (·.1) ∧ 0x100 ≤ (0x100#10).toNat ∧ leaves (.movs ⟨{}, .s 3, 0x020⟩) j1 3 1 = true ∧
    trapsWith (.movs ⟨{}, .s 3, 0x0FF⟩) j1 2 = true ∧ trapsWith (.movs ⟨{}, .s 3, 0x2FF⟩) j1 4 = true ∧
    trapsWith (.movs ⟨{}, .s 3, 0x300⟩) j1 2 = true :=
  ⟨ready_of (by decide +kernel), by decide, by decide, by decide, by decide, by and_intros <;> decide +kernel⟩
theorem witness_SpecialRegisterWrites : let s := one (regs [(1, 8), (2, 9)])
    Ready s {} [.s 1] [] [] ∧ sourceValue s.me [.s 1] 0 = 8 ∧ sourceValue s.me [.s 2] 0 = 9 ∧
    (0x000#10).toNat ∉ writableSpecials.map (·.1) ∧
    ends (exec (.movsw ⟨{}, .s 1, 0x020⟩) s) (fun t => userRead t t.cur 0x020 == some 8) = true ∧
    trapsWith (.movsw ⟨{}, .s 2, 0x020⟩) s 2 = true ∧ trapsWith (.movsw ⟨{}, .s 1, 0x000⟩) s 2 = true ∧
    trapsWith (.movsw ⟨{}, .s 1, 0x100⟩) s 4 = true :=
  ⟨ready_of (by decide +kernel), by decide +kernel, by decide +kernel, by decide, by and_intros <;> decide +kernel⟩
/-- Instruction lines 0x20 and 0x21 are cached. -/
def y1 : State :=
  one (regs [(1, 0x1000), (2, 128)]) (pl := { octets := [(0, { icache := [(0x20, []), (0x21, [])] })] })
theorem witness_Synci : Ready y1 {} [.s 1, .s 2] [] [] ∧ y1.me.sb = [] ∧ y1.me.unacked = [] ∧
    ends (exec (.synci ⟨{}, .s 1, .s 2⟩) y1) (fun t => (t.octet 0 0).icache == [(0x21, [])]) = true :=
  by and_intros <;> first | decide +kernel | (unfold Here; decide +kernel)

/-! Memory accesses. -/

/-- A machine whose virtual page 0 (512 MB at 0x20000000, every right, D set) is mapped; `d` without D. -/
def mapped (s : State) (d : Bool := true) : State :=
  { s with
    mem := [(0x10000, 1), (0x10002, 2), (0x20000, 0xF3)] ++ (if d then [(0x20001, 1)] else []) ++ [(0x20003, 0x20)] ++ s.mem,
    vfs := [(0, { enabled := true, ptroot := 0x10001 })] }

/-- s1 names the own scratchpad, s2 is data, s3 another core's scratchpad, s4 a core outside, s5 virtual, s6 neither form. -/
def g1 : State := mapped (one (regs [(1, localAddr 0x40), (2, 0x8899AABBCCDDEEFF), (3, 0x8000000100000080),
  (4, 0x80000FFF00000080), (5, 0x128), (6, 0x0100000000000000)]))
def ldOf (a : SOp) (off : BitVec 32) : Instr := .ld ⟨{}, .i32, .rlx, .sys, .s 7, a, off⟩
def ldForm (a : SOp) (off : BitVec 32) : MemForm := {
  c := {}, srcs := [a], dsts := [.s 7], off := off, size := 4, kind := fun _ => .load 4 true, dst := fun y => dstOf y (.s 7) }
/-- The place that a global access of g1 names. -/
def placeOf (a : Word) (size : Nat) : Except AddrFault (Place × Nat) := globalPlace g1 0 0 a size size

theorem witness_GlobalAccesses : memForm (ldOf (.s 3) 4) = some (ldForm (.s 3) 4) ∧ Ready g1 {} [.s 3] [.s 7] [] ∧
    ((ldForm (.s 3) 4).ea g1).msb = true ∧ placeOf ((ldForm (.s 3) 4).ea g1) 4 = .ok (.spad 1, 0x84) ∧
    roomFor g1.me (.load 4 true) ∧
    ends (exec (ldOf (.s 3) 4) g1) (fun t => t.me.lq.length == 1 && t.me.pc == 0x100C) = true :=
  ⟨rfl, ready_of (by decide +kernel), by decide +kernel, by decide +kernel, by unfold roomFor; decide +kernel, by decide +kernel⟩
theorem witness_GlobalAccesses_misaligned :
    (match placeOf ((ldForm (.s 1) 2).ea g1) 4 with | .error f => f.cause == 6 | _ => false) = true ∧
    trapsWith (ldOf (.s 1) 2) g1 6 = true ∧ trapsWith (ldOf (.s 4) 0) g1 0x0B = true := by decide +kernel
theorem witness_GlobalAccesses_barrier : Ready g1 {} [.s 1, .s 2] [] [] ∧ isBarrier (.bar .wait 0) ∧
    placeOf (localAddr 0x40) 8 = .ok (.own 0, 0x40) ∧
    ends (exec (.barWait ⟨{}, .s 1, .s 2, 0⟩) g1) (fun t => t.me.wait == .barrier && t.me.pc == 0x1000) = true :=
  ⟨ready_of (by decide +kernel), trivial, by decide +kernel, by decide +kernel⟩
theorem witness_GlobalAddresses : placeOf (localAddr 0x3FFC) 4 = .ok (.own 0, 0x3FFC) ∧
    placeOf 0x8000007F00003FFC 4 = .ok (.spad 127, 0x3FFC) ∧
    (match placeOf (localAddr 0x4000) 4 with | .error f => f.cause == 0x0B | _ => false) = true ∧
    (match placeOf 0x8000008000000000 4 with | .error f => f.cause == 0x0B | _ => false) = true ∧
    (match placeOf (localAddr 0x20000000) 4 with | .error f => f.cause == 0x0B | _ => false) = true := by decide +kernel
theorem witness_VirtualAccesses : Ready g1 {} [.s 5] [.s 7] [] ∧ ((ldForm (.s 5) 0).ea g1).msb = false ∧
    ((ldForm (.s 5) 0).ea g1).toNat < 2 ^ 55 ∧ ((ldForm (.s 5) 0).ea g1).toNat % 4 = 0 ∧
    ((ldForm (.s 5) 1).ea g1).toNat % 4 ≠ 0 ∧ 2 ^ 55 ≤ ((ldForm (.s 6) 0).ea g1).toNat ∧ ((ldForm (.s 6) 0).ea g1).msb = false ∧
    ends (exec (ldOf (.s 5) 0) g1) (fun t => t.me.wait == .accept && t.me.pc == 0x1000) = true ∧
    trapsWith (ldOf (.s 5) 1) g1 6 = true ∧ trapsWith (ldOf (.s 6) 0) g1 8 = true ∧
    trapsWith (.barInit ⟨{}, .s 5, .s 2, 0⟩) g1 8 = true :=
  by and_intros <;> first | decide +kernel | (unfold Here; decide +kernel)
/-- Ranges: s1 an address, s2 a length, s3 no length, s4 too long a one, s5 past the end, s6 misaligned. -/
def g2 : State := one (regs [(1, 0x100), (2, 0x80), (4, 0x1000001), (5, 0x7FFFFFFFFFFF80), (6, 0x101)])
theorem witness_Ranges : Ready g2 {} [.s 1, .s 2] [] [] ∧ sourceValue g2.me [.s 1, .s 3] 1 = 0 ∧
    0x1000000 < (sourceValue g2.me [.s 1, .s 4] 1).toNat ∧
    2 ^ 55 < (sourceValue g2.me [.s 5, .s 1] 0).toNat + (sourceValue g2.me [.s 5, .s 1] 1).toNat ∧
    (sourceValue g2.me [.s 5, .s 2] 0).toNat + (sourceValue g2.me [.s 5, .s 2] 1).toNat ≤ 2 ^ 55 ∧
    (sourceValue g2.me [.s 6, .s 2] 0).toNat % 128 ≠ 0 ∧
    ends (exec (.czero ⟨{}, .s 1, .s 2⟩) g2) (fun t => t.me.wait == .accept) = true ∧
    ends (exec (.cclean ⟨{}, .s 6, .s 3⟩) g2) (fun t => t.me.pc == 0x100C) = true ∧
    trapsWith (.cflush ⟨{}, .s 1, .s 4⟩) g2 2 = true ∧ trapsWith (.cinv ⟨{}, .s 5, .s 1⟩) g2 8 = true ∧
    trapsWith (.czero ⟨{}, .s 6, .s 2⟩) g2 6 = true :=
  by and_intros <;> first | decide +kernel | (unfold Here; decide +kernel)
/-- A store not yet performed at .die. -/
def g3 : State := one { regs [] with unacked := [{ kind := .store [1], place := .home 0 }] }
theorem witness_FencesAndHints : Ready g3 {} [.s 1] [] [] ∧ Ready g3 {} [] [] [] ∧ g3.me.lq = [] ∧ g3.me.unacked ≠ [] ∧
    ends (exec (.pf ⟨{}, 1, .s 1, 0⟩) g3) (fun t => t.me.pc == 0x100C) = true ∧
    ends (exec (.fence ⟨{}, .rel, .cl⟩) g3) (fun t => t.me.pc == 0x100C) = true ∧
    ends (exec (.fence ⟨{}, .rel, .die⟩) g3) (fun t => t.me.pc == 0x1000 && t.me.wait == .memory) = true :=
  by and_intros <;> first | decide +kernel | (unfold Here; decide +kernel)
theorem witness_AtomicValues : (amoNew .min 32 0x80000000 0 0).1 = 0x80000000 ∧ (amoNew .minn 32 0x80000000 0 0).1 = 0 ∧
    (amoNew .add 64 (2 ^ 64 - 1) 1 0).1 = 0 ∧ (amoNew .cas 32 5 9 5).1 = 9 ∧ (amoNew .cas 32 5 9 6).1 = 5 ∧
    isNaN Machine.f32 0x7F800001 ∧ ¬isNaN Machine.f32 0x7F800000 ∧
    amoNew .faddBf16x2 32 0x3F803F80 0x3F807FC0 0 = (0x40007FC0, fNV) := by decide +kernel
/-- A barrier object of phase 1 with one arrival to come. -/
def bo : Bar := ⟨true, 2 ^ 30 - 1, 1, 0xFFFF⟩
/-- The word and the answer of an operation that is done. -/
def barDone (o : BarOp) (b : Bar) (v w : Word) (n : Nat) : Bool :=
  match barOp o b v with
  | .done x r => x.word == w.toNat && r == n
  | _ => false
theorem witness_BarrierObjects : bo.pend < 2 ^ 16 ∧ bo.expect < 2 ^ 16 ∧ -2 ^ 30 ≤ bo.bytes ∧ bo.bytes < 2 ^ 30 ∧ 0 < bo.pend ∧
    barDone .init bo 0xFFFF 0xFFFFFFFF 0 = true ∧ barDone .arrivex bo (-(2 ^ 30 - 1)) 0xFFFFFFFF 1 = true ∧
    barDone .wait bo 0 (BitVec.ofNat 64 bo.word) 0 = true ∧
    (match barOp .init bo 0x10000, barOp .expect bo 1, barOp .arrive { bo with pend := 0 } 0, barOp .wait bo 1 with
     | .trap, .trap, .trap, .wait => true | _, _, _, _ => false) = true := by decide +kernel

/-- A delivered access of slot 0 of core 0. -/
def d1 (e : Acc) : State :=
  mapped { one { regs [] with lq := [{ acc := e, posted := true }] } (k := { spad := [(0x40, 0x80), (0x41, 0xFF)] }) (pl := { delivered := [e] }) with
    mem := [(0x20000040, 0x80), (0x20000041, 0xFF)] }
theorem witness_ScratchpadRequests : let e : Acc := { kind := .load 2 true, place := .spad 0, ea := localAddr 0x40, dst := .glob 3 }
    runs (d1 e) 0 = true ∧ ((d1 e).part 0).live.delivered[0]? = some e ∧ e.place = .spad 0 ∧
    ends (exec (.remoteScratchpadRequest 0 0) (d1 e)) (fun t => (t.part 0).live.resps == [(e, { v := 0xFFFFFFFFFFFFFF80 })]) = true ∧
    ends (exec (.remoteScratchpadRequest 0 0) (d1 { e with kind := .store [5, 6] }))
      (fun t => (t.coreAt 0 0).spad == [(0x40, 5), (0x41, 6)]) = true := by decide +kernel
/-- A leaf of the mapped page at the line 0x20000000. -/
def lf : Leaf := { pa := 0x20000040, entry := 0x20000 }
theorem witness_HomePerforms : let e : Acc := { core := 2 ^ 20, kind := .load 2 true, place := .home 0, ea := 0x40, leaf := lf }
    let f : Acc := { e with kind := .amo .add true true 0xFFFF8080 0 }
    runs (d1 e) 0 = true ∧ ((d1 e).part 0).live.delivered[0]? = some e ∧ (d1 e).memErrors = [] ∧ e.caches = none ∧
    logUsed ((d1 e).part 0) + 2 ≤ ((d1 e).part 0).logCap ∧ ((d1 e).cluster 0 0).l2 = [] ∧ lineLocked (d1 e) 0 0 = false ∧
    lineHeld ((d1 e).part 0).live (e.off / 128) = false ∧ lineBusy (d1 e) 0 (e.off / 128) = false ∧ e.leaf.d = true ∧
    ends (exec (.perform 0 0) (d1 e)) (fun t => (t.part 0).live.resps == [(e, { v := 0xFFFFFFFFFFFFFF80 })]) = true ∧
    ends (exec (.perform 0 0) (d1 { e with kind := .store [7, 0] })) (fun t => memByte t 0x20000040 == 7 && memByte t 0x20000041 == 0) = true ∧
    ends (exec (.perform 0 0) (d1 f)) (fun t => (t.part 0).live.resps == [(f, { v := 0xFF80 })] && physRead t 0x20000040 4 == [0, 0x80, 0, 0]) = true := by
  decide +kernel
/-- The same access by core 0, which holds its line as sevens, or holds none. -/
def d2 (k : AccKind) (st : LineState) : State := d1 { kind := k, place := .home 0, ea := 0x40, leaf := lf } |> fun s =>
  updCore s 0 0 fun c => { c with l1 := [(0, { st := st, data := List.replicate 128 7 })] }
theorem witness_HomePerforms_cached : let e : Acc := { kind := .store [9, 8], place := .home 0, ea := 0x40, leaf := lf }
    ((d2 e.kind .e).part 0).live.delivered[0]? = some e ∧ e.caches = some 0 ∧ e.byHost = false ∧ lineLocked (d2 e.kind .e) 0 0 = false ∧
    (copyAt (d2 e.kind .e) 0 0 0).map (fun l => (l.usable, l.cutDirty, l.data.length)) = some (true, false, 128) ∧
    ends (exec (.perform 0 0) (d2 e.kind .e)) (fun t => ((copyAt t 0 0 0).map fun l => (l.st, l.dirty, l.data.getD 65 0)) ==
      some (.m, true, 8) && memByte t 0x20000040 == 0x80) = true ∧
    ends (exec (.perform 0 0) (d2 (.load 2 true) .s)) (fun t => (t.part 0).live.resps.map (·.2.v) == [0x707]) = true ∧
    exec (.perform 0 0) (d2 e.kind .s) = .next (d2 e.kind .s) := by
  refine ⟨by decide +kernel, by decide +kernel, by decide +kernel, by decide +kernel, ?_⟩
  refine ⟨by decide +kernel, by decide +kernel, by decide +kernel, rfl⟩
/-- A slot whose load of s5 waits for its home. -/
def h1 (a : Word) : State := after (ldOf (.s 5) 0) (mapped (one (regs [(5, a)])))
theorem witness_HomeAnswers : ∃ pd, runs (h1 0x128) 0 = true ∧ (h1 0x128).cur = ⟨0, 0, 0⟩ ∧ (h1 0x128).me.pend = some pd ∧
    pd.acc = none ∧ pd.rearm = none ∧ lacksEntry (h1 0x128).me pd.op.srcs = false ∧ (match
      (acceptVa (h1 0x128) 0 0 0x128 .read false).2 with | .ok (l, win) => l.pa == 0x20000128 && !win | _ => false) = true ∧
    (match (acceptVa (h1 0x20000000) 0 0 0x20000000 .read false).2 with | .error r => r.cause == 7 | _ => false) = true ∧
    ends (exec (.accessAccept ⟨0, 0, 0⟩ false) (h1 0x128)) (fun t => t.me.pc == 0x100C && t.me.lq.length == 1) = true ∧
    ends (exec (.accessAccept ⟨0, 0, 0⟩ false) (h1 0x20000000)) (fun t => t.me.cause == 7 && t.me.st == .parked) = true :=
  ⟨((h1 0x128).me.pend).getD {}, by and_intros <;> decide +kernel⟩
/-- An accepted load and store of slot 0, with a store of the same bytes before the load. -/
def q1 : State := one { regs [] with
  lq := [{ acc := { id := 3, kind := .load 1 false, place := .home 0, ea := 0x90, leaf := lf, dst := .glob 3 } }],
  sb := [{ id := 2, kind := .store [9], place := .home 0, ea := 0x80, leaf := lf }] }
theorem witness_OrderingSteps_post : runs q1 0 = true ∧ (q1.slotAt 0 0 0).lq = [] ++ (q1.me.lq.headD {}) :: [] ∧
    (q1.me.lq.headD {}).posted = false ∧ (∀ f ∈ (q1.slotAt 0 0 0).sb, f.overlaps (q1.me.lq.headD {}).acc = false) ∧
    (q1.me.lq.headD {}).acc.own = false ∧
    ends (exec (.postALoad ⟨⟨0, 0, 0⟩, 0⟩) q1) (fun t => (t.part 0).live.chans.length == 1) = true ∧
    ends (exec (.postAStoreBufferEntry ⟨⟨0, 0, 0⟩, 0⟩) q1) (fun t => t.me.sb == [] && t.me.unacked.length == 1) = true := by
  decide +kernel
/-- One message in a channel, and one response. -/
def q2 : State :=
  let e : Acc := { kind := .load 1 false, place := .home 0, ea := 0x90, leaf := lf, dst := .glob 3 }
  one { regs [] with lq := [{ acc := e, posted := true }] } (pl := { chans := [(0, .request, e)], resps := [(e, { v := 7 })] })
theorem witness_OrderingSteps_rest : runs q2 0 = true ∧ (q2.part 0).live.chans.length = 1 ∧ (q2.part 0).live.resps.length = 1 ∧
    ends (exec (.deliver 0 0) q2) (fun t => (t.part 0).live.delivered.length == 1 && (t.part 0).live.chans == []) = true ∧
    ends (exec (.respReturn 0 0) q2) (fun t => readReg t.me 3 == 7 && t.me.lq == []) = true := by decide +kernel
/-- A load whose bytes the store buffer holds. -/
def q3 : State := one { regs [] with
  lq := [{ acc := { id := 3, kind := .load 1 true, place := .home 0, ea := 0x81, leaf := lf, dst := .glob 3 } }],
  sb := [{ id := 2, kind := .store [9, 0xFE], place := .home 0, ea := 0x80, leaf := lf }] }
theorem witness_OrderingSteps_forward : runs q3 0 = true ∧ (forwardValue (q3.slotAt 0 0 0) 3).isSome = true ∧
    ends (exec (.forward ⟨0, 0, 0⟩ 3) q3) (fun t => readReg t.me 3 == 0xFFFFFFFFFFFFFFFE && t.me.lq == []) = true := by
  decide +kernel

/-! Barriers across cores, timelines, messages, tasks. -/

/-- Cores 0 and 1 of launch 1; core 0's slot 0 has the given contents. -/
def launched (x : Slot) (k : Core := {}) (pl : PLive := {}) : State :=
  let l : PLive := { pl with
    cores := [(0, { k with slots := [(0, x)], launch := some 1, teamSize := 2 }), (1, { launch := some 1, teamSize := 2 })],
    launches := [{ id := 1, launchId := 9, taskBase := 0x50, cores := [0, 1], started := true }] }
  { one x with parts := [(0, { clusters := [0], live := l })] }
def b1 : State := launched (regs [(1, 5)])
/-- Both cores have arrived with a sum; core 0 alone has. -/
def b2 (l : List (Nat × Word × Red × Bool)) : State :=
  { b1 with
    parts := [(0, { clusters := [0], live := { b1.myPart.live with
      cores := [(0, { slots := [(0, { st := .blocked, wait := .phase })], launch := some 1, teamSize := 2, hbar := [(0, { joined := some 0 })] }),
                (1, { launch := some 1, teamSize := 2, hbar := [(0, { joined := some 0 })] })],
      hphases := [{ inst := 2 ^ 40, arrived := l }] } })] }
theorem witness_BarrierLevels : Ready b1 {} [.s 1] [] [] ∧ hbarOpen b1 0 0 .team = false ∧ performedAt b1.me (levelScope .team) ∧
    ends (exec (.hbarArrive ⟨{}, .team, .sum, false, .s 1⟩) b1) (fun t => t.me.pc == 0x100C && hbarOpen t 0 0 .team) = true ∧
    hbarOpen (after (.hbarArrive ⟨{}, .team, .none, false, .s 0⟩) b1) 0 0 .team = true ∧
    ends (exec (.hbarWait ⟨{}, .team, .sum, false, .s 2⟩) b1) (fun t => t.me.pc == 0x100C) = true ∧
    ends (exec (.hbarWait ⟨{}, .team, .sum, false, .s 2⟩) (after (.hbarArrive ⟨{}, .team, .sum, false, .s 1⟩) b1))
      (fun t => t.me.wait == .phase) = true :=
  ⟨ready_of (by decide +kernel), by decide +kernel, by unfold performedAt; decide +kernel, by and_intros <;> decide +kernel⟩
theorem witness_BarrierLevels_complete : runs (b2 [(0, 5, .sum, false)]) 0 = true ∧
    (((b2 [(0, 5, .sum, false)]).part 0).live.hphases.all fun h => samePhase .team (2 ^ 40) h) = true ∧
    hbarCores (b2 [(0, 5, .sum, false)]) 0 0 .team = [0, 1] ∧
    exec (.hbarPhaseComplete 0 .team (2 ^ 40)) (b2 [(0, 5, .sum, false)]) = .next (b2 [(0, 5, .sum, false)]) ∧
    ends (exec (.hbarPhaseComplete 0 .team (2 ^ 40)) (b2 [(0, 5, .sum, false), (1, 8, .sum, false)]))
      (fun t => (mget ({} : Hbar) (t.coreAt 0 1).hbar 0).result == 13 && (t.part 0).live.hphases == []) = true := by
  refine ⟨by decide +kernel, by decide +kernel, by decide +kernel, ?_, by decide +kernel⟩; rfl
theorem witness_BarrierReductions : ((0, 5, Red.min, true) : Nat × Word × Red × Bool) ∈ [(1, 9, Red.min, true), (0, 5, .min, true)] ∧
    hbarReduce [(1, 9, .min, true), (0, 5, .min, true)] = 5 ∧
    hbarReduce [(0, BitVec.allOnes 64, .max, false), (1, 1, .max, false)] = 1 ∧
    hbarReduce [(0, BitVec.allOnes 64, .max, true), (1, 1, .max, true)] = BitVec.allOnes 64 ∧
    hbarReduce [(0, BitVec.allOnes 64, .sum, true), (1, 2, .sum, true)] = 1 := by decide +kernel

/-- The copy engine has completed 3 of 4 commands; context 0 of the launch has completed 1 of 2. -/
def t1 : State := launched { regs [(1, 3), (2, 4)] with lastCopy := 4, lastChisel := [(0, 2)] } (k := { cq := { assigned := 4, completed := 3 } })
  (pl := { clusters := [(0, { ctxs := [(0, { launch := some 1, assigned := 2, completed := 1 })] })] })
theorem witness_Timelines : Ready t1 {} [.s 1] [] [] ∧ Ready t1 {} [] [.s 3] [] ∧ t1.me.replayNum ≤ (engQ t1.mine .copy).completed ∧
    (sourceValue t1.me [.s 1] 0).toNat ≤ (engQ t1.mine .copy).completed ∧
    (engQ t1.mine .copy).completed < (sourceValue t1.me [.s 2] 0).toNat ∧ t1.mine.frecs = [] ∧
    ends (exec (.tlwait ⟨{}, .copy, .s 1, .s 0⟩) t1) (fun t => t.me.pc == 0x100C) = true ∧
    ends (exec (.tlwait ⟨{}, .copy, .s 2, .s 0⟩) t1) (fun t => t.me.wait == .timeline) = true ∧
    leaves (.tlget ⟨{}, .copy, .s 3, .s 0, 0⟩) t1 3 4 = true ∧ leaves (.tlget ⟨{}, .copy, .s 3, .s 0, 1⟩) t1 3 3 = true :=
  by and_intros <;> first | decide +kernel | (unfold Here; decide +kernel)
theorem witness_Timelines_chisel : Ready t1 {} [.s 1, .s 0] [] [] ∧ t1.variant ≠ .s16 ∧
    openCtx t1 (sourceValue t1.me [.s 1, .s 0] 1) = some { launch := some 1, assigned := 2, completed := 1 } ∧
    ends (exec (.tlwait ⟨{}, .chisel, .s 1, .s 0⟩) t1) (fun t => t.me.wait == .timeline) = true ∧
    ends (exec (.tlwait ⟨{}, .chisel, .s 0, .s 0⟩) t1) (fun t => t.me.pc == 0x100C) = true ∧
    leaves (.tlget ⟨{}, .chisel, .s 3, .s 0, 2⟩) t1 3 2 = true :=
  by and_intros <;> first | decide +kernel | (unfold Here; decide +kernel)

/-- s1 names queue 3 of core 1, s2 queue 0, s3 queue 15, s4 a core outside the partition; s8 to s11 are a payload. -/
def m1 : State := launched { regs [(1, 0x8000000130000000), (2, 0x8000000100000000), (3, 0x80000001F0000000),
  (4, 0x80000FFF00000000), (5, 0x2000), (8, 11), (9, 12), (10, 13), (11, 14)] with route := some ⟨1, 14⟩ }
theorem witness_Messages_send : Ready m1 {} (.s 1 :: groupOps 8) [] [] ∧ (match target m1
      (sourceValue m1.me (.s 1 :: groupOps 8) 0) (fun _ => true) 0 with | .ok c => c == 1 | _ => false) = true ∧
    headerQueue (sourceValue m1.me (.s 1 :: groupOps 8) 0) = 3 ∧ m1.me.sb.length < 8 ∧
    ends (exec (.send ⟨{}, .s 1, 8⟩) m1) (fun t => t.me.wait == .message && t.me.sb.length == 1) = true ∧
    trapsWith (.send ⟨{}, .s 4, 8⟩) m1 0x0B = true ∧ trapsWith (.send ⟨{}, .s 5, 8⟩) m1 2 = true :=
  by and_intros <;> first | decide +kernel | (unfold Here; decide +kernel)
theorem witness_Messages_others : Ready m1 {} (.s 2 :: groupOps 8 ++ [.s 5]) [] [1] ∧
    (match target m1 (sourceValue m1.me [.s 2] 0) (· == 0) 0x2000 with | .ok c => c == 1 | _ => false) = true ∧
    ends (exec (.spawn ⟨{}, 1, .s 2, 8, .s 5⟩) m1) (fun t => t.me.wait == .spawnReply) = true ∧
    Ready m1 {} (.s 3 :: groupOps 8 ++ [.s 5]) [] [] ∧
    (match target m1 (sourceValue m1.me [.s 3] 0) (fun q => q == 0 || q == 15) 0x2000 with | .ok c => c == 1 | _ => false) = true ∧
    ends (exec (.callat ⟨{}, .s 3, 8, .s 5, 14⟩) m1) (fun t => t.me.wait == .message) = true ∧
    Ready m1 {} (groupOps 8) [] [] ∧ m1.me.route = some ⟨1, 14⟩ ∧
    ends (exec (.reply ⟨{}, 8⟩) m1) (fun t => t.me.wait == .message) = true ∧
    b1.me.route = none ∧ trapsWith (.reply ⟨{}, 8⟩) b1 0x0C = true :=
  by and_intros <;> first | decide +kernel | (unfold Here; decide +kernel)
/-- A message or a spawn delivered at core 0, whose queue 3 holds some messages. -/
def m2 (k : AccKind) (full : Bool) (st : SlotState) : State :=
  one { regs [] with st := st } (k := { inq := [(3, List.replicate (if full then 8 else 7) {})] })
    (pl := { delivered := [{ kind := k, place := .queue 0 }] })
theorem witness_MessageArrival : runs (m2 (.send 3 {} false) false .ready) 0 = true ∧
    timedOk (m2 (.send 3 {} false) false .ready) 0 0 3 {} = true ∧
    (mget [] ((m2 (.send 3 {} false) false .ready).coreAt 0 0).inq 3).length < 8 ∧
    8 ≤ (mget [] ((m2 (.send 3 {} false) true .ready).coreAt 0 0).inq 3).length ∧
    ends (exec (.perform 0 0) (m2 (.send 3 {} false) false .ready)) (fun t => (mget [] (t.coreAt 0 0).inq 3).length == 8) = true ∧
    ends (exec (.perform 0 0) (m2 (.send 3 {} false) true .ready)) (fun t => (t.part 0).live.delivered.length == 1) = true ∧
    ends (exec (.perform 0 0) (m2 (.spawn { pc := 0x40, pay := [1, 2, 3, 4] }) true .ready))
      (fun t => (t.slotAt 0 0 1).pc == 0x40 && readReg (t.slotAt 0 0 1) 17 == 2) = true := by decide +kernel
/-- Every user slot is taken. -/
def m3 : State := { one {} with
  parts := [(0, { clusters := [0], live := {
    cores := [(0, { slots := [(0, regs []), (1, regs []), (2, regs [])] })], delivered := [{ kind := .spawn {}, place := .queue 0 }] } })] }
theorem witness_MessageArrival_busy : (∀ k < 3, (m3.slotAt 0 0 k).st ≠ .idle) ∧
    ends (exec (.perform 0 0) m3) (fun t => (t.part 0).live.resps.map (·.2.v) == [0]) = true := by decide +kernel

/-- s1 a handler, s2 a ring in the scratchpad; group 2 exists. -/
def k1 : State := launched (regs [(1, 0x2000), (2, localAddr 0x100)]) (pl := { groups := [(2, {})] })
theorem witness_HandlersAndEnds : Ready k1 {} [.s 1, .s 2] [] [] ∧ (sourceValue k1.me [.s 1, .s 2] 0).toNat % 4 = 0 ∧
    (mfind? k1.myPart.live.groups 2).isSome = true ∧
    (match ringPlace k1 (sourceValue k1.me [.s 1, .s 2] 1) (32 * 2 ^ 7) with | .ok n => n == 0x100 | _ => false) = true ∧
    ends (exec (.bind ⟨{}, .s 1, .s 2, 14, .ring, 7, true, 2⟩) k1) (fun t => t.mine.binds ==
      [(14, { pc := 0x2000, land := .ring, ring := 7, base := 0x100, timed := true, grp := 2 })]) = true ∧
    ends (exec (.unbind ⟨{}, 14⟩) (after (.bind ⟨{}, .s 1, .s 0, 14, .regs, 0, false, 0⟩) k1)) (fun t => t.mine.binds == []) = true ∧
    ends (exec (.done ⟨{}⟩) k1) (fun t => t.me.st == .idle) = true ∧
    ends (exec (.yield ⟨{}, 0xFFFF⟩) k1) (fun t => t.me.wait == .yield 0xFFFF && t.me.pc == 0x1000) = true ∧
    ends (exec (.yield ⟨{}, 0⟩) k1) (fun t => t.me.skip && t.me.pc == 0x100C) = true ∧
    ends (exec (.yieldExpiry ⟨0, 0, 0⟩) (after (.yield ⟨{}, 9⟩) k1)) (fun t => t.me.pc == 0x100C && t.me.st == .ready) = true :=
  by and_intros <;> first | decide +kernel | (unfold Here; decide +kernel)
/-- An idle core with a call of queue 15, a bound queue 2, or a timed queue 5, or whose neighbour has tasks. -/
def v1 (q : Nat) (b : NMap Binding) (gs : NMap Group := []) : State :=
  launched {} (k := { inq := [(q, [{ pc := 0x80, pay := [7, 8, 9, 10], sender := 1 }])], binds := b }) (pl := { groups := gs })
def v2 : State := { launched {} with
  parts := [(0, { clusters := [0], live := { (launched {}).myPart.live with
    cores := [(0, { slots := [(0, {})], launch := some 1 }), (1, { launch := some 1, deque := [⟨0x90, [1, 2, 3, 4], 0x40, 5, []⟩] })] } })] }
theorem witness_Activations : runs (v1 15 []) 0 = true ∧ ((v1 15 []).slotAt 0 0 0).st = .idle ∧ nextQueue (v1 15 []) 0 0 = some 15 ∧
    (startable (v1 15 []) 0 0 15).isSome = true ∧
    ends (exec (.messageActivationStart ⟨0, 0, 0⟩) (v1 15 [])) (fun t => (t.slotAt 0 0 0).pc == 0x80 && readReg (t.slotAt 0 0 0) 19 == 10) = true ∧
    nextQueue (v1 2 [(2, { pc := 0x60, land := .ring, base := 0x100, seq := 3, ring := 1 })]) 0 0 = some 2 ∧
    ends (exec (.messageActivationStart ⟨0, 0, 0⟩) (v1 2 [(2, { pc := 0x60, land := .ring, base := 0x100, seq := 3, ring := 1 })]))
      (fun t => (t.slotAt 0 0 0).pc == 0x60 && readReg (t.slotAt 0 0 0) 16 == localAddr 0x120 && readReg (t.slotAt 0 0 0) 18 == 3) = true ∧
    nextQueue (v1 5 [(5, { pc := 0x70, timed := true, grp := 2 })] [(2, { members := [] })]) 0 0 = some 5 ∧
    ends (exec (.timedQueueActivation ⟨0, 0, 0⟩ 5) (v1 5 [(5, { pc := 0x70, timed := true, grp := 2 })] [(2, { members := [] })]))
      (fun t => (t.slotAt 0 0 0).pc == 0x70) = true ∧
    nextQueue v2 0 0 = none ∧ (v2.coreAt 0 0).launch.isSome = true ∧
    (thiefOrder 0).find? (fun c => sameLaunch v2 0 0 c && !(v2.coreAt 0 c).deque.isEmpty) = some 1 ∧
    ends (exec (.taskSteal ⟨0, 0, 0⟩) v2) (fun t => (t.slotAt 0 0 0).pc == 0x90 && (t.coreAt 0 1).deque == []) = true := by decide +kernel
/-- s1 names a join counter at 0x40 of the own scratchpad, with a value; s8 to s11 are arguments. -/
def w1 (n : Byte) (dq : List Task) (x : Slot := {}) : State :=
  launched { x with st := .ready, pc := 0x1000, regs := [(1, localAddr 0x40), (8, 1), (9, 2), (10, 3), (11, 4)] }
    (k := { spad := if n = 0 then [] else [(0x40, n)], deque := dq })
theorem witness_Tasks_fork : Ready (w1 0 []) {} (.s 1 :: groupOps 8) [] [1] ∧
    (match counterPlace (w1 0 []) (sourceValue (w1 0 []).me (.s 1 :: groupOps 8) 0) with | .ok _ => true | _ => false) = true ∧
    (w1 0 []).mine.deque.length < 16 ∧
    ends (exec (.fork ⟨{}, 1, .s 1, 8, 4⟩) (w1 0 [])) (fun t => t.me.wait == .message && t.me.sb.length == 1 && t.mine.deque == []) = true ∧
    16 ≤ (w1 0 (List.replicate 16 {})).mine.deque.length ∧
    ends (exec (.fork ⟨{}, 1, .s 1, 8, 4⟩) (w1 0 (List.replicate 16 {}))) (fun t => !readP t.me 1 && t.mine.spad == []) = true :=
  ⟨ready_of (by decide +kernel), by and_intros <;> decide +kernel⟩
theorem witness_Tasks_forked : let e : Acc := { kind := .fork 0 { pc := 0x70 }, place := .spad 0, ea := localAddr 0x40, dst := .pred 1 }
    e.byHost = false ∧ e.eng = none ∧ ends (exec (.remoteScratchpadRequest 0 0) (d1 e)) (fun t =>
      spadRead t 0 0 0x40 8 == [0x81, 0xFF, 0, 0, 0, 0, 0, 0] && (t.part 0).live.resps == [(e, { v := 1 })]) = true ∧
    ends (exec (.respReturn 0 0) (one (regs []) (pl := { resps := [(e, { v := 1 })] }))) (fun t =>
      (t.coreAt 0 0).deque.map (·.pc) == [0x70] && readP t.me 1 && t.me.pc == 0x100C) = true := by decide +kernel
theorem witness_Tasks_join : Ready (w1 0 []) {} [.s 1] [] [] ∧
    (match counterPlace (w1 2 []) (baseTarget (sourceValue (w1 2 []).me [.s 1] 0) 0) with | .ok c => counterRead (w1 2 []) 0 c == 2 | _ => false) = true ∧
    frameOk (w1 2 [{}]).me.frame ∧ windowFree (w1 2 [{}]).me 15 24 ∧
    spillFits (w1 2 [{}]).me (spillNeed (w1 2 [{}]).me 24) = true ∧
    ends (exec (.join ⟨{}, .s 1, 0⟩) (w1 0 [])) (fun t => t.me.pc == 0x1000 && t.me.lq.map (·.acc.kind) == [.join]) = true ∧
    ends (exec (.join ⟨{}, .s 1, 0⟩) (w1 2 [] { joinRead := some 2 })) (fun t => t.me.wait == .phase) = true ∧
    ends (exec (.join ⟨{}, .s 1, 0⟩) (w1 2 [] { joinRead := some 3 })) (fun t => t.me.lq.length == 1 && t.me.joinRead == none) = true ∧
    ends (exec (.join ⟨{}, .s 1, 0⟩) (w1 2 [{}, { pc := 0x500, regs := [5] }] { joinRead := some 2 }))
      (fun t => t.me.pc == 0x500 && readReg t.me 23 == 0x1000 && readReg t.me 16 == 5 && t.mine.deque == [{}]) = true :=
  ⟨ready_of (by decide +kernel), by decide +kernel, by unfold frameOk; decide +kernel, by unfold windowFree; decide +kernel, by and_intros <;> decide +kernel⟩
theorem witness_Tasks_done : Ready (w1 2 []) {} [] [] [] ∧ (w1 2 []).me.frames = [] ∧ (w1 2 []).me.joinAddr = none ∧
    (w1 2 [] { joinAddr := some 0x40 }).me.joinAddr = some 0x40 ∧
    ends (exec (.doneTask ⟨{}⟩) (w1 2 [])) (fun t => t.me.st == .idle && t.mine.spad == [(0x40, 2)]) = true ∧
    ends (exec (.doneTask ⟨{}⟩) (w1 2 [] { joinAddr := some 0x40 })) (fun t => t.me.st == .idle && t.mine.spad == [(0x40, 2)] &&
      t.me.sb.map (·.kind) == [.amo .add false false (-1) 0]) = true :=
  ⟨ready_of (by decide +kernel), by and_intros <;> decide +kernel⟩

/-! Virtual time and instars. -/

/-- A group of core 1 (step 3) and core 0 (step 4), with a settled key 0 of core 1 and an upstream key 1 of core 0. -/
def gr0 (joined : Bool) : Group := { launch := 1, lambda := 1, pool := 0, poolSize := 65536,
                                     members := [⟨1, 3, 0, true, false⟩, ⟨0, 4, 0, joined, false⟩] }
def i1 (joined : Bool := true) (vt : Word := 4) (x : Slot := {}) (keys : NMap Key := [
    (0, { writer := 0, keep := 6, stamps := [(0, 3), (1, 6)] }),
    (1, { writer := 1, keep := 6, kind := true, ord := 1, xlim := 13, base := 0x600, stamps := [(0, 4)] })]) : State :=
  mapped { launched { x with st := .ready, pc := 0x1000, regs := [(1, 0x600010000), (2, 5), (3, localAddr 0x300), (4, 4), (5, 1), (6, 0x605010002)] }
      (k := { vt := vt, spad := [(0x302, 0x20), (0x303, 0x40)] }) (pl := { groups := [(0, gr0 joined)], keys := keys }) with
    mem := [(0x20000002, 0x20), (0x20000003, 0x40), (0x20000102, 0x40), (0x20000103, 0x40)] }
/-- No group: s1 a time to come, s2 one that is past. -/
def vt0 : State := launched (regs [(1, 9), (2, 7), (3, 0xFFFFFFFFFFFFFFF8)]) (k := { vt := 8 })
theorem witness_VirtualTime : Ready vt0 {} [.s 1] [.s 4] [] ∧ membership vt0 0 0 = none ∧ vt0.mine.vt.toNat ≤ 9 ∧
    vt0.mine.vt.toNat + 9 < 2 ^ 64 ∧ istPending vt0.mine = false ∧
    ends (exec (.vtset ⟨{}, .s 4, .s 1⟩) vt0) (fun t => t.mine.vt == 9 && readReg t.me 4 == 9) = true ∧
    trapsWith (.vtset ⟨{}, .s 4, .s 2⟩) vt0 0x15 = true ∧
    ends (exec (.vtadv ⟨{}, .s 4, .s 2⟩) vt0) (fun t => t.mine.vt == 15 && readReg t.me 4 == 15) = true ∧
    trapsWith (.vtadv ⟨{}, .s 4, .s 3⟩) vt0 0x15 = true :=
  by and_intros <;> first | decide +kernel | (unfold Here; decide +kernel)
theorem witness_VirtualTime_member : Ready (i1) {} [.s 4] [.s 7] [] ∧
    (membership i1 0 0).map (fun e => (e.1, e.2.2.1, e.2.2.2.step)) = some (0, 1, 4) ∧ owesInstar i1 0 0 0 1 = false ∧
    ends (exec (.vtadv ⟨{}, .s 7, .s 4⟩) i1) (fun t => t.mine.vt == 8) = true ∧ trapsWith (.vtadv ⟨{}, .s 7, .s 5⟩) i1 0x15 = true ∧
    trapsWith (.vtset ⟨{}, .s 7, .s 2⟩) i1 0x15 = true :=
  by and_intros <;> first | decide +kernel | (unfold Here; decide +kernel)
/-- s1 names a descriptor of group 1 with cores 0 and 1, steps 3 and 4, Λ 1, pool 0x10000. -/
def ig (num : Byte) : State := launched (regs [(1, localAddr 0x100), (2, localAddr 0x104)])
  (k := { spad := [(0x100, num), (0x104, 2), (0x108, 1), (0x112, 1), (0x11A, 1), (0x127, 0x80), (0x128, 3), (0x13C, 1),
                   (0x13F, 0x80), (0x140, 4)] })
theorem witness_VirtualTime_group : Ready (ig 1) {} [.s 1] [] [] ∧ quiet (ig 1).me = true ∧
    ends (exec (.igrp ⟨{}, .s 1⟩) (ig 1)) (fun t => (mfind? t.myPart.live.groups 1).map (·.members) ==
      some [⟨0, 3, 0, false, false⟩, ⟨1, 4, 0, false, false⟩]) = true ∧
    trapsWith (.igrp ⟨{}, .s 2⟩) (ig 1) 6 = true ∧ trapsWith (.igrp ⟨{}, .s 1⟩) (ig 9) 0x13 = true :=
  by and_intros <;> first | decide +kernel | (unfold Here; decide +kernel)
theorem witness_VirtualTime_joins : Ready (i1 false 0) {} [] [] [] ∧ (mfind? (i1 false 0).myPart.live.groups 0).isSome = true ∧
    (memberOf (gr0 false) 0).map (·.1) = some 1 ∧ membership (i1 false 0) 0 0 = none ∧
    ends (exec (.ijoin ⟨{}, 0⟩) (i1 false 0)) (fun t => (membership t 0 0).isSome && t.me.pc == 0x100C) = true ∧
    ((i1 true 4 {} []).myPart.live.keys).all (fun e => e.2.writer != 1) = true ∧
    ends (exec (.ileave ⟨{}, 0⟩) (i1 true 4 {} [])) (fun t => (membership t 0 0).isNone && t.me.pc == 0x100C) = true :=
  by and_intros <;> first | decide +kernel | (unfold Here; decide +kernel)
theorem witness_KeysAndFloors : runs i1 0 = true ∧ (mfind? (i1.part 0).live.groups 0).isSome = true ∧
    ends (exec (.floorUpdate 0 0 3) i1) (fun t => seenFloor t 0 0 3 == 0) = true ∧ Ready i1 {} [.s 1] [.s 7] [] ∧
    (keyOf i1 0 0x600010000).isSome = true ∧ (keyOf i1 0 5).isNone = true ∧ leaves (.iqry ⟨{}, .s 7, .s 1, 0⟩) i1 7 6 = true ∧
    trapsWith (.iqry ⟨{}, .s 7, .s 2, 0⟩) i1 0x13 = true ∧ leaves (.iqry ⟨{}, .s 7, .s 1, 3⟩) i1 7 7 = true ∧
    leaves (.iqry ⟨{}, .s 7, .s 1, 4⟩) i1 7 4 = true ∧ leaves (.iqry ⟨{}, .s 7, .s 1, 5⟩) i1 7 1 = true :=
  by and_intros <;> first | decide +kernel | (unfold Here; decide +kernel)
theorem witness_KeysAndFloors_register : Ready i1 {} [.s 6, .s 5] [] [] ∧ (readKey i1 0x605010002 1).map (·.base) = some 0xC00 ∧
    (match (acceptRange 0 0 .rw true 1 0 (taken i1 [.s 6, .s 5])).2 with | .ok _ => true | _ => false) = true ∧
    ends (exec (.ireg ⟨{}, .s 6, .s 5⟩) i1) (fun t => (mfind? t.myPart.live.keys 2).map (·.keep) == some 6) = true ∧
    Ready i1 {} [.s 5] [] [] ∧ ownsKey 0 { writer := 1 } (gr0 true) = true ∧ readersOf i1 0 1 = [] ∧
    ends (exec (.idrop ⟨{}, .s 5⟩) i1) (fun t => (mfind? t.myPart.live.keys 1).isNone && t.me.pc == 0x100C) = true :=
  by and_intros <;> first | decide +kernel | (unfold Here; decide +kernel)
/-- Core 0 has stepped to 8. -/
def i2 : State := i1 true 8
theorem witness_Instars_ist : Ready i2 {} [.s 5, .s 3] [] [] ∧ (match vectorPlace i2 (localAddr 0x300) with | .ok o => o == 0x300 | _ => false) = true ∧
    (keyOf i2 0 1).isSome = true ∧ i2.me.ist = none ∧ quiet i2.me = true ∧
    (match (acceptVa (taken i2 [.s 5, .s 3]) 0 0 0x700 .rw true).2 with | .ok (l, _) => l.pa == 0x20000700 && l.d | _ => false) = true ∧
    lineHeld i2.myPart.live 14 = false ∧ lineBusy i2 0 14 = false ∧
    ends (exec (.ist ⟨{}, .s 5, .s 3⟩) i2) (fun t => (mfind? t.myPart.live.keys 1).map (·.coming) == some [(1, 8)] &&
      t.me.sb.map (·.kind) == [.ist 1 1 8 [0, 0, 0x20, 0x40]] && t.me.pc == 0x100C) = true :=
  by and_intros <;> first | decide +kernel | (unfold Here; decide +kernel)
theorem witness_Instars_ild : Ready i1 {} [.s 1, .s 4, .s 3] [] [] ∧
    (match ildCheck i1 false 0x600010000 4 (localAddr 0x300) with | .ok h => h.t == 4 | _ => false) = true ∧
    ends (exec (.ildS ⟨{}, .s 1, .s 4, .s 3⟩) i1) (fun t => t.me.wait == .instar && t.me.ild.isSome) = true ∧
    trapsWith (.ildU ⟨{}, .s 1, .s 4, .s 3⟩) i1 0x13 = true :=
  by and_intros <;> first | decide +kernel | (unfold Here; decide +kernel)
/-- The read of ILD.S at 4 between the stamps 3 and 6 is 2.5 + (3.0 - 2.5) / 3 (10_virtual_time's example). -/
theorem witness_Instars_complete : let s := after (.ildS ⟨{}, .s 1, .s 4, .s 3⟩) i1
    runs s 0 = true ∧ (s.slotAt 0 0 0).ild.isSome = true ∧
    ends (exec (.instarReadComplete ⟨0, 0, 0⟩) s) (fun t => spadRead t 0 0 0x300 4 == [0xAB, 0xAA, 0x2A, 0x40] && t.me.pc == 0x100C) = true := by
  decide +kernel
theorem witness_ReadForms : let k : Key := { writer := 0, keep := 6 }
    k.writer < 1 ∧ (4#64).toNat ≤ (4#64).toNat ∧ (4#64).toNat ≤ (4#64).toNat + 4 ∧
    (match settledForm k ⟨1, 3, 0, true, false⟩ ⟨0, 4, 0, true, false⟩ 1 4 4 with | .ok (.interp a b d st) => (a, b, d, st) == (3, 6, 1, 3) | _ => false) = true ∧
    (match settledForm k ⟨1, 3, 0, true, false⟩ ⟨0, 4, 0, true, false⟩ 1 4 6 with | .ok (.inst a) => a == 6 | _ => false) = true := by
  decide +kernel

/-! Engines. -/

/-- Slot 0 with s1 = 0x20 of the own scratchpad, s2 = another core's 0x80, s3 = 4, s4 = 40; e1 resolved true; tile
registers configured as one-row i8 tiles. -/
def e1 (k : Core := {}) : State := one { regs [(1, localAddr 0x20), (2, 0x8000000100000080), (3, 4), (4, 40)] with
  eguards := [(1, .known true)], vregs := [(4, 0x3F8000003F8000003F8000003F800000)] } (k := k)
def engOk (s : State) (f : EngForm) : Bool :=
  (mfind? s.parts s.cur.p).isSome && decide (hazard s.me f.srcs [] [] = none) &&
    (match f.c.guard with | .eng _ _ => true | _ => decide (guardNow s.me f.c = some true))
theorem engReady_of {s : State} {f : EngForm} (h : engOk s f = true) : EngReady s f := by
  unfold engOk at h
  unfold EngReady Here
  cases hg : f.c.guard <;> simp_all
/-- The vector queue takes a VFMA with an e-guard; a full one holds it. -/
def vfma0 : VF4 := ⟨⟨.eng 1 false, {}⟩, .f32, .dyn, 5, 4, 4, 4⟩
theorem witness_EngineCommandsEnter : ∃ f, engForm (.vfma vfma0) = some f ∧ EngReady (e1) f ∧ f.ok e1 (sourceValue e1.me f.srcs) ∧
    ends (exec (.vfma vfma0) e1) (fun t => t.mine.vq.queue.map (fun c => (c.num, c.guard, c.rm)) == [(1, some (.known true), .rne)] &&
      t.me.pc == 0x100C && t.me.lastVector == 1) = true ∧
    ends (exec (.vfma vfma0) (e1 { vq := { queue := [{}, {}], assigned := 2 } })) (fun t => t.me.wait == .engineFull) = true :=
  ⟨_, rfl, engReady_of (by decide +kernel), trivial, by decide +kernel, by decide +kernel⟩
def cpy1 : CpyI := { cpy0 with d := 1, a := 2, b := 3 }
theorem witness_EngineCommandsEnter_copy : ∃ f, engForm (.cpy cpy1) = some f ∧ EngReady e1 f ∧ f.ok e1 (sourceValue e1.me f.srcs) ∧
    ends (exec (.cpy cpy1) e1) (fun t => t.mine.cq.queue.length == 1 && t.me.lastCopy == 1) = true ∧
    trapsWith (.cpy { cpy1 with a := 1 }) e1 2 = true :=
  ⟨_, rfl, engReady_of (by decide +kernel), ⟨by decide +kernel, by unfold noFault; decide +kernel⟩, by decide +kernel, by decide +kernel⟩
theorem witness_EngineCommandsEnter_matrix : ∃ f, engForm (.tld ⟨{}, 2, 3⟩) = some f ∧ EngReady e1 f ∧ f.ok e1 (sourceValue e1.me f.srcs) ∧
    ends (exec (.tld ⟨{}, 2, 3⟩) (e1 { mq := { queue := [{}, {}, {}], assigned := 3 } })) (fun t => t.mine.mq.queue.length == 4) = true ∧
    ends (exec (.tld ⟨{}, 2, 3⟩) (e1 { tfault := [(3, true)] })) (fun t => t.me.st == .parked && t.me.badaddr == localAddr 0x600) = true :=
  ⟨_, rfl, engReady_of (by decide +kernel), ⟨trivial, by unfold noFault; decide +kernel⟩, by decide +kernel, by decide +kernel⟩
theorem witness_EngineCommandsEnter_address : ∃ f, engForm (.vld ⟨{}, 3, 1, 16⟩) = some f ∧ EngReady e1 f ∧
    f.ok e1 (sourceValue e1.me f.srcs) ∧ ends (exec (.vld ⟨{}, 3, 1, 16⟩) e1) (fun t => t.mine.vq.queue.length == 1) = true ∧
    trapsWith (.vld ⟨{}, 3, 1, 8⟩) e1 6 = true :=
  ⟨_, rfl, engReady_of (by decide +kernel), ⟨by decide +kernel, ⟨_, rfl⟩⟩, by decide +kernel, by decide +kernel⟩
/-- A VCMP of slot 0 whose guard is false waits at the head of the vector queue. -/
def gd : State := one { regs [] with eguards := [(0, .waiting 7)] }
  (k := { vq := { queue := [{ num := 7, guard := some (.known true), neg := true, op := .vcmp .f32 .eq (.any 0) 1 2 }], assigned := 7, completed := 6 } })
theorem witness_GuardedDiscard : engineMay gd 0 = true ∧ ((getQ (gd.coreAt 0 0) .vector).head.map (·.verdict)) = some (some false) ∧
    ends (exec (.guardedCommandDiscard ⟨0, 0⟩ .vector) gd)
      (fun t => (getQ (t.coreAt 0 0) .vector).completed == 7 && eguard (t.slotAt 0 0 0) 0 == .known false) = true := by decide +kernel
/-- A VADD of slot 0 at the head of the vector queue. -/
def vc : State := e1 { vq := { queue := [{ num := 1, op := .vfp .add .f32 6 4 4 0 }], assigned := 1 } }
theorem witness_VectorCommands : runs vc 0 = true ∧ ((startable? vc 0 0 .vector).map (·.num)) = some 1 ∧
    ends (exec (.vectorCommandStart ⟨0, 0⟩) vc) (fun t => (t.coreAt 0 0).vq.run.isSome) = true := by decide +kernel
theorem witness_VectorCommands_complete : let s := after (.vectorCommandStart ⟨0, 0⟩) vc
    runs s 0 = true ∧ ((s.coreAt 0 0).vq.run.map fun r => r.eff.vregs) = some [(6, 0x40000000400000004000000040000000)] ∧
    ends (exec (.vectorCommandComplete ⟨0, 0⟩) s) (fun t => mget 0 t.me.vregs 6 == 0x40000000400000004000000040000000 &&
      (t.coreAt 0 0).vq.completed == 1) = true := by decide +kernel
theorem witness_VectorLanes : Ty.isInt .i8 = true ∧ 15 < 128 / Ty.bits .i8 ∧
    lane 8 (vint .sar .i8 (0x80 <<< 120) (0x0F <<< 120)) 15 = 0xFF ∧ lane 64 (vint .mul .n64 3 5) 0 = 15 ∧
    lane 8 (vperm 0xAB 0xCD 0x9010) 0 = 0xCD ∧ lane 8 (vperm 0xAB 0xCD 0x9010) 1 = 0 ∧ lane 8 (vperm 0xAB 0xCD 0x9010) 2 = 0xAB := by
  decide +kernel
/-- An inbound copy of 4 bytes from core 1 to 0x20 of core 0. -/
def cp1 : CopyCmd := { dst := localAddr 0x20, src := 0x8000000100000080, count := 4 }
def cps (op : EngOp) : State := { e1 with
  parts := [(0, { clusters := [0], live := {
    cores := [(0, { slots := [(0, regs [])], cq := { queue := [{ num := 1, op := op }], assigned := 1 }, tfault := [(31, true)] }),
              (1, { spad := [(0x80, 1), (0x83, 9)] })] } })] }
theorem witness_CopyStarts : runs (cps (.copy cp1)) 0 = true ∧ ((startable? (cps (.copy cp1)) 0 0 .copy).isSome) = true ∧
    ends (exec (.copyCommandStart ⟨0, 0⟩) (cps (.copy cp1))) (fun t => tileSt (t.coreAt 0 0) 0 == .filling) = true ∧
    (startable? (cps (.ttset 0x80000001 true true)) 0 0 .copy).isSome = true ∧
    ends (exec (.copyCommandStart ⟨0, 0⟩) (cps (.ttset 0x80000001 true true)))
      (fun t => tileSt (t.coreAt 0 0) 31 == .empty && tileBad (t.coreAt 0 0) 31 && (t.coreAt 0 0).cq.run.isSome) = true := by decide +kernel
theorem witness_CopyStarts_ttset : let s := after (.copyCommandStart ⟨0, 0⟩) (cps (.ttset 0x80000001 true true))
    let held : State := updCore s 0 0 fun k => { k with mq := { run := some { pins := [31] } } }
    runs s 0 = true ∧ (s.coreAt 0 0).cq.run.map (fun r => (r.cmd.op, r.eff)) = some (.ttset 0x80000001 true true, {}) ∧
    (∀ n < 32, pinned (s.coreAt 0 0) n = false) ∧ pinned (held.coreAt 0 0) 31 = true ∧
    ends (exec (.copyCommandComplete ⟨0, 0⟩) s)
      (fun t => tileSt (t.coreAt 0 0) 31 == .ready && !tileBad (t.coreAt 0 0) 31 && tileSt (t.coreAt 0 0) 1 == .empty) = true ∧
    ends (exec (.copyCommandComplete ⟨0, 0⟩) held) (fun t => (t.coreAt 0 0).cq.run.isSome) = true := by decide +kernel
/-- A copy that runs on core 0. -/
def cpr (cp : CopyCmd) (r : Running := {}) (pl : PLive := {}) : State := { e1 with
  parts := [(0, { clusters := [0], live := { pl with
    cores := [(0, { slots := [(0, regs [])], spad := [(0x21, 7)],
                    cq := { run := some { r with cmd := { num := 1, op := .copy cp } }, assigned := 1 } }),
              (1, { spad := [(0x80, 1), (0x83, 9)] })] } })] }
/-- An outbound copy of the same bytes. -/
def cp3 : CopyCmd := { cp1 with dst := 0x8000000100000080, src := localAddr 0x20, inbound := false }
theorem witness_CopyNearUnits : cp3.nearUnit 4 ≠ [] ∧ cp1.nearUnit 4 ≠ [] ∧
    (Machine.copyOf ((cpr cp3).coreAt 0 0)).map (·.2) = some cp3 ∧
    ends (exec (.postALoad ⟨⟨0, 0, 5⟩, 4⟩) (cpr cp3)) (fun t => (t.coreAt 0 0).cq.run.map (·.got) ==
      some [(0, 0), (1, 7), (2, 0), (3, 0)]) = true ∧
    (∀ b ∈ cp1.nearUnit 4, (dstBytes { got := [(0, 5), (1, 0), (2, 0), (3, 6)] } cp1 b.2 1).isSome = true) ∧
    ends (exec (.postAStoreBufferEntry ⟨⟨0, 0, 5⟩, 4⟩) (cpr cp1 { got := [(0, 5), (1, 0), (2, 0), (3, 6)] }))
      (fun t => spadRead t 0 0 0x20 4 == [5, 0, 0, 6]) = true := by decide +kernel
/-- The access of the far part, and the response of its read. -/
def cpe : Acc := { core := 0, kind := .load 4 false, ea := 0x8000000100000080, place := .spad 1, act := 1, eng := some .copy }
theorem witness_CopyFarPieces : (farPieces (cpr cp1) 0 0 cp1).map (fun q => (q.at_, q.pos, q.len)) = [(0x8000000100000080, 0, 4)] ∧
    cpe.own = false ∧ ends (exec (.postALoad ⟨⟨0, 0, 5⟩, 0⟩) (cpr cp1)) (fun t => (t.part 0).live.chans.map
      (fun c => (c.2.1, c.2.2.kind, c.2.2.eng)) == [(.request, .load 4 false, some .copy)]) = true ∧
    ends (exec (.postAStoreBufferEntry ⟨⟨0, 0, 5⟩, 0⟩) (cpr cp3 { got := [(0, 1), (1, 2), (2, 3), (3, 4)] })) (fun t =>
      (t.part 0).live.chans.map (·.2.2.kind) == [.store [1, 2, 3, 4]]) = true ∧
    ends (exec (.respReturn 0 0) (cpr cp1 {} { resps := [(cpe, { v := 0x09000001 })] })) (fun t =>
      (t.coreAt 0 0).cq.run.map (·.got) == some [(0, 1), (1, 0), (2, 0), (3, 9)]) = true ∧
    dstBytes { got := [(2, 0xC0), (3, 0x3F)], cmd := {} } { cp1 with conv := true, sfmt := .bf16, dfmt := .f32, inbound := true } 4 4 =
      some [0, 0, 0xC0, 0x3F] := by decide +kernel
theorem witness_CopyCompletes : let s := cpr cp1 { put := [4], got := [(0, 5), (1, 0), (2, 0), (3, 6)] }
    runs s 0 = true ∧ engineBusy s 0 0 .copy = false ∧
    (Machine.copyOf (s.coreAt 0 0)).map (fun r => (r.1.err, copyWritten s 0 0 r.1 r.2, r.2.cred)) = some (none, true, none) ∧
    ends (exec (.copyCommandComplete ⟨0, 0⟩) s) (fun t => tileSt (t.coreAt 0 0) 0 == .ready && (t.coreAt 0 0).cq.completed == 1 &&
      (t.coreAt 0 0).cq.run.isNone) = true ∧
    exec (.copyCommandComplete ⟨0, 0⟩) (cpr cp1) = .next (cpr cp1) := by
  refine ⟨by decide +kernel, by decide +kernel, by decide +kernel, by decide +kernel, rfl⟩
/-- The same from a virtual page that is not there, and from beyond a scratchpad. -/
def cp2 : CopyCmd := { cp1 with src := 0x20000000 }
def cp4 : CopyCmd := { cp1 with src := 0x8000000100004000 }
theorem witness_CopyFaults : engineBusy (cpr cp4) 0 0 .copy = false ∧
    (copyFaultAt (cpr cp4) 0 0 0 {} cp4).map (fun f => (f.2.sub, f.2.bad)) = some (0x0B, 0x8000000100004000) ∧
    (0x8000000100004000 : Word).msb = true ∧
    ends (exec (.copyFault ⟨⟨0, 0⟩, 0⟩) (cpr cp4)) (fun t => tileBad (t.coreAt 0 0) 0 && (t.coreAt 0 0).cq.completed == 1 &&
      (t.coreAt 0 0).frecs.map (fun f => (f.sub, f.bad)) == [(0x0B, 0x8000000100004000)]) = true ∧
    ends (exec (.copyFault ⟨⟨0, 0⟩, 0⟩) (mapped (cpr cp2))) (fun t => (t.coreAt 0 0).frecs.map (fun f => (f.sub, f.bad)) ==
      [(7, 0x20000000)]) = true := by decide +kernel
theorem witness_TileControl : let s := one (regs [(1, 0x00100100), (2, 0xFFFFFFFF)])
    Ready s {} [.s 1] [] [] ∧ Ready s {} [] [.s 3] [] ∧ s.mine.arm.active = false ∧ ctlOk (sourceValue s.me [.s 1] 0) = true ∧
    ctlOk (sourceValue s.me [.s 2] 0) = false ∧
    ends (exec (.tcfg ⟨{}, 7, .s 1⟩) s) (fun t => mget 0 t.mine.tctl 7 == 0x00100100) = true ∧ trapsWith (.tcfg ⟨{}, 7, .s 2⟩) s 2 = true ∧
    leaves (.tcfgr ⟨{}, .s 3, 7⟩) s 3 0 = true :=
  by and_intros <;> first | decide +kernel | (unfold Here; decide +kernel)
/-- A matrix command at the head of core 0's queue, tile 3 ready with a byte. -/
def mx (op : EngOp) : State :=
  e1 { mq := { queue := [{ num := 1, op := op }], assigned := 1 }, spad := [(0x605, 8)], tregs := [(0x401, 9)],
       accs := [(256, 0x01020304)], tstate := [(2, .ready), (3, .ready)] }
noncomputable def ran (op : EngOp) : State := after (.matrixCommandComplete ⟨0, 0⟩) (after (.matrixGrant 0 0) (mx op))
theorem witness_MatrixUnit : runs (mx (.tld 2 3)) 0 = true ∧ ((mx (.tld 2 3)).octet 0 0).busy = none ∧ nextGrant (mx (.tld 2 3)) 0 0 = some (0, 1) ∧
    (startable? (mx (.tld 2 3)) 0 0 .matrix).isSome = true ∧
    ((after (.matrixGrant 0 0) (mx (.tld 2 3))).octet 0 0).busy = some 0 ∧ ((ran (.tld 2 3)).coreAt 0 0).tregs = [(0x405, 8)] ∧
    ((ran (.tst 2 3)).coreAt 0 0).spad = [(0x601, 9)] ∧ ((ran (.tzero 2)).coreAt 0 0).tregs = [] ∧
    ((ran (.mzero 1)).coreAt 0 0).accs = [] ∧ spadRead (ran (.msta 1 2)) 0 0 0x400 4 = [4, 3, 2, 1] ∧
    mget 0 ((ran (.mlda 3 2)).coreAt 0 0).accs (768 + 129) = 0x800 ∧ ((ran (.tld 2 3)).coreAt 0 0).mq.completed = 1 := by decide +kernel

/-! Armature mode. -/

/-- A block: header, then payload; the CRC of R249. -/
def block (opc : Byte) (len route : Byte) (link opw tag : Nat) (pay : List Byte) : List Byte :=
  let a : List Byte := [opc, 0, len, 0, route, 0, 0, 0] ++ leBytes 8 link ++ leBytes 8 opw
  let z : List Byte := leBytes 4 tag
  a ++ leBytes 4 (crc32 (a ++ z ++ pay)).toNat ++ z ++ pay
/-- Core 0 in armature mode at virtual 0x1000, slot 0 Blocked at its ARMENTER. -/
def arm (bs : List Byte) (fetched : Bool) (a : Arm := {}) (k : Core := {}) : State :=
  mapped { one { regs [] with st := .blocked, wait := .armature, arm := true }
      (k := { k with arm := { a with active := true, dst := 9, block := 0x1000, csc := List.replicate 16 0x7F, tp := 0x82,
                                     fetched := if fetched then some bs else none } }) with
    mem := putBytes [] 0x20001000 bs }
def x0 : CoreAt := ⟨0, 0⟩
theorem witness_ArmatureSessions : let s := one (regs [(1, 0x1000), (2, 0x1008), (3, 0x80000000000000)])
    let t := after (.armenter ⟨{}, 9, 1, true⟩) s
    Ready s {} [.s 1] [.s 9] [] ∧ s.me.arm = false ∧ t.me.wait = .armature ∧ t.mine.armWait = [⟨0, 9, 0x1000, true⟩] ∧
    trapsWith (.armenter ⟨{}, 9, 2, true⟩) s 6 = true ∧ trapsWith (.armenter ⟨{}, 9, 3, true⟩) s 8 = true ∧ engineMay t 0 = true ∧
    (t.mine.armWait.find? fun e => atArmenter t.mine e.slot) = some ⟨0, 9, 0x1000, true⟩ ∧ quiet t.me = true ∧
    t.mine.cq.idle = true ∧ t.mine.mq.idle = true ∧
    ends (exec (.armatureSessionStart x0) t) (fun u => u.mine.arm.active && u.mine.arm.block == 0x1000 && u.mine.arm.tp == 0x80) = true :=
  by and_intros <;> first | decide +kernel | (unfold Here; decide +kernel)
theorem witness_ArmatureSessions_status : let s := one (regs []) (k := { arm := { links := [1, 2], tag := 7, detail := 5, done := 3 } })
    Ready s {} [] [.s 3] [] ∧ leaves (.armstat ⟨{}, .s 3, 0⟩) s 3 0x700000200 = true ∧ leaves (.armstat ⟨{}, .s 3, 4⟩) s 3 5 = true :=
  by and_intros <;> first | decide +kernel | (unfold Here; decide +kernel)
/-- A NOPB, and the same with a wrong CRC. -/
def nop0 : List Byte := block 11 0 0 2 0 0x55 []
/-- The first three units of a block, the last one still to be read. -/
def parts (bs : List Byte) : Arm := { reading := (List.range 3).map fun n => (n, (bs.drop (8 * n)).take 8) }
theorem witness_BlockFetch : let s := arm nop0 false (parts nop0)
    let bad := nop0.take 28 ++ [1, 0, 0, 0]
    runs s 0 = true ∧ armMay s 0 0 = true ∧ (s.coreAt 0 0).arm.fetched = none ∧ blkWhole (s.coreAt 0 0).arm.reading = false ∧
    3 < blkUnits (parts nop0).reading ∧ mfind? (parts nop0).reading 3 = none ∧
    (match readUnit s 0 0 0x1018 with | .ok (u, bs) => bs == nop0.drop 24 && (mfind? u.parts 0).isSome && !overfull s u 0 | _ => false) = true ∧
    ends (exec (.armatureBlockFetch ⟨x0, 3⟩) s) (fun t => (t.coreAt 0 0).arm.fetched == some nop0) = true ∧
    ends (exec (.armatureBlockFetch ⟨x0, 1⟩) (arm nop0 false)) (fun t => (t.coreAt 0 0).arm.reading.map (·.1) == [1]) = true ∧
    ends (exec (.armatureBlockFetch ⟨x0, 3⟩) (arm bad false (parts bad))) (fun t => (t.slotAt 0 0 0).cause == 0x122 &&
      (t.coreAt 0 0).arm.detail == 1 && (t.slotAt 0 0 0).st == .parked) = true ∧
    ends (exec (.armatureFetchFault x0) { s with vfs := [] }) (fun t => (t.slotAt 0 0 0).cause == 0x723 && (t.coreAt 0 0).arm.detail == 6) = true := by
  decide +kernel
/-- The block after a NOPB stands at virtual 0x1020. -/
theorem witness_BlockFetch_ahead : let s := { arm nop0 true with mem := (arm (nop0 ++ nop0) true).mem }
    (s.coreAt 0 0).arm.fetched = some nop0 ∧ (readBlk nop0).opc ≠ 12 ∧ (successor (s.coreAt 0 0).arm (readBlk nop0)).1 = 0x1020 ∧
    ends (exec (.armatureBlockFetch ⟨x0, 0⟩) s) (fun t => (t.coreAt 0 0).arm.ahead == [(0, nop0.take 8)]) = true := by decide +kernel
/-- Where a block leaves the chain. -/
def chain (s : State) (i : Instr) : Word × List Word × Word :=
  match exec i s with
  | .next t => ((t.coreAt 0 0).arm.block, (t.coreAt 0 0).arm.links, (t.coreAt 0 0).arm.done)
  | _ => (0, [], 0)
theorem witness_ControlBlocks : blkHere (arm nop0 true) 0 0 11 ≠ none ∧ chain (arm nop0 true) (.nopb x0) = (0x1020, [], 1) ∧
    blkHere (arm (block 8 0 0 (2 ^ 49 + 16) 0 0 []) true) 0 0 8 ≠ none ∧
    chain (arm (block 8 0 0 (2 ^ 49 + 16) 0 0 []) true) (.callb x0) = (0x1100, [0x1020], 1) ∧
    chain (arm (block 9 0 0 (3 * 2 ^ 48) 0 0 []) true { links := [0x2000, 0x3000] }) (.retb x0) = (0x2000, [0x3000], 1) ∧
    chain (arm (block 10 0 0 (2 ^ 48 + 2 ^ 52 + 16) 0 0 []) true) (.branch x0) = (0x1100, [], 1) ∧
    chain (arm (block 10 0 0 (2 ^ 48 + 2 ^ 56 + 2 ^ 52 + 16) 0 0 []) true) (.branch x0) = (0x1020, [], 1) ∧
    ends (exec (.scale x0) (arm (block 2 1 0 2 0 0 (List.replicate 16 3)) true)) (fun t => (t.coreAt 0 0).arm.csc == List.replicate 16 3) = true ∧
    ends (exec (.exit x0) (arm (block 12 0 0 0 0x77 0 []) true)) (fun t => !(t.coreAt 0 0).arm.active && readReg (t.slotAt 0 0 0) 9 == 0x77 &&
      (t.slotAt 0 0 0).pc == 0x100C) = true := by decide +kernel
/-- ACT of the rectifier: one entry M = 1, C = 0 on one word; MMA.T of K = 1, N = 1 and one term +2^1. -/
theorem witness_DataBlocks_matrix :
    let s := arm (block 3 1 0 0 0x10001 0 (leBytes 4 0 ++ leBytes 4 0x3F800000 ++ leBytes 8 0)) true (k := { accs := [(0, 0x40000000)] })
    let m := arm ([1, 0, 1, 0, 0, 0, 0x10, 0] ++ leBytes 8 0 ++ leBytes 8 0x10001 ++ leBytes 8 0 ++ [1, 0x10, 1] ++ List.replicate 13 0) true
      (k := { tctl := [(0, 0x00010100)], tregs := [(0, 3)] })
    blkHere s 0 0 3 ≠ none ∧ (s.octet 0 0).busy = none ∧ nextGrant s 0 0 = some (0, 1) ∧ armWants s 0 0 = true ∧
    ends (exec (.act x0) s) (fun t => (t.coreAt 0 0).arm.done == 1) = true ∧
    blkHere m 0 0 1 ≠ none ∧ nextGrant m 0 0 = some (0, 1) ∧ armWants m 0 0 = true ∧
    ends (exec (.mmaT x0) m) (fun t => (t.coreAt 0 0).arm.done == 1 && (t.coreAt 0 0).mcmds == 1 && mget 0 (t.coreAt 0 0).accs 0 == 6) = true := by
  decide +kernel
theorem witness_DataBlocks_routing : let b (o : Byte) := block o 0 0 2 0 0 []
    let e : Nat × Routed := (0, .acc (List.replicate 256 0x3F800000))
    blkHere (arm (b 4) true) 0 0 4 ≠ none ∧ memberCore ((arm (b 4) true).coreAt 0 0) 0 0 = 0 ∧
    ends (exec (.route x0) (arm (b 4) true)) (fun t => (t.coreAt 0 0).arm.inbox.length == 1) = true ∧
    (takeEntry ((arm (b 5) true { inbox := [e] }).coreAt 0 0) 0).isSome = true ∧
    ends (exec (.recv x0) (arm (b 5) true { inbox := [e] })) (fun t => (t.coreAt 0 0).arm.inbox == [] && mget 0 (t.coreAt 0 0).accs 255 == 0x3F800000) = true ∧
    ends (exec (.recv x0) (arm (block 5 0 0x21 2 0 0 []) true { inbox := [(0, .tile (List.replicate 512 7) 0x10100)] }))
      (fun t => mget 0 (t.coreAt 0 0).tregs 1024 == 7 && mget 0 (t.coreAt 0 0).tctl 2 == 0x10100) = true ∧
    ends (exec (.reduce x0) (arm (b 6) true { inbox := [e] } { accs := [(3, 0x3F800000)] })) (fun t => mget 0 (t.coreAt 0 0).accs 3 == 0x40000000 &&
      mget 0 (t.coreAt 0 0).accs 4 == 0x3F800000) = true ∧
    ends (exec (.sync x0) (arm (b 7) true)) (fun t => (t.coreAt 0 0).arm.done == 1) = true := by decide +kernel

/-! The chisel unit. -/

/-- A grammar image of one state and two tokens, both legal, at virtual 0x1000; s1 names it, s2 a line inside it. -/
def image : List Byte :=
  leBytes 4 1 ++ leBytes 4 1 ++ leBytes 4 2 ++ leBytes 4 0 ++ leBytes 4 1 ++ [4, 0, 0, 0] ++ leBytes 8 0 ++ leBytes 8 0x40 ++
    leBytes 8 0x50 ++ leBytes 8 0x60 ++ leBytes 8 0x60 ++ leBytes 4 0 ++ leBytes 4 2 ++ leBytes 8 0 ++ [3]
def ch (cl : Cluster := {}) (x : Slot := regs [(1, 0x1000), (2, 0x1020), (3, 0x80000000000000), (4, localAddr 0x40), (5, 0x100000)]) : State :=
  mapped { launched x (pl := { clusters := [(0, cl)] }) with mem := putBytes [] 0x20001000 image }
def ctx1 (q : List ChCmd := []) : Ctx := { launch := some 1, image := 0x1000, assigned := q.length, queue := q }
theorem witness_ChiselOpens : Ready ch {} [.s 1] [.s 6] [] ∧ ch.variant ≠ .s16 ∧ quiet ch.me = true ∧
    (match readImg 0 0 0x1000 (taken ch [.s 1]) with
     | .ok g u => (match evalConf 0 0 g g.start [0] u with | .ok r w => r == (false, false) && w.cur == ch.cur && w.me == (taken ch [.s 1]).me | _ => false)
     | _ => false) = true ∧
    ends (exec (.chopen ⟨{}, .s 6, .s 1⟩) ch) (fun t => readReg t.me 6 == 0 && (mfind? (t.cluster 0 0).ctxs 0).map (·.stack) == some [0]) = true ∧
    trapsWith (.chopen ⟨{}, .s 6, .s 2⟩) ch 6 = true ∧ trapsWith (.chopen ⟨{}, .s 6, .s 3⟩) ch 8 = true :=
  by and_intros <;> first | decide +kernel | (unfold Here; decide +kernel)
theorem witness_ChiselOpens_full : let s := ch { ctxs := (List.range 64).map fun n => (n, {}) }
    (List.range 64).find? (fun n => (mfind? (s.cluster 0 0).ctxs n).isNone) = none ∧
    ends (exec (.chopen ⟨{}, .s 6, .s 1⟩) s) (fun t => readReg t.me 6 == BitVec.allOnes 64) = true := by decide +kernel
theorem witness_ChiselCommands : let s := ch { ctxs := [(0, ctx1)] }
    ∃ f, chForm (.chstep ⟨{}, .s 0, .s 4⟩) = some f ∧ Ready s f.c f.srcs f.dsts [] ∧ s.variant ≠ .s16 ∧
    openCtx s (sourceValue s.me f.srcs 0) = some ctx1 ∧ openCtx s (sourceValue s.me [.s 1] 0) = none ∧ quiet s.me = true ∧
    ends (exec (.chstep ⟨{}, .s 0, .s 6⟩) s) (fun t => (mfind? (t.cluster 0 0).ctxs 0).map (·.queue.length) == some 1 && t.me.pc == 0x100C) = true ∧
    ends (exec (.chstat ⟨{}, .s 6, .s 0, 0⟩) s) (fun t => t.me.wait == .chisel) = true ∧
    ends (exec (.chmask ⟨{}, .s 4, .s 0, .s 0, 1⟩) s) (fun t => t.me.pc == 0x100C) = true ∧
    trapsWith (.chsave ⟨{}, .s 1⟩) s 2 = true ∧ trapsWith (.chstep ⟨{}, .s 0, .s 5⟩) s 2 = true ∧
    trapsWith (.chclose ⟨{}, .s 0⟩) { s with variant := .s16 } 3 = true :=
  ⟨_, rfl, ready_of (by decide +kernel), by and_intros <;> decide +kernel⟩
/-- One command of slot 0 waits at context 0. -/
def chq (op : ChOp) (x : Slot := regs []) : State := ch { ctxs := [(0, ctx1 [{ num := 1, op := op }])] } x
theorem witness_ChiselExecutes : engineMay (chq .save) 0 = true ∧ (nextCtx ((chq .save).cluster 0 0)).map (·.1) = some 0 ∧
    ends (exec (.chiselCommandExecute 0 0) (chq .save)) (fun t => (mfind? (t.cluster 0 0).ctxs 0).map (fun k => (k.snaps.length, k.completed)) == some (1, 1)) = true ∧
    awaitsCmd ((chq (.stat (.glob 6) 1) { regs [] with st := .blocked, wait := .chisel, lastChisel := [(0, 1)] }).slotAt 0 0 0)
      { num := 1, op := .stat (.glob 6) 1 } = true ∧
    ends (exec (.chiselCommandExecute 0 0) (chq (.stat (.glob 6) 1) { regs [] with st := .blocked, wait := .chisel, lastChisel := [(0, 1)] }))
      (fun t => (t.slotAt 0 0 0).pc == 0x100C) = true ∧
    ends (exec (.chiselCommandExecute 0 0) (chq (.step 2))) (fun t => (mfind? (t.cluster 0 0).ctxs 0).map (·.completed) == some 1) = true := by
  decide +kernel

/-! Guards, waits, traps, the privileged level. -/

theorem witness_Guards : let c : Ctl := { guard := .pred 2 false }
    let i : Instr := .movcRead ⟨c, .s 1, 0, 0x100⟩
    let s := one (regs []) 3
    controlOf i = some c ∧ Here s ∧ s.cur.n = 3 ∧ awaitsP s.me 2 = false ∧ readP s.me 2 = false ∧ s.me.delayed = false ∧
    ends (exec i s) (fun t => t.me.pc == 0x100C) = true ∧
    awaitsP (one { regs [] with lq := [{ acc := { kind := .load 1 false, dst := .pred 2 } }] }).me 2 = true ∧
    ends (exec (.add ⟨c, false, .s 1, .s 2, .s 3⟩) (one { regs [] with lq := [{ acc := { kind := .load 1 false, dst := .pred 2 } }] }))
      (fun t => t.me.wait == .memory && t.me.pc == 0x1000) = true :=
  ⟨rfl, by unfold Here; decide +kernel, by and_intros <;> decide +kernel⟩
/-- A load into s2 is under way; q1 is empty, q2 full. -/
def ow : State := one { regs [] with lq := [{ acc := { kind := .load 1 false, dst := .glob 2 } }], queues := [(2, [1, 2, 3, 4])] }
theorem witness_OperandWaits : Here ow ∧ guardNow ow.me {} = some true ∧
    (ow.me.lq.any fun e => e.acc.act == ow.me.act && e.acc.dst == .glob 2) = true ∧ (queueOf ow.me 1).length < [SOp.q 1, .s 3].count (.q 1) ∧
    4 + [SOp.s 1, .s 3].count (.q 2) ≤ (queueOf ow.me 2).length + pendingPush ow.me 2 ∧
    ends (exec (.add ⟨{}, false, .s 1, .s 2, .s 3⟩) ow) (fun t => t.me.wait == .memory && !t.me.delayed) = true ∧
    ends (exec (.add ⟨{}, false, .s 1, .q 1, .s 3⟩) ow) (fun t => t.me.wait == .queueEmpty && t.me.delayed) = true ∧
    ends (exec (.add ⟨{}, false, .q 2, .s 1, .s 3⟩) ow) (fun t => t.me.wait == .queueFull && !t.me.delayed) = true :=
  ⟨by unfold Here; decide +kernel, by and_intros <;> decide +kernel⟩
/-- A fault ring of 16 entries at host 0x4000, with some entries not consumed. -/
def fr (used : BitVec 32) : State :=
  { one (regs []) with vfs := [(0, { enabled := true, fbbase := 0x4004, fbprod := used + 3, fbcons := 3 })] }
def fault0 : Trap := { cause := 0x07, bad := 0x123400, kind := 1, level := 1 }
theorem witness_TrapRecords : (mfind? (fr 0).parts 0).isSome = true ∧ fault0.sub < 256 ∧ fault0.kind < 256 ∧ fault0.level < 256 ∧
    ((fr 0).part 0).partId < 2 ^ 16 ∧ fault0.posted = false ∧ fault0.cause = 7 ∧ fault0.bad.getLsbD 63 = false ∧
    (((fr 15).vf 0).fbprod - ((fr 15).vf 0).fbcons).toNat < ringSize ((fr 15).vf 0).fbbase ∧
    ¬((((fr 16).vf 0).fbprod - ((fr 16).vf 0).fbcons).toNat < ringSize ((fr 16).vf 0).fbbase) ∧
    hostField (takeTrap (fr 0) ⟨0, 0, 0⟩ fault0) 0x4060 8 = 0x123400 ∧ hostField (takeTrap (fr 0) ⟨0, 0, 0⟩ fault0) 0x407C 4 = 3 ∧
    ((takeTrap (fr 0) ⟨0, 0, 0⟩ fault0).vf 0).interrupts = [.fault] ∧
    ((takeTrap (fr 16) ⟨0, 0, 0⟩ fault0).coreAt 0 0).heldRecs.length = 1 ∧ (takeTrap (fr 16) ⟨0, 0, 0⟩ fault0).me.held = true ∧
    (takeTrap (fr 0) ⟨0, 0, 0⟩ { fault0 with cause := 0x38 }).hostMem = [] := by decide +kernel
theorem witness_PrivilegedOnly : privileged (.eret ⟨{ guard := .pred 1 false }⟩) = true ∧ (one (regs []) 2).cur.n ≠ 3 ∧ Here (one (regs []) 2) ∧
    trapsWith (.eret ⟨{ guard := .pred 1 false }⟩) (one (regs []) 2) 4 = true :=
  ⟨rfl, by decide +kernel, by unfold Here; decide +kernel, by decide +kernel⟩

/-- Core 0 with slot 3 running and slot 0 as given. -/
def sv (y : Slot) (x : Slot := {}) (k : Core := {}) (pl : PLive := {}) (rs : NMap Word := []) : State :=
  { one {} 3 with
    parts := [(0, { clusters := [0], seq := 9, live := { pl with
      cores := [(0, { k with slots := [(0, y), (3, { x with st := .ready, pc := 0x1000, regs := rs })], launch := some 1 })],
      launches := [{ id := 1, cores := [0], started := true }] } })] }
def parked : Slot := { st := .parked, svc := true, cause := 0x70A, badaddr := 0x30004, epc := 0x2000, pc := 0x2000, latchv := 0x55 }
theorem witness_MovcReads : (sv parked).cur.n = 3 ∧ Ready (sv parked) {} [] [.s 3] [] ∧ (sv parked).me.delayed = false ∧
    leaves (.movcRead ⟨{}, .s 3, 0, 0x101⟩) (sv parked) 3 0x70A = true ∧ leaves (.movcRead ⟨{}, .s 3, 0, 0x100⟩) (sv parked) 3 0x23 = true ∧
    leaves (.movcRead ⟨{}, .s 3, 0, 0x111⟩) (sv parked) 3 1 = true ∧ leaves (.movcRead ⟨{}, .s 3, 0, 0x119⟩) (sv parked) 3 0x900000032 = true ∧
    leaves (.movcRead ⟨{}, .s 3, 0, 0x203⟩) (sv parked) 3 20 = true ∧ leaves (.movcRead ⟨{}, .s 3, 2, 0x005⟩) (sv parked) 3 2 = true ∧
    leaves (.movcRead ⟨{}, .s 3, 0, 0x104⟩) (sv parked) 3 0 = true ∧
    trapsWith (.movcRead ⟨{}, .s 3, 1, 0x110⟩) (sv parked) 2 = true ∧ trapsWith (.movcRead ⟨{}, .s 3, 0, 0x260⟩) (sv parked) 2 = true :=
  by and_intros <;> first | decide +kernel | (unfold Here; decide +kernel)
def mw (rs : NMap Word) (k : Core := {}) : State := sv parked {} k { aflags := 0x1F } rs
theorem witness_MovcWrites : Ready (mw [(1, 0x2004)]) {} [.s 1] [] [] ∧ (mw []).cur.n = 3 ∧ ((mw []).slotAt 0 0 0).st = .parked ∧
    ends (exec (.movcWrite ⟨{}, .s 1, 0, 0x103⟩) (mw [(1, 0x2004)])) (fun t => (t.slotAt 0 0 0).epc == 0x2004 && t.me.pc == 0x100C) = true ∧
    trapsWith (.movcWrite ⟨{}, .s 1, 0, 0x103⟩) (mw [(1, 0x2002)]) 2 = true ∧
    ends (exec (.movcWrite ⟨{}, .s 1, 0, 0x106⟩) (mw [(1, 0x3FC00040)])) (fun t => (t.slotAt 0 0 0).wspill == 0x3FC00040) = true ∧
    trapsWith (.movcWrite ⟨{}, .s 1, 0, 0x106⟩) (mw [(1, 0x40000040)]) 2 = true ∧
    ends (exec (.movcWrite ⟨{}, .s 1, 0, 0x110⟩) (mw [(1, 0x2004)])) (fun t => t.mine.tvec == 0x2004) = true ∧
    ends (exec (.movcWrite ⟨{}, .s 1, 0, 0x111⟩) (mw [(1, 8)] { tpWake := true })) (fun t => !t.mine.tpWake) = true ∧
    ends (exec (.movcWrite ⟨{}, .s 1, 0, 0x118⟩) (mw [(1, 2)])) (fun t => t.myPart.live.aflags == 0x1D) = true ∧
    ends (exec (.movcWrite ⟨{}, .s 1, 0, 0x112⟩) (mw [(1, 0xFFFFFFFF)])) (fun t => t.mine.wdlim == 0xFFFFFFFF) = true ∧
    trapsWith (.movcWrite ⟨{}, .s 1, 0, 0x112⟩) (mw [(1, 0x100000000)]) 2 = true ∧
    trapsWith (.movcWrite ⟨{}, .s 1, 0, 0x2FF⟩) (mw []) 4 = true ∧ trapsWith (.movcWrite ⟨{}, .s 1, 0, 0x119⟩) (mw []) 2 = true :=
  by and_intros <;> first | decide +kernel | (unfold Here; decide +kernel)
theorem witness_MovcWrites_running : ((sv (regs [])).slotAt 0 0 0).st = .ready ∧
    trapsWith (.movcWrite ⟨{}, .s 1, 0, 0x103⟩) (sv (regs [])) 2 = true := by decide +kernel
/-- Slot 0 is parked at a copy record of an inbound copy to tile 2. -/
def rec0 : CopyFault := { id := 5, num := 1, tiles := [2], cmd := { num := 1, op := .copy { cp1 with dst := localAddr 0x400 } }, delivered := true }
def sr (q : List Cmd := []) : State := sv { parked with copyRec := some 5 } {} { cq := { queue := q, assigned := 3 }, frecs := [rec0], tfault := [(2, true)] }
theorem witness_Service : Ready (sv parked) {} [] [] [] ∧ (sv parked).cur.n = 3 ∧ (sv parked).me.intrap = false ∧
    trapsWith (.eret ⟨{}⟩) (sv parked) 2 = true ∧
    ends (exec (.eret ⟨{}⟩) (sv parked { intrap := true, epc := 0x44 })) (fun t => t.me.pc == 0x44 && !t.me.intrap) = true ∧
    ((sv parked).slotAt 0 0 0).st = .parked ∧ ((sv parked).slotAt 0 0 0).latch = none ∧ ((sv parked).slotAt 0 0 1).st ≠ .parked ∧
    ends (exec (.resume ⟨{}, 0⟩) (sv parked)) (fun t => (t.slotAt 0 0 0).st == .ready && (t.slotAt 0 0 0).pc == 0x2000 && !(t.slotAt 0 0 0).svc) = true ∧
    trapsWith (.resume ⟨{}, 1⟩) (sv parked) 2 = true ∧ trapsWith (.resume ⟨{}, 3⟩) (sv parked) 2 = true ∧
    ends (exec (.resumeEnd ⟨{}, 0, false⟩) (sv parked)) (fun t => (t.slotAt 0 0 0).st == .idle && t.myPart.live.launches.all (·.error.isSome)) = true ∧
    trapsWith (.resumeReplay ⟨{}, 0⟩) (sv parked) 2 = true :=
  by and_intros <;> first | decide +kernel | (unfold Here; decide +kernel)
theorem witness_Service_replay : (sr.slotAt 0 0 0).copyRec = some 5 ∧ (sr.mine.frecs.find? fun f => f.id == 5) = some rec0 ∧
    sr.mine.cq.queue.length + (if sr.mine.cq.run.isSome then 1 else 0) < 2 ∧
    ends (exec (.resumeReplay ⟨{}, 0⟩) sr) (fun t => t.mine.cq.assigned == 4 && !tileBad t.mine 2 && (t.slotAt 0 0 0).replayNum == 4 &&
      t.mine.frecs == []) = true ∧
    ends (exec (.resumeReplay ⟨{}, 0⟩) (sr [{}, {}])) (fun t => t.me.wait == .engineFull) = true := by decide +kernel
/-- Slot 0 is parked with a latched fetching AMO of virtual 0x128 to s3. -/
def lat0 : Latch := { fetch := true, refuse := 7, acc := { kind := .amo .add true true 1 0, ea := 0x128, dst := .glob 3 } }
def la : State := mapped (sv { parked with latch := some lat0 })
theorem witness_LatchedAtomics : Ready la {} [] [] [1] ∧ la.cur.n = 3 ∧ (la.slotAt 0 0 0).st = .parked ∧ (la.slotAt 0 0 0).latch = some lat0 ∧
    ends (exec (.rearm ⟨{}, 1, 0⟩) la) (fun t => t.me.wait == .rearm && (t.slotAt 0 0 0).pend.isSome) = true ∧
    trapsWith (.rearm ⟨{}, 1, 1⟩) la 2 = true ∧
    ends (exec (.dropl ⟨{}, 0⟩) la) (fun t => readReg (t.slotAt 0 0 0) 3 == 0x55 && (t.slotAt 0 0 0).pc == 0x200C && (t.slotAt 0 0 0).latch.isNone) = true ∧
    trapsWith (.dropl ⟨{}, 0⟩) (sv parked) 2 = true :=
  by and_intros <;> first | decide +kernel | (unfold Here; decide +kernel)
theorem witness_LatchedAtomics_answer : let s := after (.rearm ⟨{}, 1, 0⟩) la
    runs s 0 = true ∧ (s.slotAt 0 0 0).pend = some { acc := some lat0.acc, rearm := some 1 } ∧ lat0.acc.kind.isAmo = true ∧
    inWindow (s.vf (s.part 0).vf) lat0.acc.ea.toNat = false ∧
    (match (acceptVa { s with cur := ⟨0, 0, 0⟩ } 0 0 0x128 lat0.acc.kind.perm false).2 with | .ok (l, _) => l.pa == 0x20000128 | _ => false) = true ∧
    ends (exec (.accessAccept ⟨0, 0, 0⟩ false) s) (fun t => (t.slotAt 0 0 0).pc == 0x200C && readP (t.slotAt 0 0 3) 1 && (t.slotAt 0 0 3).pc == 0x100C) = true ∧
    ends (exec (.accessAccept ⟨0, 0, 0⟩ false) { s with vfs := [] }) (fun t => (t.slotAt 0 0 0).latch.isSome && !readP (t.slotAt 0 0 3) 1 &&
      (t.slotAt 0 0 3).pc == 0x100C) = true := by decide +kernel
/-- s1 a page, s2 its length, s3 no page, s4 past the end, s5 a mask, s6 a header of core 0. -/
def su (x : Slot := {}) (k : Core := {}) : State := sv parked x k {} [(1, 0x20000), (2, 0x10000), (3, 0x20001), (4, 0x7FFFFFFFFF0000), (5, 8), (6, 0x8000000000000000)]
theorem witness_Supervisor : Ready su {} [.s 1, .s 2] [] [] ∧ su.cur.n = 3 ∧ su.me.sb = [] ∧ su.me.unacked = [] ∧
    rangeBusy su.myPart 0x20000 0x10000 = false ∧
    ends (exec (.xinv ⟨{}, .s 1, .s 2⟩) su) (fun t => t.me.pc == 0x100C) = true ∧ ends (exec (.xinv ⟨{}, .s 1, .s 0⟩) su) (fun t => t.me.pc == 0x100C) = true ∧
    ends (exec (.xinv ⟨{}, .s 1, .s 2⟩) (su { unacked := [{}] })) (fun t => t.me.wait == .memory) = true ∧
    trapsWith (.xinv ⟨{}, .s 3, .s 2⟩) su 6 = true ∧ trapsWith (.xinv ⟨{}, .s 4, .s 1⟩) su 2 = true ∧ trapsWith (.xinv ⟨{}, .s 6, .s 1⟩) su 8 = true :=
  by and_intros <;> first | decide +kernel | (unfold Here; decide +kernel)
theorem witness_Supervisor_waits : Ready su {} [] [.s 7] [] ∧ su.me.wait = .none ∧ (∀ n, Wait.none ≠ .ckpt n) ∧
    ends (exec (.ckpt ⟨{}, .s 7⟩) su) (fun t => t.me.wait == .ckpt 10 && t.myPart.cut != .none) = true ∧
    leaves (.ckpt ⟨{}, .s 7⟩) (su { wait := .ckpt 9 }) 7 9 = true ∧ Ready su {} [.s 5] [] [] ∧
    ends (exec (.halt ⟨{}, .s 5⟩) su) (fun t => t.me.wait == .halt) = true ∧
    ends (exec (.halt ⟨{}, .s 5⟩) (su {} { tpWake := true })) (fun t => t.me.pc == 0x100C) = true ∧
    trapsWith (.halt ⟨{}, .s 1⟩) su 2 = true ∧ trapsWith (.halt ⟨{}, .s 0⟩) su 2 = true ∧
    (match headerCore su 0x8000000000000000 with | .ok c => c == 0 | _ => false) = true ∧
    ends (exec (.wake ⟨{}, .s 6⟩) su) (fun t => t.me.pc == 0x100C && t.me.sb.length == 1) = true ∧ trapsWith (.wake ⟨{}, .s 1⟩) su 2 = true ∧
    ends (exec (.perform 0 0) (sv parked {} {} { delivered := [{ kind := .wake, place := .queue 0 }] })) (fun t => (t.coreAt 0 0).tpWake) = true := by
  refine ⟨ready_of (by decide +kernel), ?_, fun n h => Wait.noConfusion h, ?_, ?_, ready_of (by decide +kernel), ?_, ?_, ?_, ?_, ?_, ?_, ?_, ?_⟩ <;> decide +kernel
/-- A load of slot 0 in flight to the physical line 0x20000100, and a window transfer under way. -/
def rp (x : Slot) (k : Core := {}) : State := mapped (one { x with st := .blocked, pc := 0x1000 } (k := { k with launch := some 1 }))
def ld0 : Acc := { id := 4, kind := .load 4 true, ea := 0x104, place := .home 0, leaf := { pa := 0x20000104 }, dst := .glob 3 }
theorem witness_Reports_error : let s := rp { lq := [{ acc := ld0, posted := true }] }
    runs s 0 = true ∧ logged s 0 (0x20000100 / 128) = false ∧ (inFlight (s.slotAt 0 0 0)).length = 1 ∧
    ends (exec (.memoryErrorReport ⟨0, 0, 0⟩ 0x20000100) s) (fun t => (t.slotAt 0 0 0).report == some (0x3F, 0x104) && (t.slotAt 0 0 0).lq == []) = true ∧
    ends (exec (.memoryErrorReport ⟨0, 0, 0⟩ 0x20000200) s) (fun t => t.reliability == 1 && t.memErrors == [0x20000200 / 128]) = true := by decide +kernel
theorem witness_Reports_rest : let s := rp { wait := .timeline }
    runs s 0 = true ∧ (s.coreAt 0 0).launch = some 1 ∧ (s.coreAt 0 0).wdlim ≠ 0 ∧ (∀ d ∈ teamOf s 0 0, ∀ n < 3, (s.slotAt 0 d n).st ≠ .parked) ∧
    ends (exec (.teamWatchdogExpiry 0 1 0) s) (fun t => (t.slotAt 0 0 0).cause == 0x28 && (t.slotAt 0 0 0).st == .parked) = true ∧
    ends (exec (.watchpointReport 0 0) { s with watch := [{ addr := 0x9000 }] }) (fun t => (t.slotAt 0 0 0).report == some (0x31, 0x9000) && t.watch == []) = true ∧
    winBusy (rp { fillTo := some 8, wait := .window, wspill := 0x400100, wregs := [(0, 0x1122)] }).me 0 8 = false ∧
    ends (exec (.windowSpillFillDone ⟨0, 0, 0⟩) (rp { fillTo := some 8, wait := .window, wspill := 0x400100, wregs := [(0, 0x1122)] }))
      (fun t => spadRead t 0 0 0x100 2 == [0x22, 0x11] && (t.slotAt 0 0 0).spilled == 8 && (t.slotAt 0 0 0).st == .ready) = true ∧
    ends (exec (.windowSpillFillDone ⟨0, 0, 0⟩) (rp { fillTo := some 0, spilled := 8, wait := .window, wspill := 0x400100 } { spad := [(0x108, 7)] }))
      (fun t => mget 0 (t.slotAt 0 0 0).wregs 1 == 7 && (t.slotAt 0 0 0).spilled == 0) = true := by decide +kernel

/-! Coherence: line 2 (virtual 0x100, physical 0x20000100); core 1 is on die 0, core 65536 on die 1. -/

def m0 : CohMsg := { p := 0, line := 2, die := 0, core := 1 }
def l0 : L1Line := { st := .s, data := List.replicate 128 7 }
/-- The line's entry, what core 1 and core 65536 hold, and the messages under way. -/
def co (d : Option DirEntry := none) (a : Option L1Line := none) (b : Option L1Line := none) (ms : List Snoop := []) : State :=
  let has (o : Option L1Line) : NMap L1Line := match o with
    | some x => [(2, x)]
    | none => []
  let dir : NMap DirEntry := match d with
    | some x => [(2, x)]
    | none => []
  mapped { one {} with
    parts := [(0, { clusters := [0, 512], live := {
      cores := [(1, { l1 := has a }), (65536, { l1 := has b })], dir := dir, snoop := ms } })],
    mem := [(0x20000100, 5)] }
/-- What a step leaves of the line: its state, owner, dies, whether it is BUSY, and the kinds of the messages. -/
def dirAfter (i : Instr) (s : State) : DirState × Nat × List Nat × Bool × List SnoopKind :=
  match exec i s with
  | .next t => let d := dirOf (t.part 0).live 2
    (d.st, d.owner, d.dies, d.txn.isSome, (t.part 0).live.snoop.map (·.kind))
  | _ => (.i, 99, [], false, [])
def owned1 : DirEntry := { st := .e, owner := 1, dies := [1], pa := 0x20000100 }
def shared1 : DirEntry := { st := .s, dies := [1], pa := 0x20000100 }
/-- Core 1's request stands at the head of its channel. -/
def rq (k : SnoopKind) (d : Option DirEntry := none) (a : Option L1Line := none) : State :=
  co d a none [{ kind := k, line := 2, core := 1, toHome := true }]
/-- An atomic of core 1 stands at the home. -/
def nca : State := updLive co 0 fun x => { x with delivered := [
  { core := 1, kind := .amo .add true true 1 0, ea := 0x108, place := .home 0, leaf := { pa := 0x20000108 } }] }
theorem witness_CoherenceRequests : runs co 0 = true ∧ takeRequest co .rds m0 = none ∧ maySend co m0 .rds = true ∧
    maySend nca m0 .atm = true ∧ maySend nca m0 .ncwr = false ∧ (takeRequest (rq .rds) .rds m0).isSome = true ∧ homeCalm co m0 ∧
    (lineWalk co 0 2 .rds).map (·.pa) = some 0x20000100 ∧ (lineWalk co 0 2 .rdx).isSome = true ∧
    dirAfter (.rds m0) co = (.i, 0, [], false, [.rds]) ∧ dirAfter (.atm m0) nca = (.i, 0, [], false, [.atm]) ∧
    dirAfter (.rds m0) (rq .rds) = (.e, 0, [0], false, [.datae, .cmp]) ∧
    dirAfter (.rdx m0) (rq .rdx) = (.m, 0, [0], false, [.datam, .cmp]) :=
  by and_intros <;> first | decide +kernel | (unfold homeCalm; decide +kernel)
theorem witness_CoherenceRequests_owned : dirAfter (.rds m0) (rq .rds (some owned1)) = (.e, 1, [1], true, [.fwds]) ∧
    dirAfter (.rdx m0) (rq .rdx (some owned1)) = (.e, 1, [1], true, [.fwdx]) ∧
    dirAfter (.ncrd m0) (rq .ncrd (some owned1)) = (.e, 1, [1], true, [.rcl]) ∧
    dirAfter (.ncwr m0) (rq .ncwr (some owned1)) = (.e, 1, [1], true, [.rcl]) := by and_intros <;> decide +kernel
theorem witness_CoherenceRequests_shared : dirAfter (.rdx m0) (rq .rdx (some shared1)) = (.s, 0, [1], true, [.inv]) ∧
    dirAfter (.atm m0) (rq .atm (some shared1)) = (.s, 0, [1], true, [.inv]) ∧
    dirAfter (.ncrd m0) (rq .ncrd (some shared1)) = (.s, 0, [1], false, []) ∧
    dirAfter (.rds m0) (rq .rds (some { shared1 with dies := [0, 1] })) = (.s, 0, [0, 1], false, [.datas, .cmp]) := by and_intros <;> decide +kernel
theorem witness_CoherenceRequests_upg : maySend (co (some { shared1 with dies := [0] }) (some l0)) m0 .upg = true ∧ l0.usable = true ∧
    dirAfter (.upg m0) (rq .upg (some { shared1 with dies := [0] }) (some l0)) = (.m, 0, [0], false, [.cmp]) ∧
    dirAfter (.upg m0) (rq .upg (some { shared1 with dies := [] }) (some l0)) = (.m, 0, [0], false, [.datam, .cmp]) ∧
    ends (exec (.rds m0) (rq .rds (some { owned1 with txn := some { waiting := [1] } })))
      (fun t => (dirOf (t.part 0).live 2).queue == [(.rds, 0, 1)]) = true := by decide +kernel
/-- Die 1 owns the line; core 1 of die 0 asks. -/
def m1' : CohMsg := { p := 0, line := 2, die := 1, core := 65536 }
def own1 : L1Line := { st := .m, dirty := true, data := List.replicate 128 7 }
def asked (k : SnoopKind) (keep : Bool := false) : State :=
  co (some owned1) none (some own1) [{ kind := k, line := 2, die := 1, core := 1, keep := keep }]
def copyOfLine (o : Out) (c : Nat) : Option (LineState × Bool) :=
  match o with
  | .next t => (mfind? (t.coreAt 0 c).l1 2).map fun l => (l.st, l.dirty)
  | _ => none
theorem witness_CoherenceAtDies : (takeSnoop (asked .fwds) .fwds m1').isSome = true ∧
    (ownerCopy ((asked .fwds).part 0).live 2 1) = some (65536, own1) ∧
    copyOfLine (exec (.fwds m1') (asked .fwds)) 65536 = some (.o, true) ∧ (dirAfter (.fwds m1') (asked .fwds)).2.2.2.2 = [.datas, .fwdack] ∧
    copyOfLine (exec (.fwdx m1') (asked .fwdx)) 65536 = none ∧ (dirAfter (.fwdx m1') (asked .fwdx)).2.2.2.2 = [.datam, .fwdack] ∧
    copyOfLine (exec (.rcl m1') (asked .rcl true)) 65536 = some (.s, false) ∧ (dirAfter (.rcl m1') (asked .rcl)).2.2.2.2 = [.rcldata] ∧
    copyOfLine (exec (.inv m1') (asked .inv)) 65536 = none ∧ (dirAfter (.inv m1') (asked .inv)).2.2.2.2 = [.invack] ∧
    (dirAfter (.fwds m1') (co (some owned1) none none [{ kind := .fwds, line := 2, die := 1, core := 1 }])).2.2.2.2 = [.nak] := by decide +kernel
theorem witness_CoherenceAtDies_fill : let s := co none none none [{ kind := .datam, line := 2, core := 1, dirty := true, data := List.replicate 128 4 }]
    (takeSnoop s .datam m0).isSome = true ∧ copyOfLine (exec (.datam m0) s) 1 = some (.m, true) ∧
    (takeSnoop (co none (some { l0 with usable := false }) none [{ kind := .cmp, line := 2, core := 1 }]) .cmp m0).isSome = true ∧
    ends (exec (.cmpMessage m0) (co none (some { l0 with usable := false }) none [{ kind := .cmp, line := 2, core := 1 }]))
      (fun t => (mfind? (t.coreAt 0 1).l1 2).any (·.usable)) = true := by decide +kernel
theorem witness_CoherenceAtHomes : let w : Snoop := { kind := .wbd, line := 2, die := 1, toHome := true, dirty := true, data := List.replicate 128 7 }
    (takeSnoop (co (some owned1) none none [w]) .wbd m1').isSome = true ∧
    dirAfter (.wbd m1') (co (some owned1) none none [w]) = (.i, 0, [], false, []) ∧
    ends (exec (.wbd m1') (co (some owned1) none none [w])) (fun t => memByte t 0x20000100 == 7 && memByte t 0x2000017F == 7) = true ∧
    dirAfter (.evc m1') (co (some shared1) none none [{ w with kind := .evc }]) = (.i, 0, [], false, []) ∧
    takeSnoop (co (some owned1) none (some own1)) .wbd m1' = none ∧ dieHeld ((co (some owned1) none (some own1)).part 0).live 2 1 = false ∧
    (dirAfter (.wbd m1') (co (some owned1) none (some own1))).2.2.2.2 = [.wbd] ∧
    (dirAfter (.evc m1') (co (some shared1) none (some l0))).2.2.2.2 = [.evc] := by decide +kernel
/-- A transaction of core 1 waits for die 1 (and 2). -/
def busy1 (q : CohReq) (ws : List Nat) (k : SnoopKind) (dirty : Bool := false) : State :=
  co (some { owned1 with txn := some { req := q, core := 1, waiting := ws, asked := true } }) none none
    [{ kind := k, line := 2, die := 1, toHome := true, dirty := dirty, data := List.replicate 128 3 }]
theorem witness_CoherenceAtHomes_answers : (takeSnoop (busy1 .rds [1] .fwdack true) .fwdack m1').isSome = true ∧
    dirAfter (.fwdack m1') (busy1 .rds [1] .fwdack true) = (.o, 1, [1, 0], false, [.cmp]) := by decide +kernel
theorem witness_CoherenceAtHomes_last : dirAfter (.invack m1') (busy1 .rdx [1] .invack) = (.m, 0, [0], false, [.datam, .cmp]) ∧
    dirAfter (.rcldata m1') (busy1 .atm [1] .rcldata true) = (.i, 0, [], false, []) ∧
    ends (exec (.rcldata m1') (busy1 .atm [1] .rcldata true)) (fun t => memByte t 0x20000100 == 3) = true ∧
    (dirAfter (.invack m1') (busy1 .rdx [1, 2] .invack)).2.2.2.1 = true ∧
    (dirAfter (.nak m1') (busy1 .rds [1] .nak)).2.2.2.1 = false := by decide +kernel

/-! Cocoons, rollback, scheduling. -/

/-- A partition of cluster 0, with a cut and a record. -/
def pt (cut : Cut) (rs : List BindRec := []) (x : Part := {}) (sl : NMap Slot := []) : State :=
  { one {} with parts := [(0, { x with clusters := [0], cut := cut, records := rs, live := { x.live with cores := [(0, { slots := sl })] } })] }
def rec1 : BindRec := { pc := 0x4000, task := 6, core := 0, slot := 0, teamId := 3, stage := 2, log2Team := 1 }
theorem witness_CocoonCuts : runs (pt .none) 0 = true ∧ ends (exec (.cocoonCut 0) (pt .none)) (fun t => (t.part 0).cut == .stopping) = true ∧
    enginesIdle (pt .stopping) 0 = true ∧ drained (pt .stopping) 0 = true ∧
    ends (exec (.cocoonCut 0) (pt .stopping)) (fun t => (t.part 0).cut == .saved) = true ∧ launchReady (pt .stopping [rec1]) 0 rec1 = true ∧
    ((pt .stopping [rec1]).part 0).hasCore 0 = true ∧ ((pt .stopping [rec1]).slotAt 0 0 0).st = .idle ∧
    ends (exec (.cocoonCut 0) (pt .stopping [rec1])) (fun t => (t.slotAt 0 0 0).pc == 0x4000 && (t.coreAt 0 0).teamId == 3 &&
      (t.part 0).records == []) = true ∧
    drained (pt .stopping [] {} [(0, { regs [] with lq := [{ acc := { kind := .load 1 false, ea := localAddr 0, place := .own 0 } }] })]) 0 = false ∧
    ends (exec (.cocoonCut 0) (pt .stopping [] {} [(0, { regs [] with lq := [{ acc := { kind := .load 1 false, ea := localAddr 0, place := .own 0 } }] })]))
      (fun t => (t.part 0).cut == .stopping) = true := by decide +kernel
/-- A saved cut with a completion held, and a ring of 16 entries at host 0x8000. -/
def cm (dirty : Bool) : State :=
  { pt .saved [] { egress := [.completion 9 0 0 0x55 []], undoNew := [(1, [])] } with
    parts := [(0, { clusters := [0], cut := .saved, egress := [.completion 9 0 0 0x55 []], undoNew := [(1, [])], seq := 4,
                    live := { cores := [(0, { l1 := [(1, { l0 with cutDirty := dirty })] })] } })]
    vfs := [(0, { cqbase := 0x8004 })] }
theorem witness_CocoonCommits : runs (cm false) 0 = true ∧ ((cm false).part 0).cut = .saved ∧ (((cm false).vf 0).cqprod - ((cm false).vf 0).cqcons).toNat <
    ringSize ((cm false).vf 0).cqbase ∧
    ends (exec (.cocoonCommit 0) (cm false)) (fun t => (t.part 0).seq == 5 && (t.part 0).cut == .none && (t.part 0).undo == [(1, [])] &&
      hostField t 0x8000 4 == 9 && hostField t 0x8008 8 == 0x55 && (t.vf 0).cqprod == 1) = true ∧
    ends (exec (.cocoonCommit 0) (cm true)) (fun t => (t.part 0).seq == 4 && (t.part 0).cut == .saved) = true := by decide +kernel
/-- A partition whose cocoon has slot 0 at 0x40, one line of memory changed since. -/
def rb (n : Nat) : State := { one (regs []) with
  parts := [(0, { clusters := [0], doubleFaults := n, undo := [(2, List.replicate 128 6)], saved := { cores := [(0, { slots := [(0, { pc := 0x40 })] })] } })] }
theorem witness_Rollbacks : (mfind? (rb 0).parts 0).isSome = true ∧
    ends (exec (.rollback 0) (rb 1)) (fun t => (t.slotAt 0 0 0).pc == 0x40 && memByte t 0x100 == 6 && memByte t 0x17F == 6 && memByte t 0x180 == 0) = true ∧
    ends (exec (.rollback 0) (rb 2)) (fun t => (mfind? t.parts 0).isNone) = true := by decide +kernel
/-- A node of cluster 0 with two tenants. -/
def nd (n : Node) (sp : NMap Nat := []) : State := { one (regs []) with
  parts := [(0, { clusters := [0], saved := { cores := [(0, { vt := 5 })] } }), (1, { clusters := [0], scheduled := false, seq := 9 })]
  nodes := [{ n with tenants := [0, 1] }]
  spares := sp }
theorem witness_Scheduling : ends (exec (.quantumEnd 0) (nd {})) (fun t => t.nodes.map (·.closing) == [some 1] && (t.part 0).cut == .stopping) = true ∧
    ends (exec (.quantumEnd 0) (nd { closing := some 0 })) (fun t => !(t.part 0).scheduled && t.nodes.map (·.window) == [true]) = true ∧
    ends (exec (.switchWindowEnd 0) (nd { window := true })) (fun t => (t.part 1).scheduled && t.nodes.map (·.running) == [1]) = true ∧
    nodeOf (nd {}) 0 = some 0 ∧ runs (nd {}) 0 = true ∧
    ends (exec (.urgentPreemption 0) (nd {})) (fun t => !(t.part 0).scheduled && (t.part 1).scheduled && (t.coreAt 0 0).vt == 5) = true ∧
    ends (exec (.clusterFailure 0 0) (nd {} [(0, 1)])) (fun t => mget 16 t.spares 0 == 0 && t.replace && (t.coreAt 0 0).vt == 5) = true ∧
    ends (exec (.clusterFailure 0 0) (nd {} [(0, 0)])) (fun t => t.parts == [] && t.nodes.any (fun n => n.retired && n.first == 0)) = true := by decide +kernel

/-! Launches and migrations. -/

/-- A launch ring of 16 entries at host 0x2000 with one record: entry 0x4000, one stage of one team of 2^k cores. -/
def lr (n kind : Byte) : State := { pt .none with
  vfs := [(0, { lqbase := 0x2004, lqprod := 1 })]
  hostMem := [(0x2001, 0x40), (0x2030, 7), (0x2035, n), (0x2040, 1)] ++ if kind = 0 then [] else [(0x2042, kind)] }
theorem witness_Launches : runs (lr 1 0) 0 = true ∧ (readLaunch (bytesAt (lr 1 0).hostMem 0x2000 128)).ok = true ∧
    (fitAll ((lr 1 0).part 0) { (lr 1 0).vf 0 with lqcons := 1, taken := [bytesAt (lr 1 0).hostMem 0x2000 128] } false
      (readLaunch (bytesAt (lr 1 0).hostMem 0x2000 128))).isSome = true ∧ egressRoom (lr 1 0) 0 ∧
    (launchBlocks ((lr 1 0).part 0) (readLaunch (bytesAt (lr 1 0).hostMem 0x2000 128)) []).isSome = true ∧
    ends (exec (.launchPlacement 0) (lr 1 0)) (fun t => (t.part 0).records.map (fun b => (b.pc, b.core)) == [(0x4000, 0)] &&
      (t.part 0).live.launches.map (·.launchId) == [7] && (t.vf 0).lqcons == 1) = true ∧
    (readLaunch (bytesAt (lr 17 0).hostMem 0x2000 128)).ok = false ∧
    ends (exec (.launchPlacement 0) (lr 17 0)) (fun t => (t.part 0).egress == [.completion 7 2 0 0 (bytesAt (lr 17 0).hostMem 0x2000 128)] && (t.part 0).records == []) = true := 
  by and_intros <;> first | decide +kernel | (unfold egressRoom; decide +kernel)
theorem witness_Launches_end : let s := launched {}
    (∀ c ∈ [0, 1], ∀ n < 3, (s.slotAt 0 c n).st = .idle) ∧ (s.part 0).cut ≠ .saved ∧ (s.part 0).live.launches.map (·.started) = [true] ∧
    ends (exec (.launchEnd 0 1) s) (fun t => (t.part 0).live.launches == [] && (t.coreAt 0 1).launch == none &&
      (t.part 0).egress == [.completion 9 0 0 0x50 []]) = true ∧
    ends (exec (.launchEnd 0 1) (launched (regs []))) (fun t => (t.part 0).live.launches.length == 1) = true := by decide +kernel
/-- Virtual page 0 at physical page 5, by a 64 KB leaf. -/
def mg (migReady : Bool) (f : VF := {}) : State := { pt .none [] { migReady := migReady } with
  vfs := [(0, { f with enabled := true, ptroot := 0x10001 })]
  mem := [(0x10000, 1), (0x10002, 2), (0x20000, 1), (0x20002, 3), (0x30000, 0xF3), (0x30001, 1), (0x30002, 5), (0x5FFFF, 9)] }
theorem witness_Migrations : (mg false).boot.passed = true ∧ (0x70001#64).getLsbD 0 = true ∧
    migRefusal (updVf (mg false) 0 fun f => { f with migpa := 0x70000 }) 0 (some 0) = none ∧
    migRefusal (updVf (mg false) 0 fun f => { f with migpa := 0x50000 }) 0 (some 0) = some 4 ∧
    ends (exec (.migrationGo 0 0x70001) (mg false)) (fun t => (t.vf 0).migState == 1 && (t.part 0).migWait &&
      (t.part 0).migReq == some (0, 0x70000)) = true ∧
    ends (exec (.migrationGo 0 0x50001) (mg false)) (fun t => (t.vf 0).migState == 3 && (t.vf 0).migReason == 4) = true := by decide +kernel
/-- A migration of page 0 from physical page 5 to 7, its request taken and some of its lines moved. -/
def g0 : Mig := { page := 0, opa := 0x50000, npa := 0x70000, at_ := 0x30000 }
def mr (m : Option Mig) (lock : Bool := false) (l1 : NMap L1Line := []) (chans : List (Nat × ChClass × Acc) := []) : State :=
  { mg true with parts := [(0, { clusters := [0], migReady := m.isNone, migReq := some (0, 0x70000), mig := m,
                                 live := { cores := [(0, { l1 := l1 })], chans := chans,
                                           dir := if lock then [(511, { lock := true, pa := 0x5FF80 })] else [] } })] }
theorem witness_MigrationStarts : runs (mr none) 0 = true ∧ ((mr none).part 0).migReady = true ∧
    (match translate (mr none) 0 0 with | .ok w => w.level == 2 && w.pa == 0x50000 && w.at_ == 0x30000 && w.entry == 0x501F3 | _ => false) = true ∧
    ends (exec (.migrationRun 0) (mr none)) (fun t => (t.part 0).mig == some g0 && !(t.part 0).migReady) = true := by decide +kernel
theorem witness_MigrationLines : let last : Mig := { g0 with moved := 511, locked := true }
    lineBusy (mr (some last) true) 0 511 = false ∧ dirtyCopy ((mr (some last) true).part 0).live 511 = none ∧
    logUsed ((mr (some last)).part 0) + 2 ≤ ((mr (some last)).part 0).logCap ∧
    ends (exec (.migrationRun 0) (mr (some g0))) (fun t => lineLocked t 0 0 && (t.part 0).mig == some { g0 with locked := true }) = true ∧
    ends (exec (.migrationRun 0) (mr (some last) true)) (fun t => memByte t 0x7FFFF == 9 && !lineLocked t 0 511 &&
      (t.part 0).mig == some { g0 with moved := 512 }) = true ∧
    ends (exec (.migrationRun 0) (mr (some last) true [(511, { st := .m, dirty := true, data := List.replicate 128 6 })]))
      (fun t => memByte t 0x7FFFF == 6 && memByte t 0x5FFFF == 6 && !lineHeld (t.part 0).live 511) = true := by decide +kernel
theorem witness_MigrationLines_switch : let done : Mig := { g0 with moved := 512 }
    let old : Acc := { id := 1, kind := .load 1 false, place := .home 0, ea := 0x10 }
    ends (exec (.migrationRun 0) (mr (some done))) (fun t => (physRead64 t 0x30000).toNat == 0x701F3 && ((t.part 0).mig.bind (·.mark)).isSome) = true ∧
    migBehind ((mr (some { done with mark := some 2 }) false [] [(0, .request, old)]).part 0).live done 2 = true ∧
    migBehind ((mr (some { done with mark := some 2 })).part 0).live done 2 = false ∧
    ends (exec (.migrationRun 0) (mr (some { done with mark := some 2 }) false [] [(0, .request, old)])) (fun t => (t.part 0).mig.isSome) = true ∧
    ends (exec (.migrationRun 0) (mr (some { done with mark := some 2 }))) (fun t => (t.part 0).mig.isNone && (t.part 0).migReq.isNone &&
      (t.part 0).egress == [.migrationDone]) = true := by decide +kernel

/-! The host, bring-up, temperature, reset, the step. -/

def ho : State := { mapped (one (regs [])) with vfs := [(0, { ptroot := 0x10001, fbbase := 0x4004, fbprod := 16, lqbase := 0x2004 })] }
theorem witness_HostRegisters : ho.boot.passed = true ∧ heldCount ho 0 = 0 ∧ (ho.vf 0).complQ = [] ∧ ho.parts.map (·.1) = [0] ∧
    ends (exec (.lqprod 0 16 true) ho) (fun t => (t.vf 0).lqprod == 16 && (t.vf 0).ronotify == 1) = true ∧
    ends (exec (.lqprod 0 17 false) ho) (fun t => (t.vf 0).lqprod == 0 && (t.vf 0).ronotify == 0) = true ∧
    ends (exec (.fbcons 0 16 false) ho) (fun t => (t.vf 0).fbcons == 16) = true ∧ ends (exec (.fbcons 0 17 false) ho) (fun t => (t.vf 0).fbcons == 0) = true ∧
    ends (exec (.dlcons 0 1 false) ho) (fun t => (t.vf 0).dlcons == 0) = true ∧ ends (exec (.cqcons 0 5 false) ho) (fun t => (t.vf 0).cqcons == 5) = true ∧
    ends (exec (.wakedb 0 0 false) ho) (fun t => (t.coreAt 0 0).tpWake) = true ∧
    ends (exec (.registerWrite 0 0x205 0x8015) ho) (fun t => regRead t 0 0x205 == some 0x8004) = true ∧
    ends (exec (.registerWrite 0 0x206 5) ho) (fun t => (t.vf 0).fbprod == 16) = true ∧
    ends (exec (.registerWrite 0 0x20D 0) ho) (fun t => (t.vf 0).waymask == 0xFFFF) = true ∧
    ends (exec (.registerWrite 0 0x20D 3) ho) (fun t => (t.vf 0).waymask == 3 && (t.vf 0).wayEffect == 0xFFFF) = true ∧
    ends (exec (.waymaskChangeEffect 0) { ho with vfs := [(0, { waymask := 3 })] }) (fun t => (t.vf 0).wayEffect == 3) = true := by decide +kernel
theorem witness_HostRegisters_closed : ¬(ho.boot.passed = true ∧ (1 = 0 ∨ (ho.vf 1).enabled = true)) ∧
    ends (exec (.registerWrite 1 0x204 1) ho) (fun t => t == ho) = true := by decide +kernel
theorem witness_HostRegisters_posted : let s := { ho with posted := [(0, .mem 0 0x200 [1])] }
    postedBy s 0 = true ∧ unsent s 0 = true ∧ unsent ho 0 = false ∧
    ends (exec (.lqprod 0 16 false) s) (fun t => (t.vf 0).lqprod == 0 && t.posted.length == 2) = true ∧
    ends (exec (.lqprod 0 16 true) s) (fun t => (t.vf 0).lqprod == 16 && t.posted.length == 1) = true ∧
    ends (exec (.hostMemoryAccess 0 (.read 0x100 1)) s) (fun t => t == s) = true ∧
    ends (exec (.hostMemoryAccess 0 (.write 0x100 [7])) s) (fun t => t.posted.length == 2 && t.hostResp == some []) = true := by decide +kernel
theorem witness_HostAccesses : (mfind? ho.parts 0).isSome = true ∧
    (match hostPieces ho 0 0x106 4 .read with
     | .ok ps => ps.map (fun e => (e.1.at_, e.1.pos, e.1.len, e.2.pa)) == [(0x106, 0, 2, 0x20000106), (0x108, 2, 2, 0x20000108)]
     | _ => false) = true ∧
    (match checkAccess ho 0 0x106 .write (translate ho 0 0x106) with | .ok _ => true | _ => false) = true ∧
    (match checkAccess ho 0 0x20000000 .write (translate ho 0 0x20000000) with | .error r => !r.wait | _ => false) = true ∧
    ends (exec (.hostMemoryAccess 0 (.read 0x106 4)) ho) (fun t => (t.part 0).live.chans.length == 2 && t.hostReqs.map (·.left) == [2]) = true ∧
    ends (exec (.hostMemoryAccess 0 (.write 0x100 [0x33])) ho) (fun t => (t.part 0).live.chans.length == 1 && t.posted.length == 1 &&
      t.hostResp == some []) = true ∧
    ends (exec (.hostMemoryAccess 0 (.read 0x20000000 1)) { ho with hostResp := some [1] }) (fun t => t.hostResp == none) = true ∧
    ends (exec (.hostMemoryAccess 0 (.write (2 ^ 55) [1])) { ho with hostResp := some [1] }) (fun t => t.hostResp == none) = true ∧
    ends (exec (.hostMemoryAccess 5 (.read 0x100 1)) { ho with hostResp := some [1] }) (fun t => t.hostResp == none) = true := by decide +kernel
/-- An access of the host to virtual 0x108 for request 4, whose other responses have come. -/
def ha (k : AccKind) : Acc := { core := hostCore 0, act := 4, kind := k, ea := 0x108, place := .home 0, leaf := { pa := 0x20000108, d := true } }
def hb (read : Bool) (r : List (Acc × Answer)) (d : List Acc := []) : State :=
  { updLive ho 0 fun x => { x with resps := r, delivered := d } with
    hostReqs := [{ id := 4, vf := 0, part := 0, read := read, va := 0x108, len := 2, left := 1 }]
    posted := if read then [] else [(0, .sent 4)] }
theorem witness_HostAnswers : let st := ha (.store [0x33, 0x44])
    st.byHost = true ∧ lineHeld ((hb false []).part 0).live (st.off / 128) = false ∧ lineBusy (hb false []) 0 (st.off / 128) = false ∧
    watched (ho.vf 0) st.off 2 true false = false ∧
    ends (exec (.perform 0 0) (hb false [] [st])) (fun t => memByte t 0x20000108 == 0x33 && memByte t 0x20000109 == 0x44 &&
      (t.part 0).live.resps == [(st, {})] && (t.part 0).live.delivered == []) = true ∧
    ends (exec (.respReturn 0 0) (hb false [(st, {})])) (fun t => t.posted == []) = true ∧
    ends (exec (.respReturn 0 0) (hb true [(ha (.load 2 false), { v := 0x1122 })])) (fun t => t.hostResp == some [0x22, 0x11] && t.hostReqs == []) = true ∧
    ends (exec (.respReturn 0 0) (hb true [(ha (.load 2 false), { error := true })])) (fun t => t.hostResp == none) = true ∧
    ends (exec (.vfTeardown 1) { ho with parts := ho.parts ++ [(3, { vf := 1, clusters := [1] })] }) (fun t => t.parts.map (·.1) == [0]) = true := by
  decide +kernel
/-- An image whose checks pass, and a flit with its CRC. -/
def im (ok : Bool) (fs : List RecField := []) : Image := { bytes := [1, 2], version := 3, ecdsaOk := ok, lmsOk := true, fields := fs }
def flit (cls : Byte) : List Byte := let b := [0, 0, 0, 0, cls] ++ List.replicate 243 0; b ++ leBytes 8 (crc64 b).toNat
theorem witness_BringUp : (flit 3).length = 256 ∧ (crc64 ((flit 3).take 248)).toNat = leNat ((flit 3).drop 248) ∧
    ends (exec (.amisinFlit 15 (flit 3)) {}) (fun t => (mget ({} : Port) t.ports 15).flits.length == 1) = true ∧
    ends (exec (.amisinFlit 15 (flit 4)) {}) (fun t => (mget ({} : Port) t.ports 15).dropped == 1) = true ∧
    ends (exec (.amisinFlit 15 ((flit 3).set 9 1)) {}) (fun t => (mget ({} : Port) t.ports 15).crcDropped == 1) = true ∧
    passes 0 (im true) ∧ ¬passes 0 (im false) ∧ ¬passes 4 (im true) ∧ ¬passes 0 (im true [.ckptInt 24]) ∧
    ends (exec (.bringUp (im true) (im true) [im true]) {}) (fun t => t.boot.passed) = true ∧
    ends (exec (.bringUp (im true) (im true) [im true, im false]) {}) (fun t => !t.boot.passed && t.boot.stage == 3 && t.boot.index == 1) = true :=
  by and_intros <;> first | decide +kernel | (unfold passes; decide +kernel)
theorem witness_BringUp_carried : floorSaid 0 [im true [.floor 2]] = 2 ∧ floorSaid 0 [im true [.floor 4]] = 4 ∧
    ends (exec (.bringUp (im true) (im true) [im true [.floor 2]]) {}) (fun t => t.boot.passed && t.boot.floor == 2) = true ∧
    ends (exec (.bringUp (im true) (im true) [im true [.floor 4]]) {}) (fun t => !t.boot.passed && t.boot.stage == 1) = true ∧
    ends (exec (.bringUp (im true) (im true) [im true [.quantum 9]]) {}) (fun t => t.boot.quantum == 9) = true ∧
    ends (exec (.bringUp (im true) (im true) [im true [.identity [1] [[2], [1]]]]) {}) (fun t => t.boot.identity == [1]) = true := by
  decide +kernel
/-- Bring-up stopped at the runtime image, with a mailbox command ready. -/
def bt (loading : Bool) : State := { boot := { stage := 2, raddr := 0x3000, rlen := 2, loading := loading, firmware := im true, runtime := im false } }
theorem witness_BringUp_recovery : (bt false).boot.passed = false ∧ (bt false).boot.stage ≠ 0 ∧ (bt false).boot.loading = false ∧
    ends (exec .load (bt false)) (fun t => t.boot.rstat == 1 && t.boot.loading) = true ∧
    ends (exec .load { bt false with boot := { (bt false).boot with rlen := 0 } }) (fun t => t.boot.rstat == 3 && t.boot.rreason == 4) = true ∧
    ends (exec (.recoveryLoadDone (im true)) (bt true)) (fun t => t.boot.substitute.length == 1) = true ∧
    ends (exec (.recoveryLoadDone (im false)) (bt true)) (fun t => t.boot.rstat == 3 && t.boot.stage == 2) = true ∧
    ends (exec .restart (bt false)) (fun t => !t.boot.passed && t.boot.stage == 2) = true ∧
    ends (exec (.spdmRequest 1) ho) (fun t => t.spdm.length == 1) = true ∧ ends (exec (.spdmRequest 6) ho) (fun t => t.spdm.length == 0) = true ∧
    ends (exec (.jtagAccess (im true [.debugEnable])) {}) (fun t => t.jtag == 1) = true ∧
    ends (exec (.jtagAccess (im false [.debugEnable])) {}) (fun t => t.jtag == 0) = true ∧
    ends (exec (.jtagAccess (im true)) {}) (fun t => t.jtag == 0) = true := by decide +kernel
theorem witness_Temperature : 105 ≤ (105#8).toNat ∧ 115 ≤ (115#8).toNat ∧
    ends (exec (.thermalAlarm 105) (rb 0)) (fun t => t.alarm && t.pfInterrupts == [.alarm] && t.junction == 105) = true ∧
    ends (exec (.protectiveHalt 115) (rb 0)) (fun t => t.halted && !runs t 0 && (t.slotAt 0 0 0).pc == 0x40) = true ∧
    ends (exec (.thermHaltedClear 100) { halted := true }) (fun t => t.halted) = true ∧
    ends (exec (.thermHaltedClear 99) { halted := true }) (fun t => !t.halted) = true := by decide +kernel
theorem witness_StepKeepsMemoryWf : memoryWf (mg false) ∧ ends (step { mg false with moves := [.agent (.jtagAccess (im true))] }) (fun t => Memory.wf t.mem) = true :=
  ⟨⟨by decide +kernel, by decide +kernel⟩, by decide +kernel⟩
/-- A state whose next step issues the instruction of a word. -/
def at1 (w : Nat) : State := State.reset.withFetchWord 96 w
/-- ADD.i64 s1, s2, s3; a reserved major; CHSAVE; ERET; an operand 0x55. -/
theorem witness_StepRunsDecodedInstruction :
    ((at1 0x070302010001).moves.length == 1) = true ∧ mayIssue { at1 0x070302010001 with moves := [] } ⟨0, 0, 0⟩ = true ∧
    (match fetchBytes (at1 0x070302010001) 0 0 (at1 0x070302010001).me.pc with | .ok bs _ => wordOfBytes bs == 0x070302010001 | _ => false) = true ∧
    ends (step (at1 0x070302010001)) (fun t => t.me.pc == 12) = true ∧ ends (step (at1 0x0700000000FF)) (fun t => t.me.cause == 1) = true ∧
    ends (step { at1 0x0700000000AC with variant := .s16 }) (fun t => t.me.cause == 3) = true ∧
    ends (step { at1 0x070302010001 with mem := putBytes (at1 0x070302010001).mem 0x40000 [0xE1, 0, 0, 0, 0] }) (fun t => t.me.cause == 4) = true ∧ ends (step (at1 0x075502010001)) (fun t => t.me.cause == 2) = true := by decide +kernel
theorem witness_DecodeEncode : (Instr.add ⟨⟨.pred 6 true, { delay := 7, yield := true, reuseA := true, reuseB := true }⟩, true, .q 15, .s 63, .q 0⟩).wf = true ∧
    (encode (.add ⟨⟨.pred 6 true, { delay := 7, yield := true, reuseA := true, reuseB := true }⟩, true, .q 15, .s 63, .q 0⟩)).bind (fun w =>
      match decode w with | .ok i => encode i | _ => none) =
      encode (.add ⟨⟨.pred 6 true, { delay := 7, yield := true, reuseA := true, reuseB := true }⟩, true, .q 15, .s 63, .q 0⟩) := by decide +kernel

/-! Further clauses of the statements above, each with its own hypotheses. -/

theorem witness_Calls_callr_spill : Ready (c1 0) {} [.s 1] [] [] ∧ trapsWith (.callr ⟨{}, .s 1, 0⟩) (c1 0) 0x18 = true ∧
    ends (exec (.ret ⟨{}⟩) (one (regs []) 3)) (fun t => t.me.pc == 0x100C && t.me.st == .ready) = true ∧
    ends (exec (.done ⟨{}⟩) (one (regs []) 3)) (fun t => t.me.pc == 0x100C && t.me.st == .ready) = true ∧
    ends (exec (.doneTask ⟨{}⟩) (one (regs []) 3)) (fun t => t.me.pc == 0x100C && t.me.st == .ready) = true :=
  by and_intros <;> first | decide +kernel | (unfold Here; decide +kernel)
/-- A copy fault of number 3, and a fault of context 0. -/
def t2 : State :=
  let s := updMine t1 fun k => { k with frecs := [{ id := 6, num := 3, sub := 7, bad := 0x440 }] }
  updCluster s 0 0 fun x => { x with ctxs := [(0, { launch := some 1, completed := 2, pending := some (2, 1, 0x80) })] }
theorem witness_Timelines_faults : Ready t2 {} [.s 1] [] [] ∧ t2.me.replayNum ≤ t2.mine.cq.completed ∧
    (∀ g ∈ t2.mine.frecs, g.num ≤ (sourceValue t2.me [.s 1] 0).toNat ∧ g.delivered = false) ∧
    ends (exec (.tlwait ⟨{}, .copy, .s 1, .s 0⟩) t2) (fun t => t.me.cause == 0x720 && t.me.copyRec == some 6) = true ∧
    trapsWith (.tlwait ⟨{}, .chisel, .s 1, .s 0⟩) t2 0x124 = true ∧ anyCtx t2 (sourceValue t2.me [.s 1, .s 1] 1) = none ∧
    trapsWith (.tlwait ⟨{}, .chisel, .s 1, .s 1⟩) t2 2 = true ∧ trapsWith (.tlget ⟨{}, .chisel, .s 3, .s 1, 0⟩) t2 2 = true :=
  by and_intros <;> first | decide +kernel | (unfold Here; decide +kernel)
/-- A header's outcome. -/
def causeOf (r : Except Trap Nat) : Nat :=
  match r with
  | .ok _ => 0
  | .error f => f.cause
theorem witness_HeaderChecks : let h : Word := 0x8000000130000000
    causeOf (target m1 h (· == 0) 0) = 2 ∧ causeOf (target m1 h (fun _ => true) 0) = 0 ∧
    causeOf (target m1 0x80000FFF00000000 (· == 0) 0) = 0x0B ∧ causeOf (target m1 0x8000000200000000 (· == 0) 0) = 0x0C ∧
    causeOf (target m1 h (· == 3) 2) = 5 ∧ sameLaunch m1 0 0 2 = false ∧ sameLaunch m1 0 0 1 = true ∧
    trapsWith (.spawn ⟨{}, 1, .s 1, 8, .s 5⟩) m1 2 = true ∧ trapsWith (.callat ⟨{}, .s 1, 8, .s 5, 14⟩) m1 2 = true ∧
    trapsWith (.spawn ⟨{}, 7, .s 2, 8, .s 5⟩) m1 2 = true := by decide +kernel
theorem witness_MessageArrival_refused : let s := m2 (.send 3 {} false) false .ready
    ends (exec (.perform 0 0) (updLive s 0 fun x => { x with delivered := x.delivered.map fun e => { e with prog := 2 } }))
      (fun t => (t.part 0).live.resps.map (·.2.trap) == [some (0x15, 0)]) = true := by decide +kernel
/-- An agent's store of sixteen bytes while the first of their two units has been moved by a copy. -/
theorem witness_ScratchpadRequests_pair : let s := cpr { cp1 with count := 16 } { put := [4], got := (List.range 16).map fun n => (n, 1) }
    let e : Acc := { kind := .store (List.replicate 16 7), place := .spad 0, ea := localAddr 0x20 }
    splitsPair s 0 (.spad 0) 0x20 16 = true ∧
    (match exec (.remoteScratchpadRequest 0 0) (updLive s 0 fun x => { x with delivered := [e] }) with
     | .next t => (t.part 0).live.delivered.length == 1
     | _ => false) = true := by decide +kernel
theorem witness_ReadForms_upstream : let k : Key := { writer := 1, keep := 6, kind := true, ord := 1, xlim := 13 }
    let form (vt t : Word) : Nat := match upstreamForm k (gr0 true) ⟨0, 4, 0, true, false⟩ vt t with
      | .ok (.inst a) => a
      | .ok (.extrap1 a b d _) => 1000 + 100 * a + 10 * b + d
      | .ok _ => 9
      | .error c => c
    form 20 12 = 12 ∧ form 20 13 = 1921 ∧ form 20 11 = 0x11 ∧ form 20 26 = 0x12 ∧ form 3 2 = 0 := by decide +kernel
/-- A vector command at the head of the queue: VDUP from q4, a store to the own scratchpad, a load from core 1. -/
def vq (op : EngOp) : State :=
  one { regs [] with queues := [(4, [5, 6])] } (k := { vq := { queue := [{ num := 1, op := op }], assigned := 1 } })
theorem witness_VectorStarts : (startable? (vq (.vdup .i32 6 none 4)) 0 0 .vector).isSome = true ∧ (EngOp.vdup .i32 6 none 4).pops = [4] ∧
    ends (exec (.vectorCommandStart ⟨0, 0⟩) (vq (.vdup .i32 6 none 4))) (fun t => queueOf t.me 4 == [6] &&
      ((t.coreAt 0 0).vq.run.map fun r => r.eff.vregs) == some [(6, 0x00000005000000050000000500000005)]) = true ∧
    nearOwn (vq (.vstore 4 (localAddr 0x20))) 0 0 (localAddr 0x20) = true ∧
    ends (exec (.vectorCommandStart ⟨0, 0⟩) (vq (.vstore 4 (localAddr 0x20)))) (fun t => (t.coreAt 0 0).vq.run.isSome) = true ∧
    nearOwn (vq (.vload 4 0x8000000100000080)) 0 0 0x8000000100000080 = false ∧
    ends (exec (.vectorCommandStart ⟨0, 0⟩) (vq (.vload 4 0x8000000100000080)))
      (fun t => (t.part 0).live.chans.map (·.2.2.kind) == [.load 8 false, .load 8 false]) = true := by decide +kernel
/-- A vector command that runs with an effect. -/
def vr (op : EngOp) (e : Effect) (r : Running := {}) : State := one { regs [] with eguards := [(1, .waiting 1), (2, .waiting 9)] }
  (k := { vq := { run := some { r with cmd := { num := 1, op := op }, eff := e }, assigned := 1 } })
theorem witness_VectorCompletes : engineBusy (vr (.vqtbl 0) {}) 0 0 .vector = false ∧
    vectorDone { cmd := { num := 1 } } = some {} ∧
    ends (exec (.vectorCommandComplete ⟨0, 0⟩) (vr (.vcmp .f32 .eq (.any 1) 1 2) { resolve := some true }))
      (fun t => eguard t.me 1 == .known true && eguard t.me 2 == .waiting 9) = true ∧
    ends (exec (.vectorCommandComplete ⟨0, 0⟩) (vr (.vext .i32 3 4 0) { push := some (3, 7), flags := 1, nolegal := true }))
      (fun t => queueOf t.me 3 == [7] && t.me.fstat == 1 && t.me.nolegal == 1) = true ∧
    ends (exec (.vectorCommandComplete ⟨0, 0⟩) (vr (.vqtbl 0) { spad := [(3, 9)] })) (fun t => spadByte t 0 0 3 == 9) = true ∧
    vectorDone { cmd := { op := .vload 5 0 }, got := (List.range 16).map fun n => (n, 1) } =
      some { vregs := [(5, 0x01010101010101010101010101010101)] } ∧
    (vectorDone { cmd := { op := .samp .smaxl 2 0 0 1 0 [] }, got := (List.range 5).map fun n => (n, 0xFF) }).isSome = true :=
  by decide +kernel
theorem witness_VectorLanes_rest : lane 32 (vfp .fma .f32 .rne (1 <<< 127) 0 0x3F800000).1 0 = 0x3F800000 ∧
    (vcmp .i8 .lt 0x80 0).1[0]? = some true ∧ (vcmp .f32 .un 0x7FC00000 0).1[0]? = some true ∧
    isNaN Machine.f32 0x7FC00000 ∧ (exp2F32 0x3F800000).1 = 0x40000000 ∧ (rsqF32 0x40800000).1 = 0x3F000000 ∧
    lane 32 (vred .i32 .sum .rne 0x00000004000000030000000200000001).1 0 = 10 ∧
    lane 32 (vdot4 false 0x7F7F7F7F 0x7F7F7F7F 0x7FFFFFFF).1 0 = 0x7FFFFFFF := by decide +kernel
theorem witness_FactorColumns : let st : Luf := { rows := [[0x3F800000, 0x40000000], [0x40000000, 0x40400000]], perm := [0, 1] }
    st.rows.length = 2 ∧ (∀ r ∈ st.rows, r.length = 2) ∧ st.perm.length = 2 ∧ (lufColumn Machine.f32 2 0 0 st 0).perm = [1, 0] ∧
    (lufColumn Machine.f32 2 0 0 st 0).rows = [[0x40000000, 0x40400000], [0x3F000000, 0x3F000000]] ∧
    (lufColumn Machine.f32 2 0 0x3F000000 { rows := [[0, 0], [0, 0]], perm := [0, 1] } 1).reg = 2 := by decide +kernel
theorem witness_Sampling : sampResult .smaxl [0xFF] 0 [0x3F800000, 0x40000000] [] = (0x40000000, false) ∧
    sampResult .smaxl [0] 0 [0x3F800000, 0x40000000] [] = (0xFFFFFFFF807FFFFF, false) ∧
    (sampParams 0x3F8000007F800000 0).isSome = true := by decide +kernel
theorem witness_Products : efmtRead .i8 0 0xFF ≠ .nan false ∧ efmtTerms .i8 0 3 = 2 ∧ nafCount 5 7 = 2 ∧
    (blockValue [(.inf false, 0), (.inf true, 0)] 127 127) = (Machine.f32.nan, fNV) ∧
    (blockValue [(.fin false 1 0, 0), (.fin false 1 0, 0)] 127 128).1 = 0x40800000 := by decide +kernel

/-- Cores 0 and 1 of a team in armature mode; both stand at a SYNC that votes all, or core 1 does not. -/
def team2 (both : Bool) (inbox : List (Nat × Routed) := []) (o : Byte := 7) : State :=
  let a (tp : BitVec 8) (bs : List Byte) : Arm :=
    { active := true, team := true, block := 0x1000, csc := List.replicate 16 0x7F, tp := tp, fetched := some bs, inbox := inbox }
  let x : Slot := { regs [] with st := .blocked, wait := .armature, arm := true }
  let k (tp : BitVec 8) (bs : List Byte) : Core := { slots := [(0, x)], teamSize := 2, arm := a tp bs, launch := some 1 }
  { one {} with parts := [(0, { clusters := [0], live := {
      cores := [(0, k 3 (block o 0 0 2 1 0 [])), (1, k 1 (if both then block o 0 0 2 1 0 [] else nop0))] } })] }
theorem witness_Synchronised : ((team2 true).coreAt 0 0).teamSize = 2 ∧ blkHere (team2 true) 0 1 7 ≠ none ∧ blkHere (team2 false) 0 1 7 = none ∧
    (readBlk (block 7 0 0 2 1 0 [])).vote = 1 ∧
    ends (exec (.sync ⟨0, 0⟩) (team2 false)) (fun t => (t.coreAt 0 0).arm.done == 0) = true ∧
    ends (exec (.sync ⟨0, 0⟩) (team2 true)) (fun t => (t.coreAt 0 0).arm.done == 1 && (t.coreAt 0 1).arm.done == 1 &&
      (t.coreAt 0 0).arm.tp == 1 && (t.coreAt 0 1).arm.tp == 1) = true := by decide +kernel
theorem witness_Routing_wrong : (readBlk (block 5 0 1 2 0 0 [])).mode % 2 = 1 ∧ (readBlk (block 6 0 0 2 0 0 [])).kind = 0 ∧
    ends (exec (.recv x0) (arm (block 5 0 1 2 0 0 []) true { inbox := [(0, .acc [])] })) (fun t => (t.coreAt 0 0).arm.detail == 10 &&
      (t.coreAt 0 0).arm.inbox.length == 1 && (t.slotAt 0 0 0).cause == 0xA22) = true ∧
    ends (exec (.reduce x0) (arm (block 6 0 0 2 0 0 []) true { inbox := [(0, .tile [] 0)] })) (fun t => (t.coreAt 0 0).arm.detail == 10) = true := by
  decide +kernel
/-- Token 0 pops a symbol from the empty stack; a token beyond the vocabulary is no transition. -/
def pops : State := let s := chq (.step 0); { s with mem := putBytes s.mem 0x20001060 [0, 0, 0x30, 0, 0, 0, 0, 0, 0, 0, 1] }
theorem witness_ChiselExecutes_step :
    (match runCtx 0 0 (ctx1 [{ num := 1, op := .step 2 }]) (.step 2) (chq (.step 2)) with
     | .ok k u => k.last == 2 && (mfind? u.parts 0).isSome && !overfull (chq (.step 2)) u 0
     | _ => false) = true ∧
    (match runCtx 0 0 (ctx1 [{ num := 1, op := .step 0 }]) (.step 0) pops with
     | .fault f u => f.code == 2 && (mfind? u.parts 0).isSome && !overfull pops u 0
     | _ => false) = true ∧
    ends (exec (.chiselCommandExecute 0 0) pops) (fun t => (mfind? (t.cluster 0 0).ctxs 0).any fun k => k.fault && k.fcode == 2) = true ∧
    ends (exec (.chiselCommandExecute 0 0) (chq .close { regs [] with st := .blocked, wait := .chisel, lastChisel := [(0, 1)] }))
      (fun t => (mfind? (t.cluster 0 0).ctxs 0).isNone && (t.slotAt 0 0 0).pc == 0x100C) = true := by decide +kernel
theorem witness_Service_fields : Here (sv parked) ∧ trapsWith (.resumeReplay ⟨{}, 3⟩) (sv parked) 2 = true ∧
    trapsWith (.resumeEnd ⟨{}, 3, false⟩) (sv parked) 2 = true ∧ trapsWith (.resumeEnd ⟨{ guard := .pred 1 false }, 0, true⟩) (sv parked) 2 = true :=
  by and_intros <;> first | decide +kernel | (unfold Here; decide +kernel)
theorem witness_Cocoons_stop : ((pt .stopping [rec1]).cluster 0 0).l2 = [] ∧ ((pt .stopping).part 0).live.launches = [] ∧
    enginesIdle (updCore (pt .stopping) 0 0 fun k => { k with mq := { run := some {} } }) 0 = false := by decide +kernel
/-- A node of clusters 0 and 1. -/
def nd2 (n : Node) : State := { nd n [(0, 0)] with
  parts := [(0, { clusters := [0, 1] }), (1, { clusters := [0, 1], scheduled := false })]
  nodes := [{ n with tenants := [0, 1], log2 := 1 }] }
theorem witness_Scheduling_failure : otherHalf (nd2 {}).variant { tenants := [0, 1], log2 := 1 } 0 = some 1 ∧
    ends (exec (.clusterFailure 0 0) (nd2 {})) (fun t => t.parts.map (fun e => e.2.clusters) == [[1], [1]] &&
      t.nodes.map (fun n => (n.first, n.log2, n.retired)) == [(1, 0, false), (0, 0, true)]) = true ∧
    ends (exec (.clusterFailure 0 9) (nd {} [(0, 0)])) (fun t => t.nodes.map (·.first) == [0, 9]) = true ∧
    exec (.clusterFailure 0 0) { nd { retired := true } [(0, 0)] with nodes := [{ retired := true }] } =
      .next { nd { retired := true } [(0, 0)] with nodes := [{ retired := true }] } := by
  refine ⟨by decide +kernel, by decide +kernel, by decide +kernel, rfl⟩
theorem witness_Scheduling_closing : let open_ (c : Cut) : State :=
      { nd { closing := some 1 } with parts := [(0, { clusters := [0], cut := c, saved := { cores := [(0, { vt := 5 })] } }), (1, { clusters := [0], scheduled := false })] }
    ends (exec (.quantumEnd 0) (open_ .none)) (fun t => (t.part 0).cut == .stopping && t.nodes.map (·.window) == [false]) = true ∧
    ends (exec (.quantumEnd 0) (open_ .stopping)) (fun t => !(t.part 0).scheduled && (t.coreAt 0 0).vt == 5 && t.nodes.map (·.window) == [true]) = true := by
  decide +kernel
theorem witness_StepRunsDecodedInstruction_stale : let s := { at1 0x070302010001 with moves := [.issue 0 0 0 true true] }
    mayIssue { s with moves := [] } ⟨0, 0, 0⟩ = true ∧ (at1 0x070302010001).me.report = none ∧
    ends (step s) (fun t => t.me.pc == 12 && !t.stale) = true := by decide +kernel

/-! The ordering of definitions, ranges, pieces and errors. -/

/-- Range operations at line 0 of page 0: at home 0, where the caches are as given, and in a window, whose copy has a dirty byte. -/
def rg (op : RangeOp) (win : Bool) (st : Option LineState := none) : State :=
  let e : Acc := { core := 2 ^ 20, kind := .range op 0x80, place := if win then .ncCopy 0 else .home 0, ea := 0, pages := [({ lf with pa := 0x20000000 }, win)] }
  let l1 : NMap L1Line := match st with
    | some x => [(0, { st := x, dirty := true, data := List.replicate 128 7 })]
    | none => []
  let s := d1 { e with core := if win then 0 else 2 ^ 20 }
  let s := updCluster (updCore s 0 0 fun k => { k with l1 := l1 }) 0 0 fun x => { x with nc := [(0x41, 3), (0x42, 4)], ncDirty := [(0x41, true)] }
  if st.isSome then updLive s 0 fun x => { x with dir := [(0, { st := .m, dies := [0], pa := 0x20000000 })] } else s
/-- What a step leaves: the bytes 0x41 and 0x42 of the line in memory, what core 0 has of it, and the copy of the cluster. -/
def rgLeft (o : Out) (a b : Byte) (c : Option (LineState × Bool)) (d : NMap Byte) (e : NMap Bool) : Bool :=
  ends o fun t => memByte t 0x20000041 == a && memByte t 0x20000042 == b && (copyAt t 0 0 0).map (fun l => (l.st, l.dirty)) == c &&
    (t.cluster 0 0).nc == d && (t.cluster 0 0).ncDirty == e
theorem witness_RangeLines : ((rg .flush false (some .m)).part 0).live.delivered.length = 1 ∧ runs (rg .flush false (some .m)) 0 = true ∧
    ((rg .flush false (some .m)).part 0).mig = none ∧ logUsed ((rg .flush false (some .m)).part 0) + 2 ≤ ((rg .flush false (some .m)).part 0).logCap ∧
    (((rg .flush false (some .m)).part 0).live.delivered.headD {}).pages[0]? = some ({ lf with pa := 0x20000000 }, false) ∧
    lineBehind (rg .flush false (some .m)) 0 (((rg .flush false (some .m)).part 0).live.delivered.headD {}) 0 = false ∧
    lineBusy (rg .flush false (some .m)) 0 0 = false ∧ lineLocked (rg .flush false (some .m)) 0 0 = false ∧
    (dirtyCopy ((rg .flush false (some .m)).part 0).live 0).map (fun d => d.1.length) = some 128 ∧
    (dirOf ((rg .flush false (some .m)).part 0).live 0).pa = 0x20000000 := by decide +kernel
theorem witness_RangeLines_home : let nc : NMap Byte := [(0x41, 3), (0x42, 4)]
    let go (op : RangeOp) (st : Option LineState) : Out := exec (.perform 0 0) (rg op false st)
    rgLeft (go .flush (some .m)) 7 7 none nc [(0x41, true)] = true ∧ rgLeft (go .inv (some .m)) 7 7 none nc [(0x41, true)] = true ∧
    rgLeft (go .flush none) 0xFF 0 none nc [(0x41, true)] = true ∧ rgLeft (go .clean (some .m)) 7 7 (some (.s, false)) nc [(0x41, true)] = true ∧
    rgLeft (go .clean none) 0xFF 0 none nc [(0x41, true)] = true ∧ rgLeft (go .zero (some .m)) 0 0 none nc [(0x41, true)] = true := by decide +kernel
theorem witness_RangeLines_window : let go (op : RangeOp) : Out := exec (.perform 0 0) (rg op true)
    lineBehind (rg .flush true) 0 (((rg .flush true).part 0).live.delivered.headD {}) 0 = false ∧
    rgLeft (go .flush) 3 0 none [] [] = true ∧ rgLeft (go .clean) 3 0 none [(0x41, 3), (0x42, 4)] [] = true ∧
    rgLeft (go .inv) 0xFF 0 none [] [] = true ∧
    ends (go .zero) (fun t => memByte t 0x20000041 == 0xFF && (t.cluster 0 0).nc.map (·.2) == List.replicate 128 0) = true := by decide +kernel
/-- An older store of the cluster to the line is not performed yet: the line waits. -/
theorem witness_RangeLines_behind : let s := updLive (rg .flush false) 0 fun x => { x with
      delivered := [{ (x.delivered.headD {}) with after := [9] }], chans := [(0, .request, { id := 9, kind := .store [1], place := .home 0, ea := 0x40 })] }
    lineBehind s 0 ((s.part 0).live.delivered.headD {}) 0 = true ∧ ends (exec (.perform 0 0) s) (fun t => t == s) = true := by decide +kernel
/-- At another core's scratchpad: a pair, an atomic with no result that leaves its flags, a barrier operation. -/
theorem witness_ScratchpadRequests_forms : let e : Acc := { kind := .loadPair, place := .spad 0, ea := localAddr 0x40, dst := .glob 3 }
    let f : Acc := { e with kind := .amo .faddF32 true false 0x7F800001 0 }
    let b : Acc := { e with kind := .bar .init 5 }
    splitsPair (d1 e) 0 e.place e.off 16 = false ∧
    ends (exec (.remoteScratchpadRequest 0 0) (d1 e)) (fun t => (t.part 0).live.resps == [(e, { v := 0xFF80 })]) = true ∧
    ends (exec (.remoteScratchpadRequest 0 0) (d1 f)) (fun t => spadRead t 0 0 0x40 4 == [0, 0, 0xC0, 0x7F] && (t.part 0).live.aflags != 0 &&
      (t.part 0).live.resps == [(f, {})]) = true ∧
    ends (exec (.remoteScratchpadRequest 0 0) (d1 b)) (fun t => (Bar.read (leNat (spadRead t 0 0 0x40 8))).pend == 5) = true ∧
    ends (exec (.remoteScratchpadRequest 0 0) (d1 { e with kind := .bar .init 0 })) (fun t => (t.part 0).live.resps.map (·.2.trap) ==
      [some (2, localAddr 0x40)]) = true := by decide +kernel
/-- A cluster store of launch 7, and a copy of the line in a window. -/
def d3 (e : Acc) : State := updCluster (d1 e) 0 0 fun x => { x with
  stores := [{ launch := 7, ways := 1, bytes := [(0x40, 5)] }], l2 := [{ line := 0, cls := .nc }], nc := [(0x41, 6)] }
theorem witness_ScratchpadRequests_places : let e : Acc := { kind := .load 2 false, place := .cstore 0 7, ea := BitVec.ofNat 64 (2 ^ 63 + 0x40) }
    let f : Acc := { e with place := .ncCopy 0, ea := 0x40, leaf := lf }
    e.off = 0x40 ∧ (((d3 e).cluster 0 0).stores.filter fun t => t.launch = 7).length = 1 ∧ f.off % 128 + f.kind.bytes ≤ 128 ∧ f.leaf.d = true ∧
    (d3 f).memErrors = [] ∧
    ends (exec (.perform 0 0) (d3 e)) (fun t => (t.part 0).live.resps.map (·.2.v) == [5]) = true ∧
    ends (exec (.perform 0 0) (d3 { e with kind := .store [1, 2] })) (fun t => storeRead t 0 0 7 0x40 2 == [1, 2]) = true ∧
    ends (exec (.perform 0 0) (d3 f)) (fun t => (t.part 0).live.resps.map (·.2.v) == [0x680]) = true ∧
    ends (exec (.perform 0 0) (d3 { f with kind := .store [1, 2] })) (fun t => mget 0 (t.cluster 0 0).nc 0x41 == 2 && memByte t 0x20000041 == 0xFF) = true := by
  decide +kernel
/-- At a home: a pair, an atomic with no result, and a core's pair from its own copy. -/
theorem witness_HomePerforms_forms : let e : Acc := { core := 2 ^ 20, kind := .loadPair, place := .home 0, ea := 0x40, leaf := lf }
    let f : Acc := { e with kind := .amo .faddF32 true false 0x7F800001 0 }
    ends (exec (.perform 0 0) (d1 e)) (fun t => (t.part 0).live.resps == [(e, { v := 0xFF80 })]) = true ∧
    ends (exec (.perform 0 0) (d1 f)) (fun t => physRead t 0x20000040 4 == [0, 0, 0xC0, 0x7F] && (t.part 0).live.aflags != 0) = true ∧
    ends (exec (.perform 0 0) (d2 .loadPair .s)) (fun t => (t.part 0).live.resps.map (fun r => (r.2.v, r.2.v2)) ==
      [(0x0707070707070707, 0x0707070707070707)]) = true := by decide +kernel
/-- The table that the walk reads has an error: a rollback repairs it where the open interval has logged its line, and else it is reported. -/
def h2 (logs : Bool) : State :=
  let s : State := { h1 0x128 with memErrors := [0x20000 / 128] }
  { s with parts := s.parts.map fun e => (e.1, { e.2 with undo := if logs then [(0x20000 / 128, [])] else [] }) }
theorem witness_HomeAnswers_error :
    (match (acceptVa (h2 false) 0 0 0x128 .read false).2 with | .error r => r.cause == 0x3F && !r.wait | _ => false) = true ∧
    (match (acceptVa (h2 true) 0 0 0x128 .read false).2 with | .error r => r.wait | _ => false) = true ∧
    ends (exec (.accessAccept ⟨0, 0, 0⟩ false) (h2 false)) (fun t => t.me.report == some (0x3F, 0x128) && t.me.pc == 0x100C && t.me.lq == []) = true ∧
    ends (exec (.accessAccept ⟨0, 0, 0⟩ false) (h2 true)) (fun t => t == h2 true) = true := by decide +kernel
theorem witness_Forwarding : let f : LqEntry := { acc := { id := 3, kind := .load 1 true, place := .home 0, ea := 0x81, leaf := lf, dst := .glob 3 } }
    let g : Acc := { id := 2, kind := .store [9, 0xFE], place := .home 0, ea := 0x80, leaf := lf }
    f ∈ q3.me.lq ∧ (forwardValue q3.me 3).map (·.2) = some [0xFE] ∧ q3.me.sb = [] ++ g :: [] ∧ g.id < f.acc.id ∧ g.place = f.acc.place ∧
    (forwardValue { q3.me with sb := q3.me.sb ++ [{ g with kind := .store [1, 2] }] } 3).map (·.2) = some [2] ∧
    forwardValue { q3.me with sb := [{ g with kind := .store [9] }] } 3 = none := by decide +kernel
/-- A range operation is delivered behind an access of its cluster that is still in a channel; a response that carries a definition; a
response behind another one. -/
theorem witness_OrderingSteps_knowledge : let e : Acc := { id := 5, kind := .load 1 false, place := .home 0, ea := 0x90, leaf := lf, dst := .glob 3, know := [(4, 7, .sys)] }
    let r : Acc := { id := 6, kind := .range .flush 0x80, place := .home 0 }
    let s (o : Sys2Proof.Ord) : State := one { regs [] with lq := [{ acc := { e with ord := o }, posted := true }] } (pl := { resps := [({ e with ord := o }, { v := 7 })] })
    let c : State := one (regs []) (pl := { chans := [(0, .request, { e with id := 2, place := .home 1 }), (0, .request, r)] })
    ends (exec (.deliver 0 1) c) (fun t => (t.part 0).live.delivered.map (·.after) == [[2]]) = true ∧ inScope 7 0 .sys = true ∧
    ends (exec (.respReturn 0 0) (s .acq)) (fun t => t.me.seen == [4]) = true ∧
    ends (exec (.respReturn 0 0) (s .rlx)) (fun t => t.me.seen == [] && t.me.told == [4]) = true ∧
    sameResp (e, { v := 7 }) (e, { v := 7 }) = true ∧
    ends (exec (.respReturn 0 1) (one (regs []) (pl := { resps := [(e, { v := 7 }), (e, { v := 7 })] }))) (fun t => (t.part 0).live.resps.length == 2) = true := by
  decide +kernel
/-- FENCE.acq after a load that was told a definition, and FENCE.rel of what the slot knows. -/
theorem witness_FencesAndHints_know : let s := one { regs [] with told := [4], seen := [5] }
    ends (exec (.fence ⟨{}, .acq, .sys⟩) s) (fun t => t.me.seen.contains 4 && t.me.freed == []) = true ∧
    ends (exec (.fence ⟨{}, .rel, .die⟩) s) (fun t => t.me.seen == [5] && t.me.freed == [(5, 0, .die)]) = true := by decide +kernel
/-- Core 0 with messages of several queues: 15 goes before 2, which is bound; queue 5 is timed, its second message has the lower stamp. -/
def so (live : Bool) : State :=
  launched (if live then { regs [] with fromQueue := some 2 } else {}) (k := {
    inq := [(2, [{ pay := [1] }]), (5, [{ pay := [9] }, { pay := [3], sender := 1 }])]
    binds := [(2, { pc := 0x60 }), (5, { pc := 0x70, timed := true, grp := 2 })] }) (pl := { groups := [(2, { lambda := 4, members := [{}] })] })
theorem witness_StartOrder : nextQueue (so false) 0 0 = some 2 ∧ nextQueue (so true) 0 0 = some 5 ∧ startable (so true) 0 0 2 = none ∧
    startable (so false) 0 0 3 = none ∧ (startable (so false) 0 0 2).map (·.2.pay) = some [1] ∧
    (startable (so false) 0 0 5).map (fun r => (r.1, r.2.pay)) = some (1, [3]) ∧ seenFloor (so false) 0 2 (coreView 0) = 0 ∧
    startable (v1 15 []) 0 0 15 ≠ none := by decide +kernel
/-- The ring's record is the payload, at offset 0x100 + 32 · (3 mod 2); the sequence number counts. -/
theorem witness_Starts_ring : let s := v1 2 [(2, { pc := 0x60, land := .ring, base := 0x100, seq := 3, ring := 1 })]
    logUsed (s.part 0) + 2 ≤ (s.part 0).logCap ∧
    ends (exec (.messageActivationStart ⟨0, 0, 0⟩) s) (fun t => spadRead t 0 0 0x120 32 ==
      [7, 0, 0, 0, 0, 0, 0, 0, 8, 0, 0, 0, 0, 0, 0, 0, 9, 0, 0, 0, 0, 0, 0, 0, 10, 0, 0, 0, 0, 0, 0, 0] &&
      (mfind? (t.coreAt 0 0).binds 2).map (·.seq) == some 4) = true := by decide +kernel
/-- A start acquires what its message releases. -/
theorem witness_Starts_know : let s := launched {} (k := { inq := [(15, [{ pc := 0x80, know := [6] }])] })
    ends (exec (.messageActivationStart ⟨0, 0, 0⟩) s) (fun t => (t.slotAt 0 0 0).seen == [6]) = true := by decide +kernel
/-- JOIN's read comes back: zero ends it with an acquire, another value is kept. -/
theorem witness_Tasks_read : let e : Acc := { kind := .join, place := .own 0, ea := localAddr 0x40, know := [(4, 7, .sys)] }
    let s (v : Word) : State := one { regs [] with st := .blocked, wait := .store, lq := [{ acc := e, posted := true }] } (pl := { resps := [(e, { v := v })] })
    ends (exec (.respReturn 0 0) (s 0)) (fun t => t.me.pc == 0x100C && t.me.st == .ready && t.me.seen == [4]) = true ∧
    ends (exec (.respReturn 0 0) (s 2)) (fun t => t.me.pc == 0x1000 && t.me.wait == .phase && t.me.joinRead == some 2) = true := by decide +kernel
/-- DONE.task of a task that a JOIN entered: it returns to the JOIN. -/
theorem witness_Tasks_entered : let s := w1 2 [] { frames := [⟨16, some 0x40⟩], wbase := 8, wregs := [(15, 0x2000)] }
    Ready s {} [] [] [] ∧ frameOk 16 ∧ (16 : Nat) - 8 ≤ s.me.wbase ∧ s.me.fillTo = none ∧ s.me.sb.length < 8 ∧
    windowFree s.me (s.me.wbase + 7) (s.me.wbase + s.me.frame) ∧ readReg s.me 23 = 0x2000 ∧
    ends (exec (.doneTask ⟨{}⟩) s) (fun t => t.me.pc == 0x2000 && t.me.frames == [] && t.me.wbase == 0 && t.me.sb.length == 1) = true :=
  ⟨ready_of (by decide +kernel), by unfold frameOk; decide, by decide, rfl, by decide, by unfold windowFree; decide +kernel, by decide +kernel, by decide +kernel⟩
/-- A definition that the slot makes is one that it knows. -/
theorem witness_KeysAndFloors_know : ends (exec (.ireg ⟨{}, .s 6, .s 5⟩) i1) (fun t => t.me.seen == [1] && t.myPart.live.events == 1) = true ∧
    ends (exec (.idrop ⟨{}, .s 5⟩) i1) (fun t => t.me.seen == [1]) = true ∧ ends (exec (.igrp ⟨{}, .s 1⟩) (ig 1)) (fun t => t.me.seen == [1]) = true := by
  decide +kernel
/-- Context 0 closed by its command 2: a slot that nothing orders after the CHCLOSE still finds it, and a wait that covers it acquires it. -/
def tc (stale : Bool) : State := { launched { regs [(1, 2), (2, 3)] with lastChisel := [(192, 1)] } (pl := { events := 3, clusters := [(0, {
    ctxs := [(192, { launch := some 1, assigned := 2, completed := 2, shut := 2, by_ := ⟨0, 1, 0⟩ })], closed := [(0, (3, ⟨0, 1, 0⟩))] })] }) with stale := stale }
theorem witness_Timelines_closed : anyCtx (tc false) 0 = none ∧ (anyCtx (tc true) 0).map (·.1) = some 192 ∧ Ready (tc true) {} [.s 1, .s 0] [] [] ∧
    trapsWith (.tlwait ⟨{}, .chisel, .s 1, .s 0⟩) (tc false) 2 = true ∧
    ends (exec (.tlwait ⟨{}, .chisel, .s 1, .s 0⟩) (tc true)) (fun t => t.me.pc == 0x100C && t.me.seen == [3]) = true ∧
    ends (exec (.tlwait ⟨{}, .chisel, .s 2, .s 0⟩) (tc true)) (fun t => t.me.wait == .timeline) = true ∧
    leaves (.tlget ⟨{}, .chisel, .s 3, .s 0, 2⟩) (tc true) 3 1 = true ∧
    ends (exec (.chstep ⟨{}, .s 0, .s 1⟩) (tc true)) (fun t => (mfind? (t.cluster 0 0).ctxs 192).map (fun k => (k.assigned, k.completed, k.shut, k.queue.map (·.num))) ==
      some (3, 1, 3, [2])) = true ∧ trapsWith (.chclose ⟨{}, .s 0⟩) (tc true) 2 = true := by
  refine ⟨by decide +kernel, by decide +kernel, ready_of (by decide +kernel), ?_⟩; decide +kernel
/-- A CHCLOSE that stands in the queue is numbered after a CHSTEP that finds the context open. -/
theorem witness_ChiselCommands_closing : let s := ch { ctxs := [(0, ctx1 [{ num := 1, op := .close }])] }
    trapsWith (.chstep ⟨{}, .s 0, .s 6⟩) s 2 = true ∧
    ends (exec (.chstep ⟨{}, .s 0, .s 6⟩) { s with stale := true }) (fun t => (mfind? (t.cluster 0 0).ctxs 0).map (fun k => k.queue.map fun c => (c.num, c.op == .close)) ==
      some [(1, false), (2, true)]) = true := by decide +kernel
/-- CHCLOSE keeps the closed context at 64 · event + number. -/
theorem witness_ChiselExecutes_close :
    ends (exec (.chiselCommandExecute 0 0) (chq .close { regs [] with st := .blocked, wait := .chisel, lastChisel := [(0, 1)] }))
      (fun t => (mfind? (t.cluster 0 0).ctxs 64).map (·.shut) == some 1 && mfind? (t.cluster 0 0).closed 0 == some (1, ⟨0, 0, 0⟩) && t.me.seen == [1]) = true := by
  decide +kernel
/-- A CHMASK of 65 bits at 0x40 of the own scratchpad: its first unit is a step of its own. -/
theorem witness_ChiselExecutes_mask : let s := chq (.mask (.own 0) 0x40 0 65)
    (match chMask 0 0 (ctx1 [{ num := 1, op := .mask (.own 0) 0x40 0 65 }]) (.own 0) 0x40 0 64 s with
     | .ok _ u => (mfind? u.parts 0).isSome && !overfull s u 0 | _ => false) = true ∧
    ends (exec (.postAStoreBufferEntry ⟨⟨0, 0, 7⟩, 0⟩) s) (fun t => spadByte t 0 0 0x40 == 3 &&
      (mfind? (t.cluster 0 0).ctxs 0).map (fun k => k.queue.map fun c => (c.begun, c.op)) == some [(true, .mask (.own 0) 0x48 64 1)]) = true := by
  decide +kernel
/-- A CHSTAT that waits for queue 3 holds an entry of it. -/
theorem witness_VectorCompletes_room : statPushes (chq (.stat (.queue 3) 1)) 0 0 0 3 = 1 ∧ statPushes (chq (.stat (.queue 3) 1)) 0 0 0 2 = 0 := by
  decide +kernel
/-- A block of 64 bytes with elements 1 and 63 set. -/
def blk0 : List Byte := (List.range 64).map fun i => if i = 1 then 5 else if i = 63 then 9 else 0
theorem witness_CompressedBlocks : blk0.length = 64 ∧ cp1.encodeBlock blk0 = [2, 0, 0, 0, 0, 0, 0, 0x80, 5, 9] ∧
    { cp1 with zw := true }.encodeBlock blk0 = [1, 0, 0, 0x80, 0, 5, 0, 9] ∧
    cp1.decodeBlocks 2 ([blk0, blk0].flatMap cp1.encodeBlock) = (blk0 ++ blk0, 0) := by decide +kernel
/-- A .cred copy of 4 bytes, whose barrier object stands at 0x100 of core 1. -/
def cc (bytes : Int) : State :=
  updCore (cpr { cp1 with cred := some 0x8000000100000100 } { put := [4], got := (List.range 4).map fun n => (n, 1) }) 0 1
    fun k => { k with spad := putBytes [] 0x100 (leBytes 8 (Bar.word ⟨false, bytes, 0, 1⟩)) }
theorem witness_CopyCredits : let cp : CopyCmd := { cp1 with cred := some 0x8000000100000100 }
    let go (b : Int) (f : State → Bool) : Bool := ends (exec (.copyCommandComplete ⟨0, 0⟩) (cc b)) f
    (Machine.copyOf ((cc 4).coreAt 0 0)).map (fun r => (r.1.err, r.2, copyWritten (cc 4) 0 0 r.1 r.2, bytesWritten r.1 r.2)) = some (none, cp, true, 4) ∧
    creditClear (cc 4) 0 0 cp.cred = true ∧
    (match globalPlace (cc 4) 0 0 0x8000000100000100 8 8 with | .ok q => q == (.spad 1, 0x100) | _ => false) = true ∧
    go 4 (fun t => Bar.read (leNat (spadRead t 0 1 0x100 8)) == ⟨true, 0, 1, 1⟩ && (t.coreAt 0 0).cq.completed == 1) = true ∧
    go 9 (fun t => (Bar.read (leNat (spadRead t 0 1 0x100 8))).bytes == 5) = true ∧
    go (-2 ^ 30) (fun t => (t.coreAt 0 0).cq.completed == 0) = true ∧ copyFaultAt (cc (-2 ^ 30)) 0 0 0 { put := [4], got := (List.range 4).map fun n => (n, 1), cmd := { num := 1, op := .copy cp } } cp = none ∧
    ends (exec (.copyFault ⟨⟨0, 0⟩, 0⟩) (cc (-2 ^ 30))) (fun t => (t.coreAt 0 0).frecs.map (fun f => (f.sub, f.bad)) == [(0xFD, 0x8000000100000100)] && tileBad (t.coreAt 0 0) 0) = true := by
  decide +kernel
/-- Cores 0 and 2 of the octet may be granted; core 0's visit has a grant left or none. -/
def ao (left : Nat) : State :=
  let q : EngQ := { queue := [{ num := 1, op := .tzero 0 }], assigned := 1 }
  { one {} with parts := [(0, { clusters := [0], live := { cores := [(0, { mq := q }), (2, { mq := q, mqwgt := 3 })], octets := [(0, { left := left })] } })] }
theorem witness_ArbiterOrder : grantable (ao 1) 0 0 = true ∧ grantable (ao 1) 0 1 = false ∧ nextGrant (ao 1) 0 0 = some (0, 1) ∧
    nextGrant (ao 0) 0 0 = some (2, 3) := by decide +kernel
/-- The units of a tile load and of a tile store as they run. -/
theorem witness_MatrixUnit_units : let a := after (.matrixGrant 0 0) (mx (.tld 2 3))
    let b := after (.matrixGrant 0 0) (mx (.tst 2 3))
    ends (exec (.postALoad ⟨⟨0, 0, 6⟩, 0⟩) a) (fun t => (t.coreAt 0 0).mq.run.map (fun r => (r.asked, mfind? r.got 5)) == some ([0], some 8)) = true ∧
    ends (exec (.postAStoreBufferEntry ⟨⟨0, 0, 6⟩, 0⟩) b) (fun t => spadByte t 0 0 0x601 == 9 && spadByte t 0 0 0x605 == 0 &&
      (t.coreAt 0 0).mq.run.map (·.put) == some [0]) = true := by decide +kernel
theorem witness_MatrixUnit_units_acc : let a := after (.matrixGrant 0 0) (mx (.mlda 3 2))
    let b := after (.matrixGrant 0 0) (mx (.msta 1 2))
    ends (exec (.postALoad ⟨⟨0, 0, 6⟩, 64⟩) a) (fun t => (t.coreAt 0 0).mq.run.map (fun r => mfind? r.got 517) == some (some 8)) = true ∧
    ends (exec (.postAStoreBufferEntry ⟨⟨0, 0, 6⟩, 0⟩) b) (fun t => spadRead t 0 0 0x400 4 == [4, 3, 2, 1]) = true ∧
    ((ran (.tld 2 3)).octet 0 0).left = 0 ∧ ((ran (.tld 2 3)).octet 0 0).busy = none := by decide +kernel
/-- The walk of a latched atomic meets a memory error, which rollback does not repair: it ends as an error met by the atomic does. -/
theorem witness_LatchedAtomics_error : let s : State := { after (.rearm ⟨{}, 1, 0⟩) la with memErrors := [0x20000 / 128] }
    (match (acceptVa { s with cur := ⟨0, 0, 0⟩ } 0 0 0x128 lat0.acc.kind.perm false).2 with | .error r => r.cause == 0x3F && !r.wait | _ => false) = true ∧
    ends (exec (.accessAccept ⟨0, 0, 0⟩ false) s) (fun t => (t.slotAt 0 0 0).latch == none && (t.slotAt 0 0 0).report == some (0x3F, 0x128) &&
      (t.slotAt 0 0 0).pc == 0x200C && (t.slotAt 0 0 0).st == .ready && readP (t.slotAt 0 0 3) 1 && (t.slotAt 0 0 3).pc == 0x100C) = true := by decide +kernel
/-- XINV with an access under the translation it drops; HALT that WAKE ends; a WAKE that carries a definition. -/
theorem witness_Supervisor_order : let busy := updLive su 0 fun x => { x with chans := [(0, .request, { core := 5, kind := .load 1 false, ea := 0x20040, place := .home 0 })] }
    rangeBusy busy.myPart 0x20000 0x10000 = true ∧
    ends (exec (.xinv ⟨{}, .s 1, .s 2⟩) busy) (fun t => t.me.wait == .xinv && t.me.pc == 0x1000) = true ∧
    ends (exec (.halt ⟨{}, .s 5⟩) (su {} { tpWake := true, wakeKnow := [7] })) (fun t => t.me.pc == 0x100C && t.me.seen == [7]) = true ∧
    visible [(7, 5, .sys), (8, 5, .th)] 0 = [7] ∧
    ends (exec (.perform 0 0) (sv parked {} {} { delivered := [{ core := 5, kind := .wake, place := .queue 0, know := [(7, 5, .sys)] }] }))
      (fun t => (t.coreAt 0 0).wakeKnow == [7]) = true := by decide +kernel
/-- A SEND whose answer is under way when the watchdog expires. -/
theorem witness_Reports_answered : let e : Acc := { kind := .send 3 {} false, place := .queue 1 }
    let s := updLive (rp { wait := .message, unacked := [e] }) 0 fun x => { x with resps := [(e, {})] }
    (s.part 0).live.resps = [(e, {})] ∧ (inFlight (s.slotAt 0 0 0)).any (· == e) = true ∧
    ends (exec (.teamWatchdogExpiry 0 1 0) s) (fun t => (t.slotAt 0 0 0).cause == 0x28 && (t.slotAt 0 0 0).epc == 0x100C && (t.slotAt 0 0 0).st == .parked) = true := by
  decide +kernel
theorem witness_Reports_room : let s := rp { fillTo := some 8, wait := .window, wspill := 0x400100 }
    logUsed (s.part 0) + (8 - s.me.spilled) + 2 ≤ (s.part 0).logCap := by decide +kernel
/-- A migration has moved line 2 (physical 0x20000100) of page 0: its home goes to the new page. -/
theorem witness_CoherenceRequests_moved : let s := updPart (rq .rds) 0 fun x => { x with mig := some { page := 0, opa := 0x20000000, npa := 0x30000, moved := 3 } }
    (lineLeaf s 0 2 .rds 1).map (·.pa) = some 0x30100 ∧ (lineLeaf (rq .rds) 0 2 .rds 1).map (·.pa) = some 0x20000100 := by decide +kernel
/-- Tenant 0's supervisor has double-faulted twice: wherever it rolls back it is discarded. -/
def ndf (n : Node) (c : Cut) : State := { nd n [(0, 1)] with parts := [(0, { clusters := [0], cut := c, doubleFaults := 2 }), (1, { clusters := [0], scheduled := false, seq := 9 })] }
theorem witness_Scheduling_doubleFault :
    ends (exec (.quantumEnd 0) (ndf { closing := some 1 } .stopping)) (fun t => t.parts.map (·.1) == [1]) = true ∧
    ends (exec (.urgentPreemption 0) (ndf {} .none)) (fun t => t.parts.map (·.1) == [1] && (t.part 1).scheduled) = true ∧
    ends (exec (.clusterFailure 0 0) (ndf {} .none)) (fun t => t.parts.map (·.1) == [1] && mget 16 t.spares 0 == 0) = true := by decide +kernel
theorem witness_Temperature_doubleFault : ends (exec (.protectiveHalt 115) (rb 2)) (fun t => t.parts == [] && t.halted) = true := by decide +kernel
/-- AFLAGS is cleared by ones; a function that is not enabled is answered with completer abort. -/
theorem witness_HostRegisters_flags : let s := updLive ho 0 fun x => { x with aflags := 0x1F }
    ends (exec (.registerWrite 0 0x118 5) s) (fun t => (t.part 0).live.aflags == 0x1A) = true ∧
    ends (exec (.lqprod 1 16 true) { ho with hostResp := some [1] }) (fun t => t.hostResp == none) = true ∧
    ends (exec (.migrationGo 1 0x70001) { ho with hostResp := some [1] }) (fun t => t.hostResp == none) = true ∧
    ends (exec (.registerWrite 1 0x204 1) { ho with hostResp := some [1] }) (fun t => t.hostResp == none && (t.vf 1) == {}) = true := by decide +kernel
/-- A flit of class 2 with a number, an acknowledgement, and three credits for class 1. -/
def flit2 (n ack : Nat) : List Byte :=
  let b : List Byte := [0, 0, 0, 0, 2] ++ leBytes 3 n ++ leBytes 3 ack ++ [0, 3, 0, 0] ++ List.replicate 233 0
  b ++ leBytes 8 (crc64 b).toNat
def pr (x : Port) : State := { (one (regs [])) with ports := [(4, x)] }
def port4 (o : Out) (f : Port → Bool) : Bool := ends o fun t => f (mget {} t.ports 4)
theorem witness_BringUp_flits : (flit2 7 0).length = 256 ∧
    port4 (exec (.amisinFlit 4 (flit2 7 0)) (pr { expect := 7 })) (fun y => y.expect == 8 && y.flits == [flit2 7 0] && mget 0 y.credits 1 == mget 0 ({} : Port).credits 1 + 3 &&
      mget 0 y.owed 2 == 1) = true ∧
    port4 (exec (.amisinFlit 4 (flit2 9 0)) (pr { expect := 7 })) (fun y => y.expect == 7 && y.flits == [] && mget 0 y.credits 1 == mget 0 ({} : Port).credits 1) = true := by
  decide +kernel
theorem witness_BringUp_sends : let x : Port := { waiting := [(3, 1, [5])], credits := [(1, 2)], seq := 6 }
    mget 0 x.credits 1 ≠ 0 ∧ port4 (exec (.amisinFlit 4 ((flit2 7 0).set 20 1)) (pr x)) (fun y => y.waiting == [] && y.seq == 7 && mget 0 y.credits 1 == 1 &&
      y.replay.map (·.1) == [6]) = true ∧
    ({ seq := 7 } : Port).ackOf 5 = some 5 ∧ port4 (exec (.amisinFlit 4 (flit2 7 5)) (pr { seq := 7, replay := [(5, []), (6, [])] })) (fun y => y.replay.map (·.1) == [6]) = true ∧
    ends (exec (.bringUp (im true) (im true) [im true [.spares 0 0]]) {}) (fun t => t.boot.passed && t.replace) = true := by decide +kernel

end Sys2Proof.Tests
end

/-! SUPPORT. Code addresses, the register window under CALL, RET and FRAME (R40 to R43), and traps that post a fault record. -/

namespace Sys2Proof.Machine

open Sys2Proof.Safety Sys2Proof.Claims

/-! ### Code addresses (R87, R114) -/

theorem relTarget_eq_codeTarget (pc : Word) (off : BitVec 32) : relTarget pc off = codeTarget pc off := by
  simp [relTarget, codeTarget, immS, BitVec.signExtend, BitVec.ofInt_add, BitVec.ofInt_mul]

theorem add_immS_eq_baseTarget (a : Word) (off : BitVec 32) : a + immS off = baseTarget a off := by
  simp [baseTarget, immS, BitVec.signExtend, BitVec.ofInt_add]

theorem aligned4_iff (a : Word) : aligned4 a = true ↔ a.toNat % 4 = 0 := by simp [aligned4]

/-! ### The issuing slot once its sources are taken -/

theorem me_taken {s : State} (h : Here s) (srcs : List SOp) : (taken s srcs).me = (takeSources s.me srcs).2 :=
  me_updMe h _

theorem updMe_taken (s : State) (srcs : List SOp) (f : Slot → Slot) :
    updMe (taken s srcs) f = updMe s fun _ => f (takeSources s.me srcs).2 :=
  updMe_updMe _ _

section TakeSources
variable (x : Slot) (srcs : List SOp)

@[simp] theorem takeSources_pc : (takeSources x srcs).2.pc = x.pc := by rw [takeSources_rest]
@[simp] theorem takeSources_regs : (takeSources x srcs).2.regs = x.regs := by rw [takeSources_rest]
@[simp] theorem takeSources_wregs : (takeSources x srcs).2.wregs = x.wregs := by rw [takeSources_rest]
@[simp] theorem takeSources_wbase : (takeSources x srcs).2.wbase = x.wbase := by rw [takeSources_rest]
@[simp] theorem takeSources_frame : (takeSources x srcs).2.frame = x.frame := by rw [takeSources_rest]
@[simp] theorem takeSources_frames : (takeSources x srcs).2.frames = x.frames := by rw [takeSources_rest]
@[simp] theorem takeSources_spilled : (takeSources x srcs).2.spilled = x.spilled := by rw [takeSources_rest]
@[simp] theorem takeSources_preds : (takeSources x srcs).2.preds = x.preds := by rw [takeSources_rest]
@[simp] theorem takeSources_fstat : (takeSources x srcs).2.fstat = x.fstat := by rw [takeSources_rest]
@[simp] theorem takeSources_vregs : (takeSources x srcs).2.vregs = x.vregs := by rw [takeSources_rest]
@[simp] theorem takeSources_nil_queues : (takeSources x []).2.queues = x.queues := by rw [takeSources_rest]; rfl
@[simp] theorem readReg_takeSources (n : Nat) : readReg (takeSources x srcs).2 n = readReg x n := by
  rw [takeSources_rest]; rfl
@[simp] theorem spillNeed_takeSources (top : Nat) : spillNeed (takeSources x srcs).2 top = spillNeed x top := by
  rw [takeSources_rest]; rfl
@[simp] theorem spillFits_takeSources (n : Nat) : spillFits (takeSources x srcs).2 n = spillFits x n := by
  rw [takeSources_rest]; rfl
@[simp] theorem winBusy_takeSources (lo hi : Nat) : winBusy (takeSources x srcs).2 lo hi = winBusy x lo hi := by
  rw [takeSources_rest]; rfl
@[simp] theorem depends_takeSources (ops : List SOp) : depends (takeSources x srcs).2 ops = depends x ops := by
  rw [takeSources_rest]; rfl

end TakeSources

/-! ### Windowed registers (R39, R40) -/

theorem frameOk_ge {n : Nat} (h : frameOk n) : 16 ≤ n := by unfold frameOk at h; omega

/-- Keeping the entries whose keys pass a test. -/
theorem mget_filter_key {α : Type} (d : α) (p : Nat → Bool) (m : NMap α) (n : Nat) :
    mget d (m.filter fun e => p e.1) n = if p n then mget d m n else d := by
  induction m with
  | nil => simp
  | cons e m ih =>
    by_cases hn : e.1 = n
    · subst hn
      cases hp : p e.1
      · simpa [hp] using ih
      · simp [mget, hp]
    · cases hp : p e.1 <;> simp [mget, hp, hn, ih]

theorem mget_dropWin (m : NMap Word) (lo hi pos : Nat) :
    mget 0 (dropWin m lo hi) pos = if lo ≤ pos ∧ pos < hi then 0 else mget 0 m pos := by
  rw [dropWin, mget_filter_key 0 fun k => !(lo ≤ k && k < hi)]
  by_cases h : lo ≤ pos ∧ pos < hi <;> simp [h]

theorem readReg_window (x : Slot) {i : Nat} (hi : i < x.frame) : readReg x (16 + i) = mget 0 x.wregs (x.wbase + i) := by
  simp [readReg, hi, show x.wbase + (16 + i) - 16 = x.wbase + i by omega]

theorem readReg_outside (x : Slot) {n : Nat} (hn : 16 + x.frame ≤ n) : readReg x n = 0 := by
  simp [readReg, show ¬n < 16 by omega, show ¬n < 16 + x.frame by omega]

theorem readReg_global {x y : Slot} (h : y.regs = x.regs) {n : Nat} (hn : n < 16) : readReg y n = readReg x n := by
  simp [readReg, hn, h]

/-! ### Going on through a window transfer (R43) -/

theorem windowWait_rest (y : Slot) : windowWait y = { y with st := (windowWait y).st, wait := (windowWait y).wait } := by
  unfold windowWait; split <;> rfl

theorem settled_windowWait_goOn (y : Slot) (pc : Word) : settled (windowWait (goOn y pc)) := by
  cases h : y.fillTo <;> simp [settled, windowWait, goOn, h]

section WindowWait
variable (y : Slot) (pc : Word)

@[simp] theorem windowWait_goOn_pc : (windowWait (goOn y pc)).pc = pc := by rw [windowWait_rest]; rfl
@[simp] theorem windowWait_goOn_wregs : (windowWait (goOn y pc)).wregs = y.wregs := by rw [windowWait_rest]; rfl
@[simp] theorem windowWait_goOn_wbase : (windowWait (goOn y pc)).wbase = y.wbase := by rw [windowWait_rest]; rfl
@[simp] theorem windowWait_goOn_frame : (windowWait (goOn y pc)).frame = y.frame := by rw [windowWait_rest]; rfl
@[simp] theorem windowWait_goOn_frames : (windowWait (goOn y pc)).frames = y.frames := by rw [windowWait_rest]; rfl
@[simp] theorem windowWait_goOn_spilled : (windowWait (goOn y pc)).spilled = y.spilled := by rw [windowWait_rest]; rfl
@[simp] theorem windowWait_goOn_fillTo : (windowWait (goOn y pc)).fillTo = y.fillTo := by rw [windowWait_rest]; rfl
@[simp] theorem windowWait_goOn_queues : (windowWait (goOn y pc)).queues = y.queues := by rw [windowWait_rest]; rfl
@[simp] theorem windowWait_goOn_preds : (windowWait (goOn y pc)).preds = y.preds := by rw [windowWait_rest]; rfl
@[simp] theorem windowWait_goOn_fstat : (windowWait (goOn y pc)).fstat = y.fstat := by rw [windowWait_rest]; rfl
@[simp] theorem windowWait_goOn_vregs : (windowWait (goOn y pc)).vregs = y.vregs := by rw [windowWait_rest]; rfl
@[simp] theorem readReg_windowWait_goOn (n : Nat) : readReg (windowWait (goOn y pc)) n = readReg y n := by
  rw [windowWait_rest]; rfl
@[simp] theorem queueOf_windowWait_goOn (n : Nat) : queueOf (windowWait (goOn y pc)) n = queueOf y n := by
  rw [windowWait_rest]; rfl

end WindowWait

/-! ### The slide of a call (R41) -/

/-- The callee's slot: the window slid onto the caller's outs, the last of them the return address, and fresh registers
above them. -/
def calleeSlot (x : Slot) (ret : Word) (join : Option Word) : Slot :=
  let base := x.wbase + x.frame - 8
  let need := spillNeed x (base + 16)
  { x with
    wbase := base, frame := 16, frames := ⟨x.frame, join⟩ :: x.frames,
    wregs := dropWin (mset 0 x.wregs (base + 7) ret) (base + 8) (base + 16),
    fillTo := if need = x.spilled then none else some need }

/-- CALL slides to the callee's slot where the spill fits the WSPILL region. -/
theorem slideCall_eq (x : Slot) (hf : frameOk x.frame) (ret : Word) (join : Option Word) :
    slideCall x ret join =
      if spillFits x (spillNeed x (x.wbase + x.frame - 8 + 16)) then some (calleeSlot x ret join) else none := by
  have hF := frameOk_ge hf
  have hw : writeReg x (15 + x.frame) ret = { x with wregs := mset 0 x.wregs (x.wbase + x.frame - 8 + 7) ret } := by
    simp only [writeReg, show ¬15 + x.frame = 0 by omega, show ¬15 + x.frame < 16 by omega,
      show 15 + x.frame < 16 + x.frame by omega, if_true, if_false,
      show x.wbase + (15 + x.frame) - 16 = x.wbase + x.frame - 8 + 7 by omega]
  simp only [slideCall, calleeSlot, hw]

theorem wregs_calleeSlot (x : Slot) (ret : Word) (join : Option Word) (pos : Nat) :
    mget 0 (calleeSlot x ret join).wregs pos =
      if x.wbase + x.frame - 8 + 8 ≤ pos ∧ pos < x.wbase + x.frame - 8 + 16 then 0
      else if x.wbase + x.frame - 8 + 7 = pos then ret else mget 0 x.wregs pos := by
  simp only [calleeSlot, mget_dropWin, mget_mset]

/-- s16 to s31 of the callee stand where the caller's outs, and the registers above them, stood. -/
theorem readReg_calleeSlot (x : Slot) (ret : Word) (join : Option Word) {i : Nat} (hi : i < 16) :
    readReg (calleeSlot x ret join) (16 + i) =
      if 8 ≤ i then 0 else if i = 7 then ret else mget 0 x.wregs (x.wbase + x.frame - 8 + i) := by
  rw [readReg_window _ hi, show (calleeSlot x ret join).wbase = x.wbase + x.frame - 8 from rfl, wregs_calleeSlot]
  simp only [Nat.add_le_add_iff_left, Nat.add_lt_add_iff_left, hi, and_true, Nat.add_left_cancel_iff, eq_comm (a := 7)]

/-- A slot whose sources are taken enters a function (R41). -/
theorem called {s : State} (h : Here s) (hf : frameOk s.me.frame) (srcs : List SOp) (target ret : Word) :
    Called s (updMe s fun _ => windowWait (goOn (calleeSlot (takeSources s.me srcs).2 ret none) target)) srcs target ret := by
  have hF := frameOk_ge hf
  refine { toOnlySlot := onlySlot_updMe h _, pc := ?pc, settled := ?settled, base := ?base, frame := ?frame, depth := ?depth,
           arguments := ?arguments, returnAddress := ?returnAddress, fresh := ?fresh, globals := ?globals,
           callers := ?callers, spilled := ?spilled, queues := ?queues, others := ?others }
  all_goals rw [me_updMe h]
  case settled => exact settled_windowWait_goOn _ _
  case base => simp [calleeSlot, Nat.add_sub_assoc (show 8 ≤ s.me.frame by omega)]
  case arguments =>
    intro i hi
    have hcaller := readReg_window s.me (show s.me.frame - 8 + i < s.me.frame by omega)
    rw [readReg_windowWait_goOn, readReg_calleeSlot _ _ _ (by omega), if_neg (by omega), if_neg (by omega),
      show 8 + s.me.frame + i = 16 + (s.me.frame - 8 + i) by omega, hcaller, takeSources_wregs, takeSources_wbase,
      takeSources_frame, show s.me.wbase + s.me.frame - 8 + i = s.me.wbase + (s.me.frame - 8 + i) by omega]
  case returnAddress => simpa using readReg_calleeSlot (takeSources s.me srcs).2 ret none (i := 7) (by omega)
  case fresh =>
    intro i hi
    rw [readReg_windowWait_goOn, show 24 + i = 16 + (8 + i) by omega, readReg_calleeSlot _ _ _ (by omega), if_pos (by omega)]
  case globals =>
    intro n hn
    rw [readReg_windowWait_goOn]
    exact readReg_global (y := calleeSlot _ ret none) (takeSources_regs s.me srcs) hn
  case callers =>
    intro pos hpos
    have hpos : pos < s.me.wbase + s.me.frame - 8 := by simpa [calleeSlot] using hpos
    rw [windowWait_goOn_wregs, wregs_calleeSlot, takeSources_wbase, takeSources_frame, takeSources_wregs,
      if_neg (by omega), if_neg (by omega)]
  case queues =>
    intro q
    rw [queueOf_windowWait_goOn]
    exact takeSources_queues s.me srcs q
  all_goals simp [calleeSlot]

/-- What entering a function answers: the callee's slot, or cause 0x18 where the spill does not fit (R41, R43). -/
theorem enterCall_eq (t : State) (hf : frameOk t.me.frame)
    (hw : windowFree t.me (t.me.wbase + t.me.frame - 1) (t.me.wbase + t.me.frame + 8)) (target : Word) :
    enterCall t target none =
      if spillFits t.me (spillNeed t.me (t.me.wbase + t.me.frame - 8 + 16)) then
        .to (updMe t fun _ => windowWait (goOn (calleeSlot t.me (t.me.pc + 12) none) target))
      else .trap { cause := 0x18 } := by
  unfold windowFree at hw
  simp only [enterCall, hw, slideCall_eq _ hf]
  by_cases hfit : spillFits t.me (spillNeed t.me (t.me.wbase + t.me.frame - 8 + 16)) = true <;> simp [hfit]

/-! ### The slide back of a return (R42) -/

theorem slideBack_cons {x : Slot} {fr : Frame} {rest : List Frame} (h : x.frames = fr :: rest) :
    slideBack x = { x with
      wbase := x.wbase - (fr.f - 8), frame := fr.f, frames := rest,
      wregs := dropWin x.wregs (x.wbase + 8) (x.wbase + x.frame),
      fillTo := if x.wbase - (fr.f - 8) < x.spilled then some (x.wbase - (fr.f - 8)) else none } := by
  simp only [slideBack, h]

/-- Control returns to the newest caller (R42). -/
theorem returned {s : State} {fr : Frame} {rest : List Frame} (h : Here s) (hfr : s.me.frames = fr :: rest)
    (hf : frameOk fr.f) (hc : frameOk s.me.frame) (hb : fr.f - 8 ≤ s.me.wbase) :
    Returned s (updMe s fun _ => windowWait (goOn (slideBack (takeSources s.me []).2) (readReg s.me 23))) fr := by
  have hF := frameOk_ge hf
  have hC := frameOk_ge hc
  have hslide := slideBack_cons (x := (takeSources s.me []).2) (fr := fr) (rest := rest) (by simpa using hfr)
  have hwregs (pos : Nat) : mget 0 (slideBack (takeSources s.me []).2).wregs pos =
      if s.me.wbase + 8 ≤ pos ∧ pos < s.me.wbase + s.me.frame then 0 else mget 0 s.me.wregs pos := by
    simp only [hslide, takeSources_wregs, takeSources_wbase, takeSources_frame, mget_dropWin]
  refine { toOnlySlot := onlySlot_updMe h _, pc := ?pc, settled := ?settled, base := ?base, frame := ?frame, depth := ?depth,
           outs := ?outs, globals := ?globals, below := ?below, discarded := ?discarded, fill := ?fill, others := ?others }
  all_goals rw [me_updMe h]
  case settled => exact settled_windowWait_goOn _ _
  case outs =>
    intro i hi
    have hframe : (slideBack (takeSources s.me []).2).frame = fr.f := by rw [hslide]
    have hbase : (slideBack (takeSources s.me []).2).wbase = s.me.wbase - (fr.f - 8) := by simp [hslide]
    rw [readReg_windowWait_goOn, show 8 + fr.f + i = 16 + (fr.f - 8 + i) by omega, readReg_window _ (by omega), hwregs,
      hbase, if_neg (by omega), readReg_window _ (by omega),
      show s.me.wbase - (fr.f - 8) + (fr.f - 8 + i) = s.me.wbase + i by omega]
  case globals =>
    intro n hn
    rw [readReg_windowWait_goOn]
    exact readReg_global (by simp [hslide]) hn
  case below =>
    intro pos hpos
    rw [windowWait_goOn_wregs, hwregs, if_neg (by omega)]
  case discarded =>
    intro pos hlo hhi
    rw [windowWait_goOn_wregs, hwregs, if_pos ⟨hlo, hhi⟩]
  all_goals simp [hslide, hfr]

/-! ### FRAME (R40, R117) -/

/-- The slot whose frame FRAME has resized: the registers that it exposes or leaves read zero. -/
def resizedSlot (x : Slot) (f : Nat) : Slot :=
  let need := spillNeed x (x.wbase + f)
  { x with
    frame := f, wregs := dropWin x.wregs (x.wbase + min f x.frame) (x.wbase + max f x.frame),
    fillTo := if need = x.spilled then none else some need }

theorem resizeFrame_eq (x : Slot) (f : Nat) :
    resizeFrame x f = if spillFits x (spillNeed x (x.wbase + f)) then some (resizedSlot x f) else none := rfl

theorem readReg_resizedSlot (x : Slot) (f n : Nat) :
    readReg (resizedSlot x f) n = if n < 16 + min f x.frame then readReg x n else 0 := by
  by_cases hg : n < 16
  · rw [if_pos (by omega)]
    exact readReg_global (x := x) (y := resizedSlot x f) rfl hg
  obtain ⟨i, rfl⟩ : ∃ i, n = 16 + i := ⟨n - 16, by omega⟩
  by_cases hf : i < f
  · rw [readReg_window _ (show i < (resizedSlot x f).frame from hf)]
    refine (mget_dropWin x.wregs _ _ _).trans ?_
    by_cases hx : i < x.frame
    · rw [if_neg (by simp only [resizedSlot]; omega), if_pos (by omega), readReg_window _ hx]; rfl
    · rw [if_pos (by simp only [resizedSlot]; omega), if_neg (by omega)]
  · rw [readReg_outside _ (show 16 + f ≤ 16 + i by omega), if_neg (by omega)]

/-- FRAME leaves the callers' registers. -/
theorem wregs_resizedSlot_below (x : Slot) (f : Nat) {pos : Nat} (h : pos < x.wbase) :
    mget 0 (resizedSlot x f).wregs pos = mget 0 x.wregs pos :=
  (mget_dropWin _ _ _ _).trans (if_neg (by omega))

/-! ### Traps that post a fault record (R322, R353, R354) -/

/-- What a fault record leaves alone of what a trap reads: it writes host memory, the ring's registers and the records that
the core holds, and marks the slot of a held record. -/
structure PostKeeps (s u : State) : Prop where
  here : Here u
  cur : u.cur = s.cur
  mem : u.mem = s.mem
  me : ∃ held, u.me = { s.me with held := held }
  tvec : u.mine.tvec = s.mine.tvec
  stopped : u.myPart.stopped = s.myPart.stopped
  doubleFaults : u.myPart.doubleFaults = s.myPart.doubleFaults

theorem PostKeeps.trans {s u v : State} (k : PostKeeps s u) (l : PostKeeps u v) : PostKeeps s v := by
  obtain ⟨held, hme⟩ := k.me
  obtain ⟨held', hme'⟩ := l.me
  exact { here := l.here, cur := l.cur.trans k.cur, mem := l.mem.trans k.mem, me := ⟨held', by rw [hme', hme]⟩,
          tvec := l.tvec.trans k.tvec, stopped := l.stopped.trans k.stopped,
          doubleFaults := l.doubleFaults.trans k.doubleFaults }

theorem postKeeps_of_parts {s u : State} (h : Here s) (hparts : u.parts = s.parts) (hcur : u.cur = s.cur)
    (hmem : u.mem = s.mem) : PostKeeps s u := by
  have hpart (p : Nat) : u.part p = s.part p := by rw [State.part, State.part, hparts]
  have hcore (p c : Nat) : u.coreAt p c = s.coreAt p c := by rw [State.coreAt, State.coreAt, hpart]
  exact {
    here := by rw [Here, hparts, hcur]; exact h
    cur := hcur
    mem := hmem
    me := ⟨s.me.held, by rw [State.me, State.slotAt, hcur, hcore]; rfl⟩
    tvec := by rw [State.mine, State.mine, hcur, hcore]
    stopped := by rw [State.myPart, State.myPart, hcur, hpart]
    doubleFaults := by rw [State.myPart, State.myPart, hcur, hpart] }

theorem postKeeps_updMine_heldRecs {s : State} (h : Here s) (rs : Core → List FaultRec) :
    PostKeeps s (updMine s fun k => { k with heldRecs := rs k }) where
  here := (has_updMine _).mpr h
  cur := rfl
  mem := rfl
  me := ⟨s.me.held, me_updMine h _⟩
  tvec := by rw [mine_updMine h]
  stopped := by simp only [State.myPart, updMine, updCore_cur, part_updCore h]
  doubleFaults := by simp only [State.myPart, updMine, updCore_cur, part_updCore h]

theorem postKeeps_updMe_held {s : State} (h : Here s) (b : Bool) : PostKeeps s (updMe s fun x => { x with held := b }) where
  here := (has_updMe _).mpr h
  cur := rfl
  mem := rfl
  me := ⟨b, me_updMe h _⟩
  tvec := by rw [mine_updMe h]
  stopped := by simp only [State.myPart, updMe, updSlot_cur, part_updSlot h]
  doubleFaults := by simp only [State.myPart, updMe, updSlot_cur, part_updSlot h]

@[simp] theorem hostWrite_parts (s : State) (a : Nat) (bs : List Byte) : (hostWrite s a bs).parts = s.parts := rfl
@[simp] theorem hostWrite_cur (s : State) (a : Nat) (bs : List Byte) : (hostWrite s a bs).cur = s.cur := rfl
@[simp] theorem hostWrite_mem (s : State) (a : Nat) (bs : List Byte) : (hostWrite s a bs).mem = s.mem := rfl

theorem postKeeps_writeRecord {s : State} (h : Here s) (r : FaultRec) : PostKeeps s (writeRecord s s.cur.p r) := by
  unfold writeRecord
  exact postKeeps_of_parts h (by rw [updVf_parts, hostWrite_parts]) (by rw [updVf_cur, hostWrite_cur])
    (by rw [updVf_mem, hostWrite_mem])

theorem postKeeps_holdRecord {s : State} (h : Here s) (t : Trap) :
    PostKeeps s (holdRecord s s.cur.p (trapRecord s s.cur t)) := by
  have numbered : PostKeeps s { s with nextId := s.nextId + 1 } := postKeeps_of_parts h rfl rfl rfl
  have listed := postKeeps_updMine_heldRecs numbered.here fun k =>
    k.heldRecs ++ [{ trapRecord s s.cur t with order := s.nextId }]
  have marked := postKeeps_updMe_held listed.here true
  refine (numbered.trans (listed.trans marked)).trans ?_
  unfold holdRecord
  exact postKeeps_of_parts marked.here rfl rfl rfl

theorem postKeeps_postFault {s : State} (h : Here s) (t : Trap) :
    PostKeeps s (postFault s s.cur.p (trapRecord s s.cur t)) := by
  unfold postFault
  split
  · exact postKeeps_writeRecord h _
  · exact postKeeps_holdRecord h t

/-- A trap posts its record, and is then taken as one whose record was posted before. -/
theorem takeTrap_posted (s : State) (a : At) (t : Trap) :
    takeTrap s a t = takeTrap (if t.recorded then postFault s a.p (trapRecord s a t) else s) a { t with posted := true } := by
  unfold takeTrap
  simp only [show Trap.recorded { t with posted := true } = false from rfl]
  rfl

/-- Posting the record first makes no difference to what a trap leaves. -/
theorem trapped_of_postKeeps {s u t : State} {cause : Nat} {bad : Word} (k : PostKeeps s u) (h : Trapped u t cause bad) :
    Trapped s t cause bad := by
  obtain ⟨_, hcur, hmem, ⟨held, hme⟩, htvec, hstop, hdf⟩ := k
  have hread (n : Nat) : readReg { s.me with held := held } n = readReg s.me n := rfl
  have hphys (a : Nat) : physRead u a 1 = physRead s a 1 := by rw [physRead, hmem]; rfl
  exact {
    cause := h.cause
    badaddr := h.badaddr
    epc := by simpa only [hme] using h.epc
    user := by simpa only [hcur, hme] using h.user
    first := by simpa only [hcur, hme, htvec] using h.first
    second := by simpa only [hcur, hme, hdf] using h.second
    running := by simpa only [hcur, hme, hstop] using h.running
    registers := by simpa only [hme, hread] using h.registers
    memory := by simpa only [hphys] using h.memory }

/-- Any trap, taken at the issuing slot. -/
theorem trapped_takeTrap {s : State} (h : Here s) (t : Trap) : Trapped s (takeTrap s s.cur t) (causeWord t).toNat t.bad := by
  rw [takeTrap_posted]
  split
  · have k := postKeeps_postFault h t
    have tr := trapped k.here { t with posted := true } rfl
    rw [k.cur] at tr
    exact trapped_of_postKeeps k tr
  · exact trapped h { t with posted := true } rfl

theorem trapped_badTarget {s : State} (h : Here s) (a : Word) : Trapped s (takeTrap s s.cur (badTarget a)) 0x05 a :=
  trapped_takeTrap h (badTarget a)

theorem trapped_spill {s : State} (h : Here s) : Trapped s (takeTrap s s.cur { cause := 0x18 }) 0x18 0 :=
  trapped_takeTrap h { cause := 0x18 }

end Sys2Proof.Machine

namespace Sys2Proof.Claims

open Sys2Proof.Machine Sys2Proof.Safety

/-! ### CALL and CALLR (R41, R115) -/

section Calls
variable {s : State} (h : Here s) (hf : frameOk s.me.frame)
  (hw : windowFree s.me (s.me.wbase + s.me.frame - 1) (s.me.wbase + s.me.frame + 8)) (srcs : List SOp) (target : Word)
include h hf hw

/-- What entering a function answers once the sources are taken. -/
theorem enterCall_taken :
    enterCall (taken s srcs) target none =
      if spillFits s.me (spillNeed s.me (s.me.wbase + s.me.frame - 8 + 16)) then
        .to (updMe s fun _ => windowWait (goOn (calleeSlot (takeSources s.me srcs).2 (s.me.pc + 12) none) target))
      else .trap { cause := 0x18 } := by
  have hme := me_taken h srcs
  rw [enterCall_eq _ (by simpa [hme] using hf) (by simpa [hme, windowFree] using hw), updMe_taken, hme]
  simp only [takeSources_pc, takeSources_wbase, takeSources_frame, spillNeed_takeSources, spillFits_takeSources]

theorem finish_enterCall_fits
    (hfit : spillFits s.me (spillNeed s.me (s.me.wbase + s.me.frame - 8 + 16)) = true) :
    ∃ t, finish s (enterCall (taken s srcs) target none) = .next t ∧ Called s t srcs target (s.me.pc + 12) := by
  rw [enterCall_taken h hf hw, if_pos hfit]
  exact ⟨_, rfl, called h hf srcs target _⟩

theorem finish_enterCall_spills
    (hfit : spillFits s.me (spillNeed s.me (s.me.wbase + s.me.frame - 8 + 16)) = false) :
    ∃ t, finish s (enterCall (taken s srcs) target none) = .next t ∧ Trapped s t 0x18 0 := by
  rw [enterCall_taken h hf hw, if_neg (by simp [hfit])]
  exact ⟨_, rfl, trapped_spill h⟩

end Calls

theorem exec_call_ready {x : Off} {s : State} (hr : Ready s x.c [] [] []) :
    exec (.call x) s = finish s (enterCall (taken s []) (codeTarget s.me.pc x.off) none) := by
  rw [show exec (.call x) s = execCall x s from rfl, execCall, issue_ready hr]
  rw [me_taken hr.1, takeSources_pc, relTarget_eq_codeTarget]

theorem exec_callr_ready {x : AOff} {s : State} (hr : Ready s x.c [x.a] [] []) :
    exec (.callr x) s = finish s
      (if aligned4 (baseTarget (sourceValue s.me [x.a] 0) x.off) then
        enterCall (taken s [x.a]) (baseTarget (sourceValue s.me [x.a] 0) x.off) none
      else .trap (badTarget (baseTarget (sourceValue s.me [x.a] 0) x.off))) := by
  rw [show exec (.callr x) s = execCallr x s from rfl, execCallr, issue_ready hr]
  simp only [add_immS_eq_baseTarget]

/-- Settles O6: the callee's window is read off the slide, and a spill that does not fit is cause 0x18. -/
theorem calls : Obligations.Calls := by
  unfold Obligations.Calls
  constructor
  · intro x s hr hf hw
    rw [exec_call_ready hr]
    exact ⟨finish_enterCall_fits hr.1 hf hw [] _, finish_enterCall_spills hr.1 hf hw [] _⟩
  · intro x s hr hf hw target
    rw [exec_callr_ready hr]
    refine ⟨fun hmis => ?_, fun hal hfit => ?_, fun hal hfit => ?_⟩
    · rw [if_neg (by rwa [aligned4_iff])]
      exact ⟨_, rfl, trapped_badTarget hr.1 target⟩
    · rw [if_pos ((aligned4_iff _).mpr hal)]
      exact finish_enterCall_fits hr.1 hf hw [x.a] target hfit
    · rw [if_pos ((aligned4_iff _).mpr hal)]
      exact finish_enterCall_spills hr.1 hf hw [x.a] target hfit

/-! ### RET (R42, R116) -/

theorem exec_ret_outermost {x : C0} {s : State} (hr : Ready s x.c [] [] []) (hfr : s.me.frames = []) :
    exec (.ret x) s = .next (endMine (taken s [])) := by
  rw [show exec (.ret x) s = execRet x s from rfl, execRet, issue_ready hr]
  simp [me_taken hr.1, hfr, finish]

theorem exec_ret_caller {x : C0} {s : State} {fr : Frame} {rest : List Frame} (hr : Ready s x.c [] [] [])
    (hfr : s.me.frames = fr :: rest) (hd : depends s.me [.s 23] = false)
    (hw : windowFree s.me (s.me.wbase + 8) (s.me.wbase + s.me.frame)) :
    exec (.ret x) s = finish s
      (if aligned4 (readReg s.me 23) then
        .to (updMe s fun _ => windowWait (goOn (slideBack (takeSources s.me []).2) (readReg s.me 23)))
      else .trap (badTarget (readReg s.me 23))) := by
  have hd' : depends (takeSources s.me []).2 [.s 23] = false := by rwa [depends_takeSources]
  simp only [depends, List.any_cons, List.any_nil, Bool.or_false] at hd'
  unfold windowFree at hw
  rw [show exec (.ret x) s = execRet x s from rfl, execRet, issue_ready hr]
  simp only [me_taken hr.1, takeSources_frames, hfr, List.isEmpty_cons, hd', winBusy_takeSources, takeSources_wbase,
    takeSources_frame, hw, Bool.false_or, Bool.false_eq_true, if_false, readReg_takeSources, updMe_taken]

/-- Ending the issuing slot's activation leaves it Idle (R27). -/
theorem st_endActivation {s : State} (h : Here s) : (endActivation s s.cur).me.st = .idle := by
  rw [State.me, show (endActivation s s.cur).cur = s.cur from rfl]
  simp only [endActivation, slotAt_updCore h, mget_mput, if_true]

theorem returns : Claims.Returns := by
  unfold Claims.Returns
  constructor
  · intro x s hr hfr
    rw [exec_ret_outermost hr hfr]
    constructor
    · intro h3
      have hend : endMine (taken s []) = endActivation (taken s []) s.cur := if_neg h3
      exact ⟨_, rfl, hend, by rw [hend]; exact st_endActivation ((has_updMe _).mpr hr.1)⟩
    · intro h3
      have hend : endMine (taken s []) = advance (taken s []) := if_pos h3
      exact ⟨_, rfl, by rw [hend]; exact passed hr.1 []⟩
  · intro x s fr rest hr hfr hf hc hb hd hw
    rw [exec_ret_caller hr hfr hd hw]
    constructor
    · intro hal
      rw [if_pos ((aligned4_iff _).mpr hal)]
      exact ⟨_, rfl, returned hr.1 hfr hf hc hb⟩
    · intro hmis
      rw [if_neg (by rwa [aligned4_iff])]
      exact ⟨_, rfl, trapped_badTarget hr.1 _⟩

/-! ### FRAME (R40, R117) -/

theorem exec_frame_ready {x : FrameI} {s : State} (hr : Ready s x.c [] [] [])
    (hw : windowFree s.me (s.me.wbase + min x.f.toNat s.me.frame) (s.me.wbase + max x.f.toNat s.me.frame)) :
    exec (.frame x) s = finish s
      (if spillFits s.me (spillNeed s.me (s.me.wbase + x.f.toNat)) then
        .to (updMe s fun _ => windowWait (goOn (resizedSlot (takeSources s.me []).2 x.f.toNat) (s.me.pc + 12)))
      else .trap { cause := 0x18 }) := by
  unfold windowFree at hw
  rw [show exec (.frame x) s = execFrame x s from rfl, execFrame, issue_ready hr]
  simp only [me_taken hr.1, takeSources_wbase, takeSources_frame, winBusy_takeSources, hw, resizeFrame_eq,
    spillNeed_takeSources, spillFits_takeSources, updMe_taken]
  by_cases hfit : spillFits s.me (spillNeed s.me (s.me.wbase + x.f.toNat)) = true
  · simp [hfit, resizedSlot]
  · simp [hfit]

theorem frameSize : Claims.FrameSize := by
  unfold Claims.FrameSize
  intro x s hr _ _ hw
  have h := hr.1
  rw [exec_frame_ready hr hw]
  constructor
  · intro hfit
    rw [if_neg (by simp [hfit])]
    exact ⟨_, rfl, trapped_spill h⟩
  · intro hfit
    rw [if_pos hfit]
    refine ⟨_, rfl, onlySlot_updMe h _, ?_⟩
    rw [me_updMe h]
    refine ⟨windowWait_goOn_pc _ _, settled_windowWait_goOn _ _, ?_, ?_, ?_, ?registers, ?callers, ?_, ?_, ?_⟩
    case registers => simp [readReg_resizedSlot]
    case callers =>
      intro pos hpos
      rw [windowWait_goOn_wregs, wregs_resizedSlot_below _ _ (by simpa using hpos), takeSources_wregs]
    all_goals simp [resizedSlot]

/-- Settles O7: RET slides the window back or ends the activation, and FRAME resizes the frame. -/
theorem returnsAndFrames : Obligations.ReturnsAndFrames := ⟨returns, frameSize⟩

end Sys2Proof.Claims

/-! SUPPORT. Integer arithmetic (R95 to R97): the operations of the integer table at every width, and its register and
immediate forms. -/

namespace Sys2Proof.Machine

open Sys2Proof.Safety Sys2Proof.Claims

/-! ### The operations of R96 -/

theorem opSub_toNat {w : Nat} (a b : BitVec w) :
    ((opSub w a b).toNat : Int) = ((a.toNat : Int) - b.toNat) % (2 ^ w : Nat) := by
  have hb : b.toNat ≤ 2 ^ w := b.isLt.le
  rw [opSub, BitVec.toNat_sub', Int.natCast_mod, Nat.cast_add, Nat.cast_sub hb,
    show (a.toNat : Int) + ((2 ^ w : Nat) - b.toNat) = a.toNat - b.toNat + (2 ^ w : Nat) by ring, Int.add_emod_right]

/-- The high half of a signed product fits: the product lies between -2^(2w-2) and 2^(2w-2). -/
theorem opMulhi_toInt {w : Nat} (hw : 0 < w) (a b : BitVec w) :
    (opMulhi w a b).toInt = a.toInt * b.toInt / (2 ^ w : Nat) := by
  have hpow : (2 : Int) ^ (w * 2 - 2) < 2 ^ (w - 1) * 2 ^ w := by
    rw [← pow_add]; exact pow_lt_pow_right₀ (by decide) (by omega)
  have hlo : -2 ^ (w * 2 - 2) ≤ a.toInt * b.toInt := BitVec.le_toInt_mul_toInt
  have hhi : a.toInt * b.toInt ≤ 2 ^ (w * 2 - 2) := BitVec.toInt_mul_toInt_le
  have hpos : (0 : Int) < 2 ^ w := by positivity
  rw [opMulhi, Nat.cast_pow, Nat.cast_ofNat]
  apply BitVec.toInt_ofInt_eq_self hw
  · rw [Int.le_ediv_iff_mul_le hpos]; linarith
  · rw [Int.ediv_lt_iff_lt_mul hpos]; linarith

theorem opMulhn_toNat {w : Nat} (a b : BitVec w) : (opMulhn w a b).toNat = a.toNat * b.toNat / 2 ^ w := by
  rw [opMulhn, BitVec.toNat_ofNat, Nat.mod_eq_of_lt]
  rw [Nat.div_lt_iff_lt_mul (by positivity)]
  exact Nat.mul_lt_mul'' a.isLt b.isLt

theorem toNat_eq_zero_iff {w : Nat} (b : BitVec w) : b.toNat = 0 ↔ b = 0 := by
  simp [BitVec.toNat_eq]

/-- The signed quotient is the library's, but for a divisor of zero. -/
theorem opDiv_eq_sdiv {w : Nat} {a b : BitVec w} (hb : b ≠ 0) : opDiv w a b = a.sdiv b := by
  rw [opDiv, if_neg hb]
  exact BitVec.eq_of_toInt_eq (by rw [BitVec.toInt_ofInt, BitVec.toInt_sdiv])

theorem opDiv_gives {w : Nat} (a b : BitVec w) : IntName.div.gives a b (opDiv w a b) := by
  simp only [IntName.gives, toNat_eq_zero_iff]
  split_ifs with hb hmin
  · exact if_pos hb
  · obtain ⟨rfl, rfl⟩ := hmin
    rw [opDiv_eq_sdiv hb, ← BitVec.neg_one_eq_allOnes, BitVec.intMin_sdiv_neg_one]
  · rw [opDiv_eq_sdiv hb]
    exact BitVec.toInt_sdiv_of_ne_or_ne a b (by rwa [BitVec.neg_one_eq_allOnes, ne_eq, ne_eq, ← not_and_or])

theorem opRem_gives {w : Nat} (a b : BitVec w) : IntName.rem.gives a b (opRem w a b) := by
  simp only [IntName.gives, toNat_eq_zero_iff, opRem]
  split_ifs with hb
  · rfl
  · rw [← BitVec.toInt_srem, BitVec.ofInt_toInt]

theorem opDivn_gives {w : Nat} (a b : BitVec w) : IntName.divn.gives a b (opDivn w a b) := by
  simp only [IntName.gives, toNat_eq_zero_iff, opDivn]
  split_ifs with hb
  · rfl
  · rw [← BitVec.toNat_udiv, BitVec.ofNat_toNat, BitVec.setWidth_eq]

theorem opRemn_gives {w : Nat} (a b : BitVec w) : IntName.remn.gives a b (opRemn w a b) := by
  simp only [IntName.gives, toNat_eq_zero_iff, opRemn]
  split_ifs with hb
  · rfl
  · rw [← BitVec.toNat_umod, BitVec.ofNat_toNat, BitVec.setWidth_eq]

theorem opSar_toInt {w : Nat} (a b : BitVec w) : (opSar w a b).toInt = a.toInt / (2 ^ (b.toNat % w) : Nat) := by
  rw [opSar, BitVec.toInt_sshiftRight, Int.shiftRight_eq_div_pow]

/-- Rotating left takes bit i to bit i + r, around the end of the word. -/
theorem getLsbD_rotateLeft_add {w : Nat} (a : BitVec w) {r i : Nat} (hr : r < w) (hi : i < w) :
    (a.rotateLeft r).getLsbD ((i + r) % w) = a.getLsbD i := by
  rw [BitVec.getLsbD_rotateLeft, Nat.mod_eq_of_lt hr]
  by_cases h : i + r < w
  · simp [Nat.mod_eq_of_lt h, h]
  · have hmod : (i + r) % w = i + r - w := by rw [Nat.mod_eq_sub_mod (by omega), Nat.mod_eq_of_lt (by omega)]
    rw [hmod, decide_eq_true (show i + r - w < r by omega), cond_true]
    congr 1; omega

/-- Rotating right takes bit i + r, around the end of the word, to bit i. -/
theorem getLsbD_rotateRight_add {w : Nat} (a : BitVec w) {r i : Nat} (hr : r < w) (hi : i < w) :
    (a.rotateRight r).getLsbD i = a.getLsbD ((i + r) % w) := by
  rw [BitVec.getLsbD_rotateRight, Nat.mod_eq_of_lt hr]
  by_cases h : i + r < w
  · rw [decide_eq_true (show i < w - r by omega), cond_true, Nat.mod_eq_of_lt h, Nat.add_comm]
  · have hmod : (i + r) % w = i + r - w := by rw [Nat.mod_eq_sub_mod (by omega), Nat.mod_eq_of_lt (by omega)]
    simp only [hmod, show ¬i < w - r by omega, hi, decide_false, decide_true, cond_false, Bool.true_and]
    congr 1; omega

end Sys2Proof.Machine

namespace Sys2Proof.Claims

open Sys2Proof.Machine Sys2Proof.Safety

/-- The machine's operation of a mnemonic. -/
def IntName.op : IntName → IntOp
  | .add => opAdd | .sub => opSub | .mul => opMul | .mulhi => opMulhi | .mulhn => opMulhn | .div => opDiv
  | .divn => opDivn | .rem => opRem | .remn => opRemn | .and => opAnd | .or => opOr | .xor => opXor | .andn => opAndn
  | .orn => opOrn | .shl => opShl | .shr => opShr | .sar => opSar | .rol => opRol | .ror => opRor | .min => opMin
  | .minn => opMinn | .max => opMax | .maxn => opMaxn

theorem exec_reg (k : IntName) (x : Alu3) (s : State) : exec (k.reg x) s = alu3 k.op x s := by cases k <;> rfl

theorem exec_imm (k : IntName) (x : AluI) (s : State) : exec (k.imm x) s = aluI k.op k.operand x s := by cases k <;> rfl

/-- Each operation gives its row of R96's table, at every width. -/
theorem IntName.gives_op (k : IntName) {w : Nat} (hw : 0 < w) (a b : BitVec w) : k.gives a b (k.op w a b) := by
  have hr : b.toNat % w < w := Nat.mod_lt _ hw
  cases k with
  | add => exact BitVec.toNat_add a b
  | sub => exact opSub_toNat a b
  | mul => exact BitVec.toNat_mul a b
  | mulhi => exact opMulhi_toInt hw a b
  | mulhn => exact opMulhn_toNat a b
  | div => exact opDiv_gives a b
  | divn => exact opDivn_gives a b
  | rem => exact opRem_gives a b
  | remn => exact opRemn_gives a b
  | and => exact fun i _ => BitVec.getLsbD_and
  | or => exact fun i _ => BitVec.getLsbD_or
  | xor => exact fun i _ => BitVec.getLsbD_xor
  | andn => intro i hi; simp [IntName.op, opAndn, hi]
  | orn => intro i hi; simp [IntName.op, opOrn, hi]
  | shl => simp [IntName.gives, IntName.op, opShl, Nat.shiftLeft_eq]
  | shr => simp [IntName.gives, IntName.op, opShr, Nat.shiftRight_eq_div_pow]
  | sar => exact opSar_toInt a b
  | rol => exact fun i hi => getLsbD_rotateLeft_add a hr hi
  | ror => exact fun i hi => getLsbD_rotateRight_add a hr hi
  | min => simp only [IntName.gives, IntName.op, opMin, min_def]; split <;> rfl
  | minn => simp only [IntName.gives, IntName.op, opMinn, min_def]; split <;> rfl
  | max => simp only [IntName.gives, IntName.op, opMax, max_comm a.toInt, max_def]; split <;> rfl
  | maxn => simp only [IntName.gives, IntName.op, opMaxn, max_comm a.toNat, max_def]; split <;> rfl

/-- R97: the unit's result is the table's at the width of the form. -/
theorem IntName.atWidth_alu (k : IntName) (w32 : Bool) (a b : Word) : atWidth w32 k.gives a b (alu k.op w32 a b) := by
  cases w32 with
  | true => exact ⟨_, k.gives_op (by decide) _ _, rfl⟩
  | false => exact k.gives_op (by decide) a b

theorem integerRegisterForms : Claims.IntegerRegisterForms := by
  intro k x s hr
  rw [exec_reg, alu3, issue_ready hr]
  exact ⟨_, _, rfl, k.atWidth_alu x.w32 _ _, wrote hr.1 [x.a, x.b] x.d _⟩

theorem integerImmediateForms : Claims.IntegerImmediateForms := by
  intro k x s hr
  rw [exec_imm, aluI, issue_ready hr]
  exact ⟨_, _, rfl, k.atWidth_alu x.w32 _ _, wrote hr.1 [x.a] x.d _⟩

/-- Settles O1: the unit's operations are the table's, and a scalar result is all that an issued instruction leaves. -/
theorem integerArithmetic : Obligations.IntegerArithmetic := ⟨integerRegisterForms, integerImmediateForms⟩

end Sys2Proof.Claims
